-- ==== Sys2Proof/Word.lean ====
section
/-! DEFINITION. The words of the block (R10): 8-bit bytes and 32-bit register values. -/

namespace Sys2Proof

/-- A byte of `IN`, `OUT`, `TABROM` or `SCAN`; bit 0 is the least significant bit (R10). -/
abbrev Byte := BitVec 8

/-- A register value or a table entry: 32 bits (R21, R70). -/
abbrev Word := BitVec 32

end Sys2Proof
end

