-- ==== Sys2Proof/Config.lean ====
section
/-! DEFINITION. The constants the source fixes (R8), the type of the parameters it leaves open (R9), and the
free values: constants without a body, of which nothing can be proved but that they have a value. -/

namespace Sys2Proof

/-- The largest `n` of one bit-field read (R8 `NBITS_MAX`). -/
def Config.nbitsMax : Nat := 25

/-- Residuals and samples per CRW block (R8 `BLOCK_LEN`). -/
def Config.blockLen : Nat := 64

/-- The value both parity bases take at the first sample of a row (R8 `BASE_RESET`). -/
def Config.baseReset : Word := 512#32

/-- The longest Huffman code (R8 `HUF_MAXLEN`). -/
def Config.hufMaxLen : Nat := 16

/-- Bytes scanned by the low-bits detection (R8 `LB_WINDOW`). -/
def Config.lbWindow : Nat := 0x4000

/-- The least scanline width for which run-length coding is legal (R8 `HDR_RLE_MIN`). -/
def Config.hdrRleMin : Nat := 8

/-- The greatest scanline width for which run-length coding is legal (R8 `HDR_RLE_MAX`). -/
def Config.hdrRleMax : Nat := 0x7FFF

/-- The two readings of the early-termination sentence (R9 `CRW_EOB_RULE`, R174). -/
inductive EobRule where
  | firstSymbolNonzeroBlock
  | nonfirstSymbol
deriving DecidableEq, Repr, Inhabited

/-- `TABROM`: the six built-in table specifications, three tables of two stages (R9, R74). -/
structure TabRom where
  first0  : List Byte
  second0 : List Byte
  first1  : List Byte
  second1 : List Byte
  first2  : List Byte
  second2 : List Byte
deriving DecidableEq, Repr, Inhabited

/-- `TABROM[t][s]` for a table index already clamped to 0..2 (R11, R154). -/
def TabRom.spec (r : TabRom) (t : Nat) (second : Bool) : List Byte :=
  match t, second with
  | 0, false => r.first0
  | 0, true  => r.second0
  | 1, false => r.first1
  | 1, true  => r.second1
  | _, false => r.first2
  | _, true  => r.second2

/-- The parameters of the model (R9, R58). They are fixed for a machine: no step writes them
(notes/assumptions/1.md says why they stand in `State`). -/
structure Params where
  /-- `IN_SIZE`, bytes of the input space. -/
  inSize : Nat
  /-- `OUT_SIZE`, bytes of the output space. -/
  outSize : Nat
  /-- `TAB_ENTRIES`, entries in each of `OFFTAB`, `LENTAB`. -/
  tabEntries : Nat
  /-- `TABROM`. -/
  tabrom : TabRom
  /-- `CRW_EOB_RULE`. -/
  eobRule : EobRule
deriving DecidableEq, Repr

/-- FREE VALUE: the contents of `TABROM` that `State.reset` carries (U10, R160: never invented).
notes/assumptions/2.md. -/
opaque Config.tabrom : TabRom

/-- FREE VALUE: what the 32-bit register `X` or `Y` reads after a BMP rule assigned it a number of 2^32 or more
(the spec states no value there). notes/assumptions/15.md. -/
opaque Config.cursorPastRegister : Nat → Word

/-- FREE VALUE: for the `n`-th engine step that a hard reset abandons and an address of `OUT`, the bits that
the abandoned step had already written (U7: any mixture of old and new). notes/assumptions/14.md. -/
opaque Config.abandonedMask : Nat → Nat → Byte

end Sys2Proof
end

