-- ==== Sys2Proof/Syntax.lean ====
section
/-! DEFINITION. One constructor per row of spec/opcode_table.json, in the table's order. -/

namespace Sys2Proof

/-- The instructions of the block: the host command words (R102, R104), the stream commands of BMP, SGI and HDR
(R111, R113, R115, R116), the CRW symbol classes (R118) and the table specification (R119). -/
inductive Instr where
  -- format HOST: a 32-bit word written to `CMD`
  | nop
  | reset
  | clear
  | brPrime
  | brRead (n : BitVec 8)
  | brPeek (n : BitVec 8)
  | brSkip (n : BitVec 8)
  | hufBuild (slot : BitVec 1)
  | hufLoadt
  | hufDecode (slot : BitVec 1)
  | hufResid (len : BitVec 4)
  | crwDetect
  | crwInit
  | crwBlock
  | crwRecon
  | crwMerge
  | crwRun
  | bmpRun (mode : BitVec 1)
  | sgiRun
  | sgiLine (channel : BitVec 8) (row : BitVec 16)
  | hdrRun
  | illegalHostWord (op : BitVec 8) (a : BitVec 8) (b : BitVec 16)
  -- format BMP2: two bytes at `IPOS`; operand bytes that follow are fetched by the execution
  | bmpRun8 (count : BitVec 8) (value : BitVec 8)
  | bmpRun4 (count : BitVec 8) (pixEven : BitVec 4) (pixOdd : BitVec 4)
  | bmpEol
  | bmpEob
  | bmpDelta
  | bmpAbs8 (n : BitVec 8)
  | bmpAbs4 (n : BitVec 8)
  -- format SGI1: one byte at `IPOS`
  | sgiEnd (type : BitVec 1)
  | sgiVerbatim (count : BitVec 7)
  | sgiRepeat (count : BitVec 7)
  -- format HDRH: four bytes at `IPOS`; `width` is `hi[6:0]` and `lo`
  | hdrHeader (width : BitVec 15)
  -- format HDR1: one byte at `IPOS`; the repeat count is `ctl - 128`
  | hdrInvalid
  | hdrLiteral (count : BitVec 8)
  | hdrRepeat (count : BitVec 7)
  -- format HSYM: the 8-bit value a Huffman decode returns
  | crwEob
  | crwContinue
  | crwZero (run : BitVec 4)
  | crwResid (run : BitVec 4) (len : BitVec 4)
  -- format TSPEC: 16 count bytes and then the symbol bytes
  | tablespec (counts : List Byte) (symbols : List Byte)
deriving DecidableEq, Repr

end Sys2Proof
end

