-- ==== Sys2Proof/Machine/State.lean ====
section
/-! DEFINITION. The state of the block as plain data (R20), its value right after reset (R59), and the reasons a
step can stop. -/

namespace Sys2Proof.Machine

/-- `STATUS.ST` (R23); the codes 5, 6, 7 never occur (U2). -/
inductive EngineState where
  | idle | busy | done | error | aborted
deriving DecidableEq, Repr

/-- `STATUS.ERR` (R301); `none` is code 0, and the codes 10 to 15 are never written (U3). -/
inductive ErrCode where
  | none | eos | corrupt | overflow | bounds | table | unsupported | usage | config | illegal
deriving DecidableEq, Repr

/-- `STATUS.UNIT` (R23): the unit of the current or last run. -/
inductive RunUnit where
  | none | crw | bmp | sgi | hdr
deriving DecidableEq, Repr

/-- `STATUS.END` (R23): why the last `BMP.RUN` reached `DONE`. -/
inductive EndReason where
  | none | endOfBitmap | full | endOfStream
deriving DecidableEq, Repr

/-- A leaf of a Huffman tree (R52): the symbol reached by the `len` bits of `code`, most significant first. -/
structure TreeEntry where
  len  : Nat
  code : Nat
  sym  : Byte
deriving DecidableEq, Repr

/-- The byte spaces the host reaches (R70). -/
inductive ByteSpace where
  | inp | out
deriving DecidableEq, Repr

/-- The table spaces the host reaches (R70). -/
inductive TableSpace where
  | offtab | lentab
deriving DecidableEq, Repr

/-- What the world outside does to the block, and the schedule: the transactions of R286, the hard-reset input
(R340) and the grant of one engine step (the `Step` event of R320). -/
inductive HostEvent where
  | regWr (idx : BitVec 7) (v : Word)
  | regRd (idx : BitVec 7)
  | memWr (sp : ByteSpace) (addr : Nat) (bytes : List Byte)
  | memRd (sp : ByteSpace) (addr : Nat) (n : Nat)
  | tabWr (sp : TableSpace) (idx : Nat) (entries : List Word)
  | tabRd (sp : TableSpace) (idx : Nat) (n : Nat)
  | hardReset
  | engineStep
deriving DecidableEq, Repr

/-- The MODEL's own field: the locals of an operation in progress that the stream instructions of that operation
read (R156, R175, R235, R258). They are all zero whenever no operation is in progress (notes/assumptions/8.md). -/
structure Locals where
  /-- SGI: `end`, the address after the scanline's last byte (R235). -/
  lineEnd : Nat := 0
  /-- SGI: `dst`, where the scanline starts in `OUT` (R235, R241). -/
  lineDst : Nat := 0
  /-- HDR: `p`, the plane being decoded (R258). -/
  plane : Nat := 0
  /-- HDR: `x`, bytes of the plane decoded so far (R258). -/
  planeX : Nat := 0
  /-- CRW: `i`, the position within the block (R175). -/
  pos : Nat := 0
  /-- CRW: `first = 0`, a symbol of the block has been decoded (R175). -/
  notFirst : Bool := false
  /-- The loop over stream items has been left (R174, R232). -/
  ended : Bool := false
  /-- Huffman: the slot a table specification is expanded into (R153, R154). -/
  slot : BitVec 1 := 0#1
deriving DecidableEq, Repr

/-- The whole state: the register file (R21 to R51, registers with fields held field by field), the trees (R52),
the scan planes (R53), the memory spaces (R70), the parameters (R9) and the model's own fields. -/
structure State where
  /-- The parameters of R9; nothing writes them (notes/assumptions/1.md). -/
  params : Params
  -- STATUS, CTRL (R23, R24)
  st : EngineState
  cmdDrop : Bool
  err : ErrCode
  unit : RunUnit
  endr : EndReason
  abort : Bool
  -- RESULT, IPOS, INLEN (R25, R26, R27)
  result : Word
  ipos : Word
  inlen : Word
  -- BRCFG.ORDER, BRCFG.STUFF (R28)
  order : Bool
  stuff : Bool
  -- BITBUF, BRSTAT.VBITS, BRSTAT.PRIMED (R29)
  bitbuf : Word
  vbits : BitVec 6
  primed : Bool
  -- configuration (R30 to R37); LBMODE is its bit 0
  width : Word
  height : Word
  channels : Word
  bpc : Word
  table : Word
  budget : Word
  lbmode : Bool
  lbaddr : Word
  -- working registers (R40 to R46)
  x : Word
  y : Word
  column : Word
  carry : Word
  base0 : Word
  base1 : Word
  block : Word
  errpos : Word
  -- FLAGS (R47)
  lowbits : Bool
  hdrrle : Bool
  treev0 : Bool
  treev1 : Bool
  -- CHAN, ROW, PHASE (R48, R49, R50)
  chan : Word
  row : Word
  phase : Word
  /-- `DIFFBUF[0..63]` (R51). -/
  diffbuf : Vector Word 64
  /-- `TREE[0]`, the leaves in the order of their codes (R52). -/
  tree0 : List TreeEntry
  /-- `TREE[1]` (R52). -/
  tree1 : List TreeEntry
  /-- `SCAN[p][x]` at key `0x8000 * p + x` (R53). -/
  scan : List Host.Cell
  /-- `IN` (R71). -/
  inMem : List Host.Cell
  /-- `OUT` (R72). -/
  outMem : List Host.Cell
  /-- `OFFTAB` (R75), by entry index. -/
  offtab : List (Nat × Word)
  /-- `LENTAB` (R75), by entry index. -/
  lentab : List (Nat × Word)
  /-- The MODEL's own field: see `Locals`. -/
  loc : Locals
  /-- The MODEL's own field: the host's pending events, the next one first (notes/assumptions/3.md). -/
  hostQ : List HostEvent
  /-- The MODEL's own field: what the last host read returned (notes/assumptions/5.md). -/
  busData : List Word
  /-- The MODEL's own field: how many free masks have been drawn (notes/assumptions/14.md). -/
  freeTick : Nat
deriving DecidableEq, Repr

/-- Why a step stops. Each is raised only in states that no run from a state with the invariants of Safety.lean
reaches; each is SAFE: the model stops where the spec says no access happens (R81). -/
inductive Fault where
  /-- Raised by an engine read of `IN` at or past `IN_SIZE` (R11: defined only below it). Safe. -/
  | inAddress (a : Nat)
  /-- Raised by an engine access to `OUT` at or past `OUT_SIZE` (R11, R81). Safe. -/
  | outAddress (a : Nat)
  /-- Raised by an engine read of `OFFTAB` or `LENTAB` at or past `TAB_ENTRIES` (R11). Safe. -/
  | tableIndex (i : Nat)
  /-- Raised by an access to `SCAN` outside `[0..3][0..0x7FFE]` (R53). Safe. -/
  | scanIndex (p x : Nat)
  /-- Raised by an engine step with `STATUS.ST = BUSY` and `STATUS.UNIT = 0`, which no rule describes. Safe. -/
  | busyWithoutUnit
deriving DecidableEq, Repr

/-- Why a step is refused. The two named host transactions are outside the model's domain (93 U6, U15); refusing
them is SAFE. No instruction is refused. -/
inductive Refusal where
  /-- Raised by `exec` for an instruction that has no meaning; no arm does. Safe. -/
  | notModelled (mnemonic : String)
  /-- Raised by a host write of a memory space while `STATUS.ST = BUSY` (R85, R286, U6). Safe. -/
  | memWriteWhileBusy
  /-- Raised by a host memory access that leaves its space (R286, U15). Safe. -/
  | outsideSpace
deriving DecidableEq, Repr

/-- The machine right after power-on reset: every register of R21 holds 0, both trees are empty and invalid (R59,
R341). The memories and `SCAN`, whose contents the spec leaves open there, list nothing; the parameters are those
of notes/assumptions/1.md and 2.md. -/
def State.reset : State where
  params := { inSize := 4294967296, outSize := 4294967296, tabEntries := 4294967296,
              tabrom := Config.tabrom, eobRule := .firstSymbolNonzeroBlock }
  st := .idle
  cmdDrop := false
  err := .none
  unit := .none
  endr := .none
  abort := false
  result := 0#32
  ipos := 0#32
  inlen := 0#32
  order := false
  stuff := false
  bitbuf := 0#32
  vbits := 0#6
  primed := false
  width := 0#32
  height := 0#32
  channels := 0#32
  bpc := 0#32
  table := 0#32
  budget := 0#32
  lbmode := false
  lbaddr := 0#32
  x := 0#32
  y := 0#32
  column := 0#32
  carry := 0#32
  base0 := 0#32
  base1 := 0#32
  block := 0#32
  errpos := 0#32
  lowbits := false
  hdrrle := false
  treev0 := false
  treev1 := false
  chan := 0#32
  row := 0#32
  phase := 0#32
  diffbuf := Vector.replicate 64 0#32
  tree0 := []
  tree1 := []
  scan := []
  inMem := []
  outMem := []
  offtab := []
  lentab := []
  loc := {}
  hostQ := []
  busData := []
  freeTick := 0

end Sys2Proof.Machine
end

