-- ==== Sys2Proof/Machine/Memory.lean ====
section
/-! DEFINITION. Sparse memory: a list of (address, value) pairs in one canonical form, addresses strictly rising
and no entry equal to what an unlisted address reads as. One set of operations serves the byte spaces (`IN`, `OUT`,
`SCAN`) and the tables of 32-bit entries (`OFFTAB`, `LENTAB`). -/

namespace Sys2Proof.Machine

/-- A memory of `w`-bit elements. -/
abbrev Memory (w : Nat) := List (Nat × BitVec w)

/-- What an unlisted address reads as (DESIGN CHOICE, unsafe: U9 leaves it open; notes/assumptions/6.md). -/
def Memory.unlisted (w : Nat) : BitVec w := 0#w

/-- The element at an address. -/
def Memory.read {w : Nat} : Memory w → Nat → BitVec w
  | [], _ => Memory.unlisted w
  | (k, v) :: m, a => if k = a then v else Memory.read m a

/-- The memory without any entry for the address. -/
def Memory.erase {w : Nat} : Memory w → Nat → Memory w
  | [], _ => []
  | (k, v) :: m, a => if k = a then Memory.erase m a else (k, v) :: Memory.erase m a

/-- The entry put before the first greater address. -/
def Memory.insert {w : Nat} : Memory w → Nat → BitVec w → Memory w
  | [], a, v => [(a, v)]
  | (k, x) :: m, a, v => if a < k then (a, v) :: (k, x) :: m else (k, x) :: Memory.insert m a v

/-- The memory after a write of one element; writing the unlisted value removes the entry. -/
def Memory.write {w : Nat} (m : Memory w) (a : Nat) (v : BitVec w) : Memory w :=
  if v = Memory.unlisted w then Memory.erase m a else Memory.insert (Memory.erase m a) a v

/-- The memory after writes of consecutive elements from an address up. -/
def Memory.writeAll {w : Nat} : Memory w → Nat → List (BitVec w) → Memory w
  | m, _, [] => m
  | m, a, v :: vs => Memory.writeAll (Memory.write m a v) (a + 1) vs

/-- The `n` elements from an address up. -/
def Memory.readAll {w : Nat} (m : Memory w) : Nat → Nat → List (BitVec w)
  | _, 0 => []
  | a, n + 1 => Memory.read m a :: Memory.readAll m (a + 1) n

/-- Every address of the list is above `a`. -/
def Memory.above {w : Nat} (a : Nat) : Memory w → Bool
  | [] => true
  | (k, _) :: m => decide (a < k) && Memory.above a m

/-- The canonical form: addresses strictly rising, no entry equal to the unlisted value. -/
def Memory.wf {w : Nat} : Memory w → Bool
  | [] => true
  | (k, v) :: m => Memory.above k m && v != Memory.unlisted w && Memory.wf m

/-- The bits of `new` where the mask is 1, the bits of `old` where it is 0. -/
def mixByte (mask old new : Byte) : Byte :=
  (new &&& mask) ||| (old &&& ~~~mask)

/-- `old` with, at every address that `old` or `new` lists, the mixture the mask of that address says. -/
def Memory.mix (mask : Nat → Byte) (old new : Memory 8) : Memory 8 :=
  (old ++ new).foldl (fun m c => Memory.write m c.1 (mixByte (mask c.1) (Memory.read old c.1) (Memory.read new c.1))) old

end Sys2Proof.Machine
end

