-- ==== Sys2Proof/Machine/Ops.lean ====
section
/-! DEFINITION. The operations every rule is written with: the result of a piece of pseudocode, raising an error and
the return from it, the reset of the registers, and the access primitives of the memory spaces. -/

namespace Sys2Proof.Machine

/-- What a piece of pseudocode does: it goes on with a value and a state, it has raised an error (R304: nothing after
it happens), or it would leave a space (`Fault`, only in states no run reaches). -/
inductive Res (α : Type) where
  | ok (a : α) (s : State)
  | raised (s : State)
  | stop (f : Fault)
deriving Repr

/-- Pseudocode is executed strictly in the order written (R12). -/
def Res.bind {α β : Type} (r : Res α) (k : α → State → Res β) : Res β :=
  match r with
  | .ok a s => k a s
  | .raised s => .raised s
  | .stop f => .stop f

/-- The step that a finished piece of pseudocode is; a raised error is a next state (R304). -/
def Res.outcome {α : Type} (r : Res α) : Host.Outcome State Fault Refusal :=
  match r with
  | .ok _ s => .next s
  | .raised s => .next s
  | .stop f => .fault f

/-! ### Taking an exception and returning from it -/

/-- `raise E`, the trap entry (R304): `ERRPOS` saves `IPOS`, `STATUS.ERR` takes the code, `STATUS.ST` becomes
`ERROR`, and nothing else of the block changes. The locals of the operation end with it. -/
@[simps] def State.raise (e : ErrCode) (s : State) : State :=
  { s with errpos := s.ipos, err := e, st := .error, loc := {} }

/-- The pseudocode that reaches `raise E` stops there. -/
def raise {α : Type} (e : ErrCode) (s : State) : Res α :=
  .raised (s.raise e)

/-- `CLEAR`, the return from the error state (R285, R308): nothing is restored, because nothing was saved. -/
@[simps] def State.acknowledge (s : State) : State :=
  { s with st := .idle, err := .none, cmdDrop := false, unit := .none, endr := .none, abort := false }

/-- The reset state of the registers and the trees (R59, R284); the four memories keep their contents (R342), and so
do the parameters and the host's side. `SCAN`, unspecified, is emptied (notes/assumptions/7.md). -/
@[simps] def State.resetRegs (s : State) : State :=
  { State.reset with
    params := s.params, inMem := s.inMem, outMem := s.outMem, offtab := s.offtab, lentab := s.lentab,
    hostQ := s.hostQ, busData := s.busData, freeTick := s.freeTick }

/-! ### Small updates -/

/-- The cursor moved by whole bytes. -/
@[simps] def State.withIpos (s : State) (v : Word) : State := { s with ipos := v }

/-- The bit window committed with the cursor that filled it (R134). -/
@[simps] def State.withWindow (s : State) (buf vb pos : Nat) : State :=
  { s with bitbuf := BitVec.ofNat 32 buf, vbits := BitVec.ofNat 6 vb, ipos := BitVec.ofNat 32 pos }

/-- The value a single-shot operation returns (R25). -/
@[simps] def State.withResult (s : State) (v : Word) : State := { s with result := v }

/-- `PRIMED <- 0` (R29): the window no longer belongs to the bytes at `IPOS`. -/
@[simps] def State.unprime (s : State) : State := { s with primed := false }

/-- The output memory replaced. -/
@[simps] def State.withOut (s : State) (m : Memory 8) : State := { s with outMem := m }

/-- The scan planes replaced. -/
@[simps] def State.withScan (s : State) (m : Memory 8) : State := { s with scan := m }

/-- The locals of the operation in progress replaced. -/
@[simps] def State.withLoc (s : State) (l : Locals) : State := { s with loc := l }

/-- The BMP output cursor moved (R203). -/
@[simps] def State.withCursor (s : State) (cx cy : Word) : State := { s with x := cx, y := cy }

/-- The end of a run (R288). -/
@[simps] def State.finish (s : State) : State := { s with st := .done }

/-- The start of a run, the part that every `*.RUN` command shares (R181, R205, R236, R256): the abort flag is
cleared, `UNIT` and `END` are written and the engine becomes `BUSY`. -/
@[simps] def State.startRun (s : State) (u : RunUnit) : State :=
  { s with abort := false, unit := u, endr := .none, st := .busy }

/-! ### The tests that come before an operation -/

/-- The prologue of every command whose rule reads `IN` (R312). -/
def needInput {α : Type} (s : State) (k : State → Res α) : Res α :=
  if s.params.inSize < s.inlen.toNat then raise .config s else k s

/-- The test that a bit read makes first (R348): the reader must be primed. -/
def needPrimed {α : Type} (s : State) (k : State → Res α) : Res α :=
  if s.primed = false then raise .usage s else k s

/-! ### The memory spaces -/

/-- `IN[a]`, defined only for `a < IN_SIZE` (R11). -/
def inByte (a : Nat) (s : State) : Res Byte :=
  if a < s.params.inSize then .ok (Memory.read s.inMem a) s else .stop (.inAddress a)

/-- `FetchByte()` (R78): the byte at `IPOS`, then `IPOS + 1`; `EOS` at the end of the stream. -/
def fetchByte (s : State) : Res Byte :=
  if s.inlen.toNat ≤ s.ipos.toNat then raise .eos s
  else (inByte s.ipos.toNat s).bind fun b s => .ok b (s.withIpos (s.ipos + 1#32))

/-- `OUT[a]` (R11). -/
def outByte (a : Nat) (s : State) : Res Byte :=
  if a < s.params.outSize then .ok (Memory.read s.outMem a) s else .stop (.outAddress a)

/-- `OUT[a] <- v` (R11). -/
def outWrite (a : Nat) (v : Byte) (s : State) : Res Unit :=
  if a < s.params.outSize then .ok () (s.withOut (Memory.write s.outMem a v)) else .stop (.outAddress a)

/-- `OUT16[i]`, little-endian at byte `2i` (R76). -/
def out16 (i : Nat) (s : State) : Res (BitVec 16) :=
  (outByte (2 * i) s).bind fun lo s => (outByte (2 * i + 1) s).bind fun hi s => .ok (hi ++ lo) s

/-- `OUT16[i] <- v`: both bytes in one engine action (R76). -/
def out16Write (i : Nat) (v : BitVec 16) (s : State) : Res Unit :=
  if 2 * i + 1 < s.params.outSize then
    .ok () (s.withOut (Memory.writeAll s.outMem (2 * i) [v.extractLsb' 0 8, v.extractLsb' 8 8]))
  else .stop (.outAddress (2 * i + 1))

/-- `OUT32[i] <- v`: all four bytes in one engine action (R76). -/
def out32Write (i : Nat) (v : Word) (s : State) : Res Unit :=
  if 4 * i + 3 < s.params.outSize then
    .ok () (s.withOut (Memory.writeAll s.outMem (4 * i)
      [v.extractLsb' 0 8, v.extractLsb' 8 8, v.extractLsb' 16 8, v.extractLsb' 24 8]))
  else .stop (.outAddress (4 * i + 3))

/-- `OFFTAB[i]` (R11). -/
def offsetEntry (i : Nat) (s : State) : Res Word :=
  if i < s.params.tabEntries then .ok (Memory.read s.offtab i) s else .stop (.tableIndex i)

/-- `LENTAB[i]` (R11). -/
def lengthEntry (i : Nat) (s : State) : Res Word :=
  if i < s.params.tabEntries then .ok (Memory.read s.lentab i) s else .stop (.tableIndex i)

/-- Where `SCAN[p][x]` stands in the one list of `State.scan`. -/
def scanKey (p x : Nat) : Nat := 0x8000 * p + x

/-- `SCAN[p][x]` (R53). -/
def scanRead (p x : Nat) (s : State) : Res Byte :=
  if p < 4 ∧ x ≤ 0x7FFE then .ok (Memory.read s.scan (scanKey p x)) s else .stop (.scanIndex p x)

/-- `SCAN[p][x] <- v` (R53). -/
def scanWrite (p x : Nat) (v : Byte) (s : State) : Res Unit :=
  if p < 4 ∧ x ≤ 0x7FFE then .ok () (s.withScan (Memory.write s.scan (scanKey p x) v))
  else .stop (.scanIndex p x)

/-- `DIFFBUF[i]`, 0 for a position that does not exist. -/
def diffGet (s : State) (i : Nat) : Word :=
  if h : i < 64 then s.diffbuf[i] else 0#32

/-- `DIFFBUF[i] <- v`; a position that does not exist is not written. -/
@[simps] def State.withDiff (s : State) (i : Nat) (v : Word) : State :=
  { s with diffbuf := if h : i < 64 then s.diffbuf.set i v else s.diffbuf }

end Sys2Proof.Machine
end

