-- ==== Sys2Proof/Machine/Operands.lean ====
section
/-! DEFINITION. How each operand is formed (R120), and the geometry and the number format the units compute with. -/

namespace Sys2Proof.Machine

/-! ### CRW -/

/-- The residual of `len` raw bits `v` (R158): `v` when its top bit is 1, else `v - (2^len - 1)`; 0 when `len = 0`. -/
def residualOf (len v : Nat) : Int :=
  if len = 0 then 0
  else if v.testBit (len - 1) then (v : Int) else (v : Int) - (2 ^ len - 1)

/-- `sext_32` (R11): a signed number as a 32-bit two's-complement register value. -/
def sext32 (v : Int) : Word := BitVec.ofInt 32 v

/-- The low-bits field of sample `k` in its byte (R120, R179): bits `2(k mod 4) + 1 .. 2(k mod 4)`. -/
def lowBitsField (byte : Byte) (k : Nat) : BitVec 16 :=
  BitVec.ofNat 16 ((byte.toNat >>> (2 * (k % 4))) &&& 3)

/-- `(sample << 2) | lowbits`, wrapped to 16 bits (R179). -/
def mergeSample (sample lb : BitVec 16) : BitVec 16 :=
  (sample <<< 2) ||| lb

/-- The table index after the clamp (R154): a value above 2 selects table 2. -/
def clampTable (table : Word) : Nat :=
  if 2 < table.toNat then 2 else table.toNat

/-! ### BMP -/

/-- The pixel value of position `k` in an RLE4 run (R209): the high nibble first, alternating. -/
def runNibble (pixEven pixOdd : BitVec 4) (k : Nat) : BitVec 4 :=
  if k % 2 = 0 then pixEven else pixOdd

/-- `bpp` (R202). -/
def bmpBpp (s : State) : Nat := if s.phase = 0#32 then 8 else 4

/-- `STRIDE` (R202): bytes per destination row, a multiple of 4. -/
def bmpStride (s : State) : Nat := 4 * ((s.width.toNat * bmpBpp s + 31) / 32)

/-- `CAP` (R202): pixel places per destination row. -/
def bmpCap (s : State) : Nat := bmpStride s * 8 / bmpBpp s

/-- `ROWS` (R202): whole rows in the byte budget. -/
def bmpRows (s : State) : Nat := s.budget.toNat / bmpStride s

/-- The value the 32-bit cursor register reads after a rule assigns it `n`: `n` where it fits; the spec states no
value for a larger number, so it is free (notes/assumptions/15.md). -/
def cursorWord (n : Nat) : Word :=
  if n < 4294967296 then BitVec.ofNat 32 n else Config.cursorPastRegister n

/-- One nibble of a byte of `OUT` replaced, the other kept (R204): the even column stands in bits 7:4 (R201). -/
def setNibble (old : Byte) (col : Nat) (v : BitVec 4) : Byte :=
  if col % 2 = 0 then v ++ old.extractLsb' 0 4 else old.extractLsb' 4 4 ++ v

/-! ### SGI -/

/-- `DST(c, r)` (R241): planar, channel after channel, the rows flipped. -/
def sgiDst (s : State) (c r : Nat) : Nat :=
  (c * s.height.toNat + (s.height.toNat - 1 - r)) * s.width.toNat

/-- The index of scanline `(c, r)` in the tables (R75). -/
def sgiIndex (s : State) (c r : Nat) : Nat := c * s.height.toNat + r

/-! ### HDR -/

/-- `F32(m, e)` with the exponent-zero case (R254): the binary32 pattern of `m * 2^(e - 136)`. -/
def f32 (m e : Byte) : Word :=
  if e.toNat = 0 ∨ m.toNat = 0 then 0#32
  else
    let k := Nat.log2 m.toNat
    if 10 ≤ k + e.toNat then
      BitVec.ofNat 32 (((k + e.toNat - 9) <<< 23) ||| ((m.toNat <<< (23 - k)) &&& 0x7FFFFF))
    else BitVec.ofNat 32 (m.toNat <<< (e.toNat + 13))

end Sys2Proof.Machine
end

