-- ==== Sys2Proof/Machine/Bmp.lean ====
section
/-! DEFINITION. The BMP RLE4/RLE8 unit (43_bmp_rle.md): the output cursor, the stream commands and the start of
`BMP.RUN`. The engine step, which fetches and decodes a command, stands in Engine.lean. -/

namespace Sys2Proof.Machine

/-- The implicit wrap of R204: a full row is left only when the next pixel is written (R203). -/
def wrapCursor (s : State) : State :=
  if s.x.toNat = bmpCap s then s.withCursor 0#32 (cursorWord (s.y.toNat + 1)) else s

/-- The byte of `OUT` that holds the pixel at the cursor (R204). -/
def pixelAddress (s : State) : Nat :=
  if s.phase = 0#32 then s.y.toNat * bmpStride s + s.x.toNat else s.y.toNat * bmpStride s + s.x.toNat / 2

/-- `PutPixel(v)` (R204), the only way the unit writes `OUT`; for RLE4 the value is the low nibble of `v`. -/
def putPixel (v : Byte) (s : State) : Res Unit :=
  let s := wrapCursor s
  if bmpRows s ≤ s.y.toNat then raise .overflow s
  else
    let a := pixelAddress s
    let next := fun (s : State) => Res.ok () (s.withCursor (cursorWord (s.x.toNat + 1)) s.y)
    if s.phase = 0#32 then (outWrite a v s).bind fun _ s => next s
    else
      (outByte a s).bind fun old s =>
        (outWrite a (setNibble old s.x.toNat (v.extractLsb' 0 4)) s).bind fun _ s => next s

/-- A nibble as the pixel value `PutPixel` takes. -/
def nibblePixel (v : BitVec 4) : Byte := v.setWidth 8

/-- `n` pixels of one value (R208). -/
def putRun8 : Nat → Byte → State → Res Unit
  | 0, _, s => .ok () s
  | n + 1, v, s => (putPixel v s).bind fun _ s => putRun8 n v s

/-- `n` pixels of two alternating values, from position `k` of the run on (R209). -/
def putRun4 : Nat → Nat → BitVec 4 → BitVec 4 → State → Res Unit
  | 0, _, _, _, s => .ok () s
  | n + 1, k, e, o, s =>
    (putPixel (nibblePixel (runNibble e o k)) s).bind fun _ s => putRun4 n (k + 1) e o s

/-- `n` literal pixels, each fetched and then written (R213). -/
def putLiterals8 : Nat → State → Res Unit
  | 0, s => .ok () s
  | n + 1, s =>
    (fetchByte s).bind fun b s => (putPixel b s).bind fun _ s => putLiterals8 n s

/-- The literal pixels of `n` packed bytes from byte `j` on, of `total` pixels in all; the low nibble of the last byte
is dropped when `total` is odd (R214). -/
def putLiterals4 : Nat → Nat → Nat → State → Res Unit
  | 0, _, _, s => .ok () s
  | n + 1, j, total, s =>
    (fetchByte s).bind fun b s =>
      (putPixel (nibblePixel (b.extractLsb' 4 4)) s).bind fun _ s =>
        if 2 * j + 1 < total then
          (putPixel (nibblePixel (b.extractLsb' 0 4)) s).bind fun _ s => putLiterals4 n (j + 1) total s
        else putLiterals4 n (j + 1) total s

/-- The pad byte of an absolute run whose literals are an odd number of bytes (R213, R214): fetched, not examined. -/
def padByte (literalBytes : Nat) (s : State) : Res Unit :=
  if literalBytes % 2 = 1 then (fetchByte s).bind fun _ s => .ok () s else .ok () s

/-- The end of a BMP run with its reason (R206). -/
@[simps] def State.bmpFinish (s : State) (r : EndReason) : State := { s with endr := r, st := .done }

/-! ### The bodies of the stream commands -/

/-- Encoded run, RLE8 (R208). -/
def bmpRun8Body (count value : BitVec 8) (s : State) : Res Unit := putRun8 count.toNat value s

/-- Encoded run, RLE4 (R209). -/
def bmpRun4Body (count : BitVec 8) (pixEven pixOdd : BitVec 4) (s : State) : Res Unit :=
  putRun4 count.toNat 0 pixEven pixOdd s

/-- End-of-line (R210): always one row down, nothing written. -/
def bmpEolBody (s : State) : Res Unit :=
  .ok () (s.withCursor 0#32 (cursorWord (s.y.toNat + 1)))

/-- End-of-bitmap (R211). -/
def bmpEobBody (s : State) : Res Unit := .ok () (s.bmpFinish .endOfBitmap)

/-- Delta (R212): `BOUNDS` is raised with the cursor already moved. -/
def bmpDeltaBody (s : State) : Res Unit :=
  (fetchByte s).bind fun dx s =>
    (fetchByte s).bind fun dy s =>
      let nx := s.x.toNat + dx.toNat
      let ny := s.y.toNat + dy.toNat
      let moved := s.withCursor (cursorWord nx) (cursorWord ny)
      if bmpCap s < nx ∨ bmpRows s ≤ ny then raise .bounds moved else .ok () moved

/-- Absolute run, RLE8 (R213). -/
def bmpAbs8Body (n : BitVec 8) (s : State) : Res Unit :=
  (putLiterals8 n.toNat s).bind fun _ s => padByte n.toNat s

/-- Absolute run, RLE4 (R214). -/
def bmpAbs4Body (n : BitVec 8) (s : State) : Res Unit :=
  let nb := (n.toNat + 1) / 2
  (putLiterals4 nb 0 n.toNat s).bind fun _ s => padByte nb s

/-! ### The meanings -/

/-- The start of `BMP.RUN` (R205); `PHASE` is written before the tests. -/
def bmpStart (mode : BitVec 1) (s : State) : Res Unit :=
  let s := { s with phase := mode.setWidth 32 }
  if s.width = 0#32 then raise .config s
  else if bmpRows s < 1 then raise .config s
  else if s.params.outSize < bmpRows s * bmpStride s then raise .config s
  else .ok () ((s.withCursor 0#32 0#32).unprime.startRun .bmp)

/-- `BMP.RUN mode`, the command itself (R205). -/
def execBmpRun (mode : BitVec 1) (s : State) : Host.Outcome State Fault Refusal :=
  (needInput s (bmpStart mode)).outcome

/-- bmp.run8 (R208). -/
def execBmpRun8 (count value : BitVec 8) (s : State) : Host.Outcome State Fault Refusal :=
  (bmpRun8Body count value s).outcome

/-- bmp.run4 (R209). -/
def execBmpRun4 (count : BitVec 8) (pixEven pixOdd : BitVec 4) (s : State) : Host.Outcome State Fault Refusal :=
  (bmpRun4Body count pixEven pixOdd s).outcome

/-- bmp.eol (R210). -/
def execBmpEol (s : State) : Host.Outcome State Fault Refusal :=
  (bmpEolBody s).outcome

/-- bmp.eob (R211). -/
def execBmpEob (s : State) : Host.Outcome State Fault Refusal :=
  (bmpEobBody s).outcome

/-- bmp.delta (R212). -/
def execBmpDelta (s : State) : Host.Outcome State Fault Refusal :=
  (bmpDeltaBody s).outcome

/-- bmp.abs8 (R213). -/
def execBmpAbs8 (n : BitVec 8) (s : State) : Host.Outcome State Fault Refusal :=
  (bmpAbs8Body n s).outcome

/-- bmp.abs4 (R214). -/
def execBmpAbs4 (n : BitVec 8) (s : State) : Host.Outcome State Fault Refusal :=
  (bmpAbs4Body n s).outcome

end Sys2Proof.Machine
end

