-- ==== Sys2Proof/Machine/BitReader.lean ====
section
/-! DEFINITION. The BitReader unit (40_bitreader.md): refill, read, peek, skip, and the meanings of `BR.*`. -/

namespace Sys2Proof.Machine

/-- The local copies that a refill works on (R133): the window, its count and the cursor. -/
structure Window where
  buf : Nat
  vb : Nat
  pos : Nat
deriving DecidableEq, Repr

/-- A fetched byte joined to the window (R133): below the older bits for `ORDER = 0`, above them for `ORDER = 1`. -/
def joinByte (order : Bool) (w : Window) (c : Byte) : Nat :=
  if order then w.buf ||| (c.toNat <<< w.vb) else (w.buf <<< 8) ||| c.toNat

/-- The `while` of R133, at most as many rounds as the first argument; four are enough for `n ≤ 25`. -/
def refillLoop : Nat → Nat → State → Window → Res Window
  | 0, _, s, w => .ok w s
  | fuel + 1, n, s, w =>
    if w.vb < n then
      if s.inlen.toNat ≤ w.pos then raise .eos s
      else
        (inByte w.pos s).bind fun c s =>
          if s.stuff = true ∧ c = 0xFF#8 then
            if s.inlen.toNat ≤ w.pos + 1 then raise .eos s
            else refillLoop fuel n s ⟨joinByte s.order w c, w.vb + 8, w.pos + 2⟩
          else refillLoop fuel n s ⟨joinByte s.order w c, w.vb + 8, w.pos + 1⟩
    else .ok w s

/-- `Refill(n)` (R133), for `n ≤ 25`; on a fault the window and `IPOS` are untouched. -/
def refill (n : Nat) (s : State) : Res Window :=
  refillLoop 4 n s ⟨s.bitbuf.toNat, s.vbits.toNat, s.ipos.toNat⟩

/-- The `n` oldest bits of a window that holds at least `n` (R134). -/
def oldestBits (order : Bool) (w : Window) (n : Nat) : Nat :=
  if order then w.buf &&& (2 ^ n - 1) else (w.buf >>> (w.vb - n)) &&& (2 ^ n - 1)

/-- The window without its `n` oldest bits (R134, R138). -/
def dropBits (order : Bool) (w : Window) (n : Nat) : Nat :=
  if order then w.buf >>> n else w.buf &&& (2 ^ (w.vb - n) - 1)

/-- `ReadBits(n)` (R134). -/
def readBits (n : Nat) (s : State) : Res Nat :=
  needPrimed s fun s =>
  if Config.nbitsMax < n then raise .usage s
  else
    (refill n s).bind fun w s =>
      .ok (oldestBits s.order w n) (s.withWindow (dropBits s.order w n) (w.vb - n) w.pos)

/-- `PeekBits(n)` (R136): the bits stay in the window, the refill is kept. -/
def peekBits (n : Nat) (s : State) : Res Nat :=
  needPrimed s fun s =>
  if Config.nbitsMax < n then raise .usage s
  else
    (refill n s).bind fun w s => .ok (oldestBits s.order w n) (s.withWindow w.buf w.vb w.pos)

/-- `SkipBits` (R138): only bits already in the window can be consumed. -/
def skipBits (n : Nat) (s : State) : Res Unit :=
  needPrimed s fun s =>
  if s.vbits.toNat < n then raise .usage s
  else
    .ok () (s.withWindow (dropBits s.order ⟨s.bitbuf.toNat, s.vbits.toNat, s.ipos.toNat⟩ n)
      (s.vbits.toNat - n) s.ipos.toNat)

/-- `BITBUF <- 0; VBITS <- 0; PRIMED <- 1` (R131). -/
@[simps] def State.prime (s : State) : State := { s with bitbuf := 0#32, vbits := 0#6, primed := true }

/-- `BR.PRIME` (R131). -/
def execBrPrime (s : State) : Host.Outcome State Fault Refusal :=
  .next s.prime

/-- `BR.READ n` (R135). -/
def execBrRead (n : BitVec 8) (s : State) : Host.Outcome State Fault Refusal :=
  (needInput s fun s => (readBits n.toNat s).bind fun v s => .ok () (s.withResult (BitVec.ofNat 32 v))).outcome

/-- `BR.PEEK n` (R137). -/
def execBrPeek (n : BitVec 8) (s : State) : Host.Outcome State Fault Refusal :=
  (needInput s fun s => (peekBits n.toNat s).bind fun v s => .ok () (s.withResult (BitVec.ofNat 32 v))).outcome

/-- `BR.SKIP n` (R138); it reads no byte of `IN`, so the prologue of R312 does not apply. -/
def execBrSkip (n : BitVec 8) (s : State) : Host.Outcome State Fault Refusal :=
  (skipBits n.toNat s).outcome

end Sys2Proof.Machine
end

