-- ==== Sys2Proof/Machine/Flags.lean ====
section
/-! DEFINITION. Every status flag (R56): the codes of the fields, the registers the fields are read through, and the
tree-valid bits. -/

namespace Sys2Proof.Machine

/-- The code of `STATUS.ST` (R23). -/
def EngineState.code : EngineState → Nat
  | .idle => 0
  | .busy => 1
  | .done => 2
  | .error => 3
  | .aborted => 4

/-- The code of `STATUS.ERR` (R301). -/
def ErrCode.code : ErrCode → Nat
  | .none => 0
  | .eos => 1
  | .corrupt => 2
  | .overflow => 3
  | .bounds => 4
  | .table => 5
  | .unsupported => 6
  | .usage => 7
  | .config => 8
  | .illegal => 9

/-- The code of `STATUS.UNIT` (R23). -/
def RunUnit.code : RunUnit → Nat
  | .none => 0
  | .crw => 1
  | .bmp => 2
  | .sgi => 3
  | .hdr => 4

/-- The code of `STATUS.END` (R23). -/
def EndReason.code : EndReason → Nat
  | .none => 0
  | .endOfBitmap => 1
  | .full => 2
  | .endOfStream => 3

/-- A one-bit field. -/
def bit (b : Bool) : BitVec 1 := if b then 1#1 else 0#1

/-- `STATUS` (R23): `ST` 2:0, `CMDDROP` 3, `ERR` 7:4, `UNIT` 10:8, `END` 12:11, 31:13 read 0. -/
def statusWord (s : State) : Word :=
  0#19 ++ BitVec.ofNat 2 s.endr.code ++ BitVec.ofNat 3 s.unit.code ++ BitVec.ofNat 4 s.err.code ++ bit s.cmdDrop ++
    BitVec.ofNat 3 s.st.code

/-- `CTRL` (R24): `ABORT` in bit 0, 31:1 read 0. -/
def ctrlWord (s : State) : Word := 0#31 ++ bit s.abort

/-- `BRCFG` (R28): `ORDER` in bit 0, `STUFF` in bit 1, 31:2 read 0. -/
def brcfgWord (s : State) : Word := 0#30 ++ bit s.stuff ++ bit s.order

/-- `BRSTAT` (R29): `VBITS` in 5:0, `PRIMED` in bit 8, the others read 0. -/
def brstatWord (s : State) : Word := 0#23 ++ bit s.primed ++ 0#2 ++ s.vbits

/-- `LBMODE` (R36): bit 0, 31:1 read 0. -/
def lbmodeWord (s : State) : Word := 0#31 ++ bit s.lbmode

/-- `FLAGS` (R47): `LOWBITS` 0, `HDRRLE` 1, `TREEV0` 2, `TREEV1` 3, 31:4 read 0. -/
def flagsWord (s : State) : Word :=
  0#28 ++ bit s.treev1 ++ bit s.treev0 ++ bit s.hdrrle ++ bit s.lowbits

/-- `FLAGS.TREEV[s]` (R52). -/
def treeValid (s : State) (slot : BitVec 1) : Bool :=
  if slot = 0#1 then s.treev0 else s.treev1

/-- `TREE[s]` (R52). -/
def treeOf (s : State) (slot : BitVec 1) : List TreeEntry :=
  if slot = 0#1 then s.tree0 else s.tree1

/-- The slot with its valid bit and its contents replaced. -/
@[simps] def State.withTree (s : State) (slot : BitVec 1) (valid : Bool) (t : List TreeEntry) : State :=
  { s with
    treev0 := if slot = 0#1 then valid else s.treev0
    treev1 := if slot = 0#1 then s.treev1 else valid
    tree0 := if slot = 0#1 then t else s.tree0
    tree1 := if slot = 0#1 then s.tree1 else t }

end Sys2Proof.Machine
end

