-- ==== Sys2Proof/Machine/Huffman.lean ====
section
/-! DEFINITION. The HuffmanDecoder unit (41_huffman.md): the canonical expansion, symbol and residual decode, and the
meanings of `HUF.*` and of a table specification. -/

namespace Sys2Proof.Machine

/-! ### Construction (R152) -/

/-- Where the bytes of a specification come from: `get(i)`, asked for `i = 0, 1, 2, ...` in order. -/
abbrev SpecSource := Nat → State → Res Byte

/-- A specification that lies in the stream (R153): byte `i` is the `i`-th fetched byte. -/
def streamSource : SpecSource := fun _ s => fetchByte s

/-- A specification given as a byte sequence (R154): a byte past its end is `TABLE`. -/
def listSource (bytes : List Byte) : SpecSource := fun i s =>
  match bytes[i]? with
  | some b => .ok b s
  | none => raise .table s

/-- The counts of the `n` lengths from byte `i` on (R152). -/
def readCounts (get : SpecSource) : Nat → Nat → State → Res (List Nat)
  | 0, _, s => .ok [] s
  | n + 1, i, s =>
    (get i s).bind fun c s => (readCounts get n (i + 1) s).bind fun cs s => .ok (c.toNat :: cs) s

/-- The expansion so far (R152): `entries`, `k`, `code`. -/
structure Expansion where
  entries : List TreeEntry
  k : Nat
  code : Nat
deriving DecidableEq, Repr

/-- The codes of one length (R152): each symbol is fetched after its own over-subscription test. -/
def expandLevel (get : SpecSource) (l : Nat) : Nat → Expansion → State → Res Expansion
  | 0, x, s => .ok x s
  | n + 1, x, s =>
    if 2 ^ l ≤ x.code then raise .table s
    else
      (get (16 + x.k) s).bind fun sym s =>
        expandLevel get l n ⟨x.entries ++ [⟨l, x.code, sym⟩], x.k + 1, x.code + 1⟩ s

/-- The lengths from `l` on; going to the next length doubles the next free code (R152). -/
def expandLevels (get : SpecSource) : List Nat → Nat → Expansion → State → Res Expansion
  | [], _, x, s => .ok x s
  | c :: cs, l, x, s =>
    (expandLevel get l c x s).bind fun x s =>
      expandLevels get cs (l + 1) ⟨x.entries, x.k, 2 * x.code⟩ s

/-- `BuildFrom(get)` (R152). -/
def buildFrom (get : SpecSource) (s : State) : Res (List TreeEntry) :=
  (readCounts get 16 0 s).bind fun counts s =>
    (expandLevels get counts 1 ⟨[], 0, 0⟩ s).bind fun x s => .ok x.entries s

/-- A slot rebuilt (R153, R154): it is invalid, its contents lost, until the expansion succeeds. -/
def buildSlot (get : SpecSource) (slot : BitVec 1) (s : State) : Res Unit :=
  (buildFrom get (s.withTree slot false [])).bind fun t s => .ok () (s.withTree slot true t)

/-- The body of `HUF.LOADT` (R154), also the first half of the setup step of `CRW.RUN` (R182). -/
def loadTables (s : State) : Res Unit :=
  let t := clampTable s.table
  (buildSlot (listSource (s.params.tabrom.spec t false)) 0#1 s).bind fun _ s =>
    buildSlot (listSource (s.params.tabrom.spec t true)) 1#1 s

/-! ### Symbol decode (R156) -/

/-- Some triple of the tree has this length and code. -/
def treeFind (t : List TreeEntry) (l code : Nat) : Option TreeEntry :=
  t.find? fun e => e.len == l && e.code == code

/-- Some triple of the tree lies below the place `code` of depth `l`. -/
def treeBelow (t : List TreeEntry) (l code : Nat) : Bool :=
  t.any fun e => decide (l < e.len) && e.code >>> (e.len - l) == code

/-- The walk from depth `l` with the bits read so far, at most as many bits as the first argument (R156). -/
def walkTree (t : List TreeEntry) : Nat → Nat → Nat → State → Res Byte
  | 0, _, _, s => raise .corrupt s
  | fuel + 1, l, code, s =>
    (readBits 1 s).bind fun b s =>
      match treeFind t l (2 * code + b) with
      | some e => .ok e.sym s
      | none => if treeBelow t l (2 * code + b) then walkTree t fuel (l + 1) (2 * code + b) s else raise .corrupt s

/-- `DecodeSymbol(s)` (R156). -/
def decodeSymbol (slot : BitVec 1) (s : State) : Res Byte :=
  if treeValid s slot = false then raise .usage s
  else walkTree (treeOf s slot) Config.hufMaxLen 1 0 s

/-- `Residual(len)` (R158); no bits are read for `len = 0`. -/
def residual (len : Nat) (s : State) : Res Int :=
  if len = 0 then .ok 0 s
  else (readBits len s).bind fun v s => .ok (residualOf len v) s

/-! ### The meanings -/

/-- `HUF.BUILD s` (R153). -/
def execHufBuild (slot : BitVec 1) (s : State) : Host.Outcome State Fault Refusal :=
  (needInput s fun s => buildSlot streamSource slot s.unprime).outcome

/-- `HUF.LOADT` (R154). -/
def execHufLoadt (s : State) : Host.Outcome State Fault Refusal :=
  (loadTables s).outcome

/-- `HUF.DECODE s` (R157). -/
def execHufDecode (slot : BitVec 1) (s : State) : Host.Outcome State Fault Refusal :=
  (needInput s fun s =>
    (decodeSymbol slot s).bind fun sym s => .ok () (s.withResult (sym.setWidth 32))).outcome

/-- `HUF.RESID len` (R159); the reader must be primed whatever the length is (R348, notes/assumptions/10.md). -/
def execHufResid (len : BitVec 4) (s : State) : Host.Outcome State Fault Refusal :=
  (needInput s fun s => needPrimed s fun s =>
    (residual len.toNat s).bind fun v s => .ok () (s.withResult (sext32 v))).outcome

/-- A table specification in hand, expanded into the slot of the operation that reads it (R119, R152, R154): what
`HUF.LOADT` does with each of its two byte sequences (notes/assumptions/23.md). -/
def execTablespec (counts symbols : List Byte) (s : State) : Host.Outcome State Fault Refusal :=
  (buildSlot (listSource (counts ++ symbols)) s.loc.slot s).outcome

end Sys2Proof.Machine
end

