-- ==== Sys2Proof/Machine/Crw.lean ====
section
/-! DEFINITION. The CRW block decoder and DifferentialReconstructor (42_crw_differential.md): the symbol classes, the
meanings of `CRW.*`, and the engine step of `CRW.RUN`. -/

namespace Sys2Proof.Machine

/-! ### Detection and initialisation -/

/-- Some pair `FF 00` starts at one of the `n` addresses from `i` on (R171). -/
def stuffingPair (m : Memory 8) : Nat → Nat → Bool
  | 0, _ => false
  | n + 1, i =>
    (Memory.read m i == 0xFF#8 && Memory.read m (i + 1) == 0x00#8) || stuffingPair m n (i + 1)

/-- Whether the window that starts at `IPOS` holds no stuffing pair (R171): both bytes of a pair lie inside it. -/
def lowBitsPresent (s : State) : Bool :=
  let lo := s.ipos.toNat
  let hi := min (lo + Config.lbWindow) s.inlen.toNat
  !stuffingPair s.inMem (hi - 1 - lo) lo

/-- The body of `CRW.DETECT` (R171). -/
@[simps] def State.withDetection (s : State) (present : Bool) : State :=
  { s with lowbits := present, result := if present then 1#32 else 0#32 }

/-- The body of `CRW.INIT` (R172), also the second half of the setup step of `CRW.RUN` (R182). -/
@[simps] def State.crwInit (s : State) : State :=
  { s with
    column := 0#32, block := 0#32, carry := 0#32, base0 := Config.baseReset, base1 := Config.baseReset,
    diffbuf := Vector.replicate 64 0#32, order := false, stuff := true, bitbuf := 0#32, vbits := 0#6, primed := true }

/-! ### Block decode (R175) -/

/-- The early-termination condition for the next symbol (R174). -/
def eobCondition (s : State) (sym : Byte) : Bool :=
  match s.params.eobRule with
  | .firstSymbolNonzeroBlock => !s.loc.notFirst && sym == 0x00#8 && s.block != 0#32
  | .nonfirstSymbol => s.loc.notFirst && sym == 0x00#8

/-- End of block (R174): the loop is left, the residuals from the position on stay 0. -/
def crwEobBody (s : State) : Res Unit :=
  .ok () (s.withLoc { s.loc with ended := true })

/-- The `0xFF` symbol (R176): the position advances by one, its residual stays 0. -/
def crwContinueBody (s : State) : Res Unit :=
  .ok () (s.withLoc { s.loc with notFirst := true, pos := s.loc.pos + 1 })

/-- `run` skipped positions and a zero residual (R175). -/
def crwZeroBody (run : BitVec 4) (s : State) : Res Unit :=
  let i := s.loc.pos + run.toNat
  if 63 < i then raise .overflow s
  else .ok () (s.withLoc { s.loc with notFirst := true, pos := i + 1 })

/-- `run` skipped positions and a residual of `len` raw bits (R175). -/
def crwResidBody (run len : BitVec 4) (s : State) : Res Unit :=
  let i := s.loc.pos + run.toNat
  if 63 < i then raise .overflow s
  else
    (residual len.toNat s).bind fun v s =>
      .ok () ((s.withDiff i (sext32 v)).withLoc { s.loc with notFirst := true, pos := i + 1 })

/-- One decoded symbol, the tests in the order of R118. -/
def crwSymbol (sym : Byte) (s : State) : Res Unit :=
  if eobCondition s sym then crwEobBody s
  else if sym = 0xFF#8 then crwContinueBody s
  else if sym.extractLsb' 0 4 = 0#4 then crwZeroBody (sym.extractLsb' 4 4) s
  else crwResidBody (sym.extractLsb' 4 4) (sym.extractLsb' 0 4) s

/-- The `while i < 64` of R175; every symbol that does not end it advances the position. The first symbol uses tree
0, every later one tree 1 (R173). -/
def blockLoop : Nat → State → Res Unit
  | 0, s => .ok () s
  | fuel + 1, s =>
    if s.loc.pos < 64 ∧ s.loc.ended = false then
      (decodeSymbol (if s.loc.notFirst then 1#1 else 0#1) s).bind fun sym s =>
        (crwSymbol sym s).bind fun _ s => blockLoop fuel s
    else .ok () s

/-- `DIFFBUF` cleared, and the locals of R175 at their start. -/
@[simps] def State.startBlock (s : State) : State :=
  { s with diffbuf := Vector.replicate 64 0#32, loc := {} }

/-- The body of `CRW.BLOCK` (R175). -/
def crwBlockBody (s : State) : Res Unit :=
  (blockLoop Config.blockLen s.startBlock).bind fun _ s => .ok () (s.withLoc {})

/-! ### Reconstruction (R177) -/

/-- The row test (R177): both bases are reset at the first sample of an image row. -/
def rowTest (s : State) : State :=
  if s.column.toNat % s.width.toNat = 0 then { s with base0 := Config.baseReset, base1 := Config.baseReset } else s

/-- `BASE[i & 1] <- BASE[i & 1] + DIFFBUF[i]`, with 32-bit wrap (R177). -/
def addResidual (i : Nat) (s : State) : State :=
  if i % 2 = 0 then { s with base0 := s.base0 + diffGet s i } else { s with base1 := s.base1 + diffGet s i }

/-- `BASE[p]` (R44). -/
def baseOf (s : State) (i : Nat) : Word := if i % 2 = 0 then s.base0 else s.base1

/-- One position of the loop of R177. -/
def reconSample (i : Nat) (s : State) : Res Unit :=
  let s := addResidual i (rowTest s)
  if s.width.toNat * s.height.toNat ≤ s.column.toNat ∨ s.params.outSize ≤ 2 * s.column.toNat + 1 then
    raise .overflow s
  else
    (out16Write s.column.toNat ((baseOf s i).extractLsb' 0 16) s).bind fun _ s =>
      .ok () { s with column := s.column + 1#32 }

/-- The `n` positions from `i` on (R177). -/
def reconLoop : Nat → Nat → State → Res Unit
  | 0, _, s => .ok () s
  | n + 1, i, s => (reconSample i s).bind fun _ s => reconLoop n (i + 1) s

/-- `DIFFBUF[0] <- DIFFBUF[0] + CARRY; CARRY <- DIFFBUF[0]`, with 32-bit wrap (R177). -/
def applyCarry (s : State) : State :=
  let d := diffGet s 0 + s.carry
  { s.withDiff 0 d with carry := d }

/-- The body of `CRW.RECON` (R177). -/
def crwReconBody (s : State) : Res Unit :=
  if s.width = 0#32 then raise .config s
  else
    (reconLoop Config.blockLen 0 (applyCarry s)).bind fun _ s => .ok () { s with block := s.block + 1#32 }

/-! ### Low-bits merge (R179) -/

/-- One sample merged (R179). -/
def mergeAt (k : Nat) (s : State) : Res Unit :=
  (inByte (s.lbaddr.toNat + k / 4) s).bind fun byte s =>
    (out16 k s).bind fun sample s => out16Write k (mergeSample sample (lowBitsField byte k)) s

/-- The `n` samples from `k` on (R179). -/
def mergeLoop : Nat → Nat → State → Res Unit
  | 0, _, s => .ok () s
  | n + 1, k, s => (mergeAt k s).bind fun _ s => mergeLoop n (k + 1) s

/-- The body of `CRW.MERGE` (R179): the whole sub-stream must lie inside the stream. With no samples (`COLUMN = 0`) and
`LBADDR > INLEN` this test still raises `EOS`, as the pseudocode has it, where the rule's prose says that nothing happens
(DEDUCED; notes/assumptions/25.md). -/
def crwMergeBody (s : State) : Res Unit :=
  let n := s.column.toNat
  if s.inlen.toNat < s.lbaddr.toNat + (n + 3) / 4 then raise .eos s
  else mergeLoop n 0 s

/-! ### Whole image (R181, R182) -/

/-- The start of `CRW.RUN` (R181), products as mathematical integers. -/
def crwStart (s : State) : Res Unit :=
  if s.width = 0#32 ∨ s.height = 0#32 then raise .config s
  else if (s.width.toNat * s.height.toNat) % 64 ≠ 0 then raise .config s
  else if s.params.outSize < 2 * s.width.toNat * s.height.toNat then raise .config s
  else .ok () { s.startRun .crw with phase := 0#32 }

/-- The engine step of `CRW.RUN` (R182), after the abort test. -/
def crwEngineStep (s : State) : Res Unit :=
  if s.phase = 0#32 then
    (loadTables s).bind fun _ s => .ok () { s.crwInit with phase := 1#32 }
  else if s.phase = 1#32 then
    (crwBlockBody s).bind fun _ s =>
      (crwReconBody s).bind fun _ s =>
        if s.block.toNat = s.width.toNat * s.height.toNat / 64 then
          if s.lbmode = true then .ok () { s with phase := 2#32 } else .ok () s.finish
        else .ok () s
  else (crwMergeBody s).bind fun _ s => .ok () s.finish

/-! ### The meanings -/

/-- `CRW.DETECT` (R171). -/
def execCrwDetect (s : State) : Host.Outcome State Fault Refusal :=
  (needInput s fun s => Res.ok () (s.withDetection (lowBitsPresent s))).outcome

/-- `CRW.INIT` (R172). -/
def execCrwInit (s : State) : Host.Outcome State Fault Refusal :=
  .next s.crwInit

/-- `CRW.BLOCK` (R175). -/
def execCrwBlock (s : State) : Host.Outcome State Fault Refusal :=
  (needInput s crwBlockBody).outcome

/-- `CRW.RECON` (R177); it reads no byte of `IN`, so the prologue of R312 does not apply. -/
def execCrwRecon (s : State) : Host.Outcome State Fault Refusal :=
  (crwReconBody s).outcome

/-- `CRW.MERGE` (R179). -/
def execCrwMerge (s : State) : Host.Outcome State Fault Refusal :=
  (needInput s crwMergeBody).outcome

/-- `CRW.RUN`, the command itself (R181). -/
def execCrwRun (s : State) : Host.Outcome State Fault Refusal :=
  (needInput s crwStart).outcome

/-- crw.eob (R174). -/
def execCrwEob (s : State) : Host.Outcome State Fault Refusal :=
  (crwEobBody s).outcome

/-- crw.continue (R176). -/
def execCrwContinue (s : State) : Host.Outcome State Fault Refusal :=
  (crwContinueBody s).outcome

/-- crw.zero (R175). -/
def execCrwZero (run : BitVec 4) (s : State) : Host.Outcome State Fault Refusal :=
  (crwZeroBody run s).outcome

/-- crw.resid (R175). -/
def execCrwResid (run len : BitVec 4) (s : State) : Host.Outcome State Fault Refusal :=
  (crwResidBody run len s).outcome

end Sys2Proof.Machine
end

