-- ==== Sys2Proof/WellFormed.lean ====
section
/-! DEFINITION. Which terms of `Instr` stand for an encoding: the conditions of the opcode table's rows. -/

namespace Sys2Proof

/-- A row of the host opcode map as match and mask (R105): a word belongs to it when `w & mask = match`. -/
structure HostRow where
  pattern : Word
  mask : Word
deriving DecidableEq, Repr

/-- The legal host commands of R102 with the masks R105 gives them, in the table's order. -/
def hostRows : List HostRow :=
  [⟨0x00000000#32, 0xFFFFFFFF#32⟩, ⟨0x01000000#32, 0xFFFFFFFF#32⟩, ⟨0x02000000#32, 0xFFFFFFFF#32⟩,
   ⟨0x10000000#32, 0xFFFFFFFF#32⟩, ⟨0x11000000#32, 0xFF00FFFF#32⟩, ⟨0x12000000#32, 0xFF00FFFF#32⟩,
   ⟨0x13000000#32, 0xFF00FFFF#32⟩] ++
  [⟨0x20000000#32, 0xFFFEFFFF#32⟩, ⟨0x21000000#32, 0xFFFFFFFF#32⟩, ⟨0x22000000#32, 0xFFFEFFFF#32⟩,
   ⟨0x23000000#32, 0xFFF0FFFF#32⟩, ⟨0x30000000#32, 0xFFFFFFFF#32⟩, ⟨0x31000000#32, 0xFFFFFFFF#32⟩,
   ⟨0x32000000#32, 0xFFFFFFFF#32⟩] ++
  [⟨0x33000000#32, 0xFFFFFFFF#32⟩, ⟨0x34000000#32, 0xFFFFFFFF#32⟩, ⟨0x35000000#32, 0xFFFFFFFF#32⟩,
   ⟨0x40000000#32, 0xFFFEFFFF#32⟩, ⟨0x50000000#32, 0xFFFFFFFF#32⟩, ⟨0x51000000#32, 0xFF000000#32⟩,
   ⟨0x60000000#32, 0xFFFFFFFF#32⟩]

/-- The word belongs to the row. -/
def HostRow.accepts (r : HostRow) (w : Word) : Bool :=
  w &&& r.mask == r.pattern

/-- A word of some legal host command (R104 says every other word is illegal). -/
def legalHostWord (w : Word) : Bool :=
  hostRows.any fun r => r.accepts w

/-- The word `OP[31:24] A[23:16] B[15:0]` (R101). -/
def hostWord (op : BitVec 8) (a : BitVec 8) (b : BitVec 16) : Word :=
  op ++ a ++ b

/-- The conditions the rows put on their fields: an illegal word is no legal one (R104); a run has a count (R111,
R113); an absolute run has 3 pixels or more (R111); a literal count is 1..128 and a repeat count 1..127 (R116);
a residual symbol has raw bits and is not `0xFF` (R118); a table specification has 16 counts and as many symbols
as they add up to (R119). -/
def Instr.wf : Instr → Bool
  | .illegalHostWord op a b => !legalHostWord (hostWord op a b)
  | .bmpRun8 count _ => count != 0#8
  | .bmpRun4 count _ _ => count != 0#8
  | .bmpAbs8 n => decide (3 ≤ n.toNat)
  | .bmpAbs4 n => decide (3 ≤ n.toNat)
  | .sgiVerbatim count => count != 0#7
  | .sgiRepeat count => count != 0#7
  | .hdrLiteral count => decide (1 ≤ count.toNat) && decide (count.toNat ≤ 128)
  | .hdrRepeat count => count != 0#7
  | .crwResid run len => len != 0#4 && !(run == 15#4 && len == 15#4)
  | .tablespec counts symbols =>
    counts.length == 16 && symbols.length == (counts.map BitVec.toNat).sum
  | .nop => true
  | .reset => true
  | .clear => true
  | .brPrime => true
  | .brRead _ => true
  | .brPeek _ => true
  | .brSkip _ => true
  | .hufBuild _ => true
  | .hufLoadt => true
  | .hufDecode _ => true
  | .hufResid _ => true
  | .crwDetect => true
  | .crwInit => true
  | .crwBlock => true
  | .crwRecon => true
  | .crwMerge => true
  | .crwRun => true
  | .bmpRun _ => true
  | .sgiRun => true
  | .sgiLine _ _ => true
  | .hdrRun => true
  | .bmpEol => true
  | .bmpEob => true
  | .bmpDelta => true
  | .sgiEnd _ => true
  | .hdrHeader _ => true
  | .hdrInvalid => true
  | .crwEob => true
  | .crwContinue => true
  | .crwZero _ => true

end Sys2Proof
end

