-- ==== Sys2Proof/Decode.lean ====
section
/-! DEFINITION. The decoder, total on every input and rejecting by name, and after it the encoder, both from
30_encoding.md. -/

namespace Sys2Proof

/-- What the decoder is told beside the bits: the format (R100) and, where the table's condition asks for it, the
mode of the BMP run (`PHASE`, R111) or whether the early-termination condition holds (R118). -/
inductive Format where
  | host
  | bmp (rle4 : Bool)
  | sgi
  | hdrh
  | hdr1
  | hsym (eob : Bool)
  | tspec
deriving DecidableEq, Repr

/-- An encoding as the block receives it: a word written to `CMD`, or bytes in the order they are fetched (for
`HSYM`, the one symbol byte). -/
inductive Encoded where
  | word (w : Word)
  | bytes (bs : List Byte)
deriving DecidableEq, Repr

/-- Why the decoder rejects an input. -/
inductive DecodeError where
  /-- Bytes where the format is a host word, or a word where it is bytes. -/
  | wrongKind
  /-- The bytes end inside the instruction. -/
  | tooShort
  /-- Four bytes that are no scanline header (R115). -/
  | notAHeader
deriving DecidableEq, Repr

/-- The decoder's answer. -/
inductive Decoded where
  | instr (i : Instr)
  | rejected (e : DecodeError)
deriving DecidableEq, Repr

/-- A host command word (R101 to R105): `OP`, then the reserved bits of `A` and `B`. -/
def decodeHost (w : Word) : Instr :=
  let op := w.extractLsb' 24 8
  let a := w.extractLsb' 16 8
  let b := w.extractLsb' 0 16
  let bad := Instr.illegalHostWord op a b
  let plain := fun (i : Instr) => if a = 0#8 ∧ b = 0#16 then i else bad
  let withA := fun (i : Instr) => if b = 0#16 then i else bad
  let withBit := fun (i : Instr) => if a.extractLsb' 1 7 = 0#7 ∧ b = 0#16 then i else bad
  let withNibble := fun (i : Instr) => if a.extractLsb' 4 4 = 0#4 ∧ b = 0#16 then i else bad
  match op.toNat with
  | 0x00 => plain .nop
  | 0x01 => plain .reset
  | 0x02 => plain .clear
  | 0x10 => plain .brPrime
  | 0x11 => withA (.brRead a)
  | 0x12 => withA (.brPeek a)
  | 0x13 => withA (.brSkip a)
  | 0x20 => withBit (.hufBuild (a.extractLsb' 0 1))
  | 0x21 => plain .hufLoadt
  | 0x22 => withBit (.hufDecode (a.extractLsb' 0 1))
  | 0x23 => withNibble (.hufResid (a.extractLsb' 0 4))
  | 0x30 => plain .crwDetect
  | 0x31 => plain .crwInit
  | 0x32 => plain .crwBlock
  | 0x33 => plain .crwRecon
  | 0x34 => plain .crwMerge
  | 0x35 => plain .crwRun
  | 0x40 => withBit (.bmpRun (a.extractLsb' 0 1))
  | 0x50 => plain .sgiRun
  | 0x51 => .sgiLine a b
  | 0x60 => plain .hdrRun
  | _ => bad

/-- A BMP command pair (R111): every pair is exactly one command. -/
def decodeBmp (rle4 : Bool) (b1 b2 : Byte) : Instr :=
  if b1 ≠ 0#8 then
    if rle4 then .bmpRun4 b1 (b2.extractLsb' 4 4) (b2.extractLsb' 0 4) else .bmpRun8 b1 b2
  else if b2 = 0#8 then .bmpEol
  else if b2 = 1#8 then .bmpEob
  else if b2 = 2#8 then .bmpDelta
  else if rle4 then .bmpAbs4 b2 else .bmpAbs8 b2

/-- An SGI control byte (R113): a count of 0 ends the scanline whatever the type bit (C4). -/
def decodeSgi (ctl : Byte) : Instr :=
  let count := ctl.extractLsb' 0 7
  let type := ctl.extractLsb' 7 1
  if count = 0#7 then .sgiEnd type
  else if type = 1#1 then .sgiVerbatim count
  else .sgiRepeat count

/-- The four bytes of a scanline header (R115); that the width equals `WIDTH` is the execution's test (R258). -/
def decodeHeader (h0 h1 h2 h3 : Byte) : Decoded :=
  if h0 = 0x02#8 ∧ h1 = 0x02#8 ∧ h2.extractLsb' 7 1 = 0#1 then
    .instr (.hdrHeader (h2.extractLsb' 0 7 ++ h3))
  else .rejected .notAHeader

/-- An HDR control byte (R116). -/
def decodeHdr (ctl : Byte) : Instr :=
  if 128 < ctl.toNat then .hdrRepeat (ctl.extractLsb' 0 7)
  else if ctl = 0#8 then .hdrInvalid
  else .hdrLiteral ctl

/-- A CRW symbol, the tests in the order of R118. -/
def decodeSymbolClass (eob : Bool) (sym : Byte) : Instr :=
  let run := sym.extractLsb' 4 4
  let len := sym.extractLsb' 0 4
  if eob = true ∧ sym = 0x00#8 then .crwEob
  else if sym = 0xFF#8 then .crwContinue
  else if len = 0#4 then .crwZero run
  else .crwResid run len

/-- A table specification (R119): 16 counts, then as many symbols as they add up to. -/
def decodeTspec (bs : List Byte) : Decoded :=
  let counts := bs.take 16
  let n := (counts.map BitVec.toNat).sum
  if bs.length < 16 + n then .rejected .tooShort
  else .instr (.tablespec counts ((bs.drop 16).take n))

/-- The decoder. Bytes after the instruction are not looked at. -/
def decode (f : Format) (e : Encoded) : Decoded :=
  match f, e with
  | .host, .word w => .instr (decodeHost w)
  | .host, .bytes _ => .rejected .wrongKind
  | .bmp rle4, .bytes (b1 :: b2 :: _) => .instr (decodeBmp rle4 b1 b2)
  | .sgi, .bytes (b :: _) => .instr (decodeSgi b)
  | .hdrh, .bytes (h0 :: h1 :: h2 :: h3 :: _) => decodeHeader h0 h1 h2 h3
  | .hdr1, .bytes (b :: _) => .instr (decodeHdr b)
  | .hsym eob, .bytes (b :: _) => .instr (decodeSymbolClass eob b)
  | .tspec, .bytes bs => decodeTspec bs
  | _, .bytes _ => .rejected .tooShort
  | _, .word _ => .rejected .wrongKind

/-- The format an instruction's row stands in, with the row's condition. -/
def Instr.format : Instr → Format
  | .bmpRun8 _ _ => .bmp false
  | .bmpRun4 _ _ _ => .bmp true
  | .bmpEol => .bmp false
  | .bmpEob => .bmp false
  | .bmpDelta => .bmp false
  | .bmpAbs8 _ => .bmp false
  | .bmpAbs4 _ => .bmp true
  | .sgiEnd _ => .sgi
  | .sgiVerbatim _ => .sgi
  | .sgiRepeat _ => .sgi
  | .hdrHeader _ => .hdrh
  | .hdrInvalid => .hdr1
  | .hdrLiteral _ => .hdr1
  | .hdrRepeat _ => .hdr1
  | .crwEob => .hsym true
  | .crwContinue => .hsym false
  | .crwZero _ => .hsym false
  | .crwResid _ _ => .hsym false
  | .tablespec _ _ => .tspec
  | .nop => .host
  | .reset => .host
  | .clear => .host
  | .brPrime => .host
  | .brRead _ => .host
  | .brPeek _ => .host
  | .brSkip _ => .host
  | .hufBuild _ => .host
  | .hufLoadt => .host
  | .hufDecode _ => .host
  | .hufResid _ => .host
  | .crwDetect => .host
  | .crwInit => .host
  | .crwBlock => .host
  | .crwRecon => .host
  | .crwMerge => .host
  | .crwRun => .host
  | .bmpRun _ => .host
  | .sgiRun => .host
  | .sgiLine _ _ => .host
  | .hdrRun => .host
  | .illegalHostWord _ _ _ => .host

/-- The encoder (R101, R102, R110 to R119): a host word, or the instruction's own bytes in fetch order. -/
def encode : Instr → Encoded
  | .nop => .word (hostWord 0x00#8 0#8 0#16)
  | .reset => .word (hostWord 0x01#8 0#8 0#16)
  | .clear => .word (hostWord 0x02#8 0#8 0#16)
  | .brPrime => .word (hostWord 0x10#8 0#8 0#16)
  | .brRead n => .word (hostWord 0x11#8 n 0#16)
  | .brPeek n => .word (hostWord 0x12#8 n 0#16)
  | .brSkip n => .word (hostWord 0x13#8 n 0#16)
  | .hufBuild slot => .word (hostWord 0x20#8 (0#7 ++ slot) 0#16)
  | .hufLoadt => .word (hostWord 0x21#8 0#8 0#16)
  | .hufDecode slot => .word (hostWord 0x22#8 (0#7 ++ slot) 0#16)
  | .hufResid len => .word (hostWord 0x23#8 (0#4 ++ len) 0#16)
  | .crwDetect => .word (hostWord 0x30#8 0#8 0#16)
  | .crwInit => .word (hostWord 0x31#8 0#8 0#16)
  | .crwBlock => .word (hostWord 0x32#8 0#8 0#16)
  | .crwRecon => .word (hostWord 0x33#8 0#8 0#16)
  | .crwMerge => .word (hostWord 0x34#8 0#8 0#16)
  | .crwRun => .word (hostWord 0x35#8 0#8 0#16)
  | .bmpRun mode => .word (hostWord 0x40#8 (0#7 ++ mode) 0#16)
  | .sgiRun => .word (hostWord 0x50#8 0#8 0#16)
  | .sgiLine channel row => .word (hostWord 0x51#8 channel row)
  | .hdrRun => .word (hostWord 0x60#8 0#8 0#16)
  | .illegalHostWord op a b => .word (hostWord op a b)
  | .bmpRun8 count value => .bytes [count, value]
  | .bmpRun4 count pixEven pixOdd => .bytes [count, pixEven ++ pixOdd]
  | .bmpEol => .bytes [0#8, 0#8]
  | .bmpEob => .bytes [0#8, 1#8]
  | .bmpDelta => .bytes [0#8, 2#8]
  | .bmpAbs8 n => .bytes [0#8, n]
  | .bmpAbs4 n => .bytes [0#8, n]
  | .sgiEnd type => .bytes [type ++ 0#7]
  | .sgiVerbatim count => .bytes [1#1 ++ count]
  | .sgiRepeat count => .bytes [0#1 ++ count]
  | .hdrHeader width =>
    .bytes [0x02#8, 0x02#8, 0#1 ++ width.extractLsb' 8 7, width.extractLsb' 0 8]
  | .hdrInvalid => .bytes [0#8]
  | .hdrLiteral count => .bytes [count]
  | .hdrRepeat count => .bytes [1#1 ++ count]
  | .crwEob => .bytes [0x00#8]
  | .crwContinue => .bytes [0xFF#8]
  | .crwZero run => .bytes [run ++ 0#4]
  | .crwResid run len => .bytes [run ++ len]
  | .tablespec counts symbols => .bytes (counts ++ symbols)

/-- The format and the encoding that `nbits` bits numbered as the opcode table numbers them stand for. Where the
bits fit rows of several formats, the row that fixes the most bits is taken, the first one in the table where
that leaves two (notes/assumptions/16.md): 32 bits are a scanline header when its 17 fixed bits match and a host
word otherwise, 16 bits a BMP pair in RLE8 mode, 8 bits an HDR, CRW or SGI byte. -/
def tableForm (nbits w : Nat) : Option (Format × Encoded) :=
  match nbits with
  | 32 =>
    let v := BitVec.ofNat 32 w
    if v &&& 0xFFFF8000#32 = 0x02020000#32 then
      some (.hdrh, .bytes [v.extractLsb' 24 8, v.extractLsb' 16 8, v.extractLsb' 8 8, v.extractLsb' 0 8])
    else some (.host, .word v)
  | 16 =>
    let v := BitVec.ofNat 16 w
    some (.bmp false, .bytes [v.extractLsb' 8 8, v.extractLsb' 0 8])
  | 8 =>
    let v := BitVec.ofNat 8 w
    if v = 0x00#8 then some (.hdr1, .bytes [v])
    else if v = 0xFF#8 then some (.hsym false, .bytes [v])
    else if v = 0x80#8 then some (.sgi, .bytes [v])
    else if v.extractLsb' 0 4 = 0#4 then some (.hsym false, .bytes [v])
    else some (.sgi, .bytes [v])
  | _ => none

/-- The instruction the decoder reads from the `nbits` bits `w`, numbered as the opcode table numbers them. -/
def decodeTableWord (nbits w : Nat) : Option Instr :=
  match tableForm nbits w with
  | some (f, e) =>
    match decode f e with
    | .instr i => some i
    | .rejected _ => none
  | none => none

end Sys2Proof
end

