-- ==== Sys2Proof/Machine/Hdr.lean ====
section
/-! DEFINITION. The RGBE/HDR unit (45_hdr_rgbe.md): path detection, the plane commands, the transpose, and the start
and the engine step of `HDR.RUN`. -/

namespace Sys2Proof.Machine

/-- `PutRgbe(y, x, r, g, b, e)` (R255), the only way the unit writes `OUT`. -/
def putRgbe (y x : Nat) (r g b e : Byte) (s : State) : Res Unit :=
  let i := (y * s.width.toNat + x) * 3
  (out32Write i (f32 r e) s).bind fun _ s =>
    (out32Write (i + 1) (f32 g e) s).bind fun _ s => out32Write (i + 2) (f32 b e) s

/-! ### The stream items -/

/-- The scanline header (R258): it is matched, not executed; a width other than `WIDTH` is corrupt. -/
def hdrHeaderBody (width : BitVec 15) (s : State) : Res Unit :=
  if width.toNat ≠ s.width.toNat then raise .corrupt s else .ok () s

/-- Control byte 0 (R261). -/
def hdrInvalidBody (s : State) : Res Unit := raise .corrupt s

/-- `n` copies of one byte written to a plane (R259). -/
def scanFill : Nat → Byte → Nat → Nat → State → Res Unit
  | 0, _, _, _, s => .ok () s
  | n + 1, v, p, x, s => (scanWrite p x v s).bind fun _ s => scanFill n v p (x + 1) s

/-- `n` literal bytes fetched into a plane (R260). -/
def scanLiterals : Nat → Nat → Nat → State → Res Unit
  | 0, _, _, s => .ok () s
  | n + 1, p, x, s =>
    (fetchByte s).bind fun b s => (scanWrite p x b s).bind fun _ s => scanLiterals n p (x + 1) s

/-- Repeat run (R259): the width is tested before the value is fetched. -/
def hdrRepeatBody (count : BitVec 7) (s : State) : Res Unit :=
  let x := s.loc.planeX
  let cnt := count.toNat
  if s.width.toNat < x + cnt then raise .overflow s
  else
    (fetchByte s).bind fun v s =>
      (scanFill cnt v s.loc.plane x s).bind fun _ s => .ok () (s.withLoc { s.loc with planeX := x + cnt })

/-- Literal run (R260): the width is tested before any literal is fetched. -/
def hdrLiteralBody (count : BitVec 8) (s : State) : Res Unit :=
  let x := s.loc.planeX
  let cnt := count.toNat
  if s.width.toNat < x + cnt then raise .overflow s
  else
    (scanLiterals cnt s.loc.plane x s).bind fun _ s => .ok () (s.withLoc { s.loc with planeX := x + cnt })

/-- One control byte (R116, R258). -/
def hdrCommand (ctl : Byte) (s : State) : Res Unit :=
  if 128 < ctl.toNat then hdrRepeatBody (ctl.extractLsb' 0 7) s
  else if ctl = 0#8 then hdrInvalidBody s
  else hdrLiteralBody ctl s

/-! ### One scanline (R258) -/

/-- The `while x < WIDTH` of one plane, at most as many rounds as the first argument; every round adds to `x`. -/
def planeLoop : Nat → State → Res Unit
  | 0, s => .ok () s
  | fuel + 1, s =>
    if s.loc.planeX < s.width.toNat then
      (fetchByte s).bind fun ctl s => (hdrCommand ctl s).bind fun _ s => planeLoop fuel s
    else .ok () s

/-- The `n` planes from `p` on. -/
def planesLoop : Nat → Nat → State → Res Unit
  | 0, _, s => .ok () s
  | n + 1, p, s =>
    (planeLoop s.width.toNat (s.withLoc { plane := p, planeX := 0 })).bind fun _ s => planesLoop n (p + 1) s

/-- The transpose of the `n` columns from `x` on (R258). -/
def transposeLoop : Nat → Nat → Nat → State → Res Unit
  | 0, _, _, s => .ok () s
  | n + 1, y, x, s =>
    (scanRead 0 x s).bind fun r s => (scanRead 1 x s).bind fun g s =>
      (scanRead 2 x s).bind fun b s => (scanRead 3 x s).bind fun e s =>
        (putRgbe y x r g b e s).bind fun _ s => transposeLoop n y (x + 1) s

/-- The `n` flat pixels from column `x` on (R258). -/
def flatLoop : Nat → Nat → Nat → State → Res Unit
  | 0, _, _, s => .ok () s
  | n + 1, y, x, s =>
    (fetchByte s).bind fun r s => (fetchByte s).bind fun g s =>
      (fetchByte s).bind fun b s => (fetchByte s).bind fun e s =>
        (putRgbe y x r g b e s).bind fun _ s => flatLoop n y (x + 1) s

/-- The header of a scanline fetched and matched (R258). -/
def fetchHeader (s : State) : Res Unit :=
  (fetchByte s).bind fun h0 s => (fetchByte s).bind fun h1 s =>
    (fetchByte s).bind fun h2 s => (fetchByte s).bind fun h3 s =>
      match decodeHeader h0 h1 h2 h3 with
      | .instr (.hdrHeader width) => hdrHeaderBody width s
      | _ => raise .corrupt s

/-- One run-length scanline (R258): nothing is written to `OUT` until all four planes are decoded. -/
def rleScanline (y : Nat) (s : State) : Res Unit :=
  (fetchHeader s).bind fun _ s =>
    (planesLoop 4 0 s).bind fun _ s =>
      (transposeLoop s.width.toNat y 0 (s.withLoc {}))

/-- `DetectRle()` (R257): the first four bytes are looked at, nothing is consumed. -/
def detectRle (s : State) : State :=
  let p := s.ipos.toNat
  let b := fun i => Memory.read s.inMem (p + i)
  { s with
    hdrrle :=
      decide (Config.hdrRleMin ≤ s.width.toNat) && decide (s.width.toNat ≤ Config.hdrRleMax) &&
      decide (p + 4 ≤ s.inlen.toNat) &&
      (match decodeHeader (b 0) (b 1) (b 2) (b 3) with
        | .instr (.hdrHeader width) => decide (width.toNat = s.width.toNat)
        | _ => false)
    phase := 1#32 }

/-- The engine step of `HDR.RUN` (R258): one scanline; the first one also decides the path. -/
def hdrEngineStep (s : State) : Res Unit :=
  let s := if s.phase = 0#32 then detectRle s else s
  let y := s.row
  (if s.hdrrle = true then rleScanline y.toNat s else flatLoop s.width.toNat y.toNat 0 s).bind fun _ s =>
    let s := { s with row := y + 1#32 }
    if s.row = s.height then .ok () s.finish else .ok () s

/-! ### The meanings -/

/-- The start of `HDR.RUN` (R256), products as mathematical integers. -/
def hdrStart (s : State) : Res Unit :=
  if s.width = 0#32 ∨ s.height = 0#32 then raise .config s
  else if s.params.outSize < 12 * s.width.toNat * s.height.toNat then raise .config s
  else .ok () { s.unprime.startRun .hdr with row := 0#32, phase := 0#32, hdrrle := false }

/-- `HDR.RUN`, the command itself (R256). -/
def execHdrRun (s : State) : Host.Outcome State Fault Refusal :=
  (needInput s hdrStart).outcome

/-- hdr.header (R258). -/
def execHdrHeader (width : BitVec 15) (s : State) : Host.Outcome State Fault Refusal :=
  (hdrHeaderBody width s).outcome

/-- hdr.invalid (R261). -/
def execHdrInvalid (s : State) : Host.Outcome State Fault Refusal :=
  (hdrInvalidBody s).outcome

/-- hdr.literal (R260). -/
def execHdrLiteral (count : BitVec 8) (s : State) : Host.Outcome State Fault Refusal :=
  (hdrLiteralBody count s).outcome

/-- hdr.repeat (R259). -/
def execHdrRepeat (count : BitVec 7) (s : State) : Host.Outcome State Fault Refusal :=
  (hdrRepeatBody count s).outcome

end Sys2Proof.Machine
end

