-- ==== Sys2Proof/Machine/Sgi.lean ====
section
/-! DEFINITION. The SGI RLE unit (44_sgi_rle.md): the stream commands, the scanline decoder, and the meanings of
`SGI.*`. -/

namespace Sys2Proof.Machine

/-- `SgiConfigCheck()` (R231), products as mathematical integers. -/
def sgiConfigCheck (s : State) (k : State → Res Unit) : Res Unit :=
  if s.bpc = 2#32 then raise .unsupported s
  else if s.bpc ≠ 1#32 then raise .config s
  else if s.width = 0#32 ∨ s.height = 0#32 ∨ s.channels = 0#32 then raise .config s
  else if s.params.tabEntries < s.channels.toNat * s.height.toNat then raise .config s
  else if s.params.outSize < s.channels.toNat * s.height.toNat * s.width.toNat then raise .config s
  else k s

/-! ### The stream commands -/

/-- `X <- x` (R235): the bytes written to the scanline so far. -/
@[simps] def State.withX (s : State) (v : Nat) : State := { s with x := BitVec.ofNat 32 v }

/-- End of scanline (R232): the loop is left. -/
def sgiEndBody (s : State) : Res Unit := .ok () (s.withLoc { s.loc with ended := true })

/-- `n` literal bytes copied from `IN` to `OUT` (R233). -/
def copyRun : Nat → Nat → Nat → State → Res Unit
  | 0, _, _, s => .ok () s
  | n + 1, src, dst, s =>
    (inByte src s).bind fun b s => (outWrite dst b s).bind fun _ s => copyRun n (src + 1) (dst + 1) s

/-- `n` copies of one byte written to `OUT` (R234). -/
def fillRun : Nat → Byte → Nat → State → Res Unit
  | 0, _, _, s => .ok () s
  | n + 1, v, dst, s => (outWrite dst v s).bind fun _ s => fillRun n v (dst + 1) s

/-- Verbatim run (R233): both tests come before any byte is copied. -/
def sgiVerbatimBody (count : BitVec 7) (s : State) : Res Unit :=
  let x := s.x.toNat
  let cnt := count.toNat
  if s.width.toNat < x + cnt then raise .overflow s
  else if s.loc.lineEnd < s.ipos.toNat + cnt then raise .eos s
  else
    (copyRun cnt s.ipos.toNat (s.loc.lineDst + x) s).bind fun _ s =>
      .ok () ((s.withIpos (BitVec.ofNat 32 (s.ipos.toNat + cnt))).withX (x + cnt))

/-- Repeat run (R234): both tests come before anything is written. -/
def sgiRepeatBody (count : BitVec 7) (s : State) : Res Unit :=
  let x := s.x.toNat
  let cnt := count.toNat
  if s.width.toNat < x + cnt then raise .overflow s
  else if s.ipos.toNat = s.loc.lineEnd then raise .eos s
  else
    (inByte s.ipos.toNat s).bind fun v s =>
      (fillRun cnt v (s.loc.lineDst + x) (s.withIpos (s.ipos + 1#32))).bind fun _ s => .ok () (s.withX (x + cnt))

/-- One control byte (R113, R235). -/
def sgiCommand (ctl : Byte) (s : State) : Res Unit :=
  if ctl.extractLsb' 0 7 = 0#7 then sgiEndBody s
  else if ctl.extractLsb' 7 1 = 1#1 then sgiVerbatimBody (ctl.extractLsb' 0 7) s
  else sgiRepeatBody (ctl.extractLsb' 0 7) s

/-! ### The scanline decoder (R235) -/

/-- The `loop` of R235, at most as many rounds as the first argument; every round reads a byte below `end`. -/
def lineLoop : Nat → State → Res Unit
  | 0, s => .ok () s
  | fuel + 1, s =>
    if s.ipos.toNat = s.loc.lineEnd ∨ s.loc.ended = true then .ok () s
    else
      (inByte s.ipos.toNat s).bind fun ctl s =>
        (sgiCommand ctl (s.withIpos (s.ipos + 1#32))).bind fun _ s => lineLoop fuel s

/-- `CHAN <- c; ROW <- r; X <- 0; PRIMED <- 0` (R235). -/
@[simps] def State.startLine (s : State) (c r : Word) : State :=
  { s with chan := c, row := r, x := 0#32, primed := false }

/-- `SgiLine(c, r)` (R235). -/
def sgiLineBody (c r : Word) (s : State) : Res Unit :=
  let s := s.startLine c r
  let idx := sgiIndex s c.toNat r.toNat
  (offsetEntry idx s).bind fun off s =>
    (lengthEntry idx s).bind fun len s =>
      if s.inlen.toNat < off.toNat + len.toNat then raise .bounds s
      else
        (lineLoop (len.toNat + 1)
          ((s.withIpos off).withLoc
            { lineEnd := off.toNat + len.toNat, lineDst := sgiDst s c.toNat r.toNat })).bind fun _ s =>
          .ok () (s.withLoc {})

/-- The start of `SGI.RUN` (R236). -/
def sgiStart (s : State) : Res Unit :=
  .ok () { (s.startLine 0#32 0#32).startRun .sgi with phase := 0#32 }

/-- The engine step of `SGI.RUN` (R236): one scanline, channel-major. -/
def sgiEngineStep (s : State) : Res Unit :=
  let c := s.chan
  let r := s.row
  (sgiLineBody c r s).bind fun _ s =>
    if r.toNat + 1 < s.height.toNat then .ok () { s with row := r + 1#32 }
    else if c.toNat + 1 < s.channels.toNat then .ok () { s with chan := c + 1#32, row := 0#32 }
    else .ok () s.finish

/-! ### The meanings -/

/-- `SGI.RUN`, the command itself (R236). -/
def execSgiRun (s : State) : Host.Outcome State Fault Refusal :=
  (needInput s fun s => sgiConfigCheck s sgiStart).outcome

/-- `SGI.LINE c, r` (R235). -/
def execSgiLine (channel : BitVec 8) (row : BitVec 16) (s : State) : Host.Outcome State Fault Refusal :=
  (needInput s fun s => sgiConfigCheck s fun s =>
    if s.channels.toNat ≤ channel.toNat ∨ s.height.toNat ≤ row.toNat then raise .usage s
    else sgiLineBody (channel.setWidth 32) (row.setWidth 32) s).outcome

/-- sgi.end (R232): the type bit changes nothing (C4). -/
def execSgiEnd (_type : BitVec 1) (s : State) : Host.Outcome State Fault Refusal :=
  (sgiEndBody s).outcome

/-- sgi.verbatim (R233). -/
def execSgiVerbatim (count : BitVec 7) (s : State) : Host.Outcome State Fault Refusal :=
  (sgiVerbatimBody count s).outcome

/-- sgi.repeat (R234). -/
def execSgiRepeat (count : BitVec 7) (s : State) : Host.Outcome State Fault Refusal :=
  (sgiRepeatBody count s).outcome

end Sys2Proof.Machine
end

