-- ==== Sys2Proof/Machine/System.lean ====
section
/-! DEFINITION. The system commands (46_system.md). -/

namespace Sys2Proof.Machine

/-- `NOP` (R283). -/
def execNop (s : State) : Host.Outcome State Fault Refusal := .next s

/-- `RESET` (R284). -/
def execReset (s : State) : Host.Outcome State Fault Refusal := .next s.resetRegs

/-- `CLEAR` (R285). -/
def execClear (s : State) : Host.Outcome State Fault Refusal := .next s.acknowledge

/-- An accepted word that is no legal host command (R104, R282). -/
def execIllegalHostWord (_op : BitVec 8) (_a : BitVec 8) (_b : BitVec 16) (s : State) :
    Host.Outcome State Fault Refusal :=
  .next (s.raise .illegal)

end Sys2Proof.Machine
end

