-- ==== Sys2Proof/Machine/Dispatch.lean ====
section
/-! DEFINITION. One arm per constructor of Instr, each one direct call of its meaning. -/

namespace Sys2Proof.Machine

/-- The meaning of every row of the opcode table. -/
def exec (i : Instr) (s : State) : Host.Outcome State Fault Refusal :=
  match i with
  | .nop => Sys2Proof.Machine.execNop s
  | .reset => Sys2Proof.Machine.execReset s
  | .clear => Sys2Proof.Machine.execClear s
  | .brPrime => Sys2Proof.Machine.execBrPrime s
  | .brRead n => Sys2Proof.Machine.execBrRead n s
  | .brPeek n => Sys2Proof.Machine.execBrPeek n s
  | .brSkip n => Sys2Proof.Machine.execBrSkip n s
  | .hufBuild slot => Sys2Proof.Machine.execHufBuild slot s
  | .hufLoadt => Sys2Proof.Machine.execHufLoadt s
  | .hufDecode slot => Sys2Proof.Machine.execHufDecode slot s
  | .hufResid len => Sys2Proof.Machine.execHufResid len s
  | .crwDetect => Sys2Proof.Machine.execCrwDetect s
  | .crwInit => Sys2Proof.Machine.execCrwInit s
  | .crwBlock => Sys2Proof.Machine.execCrwBlock s
  | .crwRecon => Sys2Proof.Machine.execCrwRecon s
  | .crwMerge => Sys2Proof.Machine.execCrwMerge s
  | .crwRun => Sys2Proof.Machine.execCrwRun s
  | .bmpRun mode => Sys2Proof.Machine.execBmpRun mode s
  | .sgiRun => Sys2Proof.Machine.execSgiRun s
  | .sgiLine channel row => Sys2Proof.Machine.execSgiLine channel row s
  | .hdrRun => Sys2Proof.Machine.execHdrRun s
  | .illegalHostWord op a b => Sys2Proof.Machine.execIllegalHostWord op a b s
  | .bmpRun8 count value => Sys2Proof.Machine.execBmpRun8 count value s
  | .bmpRun4 count pixEven pixOdd => Sys2Proof.Machine.execBmpRun4 count pixEven pixOdd s
  | .bmpEol => Sys2Proof.Machine.execBmpEol s
  | .bmpEob => Sys2Proof.Machine.execBmpEob s
  | .bmpDelta => Sys2Proof.Machine.execBmpDelta s
  | .bmpAbs8 n => Sys2Proof.Machine.execBmpAbs8 n s
  | .bmpAbs4 n => Sys2Proof.Machine.execBmpAbs4 n s
  | .sgiEnd type => Sys2Proof.Machine.execSgiEnd type s
  | .sgiVerbatim count => Sys2Proof.Machine.execSgiVerbatim count s
  | .sgiRepeat count => Sys2Proof.Machine.execSgiRepeat count s
  | .hdrHeader width => Sys2Proof.Machine.execHdrHeader width s
  | .hdrInvalid => Sys2Proof.Machine.execHdrInvalid s
  | .hdrLiteral count => Sys2Proof.Machine.execHdrLiteral count s
  | .hdrRepeat count => Sys2Proof.Machine.execHdrRepeat count s
  | .crwEob => Sys2Proof.Machine.execCrwEob s
  | .crwContinue => Sys2Proof.Machine.execCrwContinue s
  | .crwZero run => Sys2Proof.Machine.execCrwZero run s
  | .crwResid run len => Sys2Proof.Machine.execCrwResid run len s
  | .tablespec counts symbols => Sys2Proof.Machine.execTablespec counts symbols s

end Sys2Proof.Machine
end

