-- ==== Sys2Proof/Machine/Engine.lean ====
section
/-! DEFINITION. The engine steps of a run (60_exceptions.md section 8): the abort test and one unit of work. -/

namespace Sys2Proof.Machine

/-- A step that goes on with an instruction once its bytes are fetched. -/
def Res.andThen {α : Type} (r : Res α) (k : α → State → Host.Outcome State Fault Refusal) :
    Host.Outcome State Fault Refusal :=
  match r with
  | .ok a s => k a s
  | .raised s => .next s
  | .stop f => .fault f

/-- The destination is full (R206). -/
def bmpFull (s : State) : Bool :=
  decide (bmpRows s ≤ s.y.toNat) || (decide (s.y.toNat + 1 = bmpRows s) && decide (bmpCap s ≤ s.x.toNat))

/-- The engine step of `BMP.RUN` (R206): the termination tests and at most one stream command, which is fetched,
decoded and executed. -/
def bmpEngineStep (s : State) : Host.Outcome State Fault Refusal :=
  if bmpFull s = true then .next (s.bmpFinish .full)
  else if s.inlen.toNat ≤ s.ipos.toNat then .next (s.bmpFinish .endOfStream)
  else
    (fetchByte s).andThen fun b1 s => (fetchByte s).andThen fun b2 s =>
      exec (decodeBmp (decide (s.phase ≠ 0#32)) b1 b2) s

/-- The work of one engine step, by the unit of the run (R320). -/
def unitStep (s : State) : Host.Outcome State Fault Refusal :=
  match s.unit with
  | .none => .fault .busyWithoutUnit
  | .crw => (crwEngineStep s).outcome
  | .bmp => bmpEngineStep s
  | .sgi => (sgiEngineStep s).outcome
  | .hdr => (hdrEngineStep s).outcome

/-- The abort taken at a step boundary (R315). -/
@[simps] def State.takeAbort (s : State) : State := { s with abort := false, st := .aborted }

/-- One engine step of a run (R315, R320): the abort flag is sampled before the work, never inside it. -/
def engineStep (s : State) : Host.Outcome State Fault Refusal :=
  if s.abort = true then .next s.takeAbort else unitStep s

end Sys2Proof.Machine
end

