-- ==== Sys2Proof/Machine/HostPort.lean ====
section
/-! DEFINITION. The host's side (46_system.md): the acceptance of a command word, the register file as the host sees
it, the memory transactions and the hard reset; and what one step of the machine is. -/

namespace Sys2Proof.Machine

/-- A write that is dropped (R281, R286): only `STATUS.CMDDROP` is set. -/
@[simps] def State.drop (s : State) : State := { s with cmdDrop := true }

/-- A word written to `CMD` (R281, R282): acceptance by `STATUS.ST` comes before legality. -/
def hostCommand (w : Word) (s : State) : Host.Outcome State Fault Refusal :=
  match s.st with
  | .idle => exec (decodeHost w) s
  | .done => exec (decodeHost w) s
  | .aborted => exec (decodeHost w) s
  | .busy => .next s.drop
  | .error => if w = 0x01000000#32 ∨ w = 0x02000000#32 then exec (decodeHost w) s else .next s.drop

/-- The value of a register as `REGRD` returns it (R21, R39): `CMD` and the reserved indices read 0. -/
def readRegister (s : State) (idx : BitVec 7) : Word :=
  match idx.toNat with
  | 0x01 => statusWord s
  | 0x02 => ctrlWord s
  | 0x03 => s.result
  | 0x04 => s.ipos
  | 0x05 => s.inlen
  | 0x06 => brcfgWord s
  | 0x07 => s.bitbuf
  | 0x08 => brstatWord s
  | 0x09 => s.width
  | 0x0A => s.height
  | 0x0B => s.channels
  | 0x0C => s.bpc
  | 0x0D => s.table
  | 0x0E => s.budget
  | 0x0F => lbmodeWord s
  | 0x10 => s.lbaddr
  | 0x11 => s.x
  | 0x12 => s.y
  | 0x13 => s.column
  | 0x14 => s.carry
  | 0x15 => s.base0
  | 0x16 => s.base1
  | 0x17 => s.block
  | 0x18 => s.errpos
  | 0x19 => flagsWord s
  | 0x1A => s.chan
  | 0x1B => s.row
  | 0x1C => s.phase
  | n => if 0x40 ≤ n then diffGet s (n - 0x40) else 0#32

/-- An RW register written while the engine is not `BUSY` (R286): reserved bits are stored as 0, and a write of `IPOS`
or `BRCFG` clears `PRIMED`. `none` for an index that names no RW register. -/
def writeConfig (s : State) (idx : BitVec 7) (v : Word) : Option State :=
  match idx.toNat with
  | 0x04 => some { s with ipos := v, primed := false }
  | 0x05 => some { s with inlen := v }
  | 0x06 => some { s with order := v.getLsbD 0, stuff := v.getLsbD 1, primed := false }
  | 0x09 => some { s with width := v }
  | 0x0A => some { s with height := v }
  | 0x0B => some { s with channels := v }
  | 0x0C => some { s with bpc := v }
  | 0x0D => some { s with table := v }
  | 0x0E => some { s with budget := v }
  | 0x0F => some { s with lbmode := v.getLsbD 0 }
  | 0x10 => some { s with lbaddr := v }
  | _ => none

/-- `REGWR idx, v` (R286). -/
def regWrite (idx : BitVec 7) (v : Word) (s : State) : Host.Outcome State Fault Refusal :=
  if idx = 0x00#7 then hostCommand v s
  else if idx = 0x02#7 then .next { s with abort := v.getLsbD 0 }
  else
    match writeConfig s idx v with
    | none => .next s
    | some s' => if s.st = .busy then .next s.drop else .next s'

/-- What a host read returned. -/
@[simps] def State.withBus (s : State) (d : List Word) : State := { s with busData := d }

/-- The size of a byte space (R70). -/
def byteSpaceSize (s : State) : ByteSpace → Nat
  | .inp => s.params.inSize
  | .out => s.params.outSize

/-- The contents of a byte space. -/
def byteSpace (s : State) : ByteSpace → Memory 8
  | .inp => s.inMem
  | .out => s.outMem

/-- The contents of a table. -/
def tableSpace (s : State) : TableSpace → Memory 32
  | .offtab => s.offtab
  | .lentab => s.lentab

/-- `MEMWR` of `IN` or `OUT` (R286). -/
def memWrite (sp : ByteSpace) (addr : Nat) (bytes : List Byte) (s : State) : Host.Outcome State Fault Refusal :=
  if s.st = .busy then .refused .memWriteWhileBusy
  else if byteSpaceSize s sp < addr + bytes.length then .refused .outsideSpace
  else
    match sp with
    | .inp => .next { s with inMem := Memory.writeAll s.inMem addr bytes }
    | .out => .next { s with outMem := Memory.writeAll s.outMem addr bytes }

/-- `MEMWR` of `OFFTAB` or `LENTAB` (R286). -/
def tabWrite (sp : TableSpace) (idx : Nat) (entries : List Word) (s : State) : Host.Outcome State Fault Refusal :=
  if s.st = .busy then .refused .memWriteWhileBusy
  else if s.params.tabEntries < idx + entries.length then .refused .outsideSpace
  else
    match sp with
    | .offtab => .next { s with offtab := Memory.writeAll s.offtab idx entries }
    | .lentab => .next { s with lentab := Memory.writeAll s.lentab idx entries }

/-- `MEMRD` of `IN` or `OUT` (R286). -/
def memRead (sp : ByteSpace) (addr n : Nat) (s : State) : Host.Outcome State Fault Refusal :=
  if byteSpaceSize s sp < addr + n then .refused .outsideSpace
  else .next (s.withBus ((Memory.readAll (byteSpace s sp) addr n).map fun b => b.setWidth 32))

/-- `MEMRD` of `OFFTAB` or `LENTAB` (R286). -/
def tabRead (sp : TableSpace) (idx n : Nat) (s : State) : Host.Outcome State Fault Refusal :=
  if s.params.tabEntries < idx + n then .refused .outsideSpace
  else .next (s.withBus (Memory.readAll (tableSpace s sp) idx n))

/-- The bytes of `OUT` after the engine step that a hard reset abandons (R340, U7): a free mixture of what they were
and of what the step, had it gone on, would have left (notes/assumptions/14.md). -/
def abandonedOut (s : State) : Memory 8 :=
  match engineStep s with
  | .next t => Memory.mix (Config.abandonedMask s.freeTick) s.outMem t.outMem
  | .fault _ => s.outMem
  | .refused _ => s.outMem

/-- The hard-reset input, at any moment and in any state (R340). -/
def hardReset (s : State) : State :=
  if s.st = .busy then
    { s.resetRegs with outMem := abandonedOut s, freeTick := s.freeTick + 1 }
  else s.resetRegs

/-- One event from outside (R286, R287, R340); `engineStep` grants the engine one step of the run in progress. -/
def hostEvent (e : HostEvent) (s : State) : Host.Outcome State Fault Refusal :=
  match e with
  | .regWr idx v => regWrite idx v s
  | .regRd idx => .next (s.withBus [readRegister s idx])
  | .memWr sp addr bytes => memWrite sp addr bytes s
  | .memRd sp addr n => memRead sp addr n s
  | .tabWr sp idx entries => tabWrite sp idx entries s
  | .tabRd sp idx n => tabRead sp idx n s
  | .hardReset => .next (hardReset s)
  | .engineStep => if s.st = .busy then engineStep s else .next s

/-- The pending events replaced. -/
@[simps] def State.withQueue (s : State) (q : List HostEvent) : State := { s with hostQ := q }

/-- One step of the machine (R287): the next pending event, or else an engine step while `BUSY`; an idle engine with
nothing pending executes nothing (R341). -/
def machineStep (s : State) : Host.Outcome State Fault Refusal :=
  match s.hostQ with
  | e :: q => hostEvent e (s.withQueue q)
  | [] => if s.st = .busy then engineStep s else .next s

end Sys2Proof.Machine
end

