-- ==== Sys2Proof/Machine/Loader.lean ====
section
/-! DEFINITION. Where an instruction has to stand so that the very next step fetches and runs it: a host word as the
next write to `CMD`; a stream item as the first one of a run's next engine step (notes/assumptions/17.md). -/

namespace Sys2Proof.Machine

/-- The instruction's bytes at address 0 of `IN`, zeros after them up to `total` bytes, and the cursor before them. -/
def placeBytes (s : State) (bs : List Byte) (total : Nat) : State :=
  { s with
    inMem := Memory.writeAll s.inMem 0 (bs ++ List.replicate (total - bs.length) 0#8),
    inlen := BitVec.ofNat 32 total, ipos := 0#32 }

/-- A run of the unit in progress, nothing pending before its next engine step. -/
def placeRun (s : State) (u : RunUnit) (ph : Word) : State :=
  { s with st := .busy, err := .none, unit := u, abort := false, phase := ph, hostQ := [], loc := {} }

/-- A word as the next write to `CMD`, in a state that accepts it. -/
def placeHostWord (s : State) (w : Word) : State :=
  let s := { s with hostQ := HostEvent.regWr 0x00#7 w :: s.hostQ }
  if s.st = .busy ∨ s.st = .error then { s with st := .idle, err := .none } else s

/-- A BMP command as the first one of a destination with room for the longest run. -/
def placeBmp (s : State) (rle4 : Bool) (bs : List Byte) : State :=
  let s := placeRun (placeBytes s bs 258) .bmp (if rle4 then 1#32 else 0#32)
  { s with width := 256#32, budget := 1024#32, x := 0#32, y := 0#32 }

/-- An SGI control byte as the first one of the one scanline of an image. -/
def placeSgi (s : State) (bs : List Byte) : State :=
  let s := placeRun (placeBytes s bs 128) .sgi 0#32
  { s with
    width := 128#32, height := 1#32, channels := 1#32, bpc := 1#32, chan := 0#32, row := 0#32,
    offtab := Memory.write s.offtab 0 0#32, lentab := Memory.write s.lentab 0 128#32 }

/-- A scanline header as the first item of a run-length scanline of the width it names. -/
def placeHeader (s : State) (bs : List Byte) : State :=
  let s := placeRun (placeBytes s bs 8) .hdr 1#32
  let width : Word := ((bs.getD 2 0#8) ++ (bs.getD 3 0#8) : BitVec 16).setWidth 32
  { s with width := width, height := 1#32, row := 0#32, hdrrle := true }

/-- An HDR control byte as the first one after the header of a scanline of 128 pixels. -/
def placeHdr (s : State) (bs : List Byte) : State :=
  let s := placeRun (placeBytes s ([0x02#8, 0x02#8, 0x00#8, 0x80#8] ++ bs) 133) .hdr 1#32
  { s with width := 128#32, height := 1#32, row := 0#32, hdrrle := true }

/-- A CRW symbol as the first one of a block: the code `0` of tree 0 stands for it, the code `0` of tree 1 for a zero
residual. The terminator needs a block other than the first (R174). -/
def placeSymbol (s : State) (eob : Bool) (sym : Byte) : State :=
  let s := placeRun (placeBytes s [] 32).crwInit .crw 1#32
  { s with
    width := 64#32, height := 2#32, treev0 := true, treev1 := true, tree0 := [⟨1, 0, sym⟩], tree1 := [⟨1, 0, 0x00#8⟩],
    block := if eob then 1#32 else 0#32, column := if eob then 64#32 else 0#32 }

/-- A table specification as the first one of a run of `HUF.BUILD 0`: its bytes stand at `IPOS`. -/
def placeSpec (s : State) (bs : List Byte) : State :=
  placeHostWord (placeBytes s bs bs.length) 0x20000000#32

/-- The state whose next step fetches and runs the encoding. -/
def placeEncoded (s : State) (f : Format) (e : Encoded) : State :=
  match f, e with
  | .host, .word w => placeHostWord s w
  | .bmp rle4, .bytes bs => placeBmp s rle4 bs
  | .sgi, .bytes bs => placeSgi s bs
  | .hdrh, .bytes bs => placeHeader s bs
  | .hdr1, .bytes bs => placeHdr s bs
  | .hsym eob, .bytes bs => placeSymbol s eob (bs.getD 0 0#8)
  | .tspec, .bytes bs => placeSpec s bs
  | _, _ => s

/-- The state whose next step fetches and runs the `nbits` bits `w`, read as `tableForm` reads them. -/
def placeTableWord (s : State) (nbits w : Nat) : State :=
  match tableForm nbits w with
  | some (f, e) => placeEncoded s f e
  | none => s

end Sys2Proof.Machine
end

