-- ==== Sys2Proof/Machine/Step.lean ====
section
/-! DEFINITION. One step of the machine, and the placing of an instruction where the next step fetches it. -/

namespace Sys2Proof.Machine

/-- One step: one host event, one engine step, or nothing (HostPort.lean, `machineStep`). -/
def step (s : State) : Host.Outcome State Fault Refusal := machineStep s

/-- The state whose next step fetches and runs the `nbits` bits `w` (Loader.lean, `placeTableWord`). -/
def State.withFetchWord (s : State) (nbits w : Nat) : State := placeTableWord s nbits w

end Sys2Proof.Machine
end

