-- ==== Sys2Proof/Safety.lean ====
section
/-! DEFINITION. The terms the statements use: the invariants of the machine, what a safe run is, and the measure by
which a run ends. -/

namespace Sys2Proof.Machine

/-! ### Invariants -/

/-- Every memory is in its canonical form. -/
abbrev MemoriesOk (s : State) : Prop :=
  Memory.wf s.inMem = true ∧ Memory.wf s.outMem = true ∧ Memory.wf s.offtab = true ∧ Memory.wf s.lentab = true ∧
    Memory.wf s.scan = true

/-- The bit window is canonical (R29, R132): at most 32 bits, and the bits above `VBITS` are 0. -/
abbrev WindowOk (s : State) : Prop :=
  s.vbits.toNat ≤ 32 ∧ s.bitbuf.toNat < 2 ^ s.vbits.toNat

/-- `STATUS.ERR` is not 0 exactly in `ERROR` (R288), and a run in progress has a unit (R23). -/
abbrev StatusOk (s : State) : Prop :=
  (s.err ≠ .none ↔ s.st = .error) ∧ (s.st = .busy → s.unit ≠ .none)

/-- The code of one leaf is a prefix of (or equal to) the code of another. -/
def codePrefix (e f : TreeEntry) : Bool :=
  decide (e.len ≤ f.len) && f.code >>> (f.len - e.len) == e.code

/-- A tree as R52 describes it: lengths 1 to 16, codes that fit their length, no code a prefix of another's. -/
abbrev TreeOk (t : List TreeEntry) : Prop :=
  (∀ e ∈ t, 1 ≤ e.len ∧ e.len ≤ 16 ∧ e.code < 2 ^ e.len) ∧
    t.Pairwise fun e f => codePrefix e f = false ∧ codePrefix f e = false

/-- Both slots hold trees, and an invalid slot holds nothing (R52; the second half is the model's reading of "its
previous contents are lost", notes/assumptions/13.md). -/
abbrev TreesOk (s : State) : Prop :=
  TreeOk s.tree0 ∧ TreeOk s.tree1 ∧ (s.treev0 = false → s.tree0 = []) ∧ (s.treev1 = false → s.tree1 = [])

/-- No operation is in progress between steps (notes/assumptions/8.md). -/
abbrev LocalsIdle (s : State) : Prop := s.loc = {}

/-- The sizes are within R9's bounds. -/
abbrev ParamsOk (s : State) : Prop :=
  s.params.inSize ≤ 4294967296 ∧ s.params.outSize ≤ 4294967296

/-- Every sample counted by `COLUMN` lies inside `OUT` (R177's bound test). -/
abbrev ColumnOk (s : State) : Prop := 2 * s.column.toNat ≤ s.params.outSize

/-- What a CRW run in progress has made sure of (R181, R182). -/
abbrev CrwRunOk (s : State) : Prop :=
  0 < s.height.toNat ∧ (s.width.toNat * s.height.toNat) % 64 = 0 ∧
    2 * (s.width.toNat * s.height.toNat) ≤ s.params.outSize ∧ s.phase.toNat ≤ 2 ∧
    (s.phase = 1#32 → s.primed = true ∧ s.treev0 = true ∧ s.treev1 = true ∧
      s.column.toNat = 64 * s.block.toNat ∧ 64 * s.block.toNat < s.width.toNat * s.height.toNat) ∧
    (s.phase = 2#32 → s.column.toNat = s.width.toNat * s.height.toNat)

/-- What a BMP run in progress has made sure of (R203, R205). -/
abbrev BmpRunOk (s : State) : Prop :=
  s.phase.toNat ≤ 1 ∧ 1 ≤ bmpRows s ∧ bmpRows s * bmpStride s ≤ s.params.outSize ∧ s.x.toNat ≤ bmpCap s

/-- What an SGI run in progress has made sure of (R231, R236). -/
abbrev SgiRunOk (s : State) : Prop :=
  s.channels.toNat * s.height.toNat ≤ s.params.tabEntries ∧
    s.channels.toNat * s.height.toNat * s.width.toNat ≤ s.params.outSize ∧
    s.chan.toNat < s.channels.toNat ∧ s.row.toNat < s.height.toNat

/-- What an HDR run in progress has made sure of (R256, R257). -/
abbrev HdrRunOk (s : State) : Prop :=
  12 * (s.width.toNat * s.height.toNat) ≤ s.params.outSize ∧ s.row.toNat < s.height.toNat ∧ s.phase.toNat ≤ 1 ∧
    (s.hdrrle = true → Config.hdrRleMin ≤ s.width.toNat ∧ s.width.toNat ≤ Config.hdrRleMax)

/-- While `BUSY`, the configuration passes the start tests of the running unit (the host cannot change it, R21). -/
abbrev RunOk (s : State) : Prop :=
  s.st = .busy → s.inlen.toNat ≤ s.params.inSize ∧ 0 < s.width.toNat ∧ s.unit ≠ .none ∧
    (s.unit = .crw → CrwRunOk s) ∧ (s.unit = .bmp → BmpRunOk s) ∧ (s.unit = .sgi → SgiRunOk s) ∧
    (s.unit = .hdr → HdrRunOk s)

/-- The invariant that keeps every engine access inside its space (R81). -/
abbrev RunInv (s : State) : Prop := ParamsOk s ∧ ColumnOk s ∧ RunOk s

/-! ### Safe steps -/

/-- The step does not leave a memory space, nor any other ground of `Fault`. -/
def Safe (s : State) : Prop := ∀ f, step s ≠ .fault f

/-- A number that every engine step of a run that goes on makes smaller (R288, U17). -/
def runMeasure (s : State) : Nat :=
  match s.unit with
  | .none => 0
  | .crw =>
    if s.phase = 0#32 then s.width.toNat * s.height.toNat / 64 + 2
    else if s.phase = 1#32 then s.width.toNat * s.height.toNat / 64 - s.block.toNat + 1
    else 1
  | .bmp => s.inlen.toNat - s.ipos.toNat
  | .sgi => s.channels.toNat * s.height.toNat - (s.chan.toNat * s.height.toNat + s.row.toNat)
  | .hdr => s.height.toNat - s.row.toNat

end Sys2Proof.Machine
end

