-- ==== Sys2Proof/Safety/Reference.lean ====
section
/-! DEFINITION. The vocabulary of the statements: the data formats written as functions of lists, with no machine
state in them, against which the statements hold the machine. -/

namespace Sys2Proof.Ref

open Sys2Proof.Machine

/-- The stream lies inside `IN`, the test of the prologue (R312). -/
abbrev StreamOk (s : State) : Prop := s.inlen.toNat ≤ s.params.inSize

/-! ### The bit stream (R132, R133, R139) -/

/-- The bytes of the stream from the cursor to its end (R27). -/
def streamTail (s : State) : List Byte :=
  Memory.readAll s.inMem s.ipos.toNat (s.inlen.toNat - s.ipos.toNat)

/-- The bytes without the one that follows each `0xFF`; a last `0xFF` without a follower delivers nothing (R133). -/
def destuff : List Byte → List Byte
  | [] => []
  | [c] => if c = 0xFF#8 then [] else [c]
  | c :: d :: cs => if c = 0xFF#8 then c :: destuff cs else c :: destuff (d :: cs)

/-- The bits of a byte in the order the reader delivers them (R28, R77). -/
def byteBits (order : Bool) (b : Byte) : List Bool :=
  (List.range 8).map fun i => if order then b.getLsbD i else b.getLsbD (7 - i)

/-- The unread bits of the window, the next one first (R29). -/
def windowBits (s : State) : List Bool :=
  (List.range s.vbits.toNat).map fun i =>
    if s.order then s.bitbuf.getLsbD i else s.bitbuf.getLsbD (s.vbits.toNat - 1 - i)

/-- Every unread bit of the stream, the next one first: the window, then the bytes not fetched yet (R132, R139). -/
def streamBits (s : State) : List Bool :=
  windowBits s ++ (if s.stuff then destuff (streamTail s) else streamTail s).flatMap (byteBits s.order)

/-- The number a bit field stands for: the first bit is the most significant one for `ORDER = 0`, the least
significant one for `ORDER = 1` (R134). -/
def bitsValue (order : Bool) (bits : List Bool) : Nat :=
  if order then bits.foldr (fun b n => b.toNat + 2 * n) 0 else bits.foldl (fun n b => 2 * n + b.toNat) 0

/-- How many bits the window gains when `n` are asked of a window of `v` (R133): whole bytes, no more than needed. -/
def refillBits (v n : Nat) : Nat := 8 * ((n - v + 7) / 8)

/-! ### Huffman codes (R52, R152, R156, R158) -/

/-- The bits from the root to a leaf (R52). -/
def codeBits (e : TreeEntry) : List Bool :=
  (List.range e.len).map fun i => e.code.testBit (e.len - 1 - i)

/-- The symbol whose code the bits begin with, and the bits after it. -/
def matchLeaf (t : List TreeEntry) (bits : List Bool) : Option (Byte × List Bool) :=
  (t.find? fun e => (codeBits e).isPrefixOf bits).map fun e => (e.sym, bits.drop e.len)

/-- The length of every code, in the order of the symbols (R119). -/
def leafLengths (counts : List Byte) : List Nat :=
  (counts.zipIdx 1).flatMap fun c => List.replicate c.1.toNat c.2

/-- The canonical code of leaf `k`: the leftmost place of its depth that the leaves before it leave free (R152). -/
def leafCode (lens : List Nat) (k : Nat) : Nat :=
  ((lens.take k).map fun l => 2 ^ (lens.getD k 0 - l)).sum

/-- The canonical tree of a specification (R152). -/
def canonicalLeaves (counts symbols : List Byte) : List TreeEntry :=
  (List.range symbols.length).map fun k =>
    ⟨(leafLengths counts).getD k 0, leafCode (leafLengths counts) k, symbols.getD k 0#8⟩

/-- The part of the code space that the counts take, in units of a code of length 16. -/
def codeSpace (counts : List Byte) : Nat :=
  ((counts.zipIdx 1).map fun c => c.1.toNat * 2 ^ (16 - c.2)).sum

/-- A specification with its 16 counts and its symbols, that does not over-subscribe the code space (R152). -/
abbrev SpecFits (counts symbols : List Byte) : Prop :=
  (Instr.tablespec counts symbols).wf = true ∧ codeSpace counts ≤ 2 ^ 16

/-- How many leaves are made before the code space is full (R152): leaf `k` has no room when the `k` leaves before it
take all of it. -/
def placedLeaves (counts : List Byte) : Nat :=
  let lens := leafLengths counts
  ((List.range lens.length).find? fun k =>
    decide (2 ^ 16 ≤ ((lens.take k).map fun l => 2 ^ (16 - l)).sum)).getD lens.length

/-- A byte sequence that begins with a whole specification that fits (R154). -/
abbrev Loadable (bytes : List Byte) : Prop :=
  16 ≤ bytes.length ∧ 16 + (leafLengths (bytes.take 16)).length ≤ bytes.length ∧ codeSpace (bytes.take 16) ≤ 2 ^ 16

/-- How a walk of the tree that reaches no leaf ends, and the bits it leaves (R156): at the first bit that leads to a
place with no leaf at or below it, or else where the bits end. -/
def codeFault (t : List TreeEntry) (bits : List Bool) : ErrCode × List Bool :=
  match (List.range bits.length).find? fun k => t.all fun e => !(bits.take (k + 1)).isPrefixOf (codeBits e) with
  | some k => (.corrupt, bits.drop (k + 1))
  | none => (.eos, [])

/-- The number `len` raw bits of value `v` stand for (R158). -/
def residualValue (len v : Nat) : Int :=
  if len = 0 then 0 else if 2 ^ (len - 1) ≤ v then (v : Int) else (v : Int) - (2 ^ len - 1)

/-! ### CRW (R171, R175, R177, R179) -/

/-- The bit window as it stands in `t`, everything else as in `s`. -/
def withWindowOf (s t : State) : State :=
  { s with bitbuf := t.bitbuf, vbits := t.vbits, ipos := t.ipos }

/-- What a block decode depends on beside the bits. -/
structure BlockEnv where
  tree0 : List TreeEntry
  tree1 : List TreeEntry
  built0 : Bool
  built1 : Bool
  rule : EobRule
  block : Nat
  order : Bool

/-- The block environment of a state. -/
def blockEnv (s : State) : BlockEnv := ⟨s.tree0, s.tree1, s.treev0, s.treev1, s.params.eobRule, s.block.toNat, s.order⟩

/-- The terminator (R174). -/
def BlockEnv.terminates (p : BlockEnv) (first : Bool) (sym : Byte) : Bool :=
  match p.rule with
  | .firstSymbolNonzeroBlock => first && sym == 0#8 && p.block != 0
  | .nonfirstSymbol => !first && sym == 0#8

/-- The residuals from position `pos` on and the bits left, of at most as many symbols as the first argument (R175);
`none` where the bits end, match no code, or place a symbol outside the block. -/
def blockResiduals (p : BlockEnv) : Nat → Nat → Bool → List Bool → Option (List Int × List Bool)
  | 0, _, _, bits => some ([], bits)
  | fuel + 1, pos, first, bits =>
    if 64 ≤ pos then some ([], bits)
    else
      match matchLeaf (if first then p.tree0 else p.tree1) bits with
      | none => none
      | some (sym, rest) =>
        let run := sym.toNat / 16
        let len := sym.toNat % 16
        if p.terminates first sym then some (List.replicate (64 - pos) 0, rest)
        else if sym = 0xFF#8 then
          (blockResiduals p fuel (pos + 1) false rest).map fun r => (0 :: r.1, r.2)
        else if 64 ≤ pos + run ∨ rest.length < len then none
        else
          (blockResiduals p fuel (pos + run + 1) false (rest.drop len)).map fun r =>
            (List.replicate run 0 ++ residualValue len (bitsValue p.order (rest.take len)) :: r.1, r.2)

/-- The error that a block raises from position `pos` on, the residuals stored until then and the bits left there, of at
most as many symbols as the first argument (R175); `none` where the block is decoded to its end. -/
def blockFault (p : BlockEnv) : Nat → Nat → Bool → List Bool → Option (ErrCode × List Int × List Bool)
  | 0, _, _, _ => none
  | fuel + 1, pos, first, bits =>
    let tree := if first then p.tree0 else p.tree1
    if 64 ≤ pos then none
    else if (if first then p.built0 else p.built1) = false then some (.usage, [], bits)
    else
      match matchLeaf tree bits with
      | none => some ((codeFault tree bits).1, [], (codeFault tree bits).2)
      | some (sym, rest) =>
        let run := sym.toNat / 16
        let len := sym.toNat % 16
        if p.terminates first sym then none
        else if sym = 0xFF#8 then (blockFault p fuel (pos + 1) false rest).map fun r => (r.1, 0 :: r.2.1, r.2.2)
        else if 64 ≤ pos + run then some (.overflow, [], rest)
        else if rest.length < len then some (.eos, [], rest)
        else
          (blockFault p fuel (pos + run + 1) false (rest.drop len)).map fun r =>
            (r.1, List.replicate run 0 ++ residualValue len (bitsValue p.order (rest.take len)) :: r.2.1, r.2.2)

/-- The residual of position `k` with the carry in the first one (R177). -/
def carriedResidual (s : State) (k : Nat) : Word :=
  if k = 0 then diffGet s 0 + s.carry else diffGet s k

/-- The last position at or below `i` that is the first sample of an image row (R177). -/
def lastRowStart (s : State) (i : Nat) : Option Nat :=
  (List.range (i + 1)).reverse.find? fun k => (s.column.toNat + k) % s.width.toNat == 0

/-- The sum of the residuals of one parity at the positions `from .. to` (R177). -/
def paritySum (s : State) (parity lo hi : Nat) : Word :=
  (((List.range (hi + 1)).filter fun k => decide (lo ≤ k) && k % 2 == parity).map (carriedResidual s)).sum

/-- The base of one parity after position `i` of a block (R177): from 512 at the last row start, else from the base
the block began with. -/
def baseAfter (s : State) (parity i : Nat) : Word :=
  match lastRowStart s i with
  | some j => Config.baseReset + paritySum s parity j i
  | none => (if parity = 0 then s.base0 else s.base1) + paritySum s parity 0 i

/-- Element `i` of `OUT` as 16-bit little-endian numbers (R76). -/
def sample (m : Memory 8) (i : Nat) : Nat :=
  (Memory.read m (2 * i)).toNat + 256 * (Memory.read m (2 * i + 1)).toNat

/-- Element `i` of `OUT` as 32-bit little-endian numbers (R76). -/
def element32 (m : Memory 8) (i : Nat) : Nat :=
  (Memory.read m (4 * i)).toNat + 256 * (Memory.read m (4 * i + 1)).toNat +
    65536 * (Memory.read m (4 * i + 2)).toNat + 16777216 * (Memory.read m (4 * i + 3)).toNat

/-- A stuffing pair inside the window of the low-bits detection (R171). -/
def StuffingPairInWindow (s : State) : Prop :=
  ∃ i, s.ipos.toNat ≤ i ∧ i + 1 < s.ipos.toNat + 0x4000 ∧ i + 1 < s.inlen.toNat ∧
    Memory.read s.inMem i = 0xFF#8 ∧ Memory.read s.inMem (i + 1) = 0x00#8

/-! ### BMP (R201, R202, R204) -/

/-- The pixel place at the cursor, places counted row by row; a cursor at the end of a row stands at the first place of
the next one (R203). -/
def bmpPlace (s : State) : Nat := s.y.toNat * bmpCap s + s.x.toNat

/-- The byte of `OUT` that holds pixel place `j` (R201, R202). -/
def placeByte (s : State) (j : Nat) : Nat :=
  j / bmpCap s * bmpStride s + (if s.phase = 0#32 then j % bmpCap s else j % bmpCap s / 2)

/-- The value of pixel place `j` (R201): a byte, or a nibble with the even column in bits 7:4. -/
def pixelAt (s : State) (m : Memory 8) (j : Nat) : Nat :=
  let b := (Memory.read m (placeByte s j)).toNat
  if s.phase = 0#32 then b else if j % bmpCap s % 2 = 0 then b / 16 else b % 16

/-- A destination that a run has accepted, and a cursor inside a row whose places `X` can count. -/
abbrev BmpReady (s : State) : Prop :=
  0 < s.width.toNat ∧ bmpRows s * bmpStride s ≤ s.params.outSize ∧ s.params.outSize ≤ 2 ^ 32 ∧
    bmpCap s < 2 ^ 32 ∧ s.x.toNat ≤ bmpCap s

/-- From `s` to `t` the `n` pixels `v 0, v 1, ...` have been written at the cursor, which stands behind the last of
them, and no other pixel of `OUT` and no other byte of `OUT` has changed (R204). -/
def DrawsPixels (s t : State) (n : Nat) (v : Nat → Nat) : Prop :=
  (n = 0 → t.x = s.x ∧ t.y = s.y) ∧
  (0 < n → 1 ≤ t.x.toNat ∧ t.x.toNat ≤ bmpCap s ∧ t.y.toNat * bmpCap s + t.x.toNat = bmpPlace s + n) ∧
  (∀ k, k < n → pixelAt s t.outMem (bmpPlace s + k) = v k) ∧
  (∀ j, j < bmpPlace s ∨ bmpPlace s + n ≤ j → pixelAt s t.outMem j = pixelAt s s.outMem j) ∧
  (∀ a, (∀ k, k < n → a ≠ placeByte s (bmpPlace s + k)) → Memory.read t.outMem a = Memory.read s.outMem a)

/-- From `s` to `t` the `n` pixels `v 0, v 1, ...` have been written at the cursor, and no pixel before them and no other
byte of `OUT` has changed (R204). -/
def PixelsWritten (s t : State) (n : Nat) (v : Nat → Nat) : Prop :=
  (∀ k, k < n → pixelAt s t.outMem (bmpPlace s + k) = v k) ∧
  (∀ j, j < bmpPlace s → pixelAt s t.outMem j = pixelAt s s.outMem j) ∧
  (∀ a, (∀ k, k < n → a ≠ placeByte s (bmpPlace s + k)) → Memory.read t.outMem a = Memory.read s.outMem a)

/-- `s` with the output memory, the BMP cursor and the stream cursor of `t`. -/
def withDrawing (s t : State) : State :=
  { s with outMem := t.outMem, x := t.x, y := t.y, ipos := t.ipos }

/-! ### SGI (R232 to R235) -/

/-- What the bytes of a scanline expand to, at most `room` bytes, and how many of them are consumed, of at most as many
control bytes as the first argument (R232 to R235); `none` where a run does not fit or is cut off. -/
def sgiExpand : Nat → List Byte → Nat → Option (List Byte × Nat)
  | 0, _, _ => some ([], 0)
  | _ + 1, [], _ => some ([], 0)
  | fuel + 1, ctl :: rest, room =>
    let cnt := ctl.toNat % 128
    if cnt = 0 then some ([], 1)
    else if room < cnt then none
    else if 128 ≤ ctl.toNat then
      if rest.length < cnt then none
      else (sgiExpand fuel (rest.drop cnt) (room - cnt)).map fun r => (rest.take cnt ++ r.1, 1 + cnt + r.2)
    else
      match rest with
      | [] => none
      | v :: rest => (sgiExpand fuel rest (room - cnt)).map fun r => (List.replicate cnt v ++ r.1, 2 + r.2)

/-- The error that the bytes of a scanline raise, what they expand to until then and how many of them are consumed there,
of at most as many control bytes as the first argument (R233, R234); `none` where the scanline ends without one. -/
def sgiFault : Nat → List Byte → Nat → Option (ErrCode × List Byte × Nat)
  | 0, _, _ => none
  | _ + 1, [], _ => none
  | fuel + 1, ctl :: rest, room =>
    let cnt := ctl.toNat % 128
    if cnt = 0 then none
    else if room < cnt then some (.overflow, [], 1)
    else if 128 ≤ ctl.toNat then
      if rest.length < cnt then some (.eos, [], 1)
      else
        (sgiFault fuel (rest.drop cnt) (room - cnt)).map fun r => (r.1, rest.take cnt ++ r.2.1, 1 + cnt + r.2.2)
    else
      match rest with
      | [] => some (.eos, [], 1)
      | v :: rest =>
        (sgiFault fuel rest (room - cnt)).map fun r => (r.1, List.replicate cnt v ++ r.2.1, 2 + r.2.2)

/-- From memory `m` to memory `m'` the bytes `bs` have been written from address `a` on, and no other byte has
changed. -/
def BytesWritten (m m' : Memory 8) (a : Nat) (bs : List Byte) : Prop :=
  (∀ k, k < bs.length → Memory.read m' (a + k) = bs.getD k 0#8) ∧
  (∀ b, b < a ∨ a + bs.length ≤ b → Memory.read m' b = Memory.read m b)

/-- What `SgiLine(c, r)` leaves (R235, R241): `BOUNDS` where the table entry leaves the stream; else what the scanline's
bytes expand to, in the flipped row of its channel, and where they raise an error, that error after the bytes before
it. -/
def LineResult (s : State) (c r : Word) (o : Host.Outcome State Fault Refusal) : Prop :=
  let off := (Memory.read s.offtab (c.toNat * s.height.toNat + r.toNat)).toNat
  let len := (Memory.read s.lentab (c.toNat * s.height.toNat + r.toNat)).toNat
  let dst := (c.toNat * s.height.toNat + (s.height.toNat - 1 - r.toNat)) * s.width.toNat
  let bytes := Memory.readAll s.inMem off len
  let begun : State := { s with chan := c, row := r, x := 0#32, primed := false }
  (s.inlen.toNat < off + len → o = .next (begun.raise .bounds)) ∧
  (∀ bs used, off + len ≤ s.inlen.toNat → sgiExpand (len + 1) bytes s.width.toNat = some (bs, used) →
    ∃ t, o = .next t ∧
      t = { begun with
        x := BitVec.ofNat 32 bs.length, ipos := BitVec.ofNat 32 (off + used), outMem := t.outMem, loc := {} } ∧
      BytesWritten s.outMem t.outMem dst bs) ∧
  (∀ e bs used, off + len ≤ s.inlen.toNat → sgiFault (len + 1) bytes s.width.toNat = some (e, bs, used) →
    ∃ t, o = .next t ∧
      t = ({ begun with
        x := BitVec.ofNat 32 bs.length, ipos := BitVec.ofNat 32 (off + used), outMem := t.outMem } : State).raise e ∧
      BytesWritten s.outMem t.outMem dst bs)

/-! ### HDR (R253, R258 to R260) -/

/-- One plane of `room` bytes and the bytes after it, of at most as many control bytes as the first argument (R258
to R261); `none` where a run does not fit or is cut off, or a control byte is 0. -/
def hdrPlane : Nat → List Byte → Nat → Option (List Byte × List Byte)
  | 0, bytes, _ => some ([], bytes)
  | fuel + 1, bytes, room =>
    if room = 0 then some ([], bytes)
    else
      match bytes with
      | [] => none
      | ctl :: rest =>
        if ctl = 0#8 then none
        else if 128 < ctl.toNat then
          match rest with
          | [] => none
          | v :: rest =>
            let cnt := ctl.toNat - 128
            if room < cnt then none
            else (hdrPlane fuel rest (room - cnt)).map fun r => (List.replicate cnt v ++ r.1, r.2)
        else
          let cnt := ctl.toNat
          if room < cnt ∨ rest.length < cnt then none
          else (hdrPlane fuel (rest.drop cnt) (room - cnt)).map fun r => (rest.take cnt ++ r.1, r.2)

/-- The error that the bytes of a plane of `room` bytes raise and the bytes left there, of at most as many control bytes
as the first argument (R259 to R261); `none` where the plane is decoded. -/
def hdrPlaneFault : Nat → List Byte → Nat → Option (ErrCode × List Byte)
  | 0, _, _ => none
  | fuel + 1, bytes, room =>
    if room = 0 then none
    else
      match bytes with
      | [] => some (.eos, [])
      | ctl :: rest =>
        if ctl = 0#8 then some (.corrupt, rest)
        else if 128 < ctl.toNat then
          if room < ctl.toNat - 128 then some (.overflow, rest)
          else
            match rest with
            | [] => some (.eos, [])
            | _ :: rest => hdrPlaneFault fuel rest (room - (ctl.toNat - 128))
        else if room < ctl.toNat then some (.overflow, rest)
        else if rest.length < ctl.toNat then some (.eos, [])
        else hdrPlaneFault fuel (rest.drop ctl.toNat) (room - ctl.toNat)

/-- The error that the first of `n` planes to raise one raises, and the bytes left there (R258). -/
def hdrPlanesFault (width : Nat) : Nat → List Byte → Option (ErrCode × List Byte)
  | 0, _ => none
  | n + 1, bytes =>
    match hdrPlane width bytes width with
    | some (_, rest) => hdrPlanesFault width n rest
    | none => hdrPlaneFault width bytes width

/-- The error that the bytes of a run-length scanline raise and the bytes left there (R258): a header that the stream
cuts or that does not match, or a plane; `none` where the scanline is decoded. -/
def hdrScanFault (width : Nat) : List Byte → Option (ErrCode × List Byte)
  | h0 :: h1 :: hi :: lo :: body =>
    if h0 = 0x02#8 ∧ h1 = 0x02#8 ∧ hi.toNat < 128 ∧ 256 * hi.toNat + lo.toNat = width then hdrPlanesFault width 4 body
    else some (.corrupt, body)
  | _ => some (.eos, [])

/-- The number of a non-negative finite binary32 pattern, as a multiple of `2^-149`. -/
def binary32Scaled (w : Word) : Nat :=
  let exponent := w.toNat / 2 ^ 23 % 256
  let fraction := w.toNat % 2 ^ 23
  if exponent = 0 then fraction else (2 ^ 23 + fraction) * 2 ^ (exponent - 1)

/-- The 32-bit elements of one scanline (R252): pixel after pixel, the patterns of R, G and B. -/
def scanlineElements (width : Nat) (r g b e : List Byte) : List Word :=
  (List.range width).flatMap fun x =>
    [f32 (r.getD x 0#8) (e.getD x 0#8), f32 (g.getD x 0#8) (e.getD x 0#8), f32 (b.getD x 0#8) (e.getD x 0#8)]

/-- From memory `m` to memory `m'` the 32-bit elements `es` have been written from element `i` on, and no other byte
has changed. -/
def ElementsWritten (m m' : Memory 8) (i : Nat) (es : List Word) : Prop :=
  (∀ k, k < es.length → element32 m' (i + k) = (es.getD k 0#32).toNat) ∧
  (∀ b, b < 4 * i ∨ 4 * (i + es.length) ≤ b → Memory.read m' b = Memory.read m b)

/-! ### The host's side -/

/-- The instructions that write `RESULT` (R25, R284). -/
def WritesResult (i : Instr) : Prop :=
  i = .reset ∨ (∃ n, i = .brRead n) ∨ (∃ n, i = .brPeek n) ∨ (∃ k, i = .hufDecode k) ∨ (∃ n, i = .hufResid n) ∨
    i = .crwDetect

/-- The bits of a register that a host write stores (R21, R286): all of an `RW` register but its reserved bits. -/
def writeMask (idx : BitVec 7) : Word :=
  match idx.toNat with
  | 0x02 => 0x1#32
  | 0x04 => 0xFFFFFFFF#32
  | 0x05 => 0xFFFFFFFF#32
  | 0x06 => 0x3#32
  | 0x09 => 0xFFFFFFFF#32
  | 0x0A => 0xFFFFFFFF#32
  | 0x0B => 0xFFFFFFFF#32
  | 0x0C => 0xFFFFFFFF#32
  | 0x0D => 0xFFFFFFFF#32
  | 0x0E => 0xFFFFFFFF#32
  | 0x0F => 0x1#32
  | 0x10 => 0xFFFFFFFF#32
  | _ => 0x0#32

/-- The engine takes any legal command word (R281). -/
abbrev Accepts (s : State) : Prop := s.st = .idle ∨ s.st = .done ∨ s.st = .aborted

/-! ### Runs -/

/-- The state after `n` steps, if none of them faults or refuses. -/
def stepsFrom : Nat → State → Option State
  | 0, s => some s
  | n + 1, s =>
    match step s with
    | .next t => stepsFrom n t
    | .fault _ => none
    | .refused _ => none

end Sys2Proof.Ref
end

