-- ==== Sys2Proof/Certificates/Slice0/Obligations.lean ====
section
/-! DEFINITION. The statements for the provers. Each docstring names the rules of spec/ it formalises, and the log entry
of notes/assumptions where it rests on a choice of the model. -/

open Sys2Proof
open Sys2Proof.Machine
open Sys2Proof.Ref

/-! ### Encoding -/

/-- R101 to R119: decoding the encoding of a well-formed instruction gives the instruction, with every operand. -/
def Obligations.DecodeEncodeAgree : Prop :=
  ∀ i : Instr, i.wf = true → decode i.format (encode i) = .instr i

/-- R101 to R119: what the decoder reads is well formed and encodes to the bits it was read from, so two different
encodings never give one instruction. -/
def Obligations.DecodedInstructionsReencode : Prop :=
  ∀ (f : Format) (e : Encoded) (i : Instr), decode f e = .instr i →
    i.wf = true ∧
      match e, encode i with
      | .word w, .word v => v = w
      | .bytes bs, .bytes own => own <+: bs
      | _, _ => False

/-- R104, R105: no word belongs to two rows of the host map, and the words of no row are exactly those that decode to
the illegal command word. -/
def Obligations.HostMapLegality : Prop :=
  (∀ w : Word, (hostRows.filter fun r => r.accepts w).length ≤ 1) ∧
  (∀ w : Word, legalHostWord w = false ↔
    decodeHost w = .illegalHostWord (w.extractLsb' 24 8) (w.extractLsb' 16 8) (w.extractLsb' 0 16))

/-- Encodings of every format, written out from R102, R111, R113, R115, R116, R118, R119; the last is the example of
R153. -/
def Obligations.SampleWordsDecode : Prop :=
  decode .host (.word 0x11190000#32) = .instr (.brRead 25#8) ∧
  decode .host (.word 0x22010000#32) = .instr (.hufDecode 1#1) ∧
  decode .host (.word 0x51020003#32) = .instr (.sgiLine 2#8 3#16) ∧
  decode .host (.word 0x30000001#32) = .instr (.illegalHostWord 0x30#8 0#8 1#16) ∧
  decode (.bmp true) (.bytes [0x05#8, 0x06#8]) = .instr (.bmpRun4 5#8 0#4 6#4) ∧
  decode (.bmp false) (.bytes [0x00#8, 0x03#8]) = .instr (.bmpAbs8 3#8) ∧
  decode .sgi (.bytes [0x82#8]) = .instr (.sgiVerbatim 2#7) ∧
  decode .hdrh (.bytes [0x02#8, 0x02#8, 0x01#8, 0x08#8]) = .instr (.hdrHeader 264#15) ∧
  decode .hdr1 (.bytes [0x80#8]) = .instr (.hdrLiteral 128#8) ∧
  decode .hdr1 (.bytes [0x88#8]) = .instr (.hdrRepeat 8#7) ∧
  decode (.hsym false) (.bytes [0x23#8]) = .instr (.crwResid 2#4 3#4) ∧
  decode .tspec (.bytes
      [1#8, 1#8, 2#8, 0#8, 0#8, 0#8, 0#8, 0#8, 0#8, 0#8, 0#8, 0#8, 0#8, 0#8, 0#8, 0#8, 0x00#8, 0x12#8, 0x23#8, 0xFF#8]) =
    .instr (.tablespec
      [1#8, 1#8, 2#8, 0#8, 0#8, 0#8, 0#8, 0#8, 0#8, 0#8, 0#8, 0#8, 0#8, 0#8, 0#8, 0#8] [0x00#8, 0x12#8, 0x23#8, 0xFF#8])

/-! ### System commands and errors -/

/-- R283, R285: `NOP` does nothing; `CLEAR` acknowledges and keeps everything else. -/
def Obligations.NopAndClear : Prop :=
  ∀ s : State,
    exec .nop s = .next s ∧
    exec .clear s =
      .next { s with st := .idle, err := .none, cmdDrop := false, unit := .none, endr := .none, abort := false }

/-- R59, R284, R340, R342: after `RESET` and after a hard reset every register reads 0 and both trees are empty; `IN`
and the tables keep their contents, and so does `OUT`, but that a hard reset in a step leaves each bit of `OUT` as
it was or as the abandoned step would have left it (U7; notes/assumptions/14.md). What the model keeps beside the
spec's state is its own choice (notes/assumptions/7.md, 21.md). -/
def Obligations.ResetBothWays : Prop :=
  (∀ s : State, ∃ t, exec .reset s = .next t ∧ (∀ idx, readRegister t idx = 0#32) ∧ t.tree0 = [] ∧ t.tree1 = [] ∧
    t.inMem = s.inMem ∧ t.outMem = s.outMem ∧ t.offtab = s.offtab ∧ t.lentab = s.lentab ∧ t.params = s.params ∧
    t.hostQ = s.hostQ) ∧
  (∀ (s : State) (q : List HostEvent), s.hostQ = .hardReset :: q →
    ∃ t, step s = .next t ∧ (∀ idx, readRegister t idx = 0#32) ∧ t.tree0 = [] ∧ t.tree1 = [] ∧
      t.inMem = s.inMem ∧ t.offtab = s.offtab ∧ t.lentab = s.lentab ∧ t.params = s.params ∧ t.hostQ = q ∧
      (s.st ≠ .busy → t.outMem = s.outMem) ∧
      (∀ u, s.st = .busy → engineStep { s with hostQ := q } = .next u → ∀ (a i : Nat),
        (Memory.read t.outMem a).getLsbD i = (Memory.read s.outMem a).getLsbD i ∨
        (Memory.read t.outMem a).getLsbD i = (Memory.read u.outMem a).getLsbD i))

/-- R104, R304: an accepted word of no legal command raises `ILLEGAL`: `ERRPOS` saves `IPOS`, `ERR` and `ST` are
written, and nothing else of the block changes. -/
def Obligations.IllegalWordRaises : Prop :=
  (∀ (op a : BitVec 8) (b : BitVec 16) (s : State), exec (.illegalHostWord op a b) s =
    .next { s with errpos := s.ipos, err := .illegal, st := .error, loc := {} }) ∧
  (∀ (s : State) (w : Word) (q : List HostEvent), legalHostWord w = false → Accepts s →
    s.hostQ = .regWr 0x00#7 w :: q →
    step s = .next { s with hostQ := q, errpos := s.ipos, err := .illegal, st := .error, loc := {} })

/-- R312: where `INLEN > IN_SIZE`, every command whose rule reads `IN` raises `CONFIG` and changes nothing else. For
`BMP.RUN` and the two SGI commands the order of the tests is the model's reading (notes/assumptions/11.md, 12.md). -/
def Obligations.PrologueRefusesLongStream : Prop :=
  ∀ (s : State) (i : Instr), s.params.inSize < s.inlen.toNat →
    ((∃ n, i = .brRead n) ∨ (∃ n, i = .brPeek n) ∨ (∃ k, i = .hufBuild k) ∨ (∃ k, i = .hufDecode k) ∨
      (∃ n, i = .hufResid n) ∨ i = .crwDetect ∨ i = .crwBlock ∨ i = .crwMerge ∨ i = .crwRun ∨
      (∃ m, i = .bmpRun m) ∨ i = .sgiRun ∨ (∃ c r, i = .sgiLine c r) ∨ i = .hdrRun) →
    exec i s = .next (s.raise .config)

/-- R25, R284, R340: only the five commands that return a value, and `RESET`, write `RESULT`; no engine step does; so a
step changes it only where one of those words is written to `CMD`, or at a hard reset. -/
def Obligations.ResultWriters : Prop :=
  (∀ (i : Instr) (s t : State), exec i s = .next t → t.result ≠ s.result → WritesResult i) ∧
  (∀ s t : State, engineStep s = .next t → t.result = s.result) ∧
  (∀ s t : State, step s = .next t → t.result ≠ s.result →
    (∃ q, s.hostQ = .hardReset :: q) ∨ ∃ w q, s.hostQ = .regWr 0x00#7 w :: q ∧ WritesResult (decodeHost w))

/-! ### The bit reader -/

/-- R131, R172: `BR.PRIME` empties the window; `CRW.INIT` puts the CRW pipeline in its start-of-image state. -/
def Obligations.PrimeAndInit : Prop :=
  ∀ s : State,
    exec .brPrime s = .next { s with bitbuf := 0#32, vbits := 0#6, primed := true } ∧
    exec .crwInit s =
      .next { s with
        column := 0#32, block := 0#32, carry := 0#32, base0 := 512#32, base1 := 512#32,
        diffbuf := Vector.replicate 64 0#32, order := false, stuff := true,
        bitbuf := 0#32, vbits := 0#6, primed := true }

/-- R133 to R135, R139, R140: `BR.READ n` returns the next `n` bits of the stream and consumes them, fetching no more
bytes than it needs; only `RESULT`, the window and the cursor change. -/
def Obligations.BrReadTakesNextField : Prop :=
  ∀ (s : State) (n : BitVec 8), StreamOk s → s.primed = true → WindowOk s → n.toNat ≤ 25 →
    n.toNat ≤ (streamBits s).length →
    ∃ t, exec (.brRead n) s = .next t ∧ t = { withWindowOf s t with result := t.result } ∧
      t.result.toNat = bitsValue s.order ((streamBits s).take n.toNat) ∧
      streamBits t = (streamBits s).drop n.toNat ∧ WindowOk t ∧
      t.vbits.toNat + n.toNat = s.vbits.toNat + refillBits s.vbits.toNat n.toNat

/-- R136 to R138: `BR.PEEK n` returns the next `n` bits and consumes none, keeping the refill; `BR.SKIP n` drops the
next `n` bits of the window and fetches nothing. -/
def Obligations.BrPeekAndSkip : Prop :=
  (∀ (s : State) (n : BitVec 8), StreamOk s → s.primed = true → WindowOk s → n.toNat ≤ 25 →
    n.toNat ≤ (streamBits s).length →
    ∃ t, exec (.brPeek n) s = .next t ∧ t = { withWindowOf s t with result := t.result } ∧
      t.result.toNat = bitsValue s.order ((streamBits s).take n.toNat) ∧
      streamBits t = streamBits s ∧ WindowOk t ∧
      t.vbits.toNat = s.vbits.toNat + refillBits s.vbits.toNat n.toNat) ∧
  (∀ (s : State) (n : BitVec 8), s.primed = true → WindowOk s → n.toNat ≤ s.vbits.toNat →
    ∃ t, exec (.brSkip n) s = .next t ∧ t = { s with bitbuf := t.bitbuf, vbits := t.vbits } ∧
      t.vbits.toNat + n.toNat = s.vbits.toNat ∧ windowBits t = (windowBits s).drop n.toNat ∧ WindowOk t)

/-- R135, R137, R138: a field asked of an unprimed reader or longer than 25 bits, and a skip of more bits than the window
holds, raise `USAGE`; a stream that ends before the field raises `EOS`; nothing else changes. -/
def Obligations.BitFieldFaults : Prop :=
  (∀ (s : State) (n : BitVec 8), StreamOk s → s.primed = false ∨ 25 < n.toNat →
    exec (.brRead n) s = .next (s.raise .usage) ∧ exec (.brPeek n) s = .next (s.raise .usage)) ∧
  (∀ (s : State) (n : BitVec 8), StreamOk s → s.primed = true → WindowOk s → n.toNat ≤ 25 →
    (streamBits s).length < n.toNat →
    exec (.brRead n) s = .next (s.raise .eos) ∧ exec (.brPeek n) s = .next (s.raise .eos)) ∧
  (∀ (s : State) (n : BitVec 8), s.primed = false ∨ s.vbits.toNat < n.toNat →
    exec (.brSkip n) s = .next (s.raise .usage))

/-- R139: the split of the reads does not matter; two reads of `a` and `b` bits leave what one read of `a + b` bits
leaves, and their fields together are its field. -/
def Obligations.SplitReadsAgree : Prop :=
  ∀ (s s₁ s₂ : State) (a b u v : Nat), WindowOk s → a + b ≤ 25 →
    readBits a s = .ok u s₁ → readBits b s₁ = .ok v s₂ →
    readBits (a + b) s = .ok (if s.order then u + 2 ^ a * v else 2 ^ b * u + v) s₂

/-! ### Huffman -/

/-- R152, R153: `HUF.BUILD s` on a specification that fits builds the canonical tree in slot `s` and moves the cursor
past the specification. -/
def Obligations.HufBuildCanonical : Prop :=
  ∀ (s : State) (slot : BitVec 1) (counts symbols : List Byte), StreamOk s → SpecFits counts symbols →
    counts ++ symbols <+: streamTail s →
    exec (.hufBuild slot) s =
      .next { s.withTree slot true (canonicalLeaves counts symbols) with
        primed := false, ipos := s.ipos + BitVec.ofNat 32 (16 + symbols.length) }

/-- R152, R153: the errors of `HUF.BUILD`. A stream that ends inside the counts, or before the symbol of a leaf that has
room, raises `EOS`; counts that over-subscribe the code space raise `TABLE` once every leaf that has room has its symbol.
The slot is invalid afterwards, with no tree in it (notes/assumptions/13.md), the reader is not primed, and the cursor
stands after the last byte fetched. -/
def Obligations.HufBuildFaults : Prop :=
  (∀ (s : State) (slot : BitVec 1), StreamOk s → (streamTail s).length < 16 →
    exec (.hufBuild slot) s =
      .next (({ s.withTree slot false [] with
        primed := false, ipos := s.ipos + BitVec.ofNat 32 (streamTail s).length } : State).raise .eos)) ∧
  (∀ (s : State) (slot : BitVec 1) (counts symbols : List Byte), StreamOk s → counts.length = 16 →
    streamTail s = counts ++ symbols →
    (symbols.length < placedLeaves counts →
      exec (.hufBuild slot) s =
        .next (({ s.withTree slot false [] with
          primed := false, ipos := s.ipos + BitVec.ofNat 32 (16 + symbols.length) } : State).raise .eos)) ∧
    (placedLeaves counts ≤ symbols.length → 2 ^ 16 < codeSpace counts →
      exec (.hufBuild slot) s =
        .next (({ s.withTree slot false [] with
          primed := false, ipos := s.ipos + BitVec.ofNat 32 (16 + placedLeaves counts) } : State).raise .table)))

/-- R119, R152, R154: `HUF.LOADT` builds both trees from the table pair that `TABLE`, clamped to 2, selects; a
specification that is over-subscribed or shorter than its counts say raises `TABLE`, with its slot invalid and empty
(notes/assumptions/13.md) and nothing else changed but the first tree when it is the second's. A table specification in
hand is built into the slot of the operation that reads it (the model's reading of a specification as an instruction,
notes/assumptions/23.md). -/
def Obligations.TablesBuildCanonical : Prop :=
  (∀ (s : State) (c₀ y₀ e₀ c₁ y₁ e₁ : List Byte),
    s.params.tabrom.spec (min s.table.toNat 2) false = c₀ ++ y₀ ++ e₀ →
    s.params.tabrom.spec (min s.table.toNat 2) true = c₁ ++ y₁ ++ e₁ → SpecFits c₀ y₀ → SpecFits c₁ y₁ →
    exec .hufLoadt s =
      .next ((s.withTree 0#1 true (canonicalLeaves c₀ y₀)).withTree 1#1 true (canonicalLeaves c₁ y₁))) ∧
  (∀ s : State, ¬ Loadable (s.params.tabrom.spec (min s.table.toNat 2) false) →
    exec .hufLoadt s = .next ((s.withTree 0#1 false []).raise .table)) ∧
  (∀ (s : State) (c₀ y₀ e₀ : List Byte), s.params.tabrom.spec (min s.table.toNat 2) false = c₀ ++ y₀ ++ e₀ →
    SpecFits c₀ y₀ → ¬ Loadable (s.params.tabrom.spec (min s.table.toNat 2) true) →
    exec .hufLoadt s =
      .next (((s.withTree 0#1 true (canonicalLeaves c₀ y₀)).withTree 1#1 false []).raise .table)) ∧
  (∀ (s : State) (counts symbols : List Byte), SpecFits counts symbols →
    exec (.tablespec counts symbols) s = .next (s.withTree s.loc.slot true (canonicalLeaves counts symbols))) ∧
  (∀ (s : State) (counts symbols : List Byte), (Instr.tablespec counts symbols).wf = true → 2 ^ 16 < codeSpace counts →
    exec (.tablespec counts symbols) s = .next ((s.withTree s.loc.slot false []).raise .table))

/-- R156, R157: `HUF.DECODE s` returns the symbol of the leaf whose code the stream goes on with, and consumes exactly
that code. -/
def Obligations.HufDecodeFindsLeaf : Prop :=
  ∀ (s : State) (slot : BitVec 1) (e : TreeEntry), StreamOk s → s.primed = true → WindowOk s →
    treeValid s slot = true → TreeOk (treeOf s slot) → e ∈ treeOf s slot → codeBits e <+: streamBits s →
    ∃ t, exec (.hufDecode slot) s = .next t ∧
      t = { withWindowOf s t with result := e.sym.setWidth 32 } ∧
      streamBits t = (streamBits s).drop e.len ∧ WindowOk t ∧
      t.vbits.toNat + e.len = s.vbits.toNat + refillBits s.vbits.toNat e.len

/-- R156, R157: a slot that is not built and a reader that is not primed raise `USAGE` with nothing else changed. Bits that
begin with no code of the tree raise an error with only the window moved: `CORRUPT` after the first bit that leads to a
place with no leaf at or below it, `EOS` where the bits end before. -/
def Obligations.HufDecodeFaults : Prop :=
  (∀ (s : State) (slot : BitVec 1), StreamOk s → treeValid s slot = false ∨ s.primed = false →
    exec (.hufDecode slot) s = .next (s.raise .usage)) ∧
  (∀ (s : State) (slot : BitVec 1) (e : ErrCode) (rest : List Bool), StreamOk s → s.primed = true → WindowOk s →
    treeValid s slot = true → TreeOk (treeOf s slot) → matchLeaf (treeOf s slot) (streamBits s) = none →
    codeFault (treeOf s slot) (streamBits s) = (e, rest) →
    ∃ t, exec (.hufDecode slot) s = .next t ∧ t = (withWindowOf s t).raise e ∧ streamBits t = rest ∧ WindowOk t ∧
      t.vbits.toNat + ((streamBits s).length - rest.length) =
        s.vbits.toNat + refillBits s.vbits.toNat ((streamBits s).length - rest.length))

/-- R158, R159, R348: `HUF.RESID len` returns the signed number that the next `len` bits stand for; with `len = 0` it
returns 0 and reads nothing. A reader that is not primed raises `USAGE`, whatever `len` is (for `len = 0` the model follows
R159 and R348 against the pseudocode of R158, notes/assumptions/10.md), a stream that ends before the bits raises `EOS`,
and nothing else changes. -/
def Obligations.HufResidValue : Prop :=
  (∀ (s : State) (len : BitVec 4), StreamOk s → s.primed = true → WindowOk s → len.toNat ≤ (streamBits s).length →
    ∃ t, exec (.hufResid len) s = .next t ∧ t = { withWindowOf s t with result := t.result } ∧
      t.result = BitVec.ofInt 32 (residualValue len.toNat (bitsValue s.order ((streamBits s).take len.toNat))) ∧
      streamBits t = (streamBits s).drop len.toNat ∧ WindowOk t) ∧
  (∀ s : State, StreamOk s → s.primed = true → exec (.hufResid 0#4) s = .next { s with result := 0#32 }) ∧
  (∀ (s : State) (len : BitVec 4), StreamOk s → s.primed = false → exec (.hufResid len) s = .next (s.raise .usage)) ∧
  (∀ (s : State) (len : BitVec 4), StreamOk s → s.primed = true → WindowOk s → (streamBits s).length < len.toNat →
    exec (.hufResid len) s = .next (s.raise .eos))

/-! ### CRW -/

/-- R171: low bits are reported present exactly when the window holds no `FF 00` pair; only `FLAGS.LOWBITS` and `RESULT`
change. -/
def Obligations.CrwDetectReportsLowBits : Prop :=
  ∀ s : State, StreamOk s →
    (StuffingPairInWindow s → exec .crwDetect s = .next { s with lowbits := false, result := 0#32 }) ∧
    (¬ StuffingPairInWindow s → exec .crwDetect s = .next { s with lowbits := true, result := 1#32 })

/-- R173 to R176: where no symbol of the block raises an error (a block that ends on its first symbol asks for no second
tree), `CRW.BLOCK` leaves in `DIFFBUF` the 64 residuals that the bit stream encodes, and the stream after their last bit. Without a primed reader or a first tree it raises `USAGE` with `DIFFBUF` cleared; where a symbol or its
bits raise an error (`USAGE` without a second tree, `EOS`, `CORRUPT`, `OVERFLOW`), `DIFFBUF` holds the residuals stored so
far and the window stands where the error was raised. -/
def Obligations.CrwBlockDecodesResiduals : Prop :=
  (∀ (s : State) (residuals : List Int) (rest : List Bool), StreamOk s → s.primed = true → WindowOk s →
    TreeOk s.tree0 → TreeOk s.tree1 → blockFault (blockEnv s) 64 0 true (streamBits s) = none →
    blockResiduals (blockEnv s) 64 0 true (streamBits s) = some (residuals, rest) →
    ∃ t, exec .crwBlock s = .next t ∧ t = { withWindowOf s t with diffbuf := t.diffbuf, loc := {} } ∧
      residuals.length = 64 ∧ (∀ i, i < 64 → diffGet t i = BitVec.ofInt 32 (residuals.getD i 0)) ∧
      streamBits t = rest ∧ WindowOk t) ∧
  (∀ s : State, StreamOk s → s.primed = false ∨ s.treev0 = false →
    exec .crwBlock s = .next (({ s with diffbuf := Vector.replicate 64 0#32 } : State).raise .usage)) ∧
  (∀ (s : State) (e : ErrCode) (residuals : List Int) (rest : List Bool), StreamOk s → s.primed = true → WindowOk s →
    TreeOk s.tree0 → TreeOk s.tree1 →
    blockFault (blockEnv s) 64 0 true (streamBits s) = some (e, residuals, rest) →
    ∃ t, exec .crwBlock s = .next t ∧ t = ({ withWindowOf s t with diffbuf := t.diffbuf } : State).raise e ∧
      (∀ i, i < 64 → diffGet t i = BitVec.ofInt 32 (residuals.getD i 0)) ∧ streamBits t = rest ∧ WindowOk t)

/-- R177, R178: `CRW.RECON` adds the carry into the first residual, and sample `i` of the block is the low 16 bits of the
base of parity `i & 1` after position `i`; no other byte of `OUT` changes. -/
def Obligations.CrwReconWritesSamples : Prop :=
  ∀ s : State, s.params.outSize ≤ 2 ^ 32 → 0 < s.width.toNat →
    s.column.toNat + 64 ≤ s.width.toNat * s.height.toNat → 2 * (s.column.toNat + 64) ≤ s.params.outSize →
    ∃ t, exec .crwRecon s = .next t ∧
      t = { s with
        outMem := t.outMem, diffbuf := t.diffbuf, carry := diffGet s 0 + s.carry, column := s.column + 64#32,
        base0 := baseAfter s 0 63, base1 := baseAfter s 1 63, block := s.block + 1#32 } ∧
      (∀ i, diffGet t i = carriedResidual s i) ∧
      (∀ i, i < 64 → sample t.outMem (s.column.toNat + i) = (baseAfter s (i % 2) i).toNat % 65536) ∧
      (∀ a, a < 2 * s.column.toNat ∨ 2 * s.column.toNat + 128 ≤ a →
        Memory.read t.outMem a = Memory.read s.outMem a)

/-- R177: `WIDTH = 0` raises `CONFIG`; a block that leaves the image or `OUT` raises `OVERFLOW` at the first sample that
does, be it the first of the block, with the samples before it written, the carry and the residuals up to it applied and
`BLOCK` as it was. -/
def Obligations.CrwReconFaults : Prop :=
  (∀ s : State, s.width = 0#32 → exec .crwRecon s = .next (s.raise .config)) ∧
  (∀ (s : State) (limit written : Nat), s.params.outSize ≤ 2 ^ 32 → 0 < s.width.toNat →
    limit = min (s.width.toNat * s.height.toNat) (s.params.outSize / 2) →
    written = limit - s.column.toNat → limit < s.column.toNat + 64 →
    ∃ t, exec .crwRecon s = .next t ∧
      t = ({ s with
        outMem := t.outMem, diffbuf := t.diffbuf, carry := diffGet s 0 + s.carry,
        column := s.column + BitVec.ofNat 32 written,
        base0 := baseAfter s 0 written, base1 := baseAfter s 1 written } : State).raise .overflow ∧
      (∀ i, diffGet t i = carriedResidual s i) ∧
      (∀ i, i < written →
        sample t.outMem (s.column.toNat + i) = (baseAfter s (i % 2) i).toNat % 65536) ∧
      (∀ a, a < 2 * s.column.toNat ∨ 2 * (s.column.toNat + written) ≤ a →
        Memory.read t.outMem a = Memory.read s.outMem a))

/-- R179: `CRW.MERGE` shifts two low bits, least significant pair of each byte first, into every sample that `COLUMN`
counts, and changes nothing else; a sub-stream that does not fit raises `EOS` before any sample is changed (with no
samples and `LBADDR > INLEN` that is the model's reading, notes/assumptions/25.md). -/
def Obligations.CrwMergeLowBits : Prop :=
  ∀ s : State, StreamOk s →
    (s.lbaddr.toNat + (s.column.toNat + 3) / 4 ≤ s.inlen.toNat → 2 * s.column.toNat ≤ s.params.outSize →
      ∃ t, exec .crwMerge s = .next t ∧ t = { s with outMem := t.outMem } ∧
        (∀ k, k < s.column.toNat → sample t.outMem k =
          (4 * sample s.outMem k + (Memory.read s.inMem (s.lbaddr.toNat + k / 4)).toNat / 4 ^ (k % 4) % 4) % 65536) ∧
        (∀ a, 2 * s.column.toNat ≤ a → Memory.read t.outMem a = Memory.read s.outMem a)) ∧
    (s.inlen.toNat < s.lbaddr.toNat + (s.column.toNat + 3) / 4 → exec .crwMerge s = .next (s.raise .eos))

/-- R181: `CRW.RUN` starts a run exactly when the image is whole blocks that fit `OUT` and the stream lies inside `IN`;
otherwise it raises `CONFIG` and changes nothing else. -/
def Obligations.CrwRunStarts : Prop :=
  ∀ s : State,
    ((0 < s.width.toNat ∧ 0 < s.height.toNat ∧ s.width.toNat * s.height.toNat % 64 = 0 ∧
        2 * (s.width.toNat * s.height.toNat) ≤ s.params.outSize ∧ StreamOk s) →
      exec .crwRun s =
        .next { s with abort := false, unit := .crw, endr := .none, phase := 0#32, st := .busy }) ∧
    (¬ (0 < s.width.toNat ∧ 0 < s.height.toNat ∧ s.width.toNat * s.height.toNat % 64 = 0 ∧
        2 * (s.width.toNat * s.height.toNat) ≤ s.params.outSize ∧ StreamOk s) →
      exec .crwRun s = .next (s.raise .config))

/-- R174 to R176: what each class of symbol does to the block. The terminator leaves the loop, in every state (its
condition is tested by the loop, notes/assumptions/24.md) and by a flag of the model's own (notes/assumptions/8.md);
`0xFF` advances one position; the others skip `run` positions and, with raw bits, store a residual, or raise `OVERFLOW`
when the position is outside the block. -/
def Obligations.CrwSymbolClasses : Prop :=
  (∀ s : State, exec .crwEob s = .next { s with loc := { s.loc with ended := true } }) ∧
  (∀ s : State, exec .crwContinue s =
    .next { s with loc := { s.loc with notFirst := true, pos := s.loc.pos + 1 } }) ∧
  (∀ (s : State) (run : BitVec 4), s.loc.pos + run.toNat ≤ 63 → exec (.crwZero run) s =
    .next { s with loc := { s.loc with notFirst := true, pos := s.loc.pos + run.toNat + 1 } }) ∧
  (∀ (s : State) (run len : BitVec 4), 63 < s.loc.pos + run.toNat →
    exec (.crwZero run) s = .next (s.raise .overflow) ∧ exec (.crwResid run len) s = .next (s.raise .overflow)) ∧
  (∀ (s : State) (run len : BitVec 4), s.loc.pos + run.toNat ≤ 63 → StreamOk s → s.primed = true → WindowOk s →
    len.toNat ≤ (streamBits s).length →
    ∃ t, exec (.crwResid run len) s = .next t ∧
      t = { withWindowOf s t with
        diffbuf := t.diffbuf, loc := { s.loc with notFirst := true, pos := s.loc.pos + run.toNat + 1 } } ∧
      diffGet t (s.loc.pos + run.toNat) =
        BitVec.ofInt 32 (residualValue len.toNat (bitsValue s.order ((streamBits s).take len.toNat))) ∧
      (∀ j, j ≠ s.loc.pos + run.toNat → diffGet t j = diffGet s j) ∧
      streamBits t = (streamBits s).drop len.toNat ∧ WindowOk t)

/-- R182, R345: an engine step of `CRW.RUN` does what the single commands do: `HUF.LOADT` and `CRW.INIT`, or
`CRW.BLOCK` and `CRW.RECON`, or `CRW.MERGE`, and then moves the phase or ends the run; an error of theirs ends it. -/
def Obligations.CrwStepsComposeCommands : Prop :=
  ∀ s u v : State, StreamOk s → s.st = .busy → s.unit = .crw → s.abort = false →
    (s.phase = 0#32 → exec .hufLoadt s = .next u →
      (u.st ≠ .busy → engineStep s = .next u) ∧
      (u.st = .busy → exec .crwInit u = .next v → engineStep s = .next { v with phase := 1#32 })) ∧
    (s.phase = 1#32 → exec .crwBlock s = .next u →
      (u.st ≠ .busy → engineStep s = .next u) ∧
      (u.st = .busy → exec .crwRecon u = .next v →
        (v.st ≠ .busy → engineStep s = .next v) ∧
        (v.st = .busy → v.block.toNat ≠ v.width.toNat * v.height.toNat / 64 → engineStep s = .next v) ∧
        (v.st = .busy → v.block.toNat = v.width.toNat * v.height.toNat / 64 →
          engineStep s = .next (if v.lbmode then { v with phase := 2#32 } else { v with st := .done })))) ∧
    (s.phase = 2#32 → exec .crwMerge s = .next v →
      (v.st ≠ .busy → engineStep s = .next v) ∧ (v.st = .busy → engineStep s = .next { v with st := .done }))

/-! ### BMP -/

/-- R202, R205: `BMP.RUN mode` writes `PHASE`, and starts a run exactly when the budget holds a whole row and the rows
fit `OUT`; otherwise it raises `CONFIG` with `PHASE` written. -/
def Obligations.BmpRunStarts : Prop :=
  ∀ (s r : State) (mode : BitVec 1), StreamOk s → r = { s with phase := mode.setWidth 32 } →
    ((0 < r.width.toNat ∧ bmpStride r ≤ r.budget.toNat ∧
        r.budget.toNat / bmpStride r * bmpStride r ≤ r.params.outSize) →
      exec (.bmpRun mode) s =
        .next { r with x := 0#32, y := 0#32, primed := false, abort := false, unit := .bmp, endr := .none, st := .busy }) ∧
    (¬ (0 < r.width.toNat ∧ bmpStride r ≤ r.budget.toNat ∧
        r.budget.toNat / bmpStride r * bmpStride r ≤ r.params.outSize) →
      exec (.bmpRun mode) s = .next (r.raise .config))

/-- R203, R204, R208, R209: an encoded run that fits writes `count` pixels of the value, or of the two values in turn,
the high nibble first, across row ends, and moves the cursor behind them. (That `X` can count the places of a row is
assumed: notes/assumptions/15.md.) -/
def Obligations.EncodedRunsDraw : Prop :=
  (∀ (s : State) (count value : BitVec 8), BmpReady s → s.phase = 0#32 →
    bmpPlace s + count.toNat ≤ bmpRows s * bmpCap s →
    ∃ t, exec (.bmpRun8 count value) s = .next t ∧ t = withDrawing s t ∧ t.ipos = s.ipos ∧
      DrawsPixels s t count.toNat fun _ => value.toNat) ∧
  (∀ (s : State) (count : BitVec 8) (hi lo : BitVec 4), BmpReady s → s.phase = 1#32 →
    bmpPlace s + count.toNat ≤ bmpRows s * bmpCap s →
    ∃ t, exec (.bmpRun4 count hi lo) s = .next t ∧ t = withDrawing s t ∧ t.ipos = s.ipos ∧
      DrawsPixels s t count.toNat fun k => if k % 2 = 0 then hi.toNat else lo.toNat)

/-- R204, R213 to R215: an absolute run that fits writes `n` literal pixels and moves the stream cursor past its literal
bytes and the pad byte that makes them even. A stream that ends in the literals or at the pad byte raises `EOS`, and a run
that passes the last row raises `OVERFLOW` once the byte of the pixel without a place is fetched, with the pixels before
kept and no other byte of `OUT` changed. -/
def Obligations.AbsoluteRunsDraw : Prop :=
  (∀ (s : State) (n : BitVec 8) (left : Nat) (literal : Nat → Nat), StreamOk s → BmpReady s → s.phase = 0#32 →
    left = s.inlen.toNat - s.ipos.toNat →
    (∀ k, literal k = (Memory.read s.inMem (s.ipos.toNat + k)).toNat) →
    (bmpPlace s + n.toNat ≤ bmpRows s * bmpCap s → n.toNat + n.toNat % 2 ≤ left →
      ∃ t, exec (.bmpAbs8 n) s = .next t ∧ t = withDrawing s t ∧
        t.ipos = s.ipos + BitVec.ofNat 32 (n.toNat + n.toNat % 2) ∧ DrawsPixels s t n.toNat literal) ∧
    (bmpPlace s + min left n.toNat ≤ bmpRows s * bmpCap s → left < n.toNat + n.toNat % 2 →
      ∃ t, exec (.bmpAbs8 n) s = .next t ∧ t = (withDrawing s t).raise .eos ∧
        t.ipos = s.ipos + BitVec.ofNat 32 left ∧ DrawsPixels s t (min left n.toNat) literal) ∧
    (∀ room, bmpPlace s + room = bmpRows s * bmpCap s → room < n.toNat → room < left →
      ∃ t, exec (.bmpAbs8 n) s = .next t ∧
        t = ({ s with
          outMem := t.outMem, x := 0#32, y := BitVec.ofNat 32 (bmpRows s),
          ipos := s.ipos + BitVec.ofNat 32 (room + 1) } : State).raise .overflow ∧
        PixelsWritten s t room literal)) ∧
  (∀ (s : State) (n : BitVec 8) (nb left : Nat) (literal : Nat → Nat), StreamOk s → BmpReady s → s.phase = 1#32 →
    nb = (n.toNat + 1) / 2 → left = s.inlen.toNat - s.ipos.toNat →
    (∀ k, literal k = (if k % 2 = 0 then (Memory.read s.inMem (s.ipos.toNat + k / 2)).toNat / 16
      else (Memory.read s.inMem (s.ipos.toNat + k / 2)).toNat % 16)) →
    (bmpPlace s + n.toNat ≤ bmpRows s * bmpCap s → nb + nb % 2 ≤ left →
      ∃ t, exec (.bmpAbs4 n) s = .next t ∧ t = withDrawing s t ∧
        t.ipos = s.ipos + BitVec.ofNat 32 (nb + nb % 2) ∧ DrawsPixels s t n.toNat literal) ∧
    (bmpPlace s + min (2 * left) n.toNat ≤ bmpRows s * bmpCap s → left < nb + nb % 2 →
      ∃ t, exec (.bmpAbs4 n) s = .next t ∧ t = (withDrawing s t).raise .eos ∧
        t.ipos = s.ipos + BitVec.ofNat 32 left ∧ DrawsPixels s t (min (2 * left) n.toNat) literal) ∧
    (∀ room, bmpPlace s + room = bmpRows s * bmpCap s → room < n.toNat → room / 2 < left →
      ∃ t, exec (.bmpAbs4 n) s = .next t ∧
        t = ({ s with
          outMem := t.outMem, x := 0#32, y := BitVec.ofNat 32 (bmpRows s),
          ipos := s.ipos + BitVec.ofNat 32 (room / 2 + 1) } : State).raise .overflow ∧
        PixelsWritten s t room literal))

/-- R204, R208, R209: an encoded run that passes the last row raises `OVERFLOW` with the pixels that fit written and the
cursor at the start of the row that does not exist. -/
def Obligations.EncodedRunsOverflow : Prop :=
  ∀ (s : State) (count value : BitVec 8) (hi lo : BitVec 4) (room : Nat), BmpReady s →
    bmpPlace s + room = bmpRows s * bmpCap s → room < count.toNat →
    (s.phase = 0#32 → ∃ t, exec (.bmpRun8 count value) s = .next t ∧
      t = ({ s with outMem := t.outMem, x := 0#32, y := BitVec.ofNat 32 (bmpRows s) } : State).raise .overflow ∧
      (∀ k, k < room → pixelAt s t.outMem (bmpPlace s + k) = value.toNat) ∧
      (∀ a, (∀ k, k < room → a ≠ placeByte s (bmpPlace s + k)) →
        Memory.read t.outMem a = Memory.read s.outMem a)) ∧
    (s.phase = 1#32 → ∃ t, exec (.bmpRun4 count hi lo) s = .next t ∧
      t = ({ s with outMem := t.outMem, x := 0#32, y := BitVec.ofNat 32 (bmpRows s) } : State).raise .overflow ∧
      (∀ k, k < room → pixelAt s t.outMem (bmpPlace s + k) = if k % 2 = 0 then hi.toNat else lo.toNat) ∧
      (∀ j, j < bmpPlace s → pixelAt s t.outMem j = pixelAt s s.outMem j) ∧
      (∀ a, (∀ k, k < room → a ≠ placeByte s (bmpPlace s + k)) →
        Memory.read t.outMem a = Memory.read s.outMem a))

/-- R206, R210, R211: end-of-line moves the cursor to the start of the next row and writes nothing; end-of-bitmap ends the
run with its reason. An engine step at a full destination ends the run with `END = 2` and one at the end of the stream
with `END = 3`, both before anything is fetched; a stream that ends after the first byte of a command raises `EOS`. (`Y`
below its last value: notes/assumptions/15.md.) -/
def Obligations.BmpLineAndBitmapEnds : Prop :=
  (∀ s : State, s.y.toNat + 1 < 2 ^ 32 → exec .bmpEol s = .next { s with x := 0#32, y := s.y + 1#32 }) ∧
  (∀ s : State, exec .bmpEob s = .next { s with endr := .endOfBitmap, st := .done }) ∧
  (∀ (s : State) (full : Prop), s.st = .busy → s.unit = .bmp → s.abort = false →
    (full ↔ bmpRows s ≤ s.y.toNat ∨ (s.y.toNat + 1 = bmpRows s ∧ bmpCap s ≤ s.x.toNat)) →
    (full → engineStep s = .next { s with endr := .full, st := .done }) ∧
    (¬ full → s.inlen.toNat ≤ s.ipos.toNat → engineStep s = .next { s with endr := .endOfStream, st := .done }) ∧
    (¬ full → StreamOk s → s.ipos.toNat + 1 = s.inlen.toNat →
      engineStep s = .next (({ s with ipos := s.inlen } : State).raise .eos)))

/-- R212: delta moves the cursor by the two bytes it fetches and writes nothing; a position outside the destination
raises `BOUNDS` with the cursor moved; a stream that ends before `dy` raises `EOS` with the cursor as it was. -/
def Obligations.BmpDeltaMoves : Prop :=
  (∀ (s m : State) (nx ny : Nat), StreamOk s → s.ipos.toNat + 2 ≤ s.inlen.toNat →
    nx = s.x.toNat + (Memory.read s.inMem s.ipos.toNat).toNat →
    ny = s.y.toNat + (Memory.read s.inMem (s.ipos.toNat + 1)).toNat → nx < 2 ^ 32 → ny < 2 ^ 32 →
    m = { s with x := BitVec.ofNat 32 nx, y := BitVec.ofNat 32 ny, ipos := s.ipos + 2#32 } →
    (nx ≤ bmpCap s ∧ ny < bmpRows s → exec .bmpDelta s = .next m) ∧
    (¬ (nx ≤ bmpCap s ∧ ny < bmpRows s) → exec .bmpDelta s = .next (m.raise .bounds))) ∧
  (∀ s : State, StreamOk s → s.inlen.toNat < s.ipos.toNat + 2 →
    exec .bmpDelta s =
      .next (({ s with ipos := if s.inlen.toNat ≤ s.ipos.toNat then s.ipos else s.inlen } : State).raise .eos))

/-- R215: a BMP engine step that raises nothing moves the stream cursor by an even number of bytes, never backward. -/
def Obligations.BmpStepsStayEven : Prop :=
  ∀ s t : State, s.st = .busy → s.unit = .bmp → engineStep s = .next t → t.st ≠ .error →
    s.ipos.toNat ≤ t.ipos.toNat ∧ t.ipos.toNat % 2 = s.ipos.toNat % 2

/-! ### SGI -/

/-- R231, R235, R236: `SGI.RUN` and `SGI.LINE` refuse two-byte components with `UNSUPPORTED` and a configuration that does
not fit with `CONFIG`, and change nothing else; otherwise `SGI.RUN` starts a run at the first scanline of the first
channel (and `SGI.LINE` decodes its scanline, `SgiLineExpands`). -/
def Obligations.SgiRunStarts : Prop :=
  (∀ (s : State) (i : Instr), StreamOk s → i = .sgiRun ∨ (∃ c r, i = .sgiLine c r) →
    (s.bpc = 2#32 → exec i s = .next (s.raise .unsupported)) ∧
    (s.bpc ≠ 2#32 →
      ¬ (s.bpc = 1#32 ∧ 0 < s.width.toNat ∧ 0 < s.height.toNat ∧ 0 < s.channels.toNat ∧
        s.channels.toNat * s.height.toNat ≤ s.params.tabEntries ∧
        s.channels.toNat * s.height.toNat * s.width.toNat ≤ s.params.outSize) →
      exec i s = .next (s.raise .config))) ∧
  (∀ s : State, StreamOk s → s.bpc = 1#32 → 0 < s.width.toNat → 0 < s.height.toNat → 0 < s.channels.toNat →
    s.channels.toNat * s.height.toNat ≤ s.params.tabEntries →
    s.channels.toNat * s.height.toNat * s.width.toNat ≤ s.params.outSize →
    exec .sgiRun s =
      .next { s with
        chan := 0#32, row := 0#32, x := 0#32, primed := false, abort := false, unit := .sgi, endr := .none,
        phase := 0#32, st := .busy })

/-- R232 to R234: the control bytes of a scanline. The end byte leaves the loop, by a flag of the model's own
(notes/assumptions/8.md). A run past the width raises `OVERFLOW` and a run past the declared length `EOS`, both before
anything is written; otherwise the bytes are copied or repeated and the cursors move. -/
def Obligations.SgiControlBytes : Prop :=
  (∀ (s : State) (type : BitVec 1), exec (.sgiEnd type) s = .next { s with loc := { s.loc with ended := true } }) ∧
  (∀ (s : State) (count : BitVec 7), s.width.toNat < s.x.toNat + count.toNat →
    exec (.sgiVerbatim count) s = .next (s.raise .overflow) ∧
    exec (.sgiRepeat count) s = .next (s.raise .overflow)) ∧
  (∀ (s : State) (count : BitVec 7), s.x.toNat + count.toNat ≤ s.width.toNat →
    (s.loc.lineEnd < s.ipos.toNat + count.toNat → exec (.sgiVerbatim count) s = .next (s.raise .eos)) ∧
    (s.ipos.toNat = s.loc.lineEnd → exec (.sgiRepeat count) s = .next (s.raise .eos))) ∧
  (∀ (s : State) (count : BitVec 7), StreamOk s → s.x.toNat + count.toNat ≤ s.width.toNat →
    s.loc.lineEnd ≤ s.inlen.toNat → s.loc.lineDst + s.x.toNat + count.toNat ≤ s.params.outSize →
    (s.ipos.toNat + count.toNat ≤ s.loc.lineEnd →
      ∃ t, exec (.sgiVerbatim count) s = .next t ∧
        t = { s with
          ipos := s.ipos + count.setWidth 32, x := s.x + count.setWidth 32, outMem := t.outMem } ∧
        BytesWritten s.outMem t.outMem (s.loc.lineDst + s.x.toNat)
          (Memory.readAll s.inMem s.ipos.toNat count.toNat)) ∧
    (s.ipos.toNat < s.loc.lineEnd →
      ∃ t, exec (.sgiRepeat count) s = .next t ∧
        t = { s with ipos := s.ipos + 1#32, x := s.x + count.setWidth 32, outMem := t.outMem } ∧
        BytesWritten s.outMem t.outMem (s.loc.lineDst + s.x.toNat)
          (List.replicate count.toNat (Memory.read s.inMem s.ipos.toNat))))

/-- R235, R236, R241: `SGI.LINE c, r` writes what the bytes of scanline `(c, r)` expand to, in the flipped row of its
channel, and leaves the cursor after the last byte consumed; an operand outside the image raises `USAGE`, a table entry
that leaves the stream `BOUNDS`, and an error in the middle keeps the bytes before it. An engine step of `SGI.RUN` does
the same with scanline `(CHAN, ROW)`, goes on to the next row and then to the next channel, and ends the run after the
last; after an error `CHAN` and `ROW` name the scanline that raised it. -/
def Obligations.SgiLineExpands : Prop :=
  (∀ (s : State) (c : BitVec 8) (r : BitVec 16), StreamOk s → s.bpc = 1#32 → 0 < s.width.toNat →
    0 < s.height.toNat → 0 < s.channels.toNat → s.channels.toNat * s.height.toNat ≤ s.params.tabEntries →
    s.channels.toNat * s.height.toNat * s.width.toNat ≤ s.params.outSize →
    (s.channels.toNat ≤ c.toNat ∨ s.height.toNat ≤ r.toNat → exec (.sgiLine c r) s = .next (s.raise .usage)) ∧
    (c.toNat < s.channels.toNat → r.toNat < s.height.toNat →
      LineResult s (c.setWidth 32) (r.setWidth 32) (exec (.sgiLine c r) s))) ∧
  (∀ s : State, StreamOk s → s.st = .busy → s.unit = .sgi → s.abort = false → SgiRunOk s →
    ∃ t, LineResult s s.chan s.row (.next t) ∧
      (t.st = .error → engineStep s = .next t) ∧
      (t.st ≠ .error → engineStep s = .next (
        if s.row.toNat + 1 < s.height.toNat then { t with row := s.row + 1#32 }
        else if s.chan.toNat + 1 < s.channels.toNat then { t with chan := s.chan + 1#32, row := 0#32 }
        else { t with st := .done })))

/-- R237: whatever its bytes are, a scanline reads `IN` only in `off .. off + len - 1` (no other byte of `IN` makes a
difference to anything) and writes `OUT` only in `DST(c, r) .. DST(c, r) + WIDTH - 1`. -/
def Obligations.SgiScanlineIsolation : Prop :=
  ∀ (s : State) (c r : Word) (off len dst : Nat) (m : Memory 8), StreamOk s → 0 < s.height.toNat →
    s.channels.toNat * s.height.toNat ≤ s.params.tabEntries →
    s.channels.toNat * s.height.toNat * s.width.toNat ≤ s.params.outSize →
    c.toNat < s.channels.toNat → r.toNat < s.height.toNat →
    off = (Memory.read s.offtab (c.toNat * s.height.toNat + r.toNat)).toNat →
    len = (Memory.read s.lentab (c.toNat * s.height.toNat + r.toNat)).toNat →
    dst = (c.toNat * s.height.toNat + (s.height.toNat - 1 - r.toNat)) * s.width.toNat →
    (∀ a, off ≤ a → a < off + len → Memory.read m a = Memory.read s.inMem a) →
    ∃ t, (sgiLineBody c r s).outcome = .next t ∧
      (sgiLineBody c r { s with inMem := m }).outcome = .next { t with inMem := m } ∧
      (∀ a, a < dst ∨ dst + s.width.toNat ≤ a → Memory.read t.outMem a = Memory.read s.outMem a)

/-! ### HDR -/

/-- R256: `HDR.RUN` starts a run exactly when the image is not empty and its binary32 triples fit `OUT`. -/
def Obligations.HdrRunStarts : Prop :=
  ∀ s : State, StreamOk s →
    (0 < s.width.toNat ∧ 0 < s.height.toNat ∧ 12 * (s.width.toNat * s.height.toNat) ≤ s.params.outSize →
      exec .hdrRun s =
        .next { s with
          row := 0#32, phase := 0#32, hdrrle := false, primed := false, abort := false, unit := .hdr, endr := .none,
          st := .busy }) ∧
    (¬ (0 < s.width.toNat ∧ 0 < s.height.toNat ∧ 12 * (s.width.toNat * s.height.toNat) ≤ s.params.outSize) →
      exec .hdrRun s = .next (s.raise .config))

/-- R115, R258 to R261: a header of the right width is matched and changes nothing, another one and the control byte 0
raise `CORRUPT`; a run past the width raises `OVERFLOW` before anything is fetched, a stream that ends inside it
`EOS`; otherwise the run is written to its plane. -/
def Obligations.HdrPlaneItems : Prop :=
  (∀ (s : State) (width : BitVec 15),
    (width.toNat = s.width.toNat → exec (.hdrHeader width) s = .next s) ∧
    (width.toNat ≠ s.width.toNat → exec (.hdrHeader width) s = .next (s.raise .corrupt))) ∧
  (∀ s : State, exec .hdrInvalid s = .next (s.raise .corrupt)) ∧
  (∀ (s : State) (count : BitVec 7), s.width.toNat < s.loc.planeX + count.toNat →
    exec (.hdrRepeat count) s = .next (s.raise .overflow)) ∧
  (∀ (s : State) (count : BitVec 8), s.width.toNat < s.loc.planeX + count.toNat →
    exec (.hdrLiteral count) s = .next (s.raise .overflow)) ∧
  (∀ (s : State) (count : BitVec 7), StreamOk s → s.loc.planeX + count.toNat ≤ s.width.toNat → s.width.toNat ≤ 0x7FFF →
    s.loc.plane < 4 →
    (s.inlen.toNat ≤ s.ipos.toNat → exec (.hdrRepeat count) s = .next (s.raise .eos)) ∧
    (s.ipos.toNat < s.inlen.toNat → ∃ t, exec (.hdrRepeat count) s = .next t ∧
      t = { s with
        ipos := s.ipos + 1#32, scan := t.scan, loc := { s.loc with planeX := s.loc.planeX + count.toNat } } ∧
      BytesWritten s.scan t.scan (scanKey s.loc.plane s.loc.planeX)
        (List.replicate count.toNat (Memory.read s.inMem s.ipos.toNat)))) ∧
  (∀ (s : State) (count : BitVec 8), StreamOk s → s.loc.planeX + count.toNat ≤ s.width.toNat → s.width.toNat ≤ 0x7FFF →
    s.loc.plane < 4 → 0 < count.toNat →
    (s.ipos.toNat ≤ s.inlen.toNat → s.inlen.toNat < s.ipos.toNat + count.toNat →
      ∃ t, exec (.hdrLiteral count) s = .next t ∧
        t = ({ s with ipos := s.inlen, scan := t.scan } : State).raise .eos ∧
        BytesWritten s.scan t.scan (scanKey s.loc.plane s.loc.planeX) (streamTail s)) ∧
    (s.ipos.toNat + count.toNat ≤ s.inlen.toNat → ∃ t, exec (.hdrLiteral count) s = .next t ∧
      t = { s with
        ipos := s.ipos + count.setWidth 32, scan := t.scan,
        loc := { s.loc with planeX := s.loc.planeX + count.toNat } } ∧
      BytesWritten s.scan t.scan (scanKey s.loc.plane s.loc.planeX)
        (Memory.readAll s.inMem s.ipos.toNat count.toNat)))

/-- R253, R254, R262: the pattern of a mantissa and an exponent byte is a non-negative finite binary32 number, exactly
`m * 2^(e - 136)`, and 0 when the exponent byte is 0. -/
def Obligations.F32IsExact : Prop :=
  ∀ m e : Byte, (f32 m e).toNat < 2 ^ 31 ∧ (f32 m e).toNat / 2 ^ 23 < 255 ∧
    binary32Scaled (f32 m e) = if e.toNat = 0 then 0 else m.toNat * 2 ^ (e.toNat + 13)

/-- R257: the first engine step decides the path by the four bytes at the cursor, which it does not consume, and then
does what a later step does. -/
def Obligations.HdrFirstStepDetectsPath : Prop :=
  ∀ (s : State) (hi lo : Nat), s.st = .busy → s.unit = .hdr → s.abort = false → s.phase = 0#32 →
    hi = (Memory.read s.inMem (s.ipos.toNat + 2)).toNat → lo = (Memory.read s.inMem (s.ipos.toNat + 3)).toNat →
    engineStep s = engineStep { s with
      phase := 1#32
      hdrrle := decide (8 ≤ s.width.toNat ∧ s.width.toNat ≤ 0x7FFF ∧ s.ipos.toNat + 4 ≤ s.inlen.toNat ∧
        Memory.read s.inMem s.ipos.toNat = 0x02#8 ∧ Memory.read s.inMem (s.ipos.toNat + 1) = 0x02#8 ∧ hi < 0x80 ∧
        256 * hi + lo = s.width.toNat) }

/-- R252, R255, R258, flat path: an engine step reads the `4 * WIDTH` bytes of the scanline and writes the three
patterns of each pixel, and no other byte of `OUT`; a stream that ends before raises `EOS` with the whole pixels before
written and `ROW` as it was. -/
def Obligations.HdrFlatScanline : Prop :=
  ∀ (s : State) (component : Nat → List Byte), StreamOk s → s.st = .busy → s.unit = .hdr → s.abort = false →
    s.phase = 1#32 → s.hdrrle = false → s.row.toNat < s.height.toNat →
    12 * (s.width.toNat * s.height.toNat) ≤ s.params.outSize →
    (∀ c, component c =
      (List.range s.width.toNat).map fun x => Memory.read s.inMem (s.ipos.toNat + 4 * x + c)) →
    (s.ipos.toNat + 4 * s.width.toNat ≤ s.inlen.toNat → ∃ t, engineStep s = .next t ∧
      t = { s with
        ipos := s.ipos + BitVec.ofNat 32 (4 * s.width.toNat), row := s.row + 1#32,
        st := if s.row.toNat + 1 = s.height.toNat then .done else .busy, outMem := t.outMem } ∧
      ElementsWritten s.outMem t.outMem (s.row.toNat * s.width.toNat * 3)
        (scanlineElements s.width.toNat (component 0) (component 1) (component 2) (component 3))) ∧
    ((streamTail s).length < 4 * s.width.toNat → ∃ t, engineStep s = .next t ∧
      t = ({ s with
        ipos := s.ipos + BitVec.ofNat 32 (streamTail s).length, outMem := t.outMem } : State).raise .eos ∧
      ElementsWritten s.outMem t.outMem (s.row.toNat * s.width.toNat * 3)
        (scanlineElements ((streamTail s).length / 4) (component 0) (component 1) (component 2) (component 3)))

/-- R252, R255, R258 to R261, run-length path: a scanline with a matching header and four planes that decode is
transposed into `OUT`, and no other byte of `OUT` changes. A header that is cut or does not match and a plane that raises
an error end the run with that error, with `OUT` untouched, `ROW` as it was and the cursor after the last byte
fetched. -/
def Obligations.HdrRleScanline : Prop :=
  (∀ (s : State) (hi lo : Byte) (body r b₁ g b₂ b b₃ e b₄ : List Byte), StreamOk s → s.st = .busy → s.unit = .hdr →
    s.abort = false → s.phase = 1#32 → s.hdrrle = true → s.row.toNat < s.height.toNat →
    8 ≤ s.width.toNat → s.width.toNat ≤ 0x7FFF → 12 * (s.width.toNat * s.height.toNat) ≤ s.params.outSize →
    streamTail s = 0x02#8 :: 0x02#8 :: hi :: lo :: body → hi.toNat < 128 →
    256 * hi.toNat + lo.toNat = s.width.toNat →
    hdrPlane s.width.toNat body s.width.toNat = some (r, b₁) →
    hdrPlane s.width.toNat b₁ s.width.toNat = some (g, b₂) →
    hdrPlane s.width.toNat b₂ s.width.toNat = some (b, b₃) →
    hdrPlane s.width.toNat b₃ s.width.toNat = some (e, b₄) →
    ∃ t, engineStep s = .next t ∧
      t = { s with
        ipos := BitVec.ofNat 32 (s.inlen.toNat - b₄.length), row := s.row + 1#32,
        st := if s.row.toNat + 1 = s.height.toNat then .done else .busy,
        scan := t.scan, outMem := t.outMem, loc := {} } ∧
      ElementsWritten s.outMem t.outMem (s.row.toNat * s.width.toNat * 3)
        (scanlineElements s.width.toNat r g b e)) ∧
  (∀ (s : State) (e : ErrCode) (rest : List Byte), StreamOk s → s.st = .busy → s.unit = .hdr → s.abort = false →
    s.phase = 1#32 → s.hdrrle = true → s.width.toNat ≤ 0x7FFF →
    hdrScanFault s.width.toNat (streamTail s) = some (e, rest) →
    ∃ t, engineStep s = .next t ∧
      t = ({ s with
        ipos := s.ipos + BitVec.ofNat 32 ((streamTail s).length - rest.length), scan := t.scan } : State).raise e)

/-! ### The machine -/

/-- R281, R282: a word written to `CMD` is executed as the instruction it encodes in `IDLE`, `DONE` and `ABORTED`,
dropped in `BUSY`, and in `ERROR` executed only when it is `RESET` or `CLEAR`. -/
def Obligations.StepRunsAcceptedCommand : Prop :=
  ∀ (s : State) (i : Instr) (w : Word) (q : List HostEvent), i.wf = true → encode i = .word w →
    s.hostQ = .regWr 0x00#7 w :: q →
    (Accepts s → step s = exec i { s with hostQ := q }) ∧
    (s.st = .busy → step s = .next { s with hostQ := q, cmdDrop := true }) ∧
    (s.st = .error → i = .reset ∨ i = .clear → step s = exec i { s with hostQ := q }) ∧
    (s.st = .error → i ≠ .reset → i ≠ .clear → step s = .next { s with hostQ := q, cmdDrop := true })

/-- R111, R113, R115, R116, R118, R206, R320: the engine runs the instruction that the decoder reads from the bytes at
the cursor (BMP, as a whole step), from a control byte (SGI, HDR), from the four header bytes (HDR) and from a decoded
symbol (CRW). -/
def Obligations.StepRunsDecodedItem : Prop :=
  (∀ (s : State) (i : Instr), StreamOk s → s.hostQ = [] → s.st = .busy → s.unit = .bmp → s.abort = false →
    bmpFull s = false → s.ipos.toNat + 2 ≤ s.inlen.toNat →
    decode (.bmp (decide (s.phase ≠ 0#32)))
      (.bytes [Memory.read s.inMem s.ipos.toNat, Memory.read s.inMem (s.ipos.toNat + 1)]) = .instr i →
    step s = exec i { s with ipos := s.ipos + 2#32 }) ∧
  (∀ (s : State) (i : Instr) (ctl : Byte), decode .sgi (.bytes [ctl]) = .instr i →
    (sgiCommand ctl s).outcome = exec i s) ∧
  (∀ (s : State) (i : Instr) (ctl : Byte), decode .hdr1 (.bytes [ctl]) = .instr i →
    (hdrCommand ctl s).outcome = exec i s) ∧
  (∀ (s : State) (i : Instr), StreamOk s → s.ipos.toNat + 4 ≤ s.inlen.toNat →
    decode .hdrh (.bytes (Memory.readAll s.inMem s.ipos.toNat 4)) = .instr i →
    (fetchHeader s).outcome = exec i { s with ipos := s.ipos + 4#32 }) ∧
  (∀ (s : State) (i : Instr) (sym : Byte), decode (.hsym (eobCondition s sym)) (.bytes [sym]) = .instr i →
    (crwSymbol sym s).outcome = exec i s)

/-- R21, R24, R28, R39, R286: a host read returns the register's value (0 for `CMD` and the reserved indices) and changes
nothing of the block (the value stands in a field of the model's own, notes/assumptions/5.md). A host write stores the
writable bits of the register and nothing else, but that a write of `IPOS` or `BRCFG` clears `PRIMED`; while `BUSY` every
write but that of `CTRL` is dropped with `CMDDROP`; a register without writable bits ignores it. -/
def Obligations.RegisterWritesStore : Prop :=
  (∀ (s : State) (idx : BitVec 7) (q : List HostEvent), s.hostQ = .regRd idx :: q →
    step s = .next { s with hostQ := q, busData := [readRegister s idx] } ∧
    (idx = 0x00#7 ∨ (0x1D ≤ idx.toNat ∧ idx.toNat ≤ 0x3F) → readRegister s idx = 0#32)) ∧
  (∀ (s : State) (idx : BitVec 7) (v : Word) (q : List HostEvent), idx ≠ 0x00#7 → s.hostQ = .regWr idx v :: q →
    (s.st ≠ .busy ∨ idx = 0x02#7 → ∃ t, step s = .next t ∧ t.hostQ = q ∧
      readRegister t idx = (v &&& writeMask idx) ||| (readRegister s idx &&& ~~~ writeMask idx) ∧
      (∀ j, j ≠ idx → j ≠ 0x08#7 → readRegister t j = readRegister s j) ∧
      t.primed = (s.primed && idx != 0x04#7 && idx != 0x06#7) ∧ t.vbits = s.vbits ∧
      t.tree0 = s.tree0 ∧ t.tree1 = s.tree1 ∧ t.inMem = s.inMem ∧ t.outMem = s.outMem ∧ t.offtab = s.offtab ∧
      t.lentab = s.lentab ∧ t.params = s.params) ∧
    (s.st = .busy → writeMask idx ≠ 0#32 → idx ≠ 0x02#7 →
      step s = .next { s with hostQ := q, cmdDrop := true }) ∧
    (writeMask idx = 0#32 → step s = .next { s with hostQ := q }))

/-- R84, R286: a host read of a memory returns its bytes or entries and changes nothing of the block, also while `BUSY`
(the values stand in a field of the model's own, notes/assumptions/5.md); what the host writes to a memory it reads back,
and nothing else changes. -/
def Obligations.HostMemoryReadsBack : Prop :=
  (∀ (s : State) (sp : ByteSpace) (a n : Nat) (q : List HostEvent), a + n ≤ byteSpaceSize s sp →
    s.hostQ = .memRd sp a n :: q →
    step s = .next { s with
      hostQ := q, busData := (List.range n).map fun i => (Memory.read (byteSpace s sp) (a + i)).setWidth 32 }) ∧
  (∀ (s : State) (sp : TableSpace) (k n : Nat) (q : List HostEvent), k + n ≤ s.params.tabEntries →
    s.hostQ = .tabRd sp k n :: q →
    step s = .next { s with
      hostQ := q, busData := (List.range n).map fun i => Memory.read (tableSpace s sp) (k + i) }) ∧
  (∀ (s : State) (sp : ByteSpace) (a : Nat) (bs : List Byte) (q : List HostEvent), s.st ≠ .busy →
    a + bs.length ≤ byteSpaceSize s sp → s.hostQ = .memWr sp a bs :: .memRd sp a bs.length :: q →
    ∃ t, stepsFrom 2 s = some t ∧
      t = { s with hostQ := q, inMem := t.inMem, outMem := t.outMem, busData := bs.map fun b => b.setWidth 32 } ∧
      BytesWritten (byteSpace s sp) (byteSpace t sp) a bs ∧
      (∀ other, other ≠ sp → byteSpace t other = byteSpace s other)) ∧
  (∀ (s : State) (sp : TableSpace) (k : Nat) (es : List Word) (q : List HostEvent), s.st ≠ .busy →
    k + es.length ≤ s.params.tabEntries → s.hostQ = .tabWr sp k es :: .tabRd sp k es.length :: q →
    ∃ t, stepsFrom 2 s = some t ∧
      t = { s with hostQ := q, offtab := t.offtab, lentab := t.lentab, busData := es } ∧
      (∀ j, j < k ∨ k + es.length ≤ j → Memory.read (tableSpace t sp) j = Memory.read (tableSpace s sp) j) ∧
      (∀ other, other ≠ sp → tableSpace t other = tableSpace s other))

/-- R315: with the abort flag set, the next engine step only clears it and becomes `ABORTED`. -/
def Obligations.AbortTakenAtBoundary : Prop :=
  ∀ s : State, s.st = .busy → s.abort = true →
    engineStep s = .next { s with abort := false, st := .aborted } ∧
    (s.hostQ = [] → step s = .next { s with abort := false, st := .aborted })

/-! ### Invariants -/

/-- Every step keeps every memory in its canonical form. -/
def Obligations.StepKeepsMemories : Prop :=
  ∀ s t : State, MemoriesOk s → step s = .next t → MemoriesOk t

/-- R29, R132: every step keeps the bit window canonical. -/
def Obligations.StepKeepsWindow : Prop :=
  ∀ s t : State, WindowOk s → step s = .next t → WindowOk t

/-- R288: every step keeps that `ERR` is not 0 exactly in `ERROR` and that a run has a unit; and that no operation is in
progress between steps (the last is the model's own field, notes/assumptions/8.md). -/
def Obligations.StepKeepsStatus : Prop :=
  ∀ s t : State, StatusOk s → LocalsIdle s → step s = .next t → StatusOk t ∧ LocalsIdle t

/-- R52, R151: every step keeps both slots prefix-free trees of codes of 1 to 16 bits. -/
def Obligations.StepKeepsTrees : Prop :=
  ∀ s t : State, TreesOk s → step s = .next t → TreesOk t

/-- R181, R203, R205, R231, R256: every step keeps that a run in progress stays inside the image, the destination and
the tables its start has checked. -/
def Obligations.StepKeepsRun : Prop :=
  ∀ s t : State, RunInv s → step s = .next t → RunInv t

/-- The reset state has every invariant. -/
def Obligations.ResetSatisfiesInvariants : Prop :=
  MemoriesOk State.reset ∧ WindowOk State.reset ∧ StatusOk State.reset ∧ LocalsIdle State.reset ∧
    TreesOk State.reset ∧ RunInv State.reset ∧ ∀ idx, readRegister State.reset idx = 0#32

/-- R81: no step of a state with the run invariant leaves a memory space. -/
def Obligations.StepNeverFaults : Prop :=
  ∀ s : State, RunInv s → Safe s

/-- R288, R316: a run that the host leaves alone ends after finitely many steps, at most `runMeasure` and one. -/
def Obligations.RunEnds : Prop :=
  ∀ s : State, RunInv s → s.hostQ = [] →
    ∃ n t, n ≤ runMeasure s + 1 ∧ stepsFrom n s = some t ∧ t.st ≠ .busy

/-- R9, R71, R75: neither a command nor an engine step writes `IN`, the tables or the parameters. -/
def Obligations.EngineKeepsInputs : Prop :=
  (∀ s t : State, engineStep s = .next t →
    t.inMem = s.inMem ∧ t.offtab = s.offtab ∧ t.lentab = s.lentab ∧ t.params = s.params ∧ t.hostQ = s.hostQ) ∧
  (∀ (i : Instr) (s t : State), exec i s = .next t →
    t.inMem = s.inMem ∧ t.offtab = s.offtab ∧ t.lentab = s.lentab ∧ t.params = s.params ∧ t.hostQ = s.hostQ)

/-- R288: how `STATUS.ST` changes: `DONE` and `ABORTED` are reached only from a run, `ABORTED` only with the abort
flag, `ERROR` is left only to `IDLE`, and a run becomes `IDLE` only by a hard reset. -/
def Obligations.EngineStateTransitions : Prop :=
  ∀ s t : State, step s = .next t →
    (t.st = .done → s.st = .done ∨ s.st = .busy) ∧
    (t.st = .aborted → s.st = .aborted ∨ (s.st = .busy ∧ s.abort = true)) ∧
    (s.st = .error → t.st = .error ∨ t.st = .idle) ∧
    (t.st = .busy → s.st ≠ .error) ∧
    (s.st = .busy → t.st = .idle → ∃ q, s.hostQ = .hardReset :: q)
end

