-- ==== Sys2Proof/Laws/Memory.lean ====
section
/-! SUPPORT. The laws of sparse memory: what a read after a write gives, and that every operation keeps the canonical
form. The read laws hold for every list, canonical or not. -/

namespace Sys2Proof.Machine

variable {w : Nat}

/-! ### Reading after writing -/

@[simp] theorem Memory.read_nil (a : Nat) : Memory.read ([] : Memory w) a = Memory.unlisted w := rfl

theorem Memory.read_erase (m : Memory w) (a b : Nat) :
    Memory.read (Memory.erase m a) b = if a = b then Memory.unlisted w else Memory.read m b := by
  induction m with
  | nil => simp [Memory.erase]
  | cons c m ih =>
    obtain ⟨k, v⟩ := c
    simp only [Memory.erase, Memory.read]
    by_cases hk : k = a
    · subst hk
      rw [if_pos rfl, ih]
      by_cases hb : k = b <;> simp [hb]
    · by_cases hb : a = b
      · subst hb; simp [hk, Memory.read, ih]
      · simp [hk, hb, Memory.read, ih]

theorem Memory.read_insert (m : Memory w) (a b : Nat) (v : BitVec w) (h : Memory.read m a = Memory.unlisted w)
    (hm : ∀ c ∈ m, c.1 ≠ a) :
    Memory.read (Memory.insert m a v) b = if a = b then v else Memory.read m b := by
  induction m with
  | nil => simp [Memory.insert, Memory.read]
  | cons c m ih =>
    obtain ⟨k, x⟩ := c
    have hk : k ≠ a := hm (k, x) (by simp)
    have hr : Memory.read m a = Memory.unlisted w := by simpa [Memory.read, hk] using h
    have ih := ih hr fun c hc => hm c (by simp [hc])
    simp only [Memory.insert]
    split
    · simp [Memory.read]
    · simp only [Memory.read, ih]
      by_cases hb : k = b
      · subst hb; simp [Ne.symm hk]
      · simp [hb]

theorem Memory.mem_erase (m : Memory w) (a : Nat) (c : Nat × BitVec w) :
    c ∈ Memory.erase m a ↔ c ∈ m ∧ c.1 ≠ a := by
  induction m with
  | nil => simp [Memory.erase]
  | cons d m ih =>
    obtain ⟨k, v⟩ := d
    simp only [Memory.erase]
    split
    · next h => subst h; rw [ih]; aesop
    · next h => simp only [List.mem_cons, ih]; aesop

/-- A read after a write, in one equation. -/
theorem Memory.read_write (m : Memory w) (a b : Nat) (v : BitVec w) :
    Memory.read (Memory.write m a v) b = if a = b then v else Memory.read m b := by
  unfold Memory.write
  split
  · next h => subst h; rw [Memory.read_erase]
  · rw [Memory.read_insert _ _ _ _ (by simp [Memory.read_erase]) fun c hc => ((Memory.mem_erase m a c).1 hc).2,
      Memory.read_erase]
    split <;> rfl

@[simp] theorem Memory.read_write_same (m : Memory w) (a : Nat) (v : BitVec w) :
    Memory.read (Memory.write m a v) a = v := by simp [Memory.read_write]

theorem Memory.read_write_other (m : Memory w) {a b : Nat} (v : BitVec w) (h : a ≠ b) :
    Memory.read (Memory.write m a v) b = Memory.read m b := by simp [Memory.read_write, h]

/-- A read after consecutive writes. -/
theorem Memory.read_writeAll (vs : List (BitVec w)) (m : Memory w) (a b : Nat) :
    Memory.read (Memory.writeAll m a vs) b =
      if a ≤ b ∧ b < a + vs.length then vs.getD (b - a) (Memory.unlisted w) else Memory.read m b := by
  induction vs generalizing m a with
  | nil => simp [Memory.writeAll]
  | cons v vs ih =>
    rw [Memory.writeAll, ih, Memory.read_write]
    by_cases hab : a = b
    · subst hab; simp
    · by_cases hin : a + 1 ≤ b ∧ b < a + 1 + vs.length
      · have : b - a = b - (a + 1) + 1 := by omega
        have h2 : a ≤ b ∧ b < a + (v :: vs).length := by simp; omega
        rw [if_pos hin, if_pos h2, this, List.getD_cons_succ]
      · have h2 : ¬ (a ≤ b ∧ b < a + (v :: vs).length) := by simp; omega
        rw [if_neg hin, if_neg h2, if_neg hab]

@[simp] theorem Memory.length_readAll (m : Memory w) (a n : Nat) : (Memory.readAll m a n).length = n := by
  induction n generalizing a with
  | zero => rfl
  | succ n ih => simp [Memory.readAll, ih]

theorem Memory.getD_readAll (m : Memory w) (a n k : Nat) (d : BitVec w) (h : k < n) :
    (Memory.readAll m a n).getD k d = Memory.read m (a + k) := by
  induction n generalizing a k with
  | zero => omega
  | succ n ih =>
    cases k with
    | zero => simp [Memory.readAll]
    | succ k =>
      have := ih (a + 1) k (by omega)
      simp only [Memory.readAll, List.getD_cons_succ, this]
      congr 1; omega

/-- What was written is read back. -/
theorem Memory.readAll_writeAll (m : Memory w) (a : Nat) (vs : List (BitVec w)) :
    Memory.readAll (Memory.writeAll m a vs) a vs.length = vs := by
  apply List.ext_getElem (by simp)
  intro i h1 h2
  have hi : i < vs.length := h2
  have := Memory.getD_readAll (Memory.writeAll m a vs) a vs.length i (Memory.unlisted w) hi
  rw [Memory.read_writeAll] at this
  simp only [List.getD_eq_getElem?_getD, List.getElem?_eq_getElem h1, Option.getD_some] at this
  simpa [hi] using this

/-! ### The canonical form -/

theorem Memory.above_iff (a : Nat) (m : Memory w) : Memory.above a m = true ↔ ∀ c ∈ m, a < c.1 := by
  induction m with
  | nil => simp [Memory.above]
  | cons c m ih => obtain ⟨k, v⟩ := c; simp [Memory.above, ih]

theorem Memory.wf_cons (k : Nat) (v : BitVec w) (m : Memory w) :
    Memory.wf ((k, v) :: m) = true ↔ (∀ c ∈ m, k < c.1) ∧ v ≠ Memory.unlisted w ∧ Memory.wf m = true := by
  simp [Memory.wf, Memory.above_iff, and_assoc]

theorem Memory.wf_erase (m : Memory w) (a : Nat) (h : Memory.wf m = true) :
    Memory.wf (Memory.erase m a) = true := by
  induction m with
  | nil => rfl
  | cons c m ih =>
    obtain ⟨k, v⟩ := c
    rw [Memory.wf_cons] at h
    simp only [Memory.erase]
    split
    · exact ih h.2.2
    · rw [Memory.wf_cons]
      exact ⟨fun c hc => h.1 c ((Memory.mem_erase m a c).1 hc).1, h.2.1, ih h.2.2⟩

theorem Memory.mem_insert (m : Memory w) (a : Nat) (v : BitVec w) (c : Nat × BitVec w) :
    c ∈ Memory.insert m a v ↔ c = (a, v) ∨ c ∈ m := by
  induction m with
  | nil => simp [Memory.insert]
  | cons d m ih =>
    obtain ⟨k, x⟩ := d
    simp only [Memory.insert]
    split
    · simp
    · simp only [List.mem_cons, ih]; tauto

theorem Memory.wf_insert (m : Memory w) (a : Nat) (v : BitVec w) (hv : v ≠ Memory.unlisted w)
    (hm : ∀ c ∈ m, c.1 ≠ a) (h : Memory.wf m = true) : Memory.wf (Memory.insert m a v) = true := by
  induction m with
  | nil => simp [Memory.insert, Memory.wf, Memory.above, hv]
  | cons c m ih =>
    obtain ⟨k, x⟩ := c
    have hk : k ≠ a := hm (k, x) (by simp)
    have hw := (Memory.wf_cons k x m).1 h
    simp only [Memory.insert]
    split
    · next hlt =>
      rw [Memory.wf_cons]
      refine ⟨fun c hc => ?_, hv, h⟩
      rcases List.mem_cons.1 hc with rfl | hc
      · exact hlt
      · exact lt_trans hlt (hw.1 c hc)
    · next hlt =>
      rw [Memory.wf_cons]
      refine ⟨fun c hc => ?_, hw.2.1, ih (fun c hc => hm c (by simp [hc])) hw.2.2⟩
      rcases (Memory.mem_insert m a v c).1 hc with rfl | hc
      · show k < a; omega
      · exact hw.1 c hc

/-- A write keeps the canonical form. -/
theorem Memory.wf_write (m : Memory w) (a : Nat) (v : BitVec w) (h : Memory.wf m = true) :
    Memory.wf (Memory.write m a v) = true := by
  unfold Memory.write
  split
  · exact Memory.wf_erase m a h
  · next hv =>
    exact Memory.wf_insert _ a v hv (fun c hc => ((Memory.mem_erase m a c).1 hc).2) (Memory.wf_erase m a h)

/-- Consecutive writes keep the canonical form. -/
theorem Memory.wf_writeAll (vs : List (BitVec w)) (m : Memory w) (a : Nat) (h : Memory.wf m = true) :
    Memory.wf (Memory.writeAll m a vs) = true := by
  induction vs generalizing m a with
  | nil => exact h
  | cons v vs ih => exact ih _ _ (Memory.wf_write m a v h)

/-- The mixture of two memories keeps the canonical form. -/
theorem Memory.wf_mix (mask : Nat → Byte) (old new : Memory 8) (h : Memory.wf old = true) :
    Memory.wf (Memory.mix mask old new) = true := by
  have key : ∀ (cs : List (Nat × BitVec 8)) (m : Memory 8), Memory.wf m = true →
      Memory.wf (cs.foldl (fun m c =>
        Memory.write m c.1 (mixByte (mask c.1) (Memory.read old c.1) (Memory.read new c.1))) m) = true := by
    intro cs
    induction cs with
    | nil => intro m hm; exact hm
    | cons c cs ih => intro m hm; exact ih _ (Memory.wf_write m _ _ hm)
  exact key _ old h

/-- An address below every entry reads as unlisted. -/
theorem Memory.read_eq_unlisted_of_above (m : Memory w) (a : Nat) (h : ∀ c ∈ m, a < c.1) :
    Memory.read m a = Memory.unlisted w := by
  induction m with
  | nil => rfl
  | cons c m ih =>
    obtain ⟨k, v⟩ := c
    have hk : a < k := h (k, v) (by simp)
    have : k ≠ a := by omega
    simp [Memory.read, this, ih fun c hc => h c (by simp [hc])]

end Sys2Proof.Machine
end

