-- ==== Sys2Proof/Laws/State.lean ====
section
/-! SUPPORT. One lemma per field per update of the state. For the updates that are plain record updates (`State.raise`,
`State.acknowledge`, `State.resetRegs`, `State.withIpos`, `State.withWindow`, `State.withResult`, `State.unprime`,
`State.withOut`, `State.withScan`, `State.withLoc`, `State.withCursor`, `State.finish`, `State.startRun`,
`State.withDiff`, `State.withTree`, `State.prime`, `State.withDetection`, `State.crwInit`, `State.startBlock`,
`State.bmpFinish`, `State.withX`, `State.startLine`, `State.takeAbort`, `State.drop`, `State.withBus`,
`State.withQueue`) the simp lemma of every field is made beside the definition by `@[simps]` and is called
`State.<update>_<field>`; here stand the lemmas about what is read through an accessor. -/

namespace Sys2Proof.Machine

/-! ### The trees -/

@[simp] theorem treeValid_withTree_same (s : State) (slot : BitVec 1) (v : Bool) (t : List TreeEntry) :
    treeValid (s.withTree slot v t) slot = v := by
  unfold treeValid; split <;> simp_all

@[simp] theorem treeOf_withTree_same (s : State) (slot : BitVec 1) (v : Bool) (t : List TreeEntry) :
    treeOf (s.withTree slot v t) slot = t := by
  unfold treeOf; split <;> simp_all

theorem treeValid_withTree_other (s : State) {slot other : BitVec 1} (v : Bool) (t : List TreeEntry)
    (h : other ≠ slot) : treeValid (s.withTree slot v t) other = treeValid s other := by
  unfold treeValid
  rcases (by decide : ∀ b : BitVec 1, b = 0#1 ∨ b = 1#1) slot with rfl | rfl <;>
    rcases (by decide : ∀ b : BitVec 1, b = 0#1 ∨ b = 1#1) other with rfl | rfl <;> simp_all

theorem treeOf_withTree_other (s : State) {slot other : BitVec 1} (v : Bool) (t : List TreeEntry)
    (h : other ≠ slot) : treeOf (s.withTree slot v t) other = treeOf s other := by
  unfold treeOf
  rcases (by decide : ∀ b : BitVec 1, b = 0#1 ∨ b = 1#1) slot with rfl | rfl <;>
    rcases (by decide : ∀ b : BitVec 1, b = 0#1 ∨ b = 1#1) other with rfl | rfl <;> simp_all

/-- Rebuilding a slot twice is rebuilding it once. -/
@[simp] theorem withTree_withTree (s : State) (slot : BitVec 1) (v v' : Bool) (t t' : List TreeEntry) :
    (s.withTree slot v t).withTree slot v' t' = s.withTree slot v' t' := by
  unfold State.withTree; split <;> simp_all

/-! ### The block residuals -/

theorem diffGet_withDiff (s : State) (i j : Nat) (v : Word) :
    diffGet (s.withDiff i v) j = if i = j ∧ i < 64 then v else diffGet s j := by
  unfold diffGet State.withDiff
  by_cases hj : j < 64
  · by_cases hi : i < 64
    · by_cases hij : i = j
      · subst hij; simp [hi]
      · simp [hi, hj, hij]
    · simp [hi, hj]
  · have : ¬ (i = j ∧ i < 64) := by omega
    simp [hj, this]

@[simp] theorem diffGet_replicate (s : State) (i : Nat) :
    diffGet { s with diffbuf := Vector.replicate 64 0#32 } i = 0#32 := by
  unfold diffGet; split <;> simp

/-- `DIFFBUF` is read from its own field alone. -/
theorem diffGet_congr {s t : State} (h : s.diffbuf = t.diffbuf) (i : Nat) : diffGet s i = diffGet t i := by
  unfold diffGet; rw [h]

/-! ### The parity bases -/

@[simp] theorem baseOf_even (s : State) (i : Nat) (h : i % 2 = 0) : baseOf s i = s.base0 := by simp [baseOf, h]

@[simp] theorem baseOf_odd (s : State) (i : Nat) (h : i % 2 = 1) : baseOf s i = s.base1 := by simp [baseOf, h]

/-! ### Memory spaces and the register file -/

@[simp] theorem byteSpace_inp (s : State) : byteSpace s .inp = s.inMem := rfl
@[simp] theorem byteSpace_out (s : State) : byteSpace s .out = s.outMem := rfl
@[simp] theorem tableSpace_offtab (s : State) : tableSpace s .offtab = s.offtab := rfl
@[simp] theorem tableSpace_lentab (s : State) : tableSpace s .lentab = s.lentab := rfl

@[simp] theorem readRegister_withQueue (s : State) (q : List HostEvent) (idx : BitVec 7) :
    readRegister (s.withQueue q) idx = readRegister s idx := rfl

@[simp] theorem readRegister_withBus (s : State) (d : List Word) (idx : BitVec 7) :
    readRegister (s.withBus d) idx = readRegister s idx := rfl

end Sys2Proof.Machine
end

