-- ==== Sys2Proof/Laws/Ops.lean ====
section
/-! SUPPORT. The sequencing of pseudocode and, for each access primitive, the one lemma that says everything it can
do. -/

namespace Sys2Proof.Machine

variable {α β : Type}

/-! ### Sequencing -/

@[simp] theorem Res.bind_ok (a : α) (s : State) (k : α → State → Res β) : (Res.ok a s).bind k = k a s := rfl
@[simp] theorem Res.bind_raised (s : State) (k : α → State → Res β) : (Res.raised s).bind k = .raised s := rfl
@[simp] theorem Res.bind_stop (f : Fault) (k : α → State → Res β) : (Res.stop f).bind k = .stop f := rfl
@[simp] theorem Res.outcome_ok (a : α) (s : State) : (Res.ok a s).outcome = .next s := rfl
@[simp] theorem Res.outcome_raised (s : State) : (Res.raised (α := α) s).outcome = .next s := rfl
@[simp] theorem Res.outcome_stop (f : Fault) : (Res.stop (α := α) f).outcome = .fault f := rfl
@[simp] theorem raise_eq (e : ErrCode) (s : State) : (raise e s : Res α) = .raised (s.raise e) := rfl

@[simp] theorem Res.andThen_ok (a : α) (s : State) (k : α → State → Host.Outcome State Fault Refusal) :
    (Res.ok a s).andThen k = k a s := rfl
@[simp] theorem Res.andThen_raised (s : State) (k : α → State → Host.Outcome State Fault Refusal) :
    (Res.raised s).andThen k = .next s := rfl
@[simp] theorem Res.andThen_stop (f : Fault) (k : α → State → Host.Outcome State Fault Refusal) :
    (Res.stop f).andThen k = .fault f := rfl

theorem Res.bind_assoc {γ : Type} (r : Res α) (k : α → State → Res β) (l : β → State → Res γ) :
    (r.bind k).bind l = r.bind fun a s => (k a s).bind l := by
  cases r <;> rfl

theorem Res.bind_eq_ok {r : Res α} {k : α → State → Res β} {b : β} {t : State} :
    r.bind k = .ok b t ↔ ∃ a s, r = .ok a s ∧ k a s = .ok b t := by
  cases r <;> simp [Res.bind]

theorem Res.bind_eq_raised {r : Res α} {k : α → State → Res β} {t : State} :
    r.bind k = .raised t ↔ r = .raised t ∨ ∃ a s, r = .ok a s ∧ k a s = .raised t := by
  cases r <;> simp [Res.bind]

theorem Res.bind_eq_stop {r : Res α} {k : α → State → Res β} {f : Fault} :
    r.bind k = .stop f ↔ r = .stop f ∨ ∃ a s, r = .ok a s ∧ k a s = .stop f := by
  cases r <;> simp [Res.bind]

theorem Res.outcome_eq_next {r : Res α} {t : State} :
    r.outcome = .next t ↔ (∃ a, r = .ok a t) ∨ r = .raised t := by
  cases r <;> simp [Res.outcome]

theorem Res.outcome_eq_fault {r : Res α} {f : Fault} : r.outcome = .fault f ↔ r = .stop f := by
  cases r <;> simp [Res.outcome]

/-! ### What holds after a piece of pseudocode -/

/-- `P` holds of the value and the state it goes on with, `Q` of the state in which it raised an error, and it does
not leave a space where `safe` asks for that. -/
def Res.Post (P : α → State → Prop) (Q : State → Prop) (safe : Prop) : Res α → Prop
  | .ok a s => P a s
  | .raised s => Q s
  | .stop _ => ¬ safe

@[simp] theorem Res.post_ok (P : α → State → Prop) (Q : State → Prop) (safe : Prop) (a : α) (s : State) :
    (Res.ok a s).Post P Q safe ↔ P a s := Iff.rfl
@[simp] theorem Res.post_raised (P : α → State → Prop) (Q : State → Prop) (safe : Prop) (s : State) :
    (Res.raised s).Post P Q safe ↔ Q s := Iff.rfl
@[simp] theorem Res.post_stop (P : α → State → Prop) (Q : State → Prop) (safe : Prop) (f : Fault) :
    (Res.stop f).Post P Q safe ↔ ¬ safe := Iff.rfl

/-- The rule of sequencing. -/
theorem Res.Post.bind {P : α → State → Prop} {P' : β → State → Prop} {Q : State → Prop} {safe : Prop} {r : Res α}
    {k : α → State → Res β} (hr : r.Post P Q safe) (hk : ∀ a s, P a s → (k a s).Post P' Q safe) :
    (r.bind k).Post P' Q safe := by
  cases r with
  | ok a s => exact hk a s hr
  | raised s => exact hr
  | stop f => exact hr

/-- The rule of consequence. -/
theorem Res.Post.mono {P P' : α → State → Prop} {Q Q' : State → Prop} {safe safe' : Prop} {r : Res α}
    (hr : r.Post P Q safe) (hP : ∀ a s, P a s → P' a s) (hQ : ∀ s, Q s → Q' s) (hs : safe' → safe) :
    r.Post P' Q' safe' := by
  cases r with
  | ok a s => exact hP a s hr
  | raised s => exact hQ s hr
  | stop f => exact fun h => hr (hs h)

/-- What a step that ends a piece of pseudocode gives. -/
theorem Res.Post.outcome {P : α → State → Prop} {Q : State → Prop} {safe : Prop} {r : Res α}
    (hr : r.Post P Q safe) {t : State} (h : r.outcome = .next t) : (∃ a, P a t) ∨ Q t := by
  rcases Res.outcome_eq_next.1 h with ⟨a, rfl⟩ | rfl
  · exact .inl ⟨a, hr⟩
  · exact .inr hr

/-! ### The access primitives -/

/-- The prologue (R312): it goes on, or raises `CONFIG`. -/
theorem needInput_eq (s : State) (k : State → Res α) :
    needInput s k = if s.inlen.toNat ≤ s.params.inSize then k s else .raised (s.raise .config) := by
  unfold needInput; split <;> split <;> first | rfl | omega

@[simp] theorem needInput_of_le (s : State) (k : State → Res α) (h : s.inlen.toNat ≤ s.params.inSize) :
    needInput s k = k s := by simp [needInput_eq, h]

/-- The test that a bit read makes first (R348). -/
theorem needPrimed_eq (s : State) (k : State → Res α) :
    needPrimed s k = if s.primed = true then k s else .raised (s.raise .usage) := by
  unfold needPrimed; cases s.primed <;> rfl

@[simp] theorem needPrimed_of_primed (s : State) (k : State → Res α) (h : s.primed = true) :
    needPrimed s k = k s := by simp [needPrimed_eq, h]

/-- `IN[a]`: the byte, or a fault past the space. -/
theorem inByte_eq_ok {a : Nat} {s t : State} {b : Byte} :
    inByte a s = .ok b t ↔ a < s.params.inSize ∧ b = Memory.read s.inMem a ∧ t = s := by
  unfold inByte; split <;> simp_all [eq_comm]

theorem inByte_of_lt {a : Nat} {s : State} (h : a < s.params.inSize) :
    inByte a s = .ok (Memory.read s.inMem a) s := by simp [inByte, h]

/-- `FetchByte()` (R78) inside the stream: the byte at the cursor, and the cursor one byte on. -/
theorem fetchByte_of_lt {s : State} (h : s.ipos.toNat < s.inlen.toNat) (hs : s.inlen.toNat ≤ s.params.inSize) :
    fetchByte s = .ok (Memory.read s.inMem s.ipos.toNat) (s.withIpos (s.ipos + 1#32)) := by
  have h1 : ¬ s.inlen.toNat ≤ s.ipos.toNat := by omega
  simp [fetchByte, h1, inByte_of_lt (show s.ipos.toNat < s.params.inSize by omega)]

/-- `FetchByte()` at the end of the stream raises `EOS`. -/
theorem fetchByte_of_le {s : State} (h : s.inlen.toNat ≤ s.ipos.toNat) :
    fetchByte s = .raised (s.raise .eos) := by simp [fetchByte, h]

/-- Everything `FetchByte()` can do when it goes on. -/
theorem fetchByte_eq_ok {s t : State} {b : Byte} :
    fetchByte s = .ok b t ↔ s.ipos.toNat < s.inlen.toNat ∧ s.ipos.toNat < s.params.inSize ∧
      b = Memory.read s.inMem s.ipos.toNat ∧ t = s.withIpos (s.ipos + 1#32) := by
  unfold fetchByte
  split
  · next h => simp; omega
  · next h => rw [Res.bind_eq_ok]; simp only [inByte_eq_ok]; aesop

/-- `OUT[a]`. -/
theorem outByte_eq_ok {a : Nat} {s t : State} {b : Byte} :
    outByte a s = .ok b t ↔ a < s.params.outSize ∧ b = Memory.read s.outMem a ∧ t = s := by
  unfold outByte; split <;> simp_all [eq_comm]

theorem outByte_of_lt {a : Nat} {s : State} (h : a < s.params.outSize) :
    outByte a s = .ok (Memory.read s.outMem a) s := by simp [outByte, h]

/-- `OUT[a] <- v`. -/
theorem outWrite_eq_ok {a : Nat} {s t : State} {v : Byte} {u : Unit} :
    outWrite a v s = .ok u t ↔ a < s.params.outSize ∧ t = s.withOut (Memory.write s.outMem a v) := by
  unfold outWrite; split <;> simp_all [eq_comm]

theorem outWrite_of_lt {a : Nat} {s : State} (v : Byte) (h : a < s.params.outSize) :
    outWrite a v s = .ok () (s.withOut (Memory.write s.outMem a v)) := by simp [outWrite, h]

theorem outWrite_ne_raised {a : Nat} {s t : State} {v : Byte} : outWrite a v s ≠ .raised t := by
  unfold outWrite; split <;> simp

/-- `OUT16[i]` (R76). -/
theorem out16_of_lt {i : Nat} {s : State} (h : 2 * i + 1 < s.params.outSize) :
    out16 i s = .ok (Memory.read s.outMem (2 * i + 1) ++ Memory.read s.outMem (2 * i)) s := by
  simp [out16, outByte_of_lt h, outByte_of_lt (show 2 * i < s.params.outSize by omega)]

/-- `OUT16[i] <- v` (R76). -/
theorem out16Write_eq_ok {i : Nat} {s t : State} {v : BitVec 16} {u : Unit} :
    out16Write i v s = .ok u t ↔ 2 * i + 1 < s.params.outSize ∧
      t = s.withOut (Memory.writeAll s.outMem (2 * i) [v.extractLsb' 0 8, v.extractLsb' 8 8]) := by
  unfold out16Write; split <;> simp_all [eq_comm]

theorem out16Write_of_lt {i : Nat} {s : State} (v : BitVec 16) (h : 2 * i + 1 < s.params.outSize) :
    out16Write i v s =
      .ok () (s.withOut (Memory.writeAll s.outMem (2 * i) [v.extractLsb' 0 8, v.extractLsb' 8 8])) := by
  simp [out16Write, h]

/-- `OUT32[i] <- v` (R76). -/
theorem out32Write_of_lt {i : Nat} {s : State} (v : Word) (h : 4 * i + 3 < s.params.outSize) :
    out32Write i v s = .ok () (s.withOut (Memory.writeAll s.outMem (4 * i)
      [v.extractLsb' 0 8, v.extractLsb' 8 8, v.extractLsb' 16 8, v.extractLsb' 24 8])) := by
  simp [out32Write, h]

/-- `OFFTAB[i]`, `LENTAB[i]`. -/
theorem offsetEntry_of_lt {i : Nat} {s : State} (h : i < s.params.tabEntries) :
    offsetEntry i s = .ok (Memory.read s.offtab i) s := by simp [offsetEntry, h]

theorem lengthEntry_of_lt {i : Nat} {s : State} (h : i < s.params.tabEntries) :
    lengthEntry i s = .ok (Memory.read s.lentab i) s := by simp [lengthEntry, h]

/-- `SCAN[p][x]` and its write. -/
theorem scanRead_of_lt {p x : Nat} {s : State} (hp : p < 4) (hx : x ≤ 0x7FFE) :
    scanRead p x s = .ok (Memory.read s.scan (scanKey p x)) s := by simp [scanRead, hp, hx]

theorem scanWrite_of_lt {p x : Nat} {s : State} (v : Byte) (hp : p < 4) (hx : x ≤ 0x7FFE) :
    scanWrite p x v s = .ok () (s.withScan (Memory.write s.scan (scanKey p x) v)) := by
  simp [scanWrite, hp, hx]

/-- Different places of `SCAN` have different keys. -/
theorem scanKey_inj {p x q y : Nat} (hx : x ≤ 0x7FFE) (hy : y ≤ 0x7FFE) :
    scanKey p x = scanKey q y ↔ p = q ∧ x = y := by unfold scanKey; omega

end Sys2Proof.Machine
end

