-- ==== Sys2Proof/Laws/BitReader.lean ====
section
/-! SUPPORT. What the bit reader can do: the refill, the three operations on the window, and the walk of a tree, each
said once. -/

namespace Sys2Proof.Machine

/-! ### The window alone changes -/

/-- `t` is `s` but for the window and the cursor. -/
def SameButWindow (s t : State) : Prop :=
  t = { s with bitbuf := t.bitbuf, vbits := t.vbits, ipos := t.ipos }

theorem SameButWindow.refl (s : State) : SameButWindow s s := rfl

theorem SameButWindow.trans {s t u : State} (h : SameButWindow s t) (k : SameButWindow t u) : SameButWindow s u := by
  unfold SameButWindow at *
  rw [k, h]

theorem sameButWindow_withWindow (s : State) (b v p : Nat) : SameButWindow s (s.withWindow b v p) := rfl

/-! ### The refill -/

/-- A joined byte fits above (or below) the bits that were there. -/
theorem joinByte_lt (order : Bool) (w : Window) (c : Byte) (h : w.buf < 2 ^ w.vb) :
    joinByte order w c < 2 ^ (w.vb + 8) := by
  have hc : c.toNat < 2 ^ 8 := c.isLt
  unfold joinByte
  split
  · apply Nat.or_lt_two_pow
    · exact lt_of_lt_of_le h (Nat.pow_le_pow_right (by norm_num) (by omega))
    · rw [Nat.shiftLeft_eq, Nat.add_comm w.vb, Nat.pow_add]
      exact Nat.mul_lt_mul_of_lt_of_le hc (le_refl _) (by positivity)
  · apply Nat.or_lt_two_pow
    · rw [Nat.shiftLeft_eq, Nat.pow_add]
      exact Nat.mul_lt_mul_of_lt_of_le h (le_refl _) (by norm_num)
    · exact lt_of_lt_of_le hc (Nat.pow_le_pow_right (by norm_num) (by omega))

/-- Everything a refill that goes on has done to its local copies. -/
structure Refilled (n : Nat) (s : State) (w w' : Window) : Prop where
  grows : w.vb ≤ w'.vb
  lazy : w'.vb = w.vb ∨ w'.vb ≤ n + 7
  bytes : (w'.vb - w.vb) % 8 = 0
  forward : w.pos ≤ w'.pos
  inside : w'.pos ≤ max w.pos s.inlen.toNat
  canonical : w.buf < 2 ^ w.vb → w'.buf < 2 ^ w'.vb

theorem refillLoop_post (fuel n : Nat) (s : State) (w : Window) :
    (refillLoop fuel n s w).Post
      (fun w' t => t = s ∧ Refilled n s w w' ∧ (n ≤ w'.vb ∨ w'.vb = w.vb + 8 * fuel))
      (fun t => t = s.raise .eos) (s.inlen.toNat ≤ s.params.inSize) := by
  induction fuel generalizing w with
  | zero =>
    rw [refillLoop, Res.post_ok]
    exact ⟨rfl, ⟨le_refl _, .inl rfl, by simp, le_refl _, by omega, id⟩, .inr (by simp)⟩
  | succ fuel ih =>
    unfold refillLoop
    split
    · next hn =>
      split
      · simp
      · next hpos =>
        have step : ∀ (c : Byte) (p : Nat), w.pos ≤ p → p ≤ s.inlen.toNat →
            (refillLoop fuel n s ⟨joinByte s.order w c, w.vb + 8, p⟩).Post
              (fun w' t => t = s ∧ Refilled n s w w' ∧ (n ≤ w'.vb ∨ w'.vb = w.vb + 8 * (fuel + 1)))
              (fun t => t = s.raise .eos) (s.inlen.toNat ≤ s.params.inSize) := by
          intro c p hp hp'
          refine (ih ⟨joinByte s.order w c, w.vb + 8, p⟩).mono ?_ (fun _ h => h) id
          rintro w' t ⟨rfl, hr, hf⟩
          have hg := hr.grows
          have hb := hr.bytes
          have hl := hr.lazy
          have hfw := hr.forward
          have hin := hr.inside
          simp only at hg hb hl hfw hin hf
          exact ⟨rfl, ⟨by omega, by omega, by omega, by omega, by omega,
            fun h => hr.canonical (joinByte_lt _ _ _ h)⟩, by omega⟩
        unfold inByte
        split
        · simp only [Res.bind_ok]
          split
          · split
            · simp
            · exact step _ _ (by omega) (by omega)
          · exact step _ _ (by omega) (by omega)
        · simp only [Res.bind_stop, Res.post_stop]; omega
    · rw [Res.post_ok]
      exact ⟨rfl, ⟨le_refl _, .inl rfl, by simp, le_refl _, by omega, id⟩, .inl (by omega)⟩

/-- `Refill(n)` for `n ≤ 25` (R133): the state is untouched, and the copies hold at least `n` bits. -/
theorem refill_post (n : Nat) (s : State) (hn : n ≤ 25) :
    (refill n s).Post
      (fun w t => t = s ∧ Refilled n s ⟨s.bitbuf.toNat, s.vbits.toNat, s.ipos.toNat⟩ w ∧ n ≤ w.vb)
      (fun t => t = s.raise .eos) (s.inlen.toNat ≤ s.params.inSize) := by
  refine (refillLoop_post 4 n s _).mono ?_ (fun _ h => h) id
  rintro w t ⟨rfl, hr, hf⟩
  exact ⟨rfl, hr, by simp only at hf; omega⟩

/-! ### The operations on the window -/

theorem dropBits_lt (order : Bool) (w : Window) (n : Nat) (h : w.buf < 2 ^ w.vb) (hn : n ≤ w.vb) :
    dropBits order w n < 2 ^ (w.vb - n) := by
  unfold dropBits
  split
  · rw [Nat.shiftRight_eq_div_pow]
    apply Nat.div_lt_of_lt_mul
    rwa [← Nat.pow_add, Nat.add_sub_cancel' hn]
  · rw [Nat.and_two_pow_sub_one_eq_mod]
    exact Nat.mod_lt _ (by positivity)

theorem oldestBits_lt (order : Bool) (w : Window) (n : Nat) : oldestBits order w n < 2 ^ n := by
  unfold oldestBits
  split <;> rw [Nat.and_two_pow_sub_one_eq_mod] <;> exact Nat.mod_lt _ (by positivity)

/-- A committed canonical window is canonical in the registers. -/
theorem windowOk_withWindow (s : State) {b v p : Nat} (hv : v ≤ 32) (hb : b < 2 ^ v) :
    WindowOk (s.withWindow b v p) := by
  have h32 : b < 2 ^ 32 := lt_of_lt_of_le hb (Nat.pow_le_pow_right (by norm_num) hv)
  have h1 : (BitVec.ofNat 6 v).toNat = v := by rw [BitVec.toNat_ofNat]; exact Nat.mod_eq_of_lt (by norm_num; omega)
  have h2 : (BitVec.ofNat 32 b).toNat = b := by rw [BitVec.toNat_ofNat]; exact Nat.mod_eq_of_lt h32
  simp only [WindowOk, State.withWindow_vbits, State.withWindow_bitbuf, h1, h2]
  exact ⟨hv, hb⟩

/-- `ReadBits(n)` (R134): only the window and the cursor change, and a canonical window stays canonical; an error leaves
everything. -/
theorem readBits_post (n : Nat) (s : State) :
    (readBits n s).Post
      (fun v t => SameButWindow s t ∧ (WindowOk s → WindowOk t) ∧ s.primed = true ∧ n ≤ 25 ∧ v < 2 ^ n)
      (fun t => t = s.raise .usage ∨ t = s.raise .eos) (s.inlen.toNat ≤ s.params.inSize) := by
  unfold readBits needPrimed
  split
  · simp
  · next hp =>
    split
    · simp
    · next hn =>
      have hn : n ≤ 25 := by simpa [Config.nbitsMax] using hn
      refine Res.Post.bind ((refill_post n s hn).mono (fun _ _ h => h) (fun _ h => .inr h) id) ?_
      rintro w t ⟨rfl, hr, hw⟩
      refine ⟨sameButWindow_withWindow _ _ _ _, fun hs => ?_, by simpa using hp, hn, oldestBits_lt _ _ _⟩
      have hg := hr.lazy
      have hc := hr.canonical hs.2
      simp only at hg
      exact windowOk_withWindow _ (by have := hs.1; omega) (dropBits_lt _ _ _ hc hw)

/-- `PeekBits(n)` (R136). -/
theorem peekBits_post (n : Nat) (s : State) :
    (peekBits n s).Post
      (fun v t => SameButWindow s t ∧ (WindowOk s → WindowOk t) ∧ s.primed = true ∧ n ≤ 25 ∧ v < 2 ^ n)
      (fun t => t = s.raise .usage ∨ t = s.raise .eos) (s.inlen.toNat ≤ s.params.inSize) := by
  unfold peekBits needPrimed
  split
  · simp
  · next hp =>
    split
    · simp
    · next hn =>
      have hn : n ≤ 25 := by simpa [Config.nbitsMax] using hn
      refine Res.Post.bind ((refill_post n s hn).mono (fun _ _ h => h) (fun _ h => .inr h) id) ?_
      rintro w t ⟨rfl, hr, hw⟩
      refine ⟨sameButWindow_withWindow _ _ _ _, fun hs => ?_, by simpa using hp, hn, oldestBits_lt _ _ _⟩
      have hg := hr.lazy
      have hc := hr.canonical hs.2
      simp only at hg
      exact windowOk_withWindow _ (by have := hs.1; omega) hc

/-- `SkipBits` (R138). -/
theorem skipBits_post (n : Nat) (s : State) :
    (skipBits n s).Post (fun _ t => SameButWindow s t ∧ (WindowOk s → WindowOk t)) (fun t => t = s.raise .usage)
      True := by
  unfold skipBits needPrimed
  dsimp only
  split
  · simp
  · split
    · simp
    · next hn =>
      refine ⟨sameButWindow_withWindow _ _ _ _, fun hs => ?_⟩
      exact windowOk_withWindow _ (by have := hs.1; omega)
        (dropBits_lt _ ⟨s.bitbuf.toNat, s.vbits.toNat, s.ipos.toNat⟩ _ hs.2 (by simpa using hn))

end Sys2Proof.Machine
end

