-- ==== Sys2Proof/Laws/PerInstr.lean ====
section
/-! SUPPORT. The family `FormOfEncoding`: every instruction encodes to what its format says (R100), a host word or as
many bytes as its row of the opcode table has. -/

namespace Sys2Proof.Laws

/-- The encoding has the form of the format: a word, or that many bytes (for a table specification, 16 counts and the
symbols). -/
def FormOfEncoding.Fits (f : Format) (e : Encoded) : Prop :=
  match f, e with
  | .host, .word _ => True
  | .bmp _, .bytes bs => bs.length = 2
  | .sgi, .bytes bs => bs.length = 1
  | .hdrh, .bytes bs => bs.length = 4
  | .hdr1, .bytes bs => bs.length = 1
  | .hsym _, .bytes bs => bs.length = 1
  | .tspec, .bytes bs => 16 ≤ bs.length
  | .host, .bytes _ => False
  | _, .word _ => False

/-- A well-formed instruction's encoding has the form of its format. -/
def FormOfEncoding.Statement (i : Instr) : Prop :=
  i.wf = true → FormOfEncoding.Fits i.format (encode i)

theorem FormOfEncoding.nop : FormOfEncoding.Statement .nop := fun _ => trivial
theorem FormOfEncoding.reset : FormOfEncoding.Statement .reset := fun _ => trivial
theorem FormOfEncoding.clear : FormOfEncoding.Statement .clear := fun _ => trivial
theorem FormOfEncoding.brPrime : FormOfEncoding.Statement .brPrime := fun _ => trivial
theorem FormOfEncoding.brRead (n : BitVec 8) : FormOfEncoding.Statement (.brRead n) := fun _ => trivial
theorem FormOfEncoding.brPeek (n : BitVec 8) : FormOfEncoding.Statement (.brPeek n) := fun _ => trivial
theorem FormOfEncoding.brSkip (n : BitVec 8) : FormOfEncoding.Statement (.brSkip n) := fun _ => trivial
theorem FormOfEncoding.hufBuild (slot : BitVec 1) : FormOfEncoding.Statement (.hufBuild slot) := fun _ => trivial
theorem FormOfEncoding.hufLoadt : FormOfEncoding.Statement .hufLoadt := fun _ => trivial
theorem FormOfEncoding.hufDecode (slot : BitVec 1) : FormOfEncoding.Statement (.hufDecode slot) := fun _ => trivial
theorem FormOfEncoding.hufResid (len : BitVec 4) : FormOfEncoding.Statement (.hufResid len) := fun _ => trivial
theorem FormOfEncoding.crwDetect : FormOfEncoding.Statement .crwDetect := fun _ => trivial
theorem FormOfEncoding.crwInit : FormOfEncoding.Statement .crwInit := fun _ => trivial
theorem FormOfEncoding.crwBlock : FormOfEncoding.Statement .crwBlock := fun _ => trivial
theorem FormOfEncoding.crwRecon : FormOfEncoding.Statement .crwRecon := fun _ => trivial
theorem FormOfEncoding.crwMerge : FormOfEncoding.Statement .crwMerge := fun _ => trivial
theorem FormOfEncoding.crwRun : FormOfEncoding.Statement .crwRun := fun _ => trivial
theorem FormOfEncoding.bmpRun (mode : BitVec 1) : FormOfEncoding.Statement (.bmpRun mode) := fun _ => trivial
theorem FormOfEncoding.sgiRun : FormOfEncoding.Statement .sgiRun := fun _ => trivial
theorem FormOfEncoding.sgiLine (channel : BitVec 8) (row : BitVec 16) :
    FormOfEncoding.Statement (.sgiLine channel row) := fun _ => trivial
theorem FormOfEncoding.hdrRun : FormOfEncoding.Statement .hdrRun := fun _ => trivial
theorem FormOfEncoding.illegalHostWord (op : BitVec 8) (a : BitVec 8) (b : BitVec 16) :
    FormOfEncoding.Statement (.illegalHostWord op a b) := fun _ => trivial
theorem FormOfEncoding.bmpRun8 (count : BitVec 8) (value : BitVec 8) :
    FormOfEncoding.Statement (.bmpRun8 count value) := fun _ => rfl
theorem FormOfEncoding.bmpRun4 (count : BitVec 8) (pixEven : BitVec 4) (pixOdd : BitVec 4) :
    FormOfEncoding.Statement (.bmpRun4 count pixEven pixOdd) := fun _ => rfl
theorem FormOfEncoding.bmpEol : FormOfEncoding.Statement .bmpEol := fun _ => rfl
theorem FormOfEncoding.bmpEob : FormOfEncoding.Statement .bmpEob := fun _ => rfl
theorem FormOfEncoding.bmpDelta : FormOfEncoding.Statement .bmpDelta := fun _ => rfl
theorem FormOfEncoding.bmpAbs8 (n : BitVec 8) : FormOfEncoding.Statement (.bmpAbs8 n) := fun _ => rfl
theorem FormOfEncoding.bmpAbs4 (n : BitVec 8) : FormOfEncoding.Statement (.bmpAbs4 n) := fun _ => rfl
theorem FormOfEncoding.sgiEnd (type : BitVec 1) : FormOfEncoding.Statement (.sgiEnd type) := fun _ => rfl
theorem FormOfEncoding.sgiVerbatim (count : BitVec 7) : FormOfEncoding.Statement (.sgiVerbatim count) := fun _ => rfl
theorem FormOfEncoding.sgiRepeat (count : BitVec 7) : FormOfEncoding.Statement (.sgiRepeat count) := fun _ => rfl
theorem FormOfEncoding.hdrHeader (width : BitVec 15) : FormOfEncoding.Statement (.hdrHeader width) := fun _ => rfl
theorem FormOfEncoding.hdrInvalid : FormOfEncoding.Statement .hdrInvalid := fun _ => rfl
theorem FormOfEncoding.hdrLiteral (count : BitVec 8) : FormOfEncoding.Statement (.hdrLiteral count) := fun _ => rfl
theorem FormOfEncoding.hdrRepeat (count : BitVec 7) : FormOfEncoding.Statement (.hdrRepeat count) := fun _ => rfl
theorem FormOfEncoding.crwEob : FormOfEncoding.Statement .crwEob := fun _ => rfl
theorem FormOfEncoding.crwContinue : FormOfEncoding.Statement .crwContinue := fun _ => rfl
theorem FormOfEncoding.crwZero (run : BitVec 4) : FormOfEncoding.Statement (.crwZero run) := fun _ => rfl
theorem FormOfEncoding.crwResid (run : BitVec 4) (len : BitVec 4) :
    FormOfEncoding.Statement (.crwResid run len) := fun _ => rfl
theorem FormOfEncoding.tablespec (counts symbols : List Byte) : FormOfEncoding.Statement (.tablespec counts symbols) := by
  intro h
  simp only [Instr.wf, Bool.and_eq_true, beq_iff_eq] at h
  simp only [FormOfEncoding.Fits, Instr.format, encode, List.length_append]
  omega

end Sys2Proof.Laws
end

