-- ==== Sys2Proof/Laws/Units.lean ====
section
/-! SUPPORT. For each shared operation of the units, what it may change: the lemmas that stand for unfolding it. The
word `False` in place of the safety condition says that a lemma makes no claim about leaving a space. -/

namespace Sys2Proof.Machine

/-! ### Huffman -/

/-- The walk of a tree (R156): only the window changes, also where it raises an error. -/
theorem walkTree_post (t : List TreeEntry) (fuel l code : Nat) (s : State) :
    (walkTree t fuel l code s).Post
      (fun b u => SameButWindow s u ∧ (WindowOk s → WindowOk u) ∧ ∃ e ∈ t, e.sym = b)
      (fun u => ∃ v e, SameButWindow s v ∧ (WindowOk s → WindowOk v) ∧ u = v.raise e)
      (s.inlen.toNat ≤ s.params.inSize) := by
  induction fuel generalizing l code s with
  | zero => exact ⟨s, .corrupt, .refl s, id, rfl⟩
  | succ fuel ih =>
    unfold walkTree
    refine Res.Post.bind (Res.Post.mono (readBits_post 1 s) (fun _ _ h => h) ?_ id) ?_
    · rintro u (rfl | rfl)
      · exact ⟨s, .usage, .refl s, id, rfl⟩
      · exact ⟨s, .eos, .refl s, id, rfl⟩
    · rintro b u ⟨hu, hw, -⟩
      split
      · next e he => exact ⟨hu, hw, e, List.mem_of_find?_eq_some he, rfl⟩
      · split
        · refine (ih _ _ u).mono ?_ ?_ ?_
          · rintro c v ⟨hv, hw', he⟩
            exact ⟨hu.trans hv, fun h => hw' (hw h), he⟩
          · rintro v ⟨x, e, hx, hw', rfl⟩
            exact ⟨x, e, hu.trans hx, fun h => hw' (hw h), rfl⟩
          · intro h; rw [hu]; exact h
        · exact ⟨u, .corrupt, hu, hw, rfl⟩

/-- `DecodeSymbol` (R156). -/
theorem decodeSymbol_post (slot : BitVec 1) (s : State) :
    (decodeSymbol slot s).Post
      (fun b u => SameButWindow s u ∧ (WindowOk s → WindowOk u) ∧ ∃ e ∈ treeOf s slot, e.sym = b)
      (fun u => ∃ v e, SameButWindow s v ∧ (WindowOk s → WindowOk v) ∧ u = v.raise e)
      (s.inlen.toNat ≤ s.params.inSize) := by
  unfold decodeSymbol
  split
  · exact ⟨s, .usage, .refl s, id, rfl⟩
  · exact walkTree_post _ _ _ _ s

/-- `Residual` (R158). -/
theorem residual_post (len : Nat) (s : State) :
    (residual len s).Post (fun _ u => SameButWindow s u ∧ (WindowOk s → WindowOk u))
      (fun u => u = s.raise .usage ∨ u = s.raise .eos) (s.inlen.toNat ≤ s.params.inSize) := by
  unfold residual
  split
  · exact ⟨.refl s, id⟩
  · refine Res.Post.bind (readBits_post len s) ?_
    rintro v u ⟨hu, hw, -⟩
    exact ⟨hu, hw⟩

/-- Moving the cursor twice is moving it once. -/
theorem withIpos_trans {s u t : State} (hu : u = s.withIpos u.ipos) (ht : t = u.withIpos t.ipos) :
    t = s.withIpos t.ipos := by
  rw [ht, hu]; rfl

/-- A source of specification bytes that changes only the cursor, also where it raises an error. -/
def SourceMovesCursor (get : SpecSource) : Prop :=
  ∀ i s, (get i s).Post (fun _ t => t = s.withIpos t.ipos)
    (fun t => ∃ (u : State) (e : ErrCode), u = s.withIpos u.ipos ∧ t = u.raise e) False

theorem streamSource_movesCursor : SourceMovesCursor streamSource := by
  intro i s
  unfold streamSource fetchByte
  split
  · exact ⟨s, .eos, rfl, rfl⟩
  · unfold inByte
    split
    · rfl
    · simp

theorem listSource_movesCursor (bytes : List Byte) : SourceMovesCursor (listSource bytes) := by
  intro i s
  unfold listSource
  split
  · rfl
  · exact ⟨s, .table, rfl, rfl⟩

/-- Reading the counts (R152) changes only the cursor. -/
theorem readCounts_post {get : SpecSource} (hg : SourceMovesCursor get) (n i : Nat) (s : State) :
    (readCounts get n i s).Post (fun cs t => t = s.withIpos t.ipos ∧ cs.length = n)
      (fun t => ∃ (u : State) (e : ErrCode), u = s.withIpos u.ipos ∧ t = u.raise e) False := by
  induction n generalizing i s with
  | zero => exact ⟨rfl, rfl⟩
  | succ n ih =>
    unfold readCounts
    refine Res.Post.bind (hg i s) ?_
    intro c u hu
    refine Res.Post.bind (P := fun cs t => t = s.withIpos t.ipos ∧ cs.length = n)
      ((ih (i + 1) u).mono ?_ ?_ id) ?_
    · rintro cs t ⟨ht, hl⟩; exact ⟨withIpos_trans hu ht, hl⟩
    · rintro t ⟨v, e, hv, rfl⟩; exact ⟨v, e, withIpos_trans hu hv, rfl⟩
    · rintro cs t ⟨ht, hl⟩; exact ⟨ht, by simp [hl]⟩

/-- The expansion of one length (R152) changes only the cursor, and adds entries of that length. -/
theorem expandLevel_post {get : SpecSource} (hg : SourceMovesCursor get) (l n : Nat) (x : Expansion) (s : State) :
    (expandLevel get l n x s).Post
      (fun y t => t = s.withIpos t.ipos ∧ y.code = x.code + n ∧ y.k = x.k + n ∧
        (0 < n → y.code ≤ 2 ^ l) ∧
        ∃ es, y.entries = x.entries ++ es ∧ es.length = n ∧
          ∀ e ∈ es, e.len = l ∧ x.code ≤ e.code ∧ e.code < x.code + n)
      (fun t => ∃ (u : State) (e : ErrCode), u = s.withIpos u.ipos ∧ t = u.raise e) False := by
  induction n generalizing x s with
  | zero => exact ⟨rfl, rfl, rfl, by omega, [], by simp, rfl, by simp⟩
  | succ n ih =>
    unfold expandLevel
    split
    · exact ⟨s, .table, rfl, rfl⟩
    · next hc =>
      refine Res.Post.bind (hg _ s) ?_
      intro sym u hu
      refine (ih _ u).mono ?_ ?_ id
      · rintro y t ⟨ht, hcode, hk, hle, es, he, hl, hes⟩
        simp only at hcode hk he hes
        refine ⟨withIpos_trans hu ht, by omega, by omega, fun _ => ?_, ⟨l, x.code, sym⟩ :: es, by simp [he], by simp [hl], ?_⟩
        · rcases Nat.eq_zero_or_pos n with rfl | hn
          · omega
          · exact hle hn
        · intro e hmem
          rcases List.mem_cons.1 hmem with rfl | hmem
          · exact ⟨rfl, by simp, by simp⟩
          · have := hes e hmem; exact ⟨this.1, by omega, by omega⟩
      · rintro t ⟨v, e, hv, rfl⟩
        exact ⟨v, e, withIpos_trans hu hv, rfl⟩

/-- The whole expansion (R152) changes only the cursor. -/
theorem expandLevels_post {get : SpecSource} (hg : SourceMovesCursor get) (cs : List Nat) (l : Nat) (x : Expansion)
    (s : State) :
    (expandLevels get cs l x s).Post (fun _ t => t = s.withIpos t.ipos)
      (fun t => ∃ (u : State) (e : ErrCode), u = s.withIpos u.ipos ∧ t = u.raise e) False := by
  induction cs generalizing l x s with
  | nil => rfl
  | cons c cs ih =>
    unfold expandLevels
    refine Res.Post.bind (expandLevel_post hg l c x s) ?_
    rintro y u ⟨hu, -⟩
    refine (ih _ _ u).mono ?_ ?_ id
    · rintro z t ht; exact withIpos_trans hu ht
    · rintro t ⟨v, e, hv, rfl⟩; exact ⟨v, e, withIpos_trans hu hv, rfl⟩

/-- Rebuilding a slot (R153, R154) changes the cursor and the slot; after an error the slot is invalid and empty. -/
theorem buildSlot_post {get : SpecSource} (hg : SourceMovesCursor get) (slot : BitVec 1) (s : State) :
    (buildSlot get slot s).Post (fun _ t => ∃ tree, t = (s.withTree slot true tree).withIpos t.ipos)
      (fun t => ∃ (u : State) (e : ErrCode), u = (s.withTree slot false []).withIpos u.ipos ∧ t = u.raise e) False := by
  unfold buildSlot buildFrom
  refine Res.Post.bind (P := fun _ t => t = (s.withTree slot false []).withIpos t.ipos)
    (Res.Post.bind (readCounts_post hg 16 0 _) ?_) ?_
  · rintro cs u ⟨hu, -⟩
    refine Res.Post.bind (P := fun _ t => t = (s.withTree slot false []).withIpos t.ipos)
      ((expandLevels_post hg cs 1 _ u).mono ?_ ?_ id) ?_
    · rintro x t ht; exact withIpos_trans hu ht
    · rintro t ⟨v, e, hv, rfl⟩; exact ⟨v, e, withIpos_trans hu hv, rfl⟩
    · intro x t ht; exact ht
  · intro tree t ht
    refine ⟨tree, ?_⟩
    rw [ht]
    exact congrArg (fun u => State.withIpos u t.ipos) (withTree_withTree s slot false true [] tree)

/-! ### BMP -/

/-- `PutPixel` (R204): one byte of `OUT` and the cursor change; an overflow leaves `OUT`. -/
theorem putPixel_post (v : Byte) (s : State) :
    (putPixel v s).Post
      (fun _ t => t = (s.withCursor t.x t.y).withOut t.outMem ∧ ∃ a b, t.outMem = Memory.write s.outMem a b)
      (fun t => ∃ u : State, u = s.withCursor u.x u.y ∧ t = u.raise .overflow) False := by
  unfold putPixel
  have hw : ∃ cx cy, wrapCursor s = s.withCursor cx cy := by
    unfold wrapCursor
    split
    · exact ⟨_, _, rfl⟩
    · exact ⟨s.x, s.y, rfl⟩
  obtain ⟨cx, cy, hw⟩ := hw
  rw [hw]
  dsimp only
  split
  · exact ⟨_, rfl, rfl⟩
  · split
    · unfold outWrite
      split
      · exact ⟨rfl, _, _, rfl⟩
      · simp
    · unfold outByte
      split
      · simp only [Res.bind_ok]
        unfold outWrite
        split
        · exact ⟨rfl, _, _, rfl⟩
        · contradiction
      · simp

/-! ### SGI and HDR -/

/-- The verbatim copy (R233) changes only `OUT`. -/
theorem copyRun_post (n src dst : Nat) (s : State) :
    (copyRun n src dst s).Post (fun _ t => t = s.withOut t.outMem) (fun _ => False) False := by
  induction n generalizing src dst s with
  | zero => rfl
  | succ n ih =>
    unfold copyRun inByte
    split
    · simp only [Res.bind_ok]
      unfold outWrite
      split
      · simp only [Res.bind_ok]
        refine (ih (src + 1) (dst + 1) _).mono ?_ (fun _ h => h) id
        intro u t ht; rw [ht]; rfl
      · simp
    · simp

/-- The repeated byte (R234) changes only `OUT`. -/
theorem fillRun_post (n : Nat) (v : Byte) (dst : Nat) (s : State) :
    (fillRun n v dst s).Post (fun _ t => t = s.withOut t.outMem) (fun _ => False) False := by
  induction n generalizing dst s with
  | zero => rfl
  | succ n ih =>
    unfold fillRun outWrite
    split
    · simp only [Res.bind_ok]
      refine (ih (dst + 1) _).mono ?_ (fun _ h => h) id
      intro u t ht; rw [ht]; rfl
    · simp

/-- The repeated byte of a plane (R259) changes only `SCAN`. -/
theorem scanFill_post (n : Nat) (v : Byte) (p x : Nat) (s : State) :
    (scanFill n v p x s).Post (fun _ t => t = s.withScan t.scan) (fun _ => False) False := by
  induction n generalizing x s with
  | zero => rfl
  | succ n ih =>
    unfold scanFill scanWrite
    split
    · simp only [Res.bind_ok]
      refine (ih (x + 1) _).mono ?_ (fun _ h => h) id
      intro u t ht; rw [ht]; rfl
    · simp

/-- The literals of a plane (R260) change `SCAN` and the cursor. -/
theorem scanLiterals_post (n p x : Nat) (s : State) :
    (scanLiterals n p x s).Post (fun _ t => t = (s.withScan t.scan).withIpos t.ipos)
      (fun t => ∃ u : State, u = (s.withScan u.scan).withIpos u.ipos ∧ t = u.raise .eos) False := by
  induction n generalizing x s with
  | zero => rfl
  | succ n ih =>
    unfold scanLiterals fetchByte
    split
    · exact ⟨s, rfl, rfl⟩
    · unfold inByte
      split
      · simp only [Res.bind_ok]
        unfold scanWrite
        split
        · simp only [Res.bind_ok]
          refine (ih (x + 1) _).mono ?_ ?_ id
          · intro u t ht; rw [ht]; rfl
          · rintro t ⟨u, hu, rfl⟩; exact ⟨u, by rw [hu]; rfl, rfl⟩
        · simp
      · simp

/-- `PutRgbe` (R255) changes only `OUT`. -/
theorem putRgbe_post (y x : Nat) (r g b e : Byte) (s : State) :
    (putRgbe y x r g b e s).Post (fun _ t => t = s.withOut t.outMem) (fun _ => False) False := by
  unfold putRgbe out32Write
  dsimp only
  split
  · simp only [Res.bind_ok]
    split
    · simp only [Res.bind_ok]
      split
      · rfl
      · simp
    · simp
  · simp

/-! ### The machine -/

/-- What one step is (R287). -/
theorem step_eq (s : State) :
    step s =
      match s.hostQ with
      | e :: q => hostEvent e (s.withQueue q)
      | [] => if s.st = .busy then engineStep s else .next s := rfl

theorem step_event {s : State} {e : HostEvent} {q : List HostEvent} (h : s.hostQ = e :: q) :
    step s = hostEvent e (s.withQueue q) := by rw [step_eq, h]

theorem step_busy {s : State} (h : s.hostQ = []) (hb : s.st = .busy) : step s = engineStep s := by
  rw [step_eq, h]; simp [hb]

theorem step_idle {s : State} (h : s.hostQ = []) (hb : s.st ≠ .busy) : step s = .next s := by
  rw [step_eq, h]; simp [hb]

/-- Acceptance of a command word (R281). -/
theorem hostCommand_eq (w : Word) (s : State) :
    hostCommand w s =
      if s.st = .busy ∨ (s.st = .error ∧ w ≠ 0x01000000#32 ∧ w ≠ 0x02000000#32) then .next s.drop
      else exec (decodeHost w) s := by
  unfold hostCommand
  cases hs : s.st <;> simp
  split <;> split <;> first | rfl | (exfalso; tauto)

end Sys2Proof.Machine
end

