-- ==== Sys2Proof/Tests/Slice0.lean ====
section
/-! SUPPORT. The model's own tests: the well-formedness checks, the decoding of words written out from the spec's encodings,
one step of every instruction with the values of spec/95_test_vectors.md, and for each statement of the obligations
file states and operands that meet its hypotheses. -/

namespace Sys2Proof.Tests

open Sys2Proof Sys2Proof.Machine Sys2Proof.Ref

-- One test after another: as tasks, the kernel evaluations would each hold a thread of their own.
set_option Elab.async false

/-! ### Well-formedness: for each check a term that it refuses -/

theorem test_wf_illegal_word_that_is_legal : (Instr.illegalHostWord 0x11#8 3#8 0#16).wf = false := by decide
theorem test_wf_illegal_word : (Instr.illegalHostWord 0x11#8 3#8 1#16).wf = true := by decide
theorem test_wf_run8_count : (Instr.bmpRun8 0#8 7#8).wf = false := by decide
theorem test_wf_run4_count : (Instr.bmpRun4 0#8 7#4 7#4).wf = false := by decide
theorem test_wf_abs8_two : (Instr.bmpAbs8 2#8).wf = false := by decide
theorem test_wf_abs4_two : (Instr.bmpAbs4 2#8).wf = false := by decide
theorem test_wf_verbatim_count : (Instr.sgiVerbatim 0#7).wf = false := by decide
theorem test_wf_repeat_count : (Instr.sgiRepeat 0#7).wf = false := by decide
theorem test_wf_literal_zero : (Instr.hdrLiteral 0#8).wf = false := by decide
theorem test_wf_literal_129 : (Instr.hdrLiteral 129#8).wf = false := by decide
theorem test_wf_hdr_repeat_zero : (Instr.hdrRepeat 0#7).wf = false := by decide
theorem test_wf_resid_without_bits : (Instr.crwResid 3#4 0#4).wf = false := by decide
theorem test_wf_resid_continue : (Instr.crwResid 15#4 15#4).wf = false := by decide
theorem test_wf_tablespec_counts : (Instr.tablespec [1#8] [7#8]).wf = false := by decide
theorem test_wf_tablespec_symbols :
    (Instr.tablespec (1#8 :: List.replicate 15 0#8) [7#8, 8#8]).wf = false := by decide

/-! ### Decoding: words written out from 30_encoding.md -/

theorem test_decode_system :
    [0x00000000#32, 0x01000000#32, 0x02000000#32].map decodeHost = [.nop, .reset, .clear] := by decide
theorem test_decode_bit_reader :
    [0x10000000#32, 0x11190000#32, 0x120C0000#32, 0x13200000#32].map decodeHost =
      [.brPrime, .brRead 25#8, .brPeek 12#8, .brSkip 32#8] := by decide
theorem test_decode_huffman :
    [0x20010000#32, 0x21000000#32, 0x22000000#32, 0x230F0000#32].map decodeHost =
      [.hufBuild 1#1, .hufLoadt, .hufDecode 0#1, .hufResid 15#4] := by decide
theorem test_decode_crw :
    [0x30000000#32, 0x31000000#32, 0x32000000#32, 0x33000000#32, 0x34000000#32, 0x35000000#32].map decodeHost =
      [.crwDetect, .crwInit, .crwBlock, .crwRecon, .crwMerge, .crwRun] := by decide
theorem test_decode_runs :
    [0x40010000#32, 0x50000000#32, 0x51020003#32, 0x60000000#32].map decodeHost =
      [.bmpRun 1#1, .sgiRun, .sgiLine 2#8 3#16, .hdrRun] := by decide
/-- 95 §5.1: an unused field that is not 0, an operand bit out of range, a code outside the map. -/
theorem test_decode_illegal :
    [0x00000001#32, 0x20020000#32, 0x23100000#32, 0x40020000#32, 0x03000000#32, 0xFFFFFFFF#32].map decodeHost =
      [.illegalHostWord 0#8 0#8 1#16, .illegalHostWord 0x20#8 2#8 0#16, .illegalHostWord 0x23#8 0x10#8 0#16,
        .illegalHostWord 0x40#8 2#8 0#16, .illegalHostWord 3#8 0#8 0#16, .illegalHostWord 0xFF#8 0xFF#8 0xFFFF#16] := by
  decide
theorem test_decode_bmp8 :
    [(0x09#8, 0x1E#8), (0#8, 0#8), (0#8, 1#8), (0#8, 2#8), (0#8, 3#8)].map (fun p => decodeBmp false p.1 p.2) =
      [.bmpRun8 9#8 0x1E#8, .bmpEol, .bmpEob, .bmpDelta, .bmpAbs8 3#8] := by decide
theorem test_decode_bmp4 :
    [(0x05#8, 0x06#8), (0#8, 2#8), (0#8, 6#8)].map (fun p => decodeBmp true p.1 p.2) =
      [.bmpRun4 5#8 0#4 6#4, .bmpDelta, .bmpAbs4 6#8] := by decide
theorem test_decode_sgi :
    [0x00#8, 0x80#8, 0x82#8, 0x03#8].map decodeSgi = [.sgiEnd 0#1, .sgiEnd 1#1, .sgiVerbatim 2#7, .sgiRepeat 3#7] := by
  decide
theorem test_decode_hdr :
    [0x00#8, 0x01#8, 0x80#8, 0x81#8, 0xFF#8].map decodeHdr =
      [.hdrInvalid, .hdrLiteral 1#8, .hdrLiteral 128#8, .hdrRepeat 1#7, .hdrRepeat 127#7] := by decide
theorem test_decode_header :
    decode .hdrh (.bytes [0x02#8, 0x02#8, 0x7F#8, 0xFF#8]) = .instr (.hdrHeader 0x7FFF#15) := by decide
theorem test_decode_header_refused :
    decode .hdrh (.bytes [0x02#8, 0x02#8, 0x80#8, 0x00#8]) = .rejected .notAHeader := by decide
theorem test_decode_symbols :
    [0x00#8, 0xFF#8, 0xF0#8, 0x23#8].map (decodeSymbolClass false) =
      [.crwZero 0#4, .crwContinue, .crwZero 15#4, .crwResid 2#4 3#4] := by decide
theorem test_decode_terminator : decodeSymbolClass true 0x00#8 = .crwEob := by decide

/-- Specification A of 95 §3.1. -/
def specA : List Byte :=
  [1#8, 1#8, 2#8, 0#8, 0#8, 0#8, 0#8, 0#8, 0#8, 0#8, 0#8, 0#8, 0#8, 0#8, 0#8, 0#8, 0x00#8, 0x12#8, 0x23#8, 0xFF#8]

/-- Its counts. -/
def countsA : List Byte := specA.take 16

/-- The tree that specification A stands for (95 §3.1). -/
def treeA : List TreeEntry := [⟨1, 0, 0x00#8⟩, ⟨2, 2, 0x12#8⟩, ⟨3, 6, 0x23#8⟩, ⟨3, 7, 0xFF#8⟩]

theorem test_decode_tablespec :
    decode .tspec (.bytes (specA ++ [9#8])) = .instr (.tablespec countsA [0x00#8, 0x12#8, 0x23#8, 0xFF#8]) := by
  decide
theorem test_decode_tablespec_short : decode .tspec (.bytes (specA.take 19)) = .rejected .tooShort := by decide

/-! ### States -/

/-- A small machine with a stream, primed. -/
def demo (bs : List Byte) : State :=
  { State.reset with
    params := { inSize := 512, outSize := 2048, tabEntries := 16,
                tabrom := ⟨specA, specA, specA, specA, specA, specA⟩, eobRule := .firstSymbolNonzeroBlock }
    inMem := Memory.writeAll [] 0 bs, inlen := BitVec.ofNat 32 bs.length, primed := true }

/-- A property of the next state. -/
def after (o : Host.Outcome State Fault Refusal) (p : State → Bool) : Bool :=
  match o with
  | .next t => p t
  | _ => false

/-- The bytes of `OUT` from an address on. -/
def outBytes (s : State) (a n : Nat) : List Nat := (Memory.readAll s.outMem a n).map BitVec.toNat

/-- A BMP destination of 20 or 27 columns (95 §1). -/
def bmpDemo (rle4 : Bool) (x y : Nat) (bs : List Byte) : State :=
  { demo bs with
    width := if rle4 then 27#32 else 20#32, budget := if rle4 then 48#32 else 60#32
    phase := if rle4 then 1#32 else 0#32, x := BitVec.ofNat 32 x, y := BitVec.ofNat 32 y }

/-- An SGI image of one scanline of 5 bytes, inside the scanline (95 §6.2). -/
def sgiDemo (x : Nat) (bs : List Byte) : State :=
  { demo bs with
    width := 5#32, height := 1#32, channels := 1#32, bpc := 1#32, x := BitVec.ofNat 32 x
    lentab := [(0, BitVec.ofNat 32 bs.length)], loc := { lineEnd := bs.length, lineDst := 0 } }

/-- An HDR image of one scanline of 8 pixels, its run begun. -/
def hdrDemo (x : Nat) (bs : List Byte) : State :=
  { demo bs with
    width := 8#32, height := 1#32, st := .busy, unit := .hdr, phase := 1#32, loc := { plane := 3, planeX := x } }

/-- Tables T1 and T2 of 95 §3.1 in the two slots, the CRW stream configuration. -/
def crwDemo (bs : List Byte) : State :=
  { demo bs with
    stuff := true, width := 64#32, height := 2#32, treev0 := true, treev1 := true
    tree0 := [⟨1, 0, 0x03#8⟩, ⟨2, 2, 0x00#8⟩, ⟨3, 6, 0x12#8⟩, ⟨3, 7, 0xFF#8⟩]
    tree1 := [⟨1, 0, 0x00#8⟩, ⟨2, 2, 0x02#8⟩, ⟨3, 6, 0x11#8⟩, ⟨4, 14, 0xF0#8⟩, ⟨4, 15, 0xE0#8⟩] }

/-- The stream of the block of 95 §3.2. -/
def blockBytes : List Byte := [0x59#8, 0xD7#8, 0x77#8, 0x00#8, 0x08#8]

/-- `DIFFBUF` of 95 §3.4. -/
def reconDemo : State :=
  { crwDemo [] with diffbuf := ((Vector.replicate 64 0#32).set 0 5#32).set 1 (BitVec.ofInt 32 (-2)) }

/-! ### One step of each instruction -/

theorem test_nop : after (exec .nop (demo [])) (fun t => t == demo []) = true := by decide +kernel
/-- R284. -/
theorem test_reset : after (exec .reset (bmpDemo true 3 1 [])) (fun t => readRegister t 0x09#7 == 0#32 &&
    readRegister t 0x08#7 == 0#32) = true := by decide +kernel
/-- 95 §2.4: `USAGE` acknowledged. -/
theorem test_clear : after (exec .clear ((demo []).raise .usage)) (fun t => readRegister t 0x01#7 == 0#32) = true := by
  decide +kernel
/-- 95 §5.1. -/
theorem test_illegal : after (exec (.illegalHostWord 0x30#8 0#8 1#16) (demo [])) (fun t =>
    readRegister t 0x01#7 == 0x93#32) = true := by decide +kernel
/-- 95 §2.6. -/
theorem test_br_prime : after (exec .brPrime { demo [0#8] with vbits := 5#6, bitbuf := 0x14#32, ipos := 1#32 })
    (fun t => readRegister t 0x08#7 == 0x100#32 && t.bitbuf == 0#32 && t.ipos == 1#32) = true := by decide +kernel
/-- 95 §2.3. -/
theorem test_br_read_stuffed : after (exec (.brRead 4#8) { demo [0xFF#8, 0x00#8, 0x12#8] with stuff := true })
    (fun t => t.result == 0xF#32 && t.bitbuf == 0xF#32 && t.vbits == 4#6 && t.ipos == 2#32) = true := by decide +kernel
/-- 95 §2.4. -/
theorem test_br_read_lsb : after (exec (.brRead 3#8) { demo [0xA5#8] with order := true })
    (fun t => t.result == 5#32 && t.bitbuf == 0x14#32 && t.vbits == 5#6) = true := by decide +kernel
theorem test_br_peek_lsb : after (exec (.brPeek 4#8) { demo [0xA5#8, 0x3C#8] with order := true, ipos := 1#32 })
    (fun t => t.result == 0xC#32 && t.bitbuf == 0x3C#32 && t.vbits == 8#6 && t.ipos == 2#32) = true := by decide +kernel
theorem test_br_skip_lsb : after (exec (.brSkip 2#8) { demo [] with order := true, bitbuf := 0x3C#32, vbits := 8#6 })
    (fun t => t.bitbuf == 0x0F#32 && t.vbits == 6#6) = true := by decide +kernel
/-- 95 §3.1. -/
theorem test_huf_build : after (exec (.hufBuild 0#1) (demo specA))
    (fun t => t.tree0 == treeA && t.treev0 && t.ipos == 20#32 && !t.primed) = true := by decide +kernel
theorem test_huf_build_oversubscribed :
    after (exec (.hufBuild 0#1) (demo ([3#8] ++ List.replicate 15 0#8 ++ [0xAA#8, 0xBB#8, 0xCC#8])))
      (fun t => readRegister t 0x01#7 == 0x53#32 && t.ipos == 18#32 && !t.treev0) = true := by decide +kernel
/-- R154: a table index above 2 is clamped. -/
theorem test_huf_loadt : after (exec .hufLoadt { demo [] with
      table := 7#32, params := { (demo []).params with tabrom := ⟨[], [], [], [], specA, specA⟩ } })
    (fun t => t.tree0 == treeA && t.tree1 == treeA && t.treev1) = true := by decide +kernel
/-- 95 §3.3. -/
theorem test_huf_decode : after (exec (.hufDecode 0#1) { demo [0xB4#8] with tree0 := treeA, treev0 := true })
    (fun t => t.result == 0x12#32 && t.vbits == 6#6 && t.bitbuf == 0x34#32) = true := by decide +kernel
/-- 95 §3.6: `011` is -4. -/
theorem test_huf_resid : after (exec (.hufResid 3#4) (demo [0x60#8]))
    (fun t => t.result == 0xFFFFFFFC#32) = true := by decide +kernel
/-- R348: an unprimed reader raises `USAGE` also for length 0. -/
theorem test_huf_resid_unprimed : after (exec (.hufResid 0#4) { demo [0x60#8] with primed := false, result := 9#32 })
    (fun t => readRegister t 0x01#7 == 0x73#32 && t.result == 9#32) = true := by decide +kernel
theorem test_tablespec : after (exec (.tablespec countsA (specA.drop 16)) (demo []))
    (fun t => t.tree0 == treeA && t.treev0) = true := by decide +kernel
/-- 95 §3.7. -/
theorem test_crw_detect : after (exec .crwDetect (demo [0x12#8, 0xFF#8, 0x00#8, 0x34#8]))
    (fun t => t.result == 0#32 && !t.lowbits) = true := by decide +kernel
/-- R172. -/
theorem test_crw_init : after (exec .crwInit { demo [] with carry := 9#32, column := 7#32 })
    (fun t => readRegister t 0x06#7 == 2#32 && t.base1 == 512#32 && t.carry == 0#32 && t.column == 0#32) = true := by
  decide +kernel
/-- 95 §3.2. -/
theorem test_crw_block : after (exec .crwBlock (crwDemo blockBytes))
    (fun t => [0, 1, 2, 3, 4].map (diffGet t) == [5#32, 0xFFFFFFFE#32, 0#32, 1#32, 0#32] && t.ipos == 5#32) = true := by
  decide +kernel
theorem test_crw_block_overflow : after (exec .crwBlock (crwDemo [0x5E#8, 0xEE#8, 0xE0#8]))
    (fun t => readRegister t 0x01#7 == 0x33#32 && t.errpos == 3#32 && t.vbits == 4#6) = true := by decide +kernel
/-- 95 §3.4. -/
theorem test_crw_recon : after (exec .crwRecon reconDemo)
    (fun t => [0, 1, 2, 63].map (sample t.outMem) == [517, 510, 517, 510] && t.carry == 5#32 && t.block == 1#32 &&
      t.column == 64#32) = true := by decide +kernel
/-- R177: a row that begins in the middle of a block. -/
theorem test_crw_recon_rows : after (exec .crwRecon { reconDemo with width := 2#32, height := 32#32 })
    (fun t => [0, 1, 2, 3].map (sample t.outMem) == [517, 510, 512, 512]) = true := by decide +kernel
/-- 95 §3.8. -/
theorem test_crw_merge : after (exec .crwMerge { demo [0xE4#8] with
      column := 4#32, outMem := Memory.writeAll [] 0 [0x05#8, 0x02#8, 0xFE#8, 0x01#8, 0x05#8, 0x02#8, 0xFF#8, 0x01#8] })
    (fun t => [0, 1, 2, 3].map (sample t.outMem) == [2068, 2041, 2070, 2047]) = true := by decide +kernel
theorem test_crw_run : after (exec .crwRun (crwDemo [])) (fun t => readRegister t 0x01#7 == 0x101#32) = true := by
  decide +kernel
theorem test_crw_run_partial_block : after (exec .crwRun { crwDemo [] with height := 3#32, width := 65#32 })
    (fun t => readRegister t 0x01#7 == 0x83#32) = true := by decide +kernel
/-- R174, R176, R175. -/
theorem test_crw_eob : after (exec .crwEob (crwDemo [])) (fun t => t.loc.ended) = true := by decide +kernel
theorem test_crw_continue : after (exec .crwContinue (crwDemo [])) (fun t => t.loc.pos == 1) = true := by decide +kernel
theorem test_crw_zero : after (exec (.crwZero 14#4) { crwDemo [] with loc := { pos := 49 } })
    (fun t => t.loc.pos == 64) = true := by decide +kernel
theorem test_crw_zero_overflow : after (exec (.crwZero 15#4) { crwDemo [] with loc := { pos := 49 } })
    (fun t => t.err == .overflow) = true := by decide +kernel
theorem test_crw_resid : after (exec (.crwResid 1#4 2#4) { crwDemo [0x40#8] with loc := { pos := 2 } })
    (fun t => diffGet t 3 == 0xFFFFFFFE#32 && t.loc.pos == 4) = true := by decide +kernel
/-- R205. -/
theorem test_bmp_run : after (exec (.bmpRun 1#1) (bmpDemo false 3 3 []))
    (fun t => readRegister t 0x01#7 == 0x201#32 && t.phase == 1#32 && t.x == 0#32 && t.y == 0#32) = true := by
  decide +kernel
/-- 95 §1.1, steps 1, 5, 6, 7, 3. -/
theorem test_bmp_run8 : after (exec (.bmpRun8 3#8 4#8) (bmpDemo false 0 0 []))
    (fun t => outBytes t 0 4 == [4, 4, 4, 0] && t.x == 3#32) = true := by decide +kernel
theorem test_bmp_run8_wraps : after (exec (.bmpRun8 3#8 0x78#8) (bmpDemo false 18 1 []))
    (fun t => outBytes t 37 5 == [0, 0x78, 0x78, 0x78, 0] && t.x == 1#32 && t.y == 2#32) = true := by decide +kernel
theorem test_bmp_delta : after (exec .bmpDelta (bmpDemo false 13 0 [5#8, 1#8]))
    (fun t => t.x == 18#32 && t.y == 1#32 && t.ipos == 2#32) = true := by decide +kernel
theorem test_bmp_delta_bounds : after (exec .bmpDelta (bmpDemo false 13 0 [8#8, 1#8]))
    (fun t => t.err == .bounds && t.x == 21#32 && t.y == 1#32 && t.errpos == 2#32) = true := by decide +kernel
theorem test_bmp_eol : after (exec .bmpEol (bmpDemo false 20 1 [])) (fun t => t.x == 0#32 && t.y == 2#32) = true := by
  decide +kernel
theorem test_bmp_eob : after (exec .bmpEob (bmpDemo false 9 2 []))
    (fun t => readRegister t 0x01#7 == 0x802#32) = true := by decide +kernel
theorem test_bmp_abs8 : after (exec (.bmpAbs8 3#8) (bmpDemo false 8 0 [0x45#8, 0x56#8, 0x67#8, 0#8]))
    (fun t => outBytes t 8 4 == [0x45, 0x56, 0x67, 0] && t.x == 11#32 && t.ipos == 4#32) = true := by decide +kernel
/-- 95 §1.2, steps 2 and 3. -/
theorem test_bmp_run4 : after (exec (.bmpRun4 5#8 0#4 6#4) { bmpDemo true 3 0 [] with
      outMem := Memory.writeAll [] 0 [0x04#8, 0x00#8] })
    (fun t => outBytes t 0 4 == [0x04, 0x00, 0x60, 0x60] && t.x == 8#32) = true := by decide +kernel
theorem test_bmp_abs4 : after (exec (.bmpAbs4 6#8) (bmpDemo true 8 0 [0x45#8, 0x56#8, 0x67#8, 0#8]))
    (fun t => outBytes t 4 4 == [0x45, 0x56, 0x67, 0] && t.x == 14#32 && t.ipos == 4#32) = true := by decide +kernel
/-- R236, and `UNSUPPORTED` (R231). -/
theorem test_sgi_run : after (exec .sgiRun (sgiDemo 0 [])) (fun t => readRegister t 0x01#7 == 0x301#32) = true := by
  decide +kernel
theorem test_sgi_run_two_bytes : after (exec .sgiRun { sgiDemo 0 [] with bpc := 2#32 })
    (fun t => readRegister t 0x01#7 == 0x63#32) = true := by decide +kernel
/-- 95 §6.2. -/
theorem test_sgi_line : after (exec (.sgiLine 0#8 0#16) (sgiDemo 0 [0x03#8, 0xAA#8, 0x02#8, 0xBB#8]))
    (fun t => outBytes t 0 5 == [0xAA, 0xAA, 0xAA, 0xBB, 0xBB] && t.ipos == 4#32 && t.x == 5#32) = true := by
  decide +kernel
theorem test_sgi_line_cut : after (exec (.sgiLine 0#8 0#16) { sgiDemo 0 [0x03#8, 0xAA#8, 0x02#8, 0xBB#8] with
      lentab := [(0, 3#32)] })
    (fun t => readRegister t 0x01#7 == 0x13#32 && t.ipos == 3#32 && t.x == 3#32 && outBytes t 0 4 == [0xAA, 0xAA, 0xAA, 0])
    = true := by decide +kernel
theorem test_sgi_end : after (exec (.sgiEnd 1#1) (sgiDemo 0 [])) (fun t => t.loc.ended) = true := by decide +kernel
/-- R233, R234. -/
theorem test_sgi_verbatim : after (exec (.sgiVerbatim 2#7) (sgiDemo 3 [0x01#8, 0x02#8]))
    (fun t => outBytes t 3 2 == [1, 2] && t.x == 5#32 && t.ipos == 2#32) = true := by decide +kernel
theorem test_sgi_repeat : after (exec (.sgiRepeat 3#7) (sgiDemo 0 [0xAA#8]))
    (fun t => outBytes t 0 4 == [0xAA, 0xAA, 0xAA, 0] && t.x == 3#32 && t.ipos == 1#32) = true := by decide +kernel
/-- R256, R258, R261. -/
theorem test_hdr_run : after (exec .hdrRun { hdrDemo 0 [] with st := .idle })
    (fun t => readRegister t 0x01#7 == 0x401#32 && t.phase == 0#32) = true := by decide +kernel
theorem test_hdr_header : after (exec (.hdrHeader 8#15) (hdrDemo 0 [])) (fun t => t == hdrDemo 0 []) = true := by
  decide +kernel
theorem test_hdr_header_mismatch : after (exec (.hdrHeader 9#15) (hdrDemo 0 [])) (fun t => t.err == .corrupt) = true := by
  decide +kernel
theorem test_hdr_invalid : after (exec .hdrInvalid (hdrDemo 0 [])) (fun t => t.err == .corrupt) = true := by
  decide +kernel
/-- R260 and R259's examples. -/
theorem test_hdr_literal : after (exec (.hdrLiteral 3#8) (hdrDemo 5 [0x10#8, 0x20#8, 0x30#8]))
    (fun t => Memory.readAll t.scan (scanKey 3 5) 3 == [0x10#8, 0x20#8, 0x30#8] && t.loc.planeX == 8 && t.ipos == 3#32)
    = true := by decide +kernel
theorem test_hdr_repeat : after (exec (.hdrRepeat 8#7) (hdrDemo 0 [0x80#8]))
    (fun t => Memory.readAll t.scan (scanKey 3 0) 8 == List.replicate 8 0x80#8 && t.loc.planeX == 8) = true := by
  decide +kernel
theorem test_hdr_repeat_overflow : after (exec (.hdrRepeat 9#7) (hdrDemo 0 [0x80#8]))
    (fun t => t.err == .overflow && t.ipos == 0#32) = true := by decide +kernel
/-- R254's examples. -/
theorem test_f32 :
    [(128#8, 128#8), (1#8, 136#8), (255#8, 137#8), (255#8, 1#8), (1#8, 1#8), (255#8, 255#8), (7#8, 0#8)].map
      (fun p => f32 p.1 p.2) =
    [0x3F000000#32, 0x3F800000#32, 0x43FF0000#32, 0x003FC000#32, 0x00004000#32, 0x7EFF0000#32, 0#32] := by
  decide +kernel

/-! ### The machine: one step each -/

/-- 95 §5.2: a command in `BUSY` is dropped, also `RESET`. -/
theorem test_step_drops_while_busy : after (step { demo [] with st := .busy, hostQ := [.regWr 0#7 0x01000000#32] })
    (fun t => readRegister t 0x01#7 == 0x9#32) = true := by decide +kernel
/-- R286: a seek clears `PRIMED`. -/
theorem test_step_seek : after (step { demo [] with hostQ := [.regWr 0x04#7 5#32] })
    (fun t => t.ipos == 5#32 && !t.primed) = true := by decide +kernel
/-- R315. -/
theorem test_step_abort : after (step { hdrDemo 0 [] with abort := true, loc := {} })
    (fun t => t.st == .aborted && !t.abort) = true := by decide +kernel
/-- R257, R258: the flat path; `F32(128, 129)` is 1.0. -/
theorem test_step_hdr_flat : after (step { hdrDemo 0 ((List.range 32).map fun i => if i % 4 = 3 then 129#8 else 128#8)
      with phase := 0#32, loc := {} })
    (fun t => element32 t.outMem 23 == 0x3F800000 && t.st == .done && !t.hdrrle && t.ipos == 32#32) = true := by
  decide +kernel
/-- The placing of instructions: a host word, a BMP pair, an SGI byte, an HDR byte, from the reset state. -/
theorem test_fetch_host : after (step (State.reset.withFetchWord 32 0x10000000)) (fun t => t.primed) = true := by
  decide +kernel
theorem test_fetch_bmp : after (step (State.reset.withFetchWord 16 0x0305)) (fun t => outBytes t 0 4 == [5, 5, 5, 0]) =
    true := by decide +kernel
theorem test_fetch_sgi : after (step (State.reset.withFetchWord 8 0x83)) (fun t => t.x == 3#32) = true := by
  decide +kernel
theorem test_fetch_hdr_invalid : after (step (State.reset.withFetchWord 8 0x00)) (fun t => t.err == .corrupt) = true := by
  decide +kernel
theorem test_table_word : decodeTableWord 32 0x11190000 = some (.brRead 25#8) := by decide +kernel

end Sys2Proof.Tests
end

