-- ==== Sys2Proof/Tests/Witnesses.lean ====
section
/-! SUPPORT. For each statement of the obligations file that has hypotheses, and for each clause of it, a concrete state
and operands that meet all of them together, at a boundary of their range where there is one. -/

namespace Sys2Proof.Tests

open Sys2Proof Sys2Proof.Machine Sys2Proof.Ref

-- As in Slice0.lean.
set_option Elab.async false

/-- Some next state. -/
def goesOn (o : Host.Outcome State Fault Refusal) : Bool := after o fun _ => true

/-! ### Encoding and system -/

theorem witness_DecodeEncodeAgree : (Instr.crwResid 15#4 14#4).wf = true ∧ (Instr.hdrLiteral 128#8).wf = true ∧
    (Instr.tablespec (List.replicate 16 0#8) []).wf = true := by decide
theorem witness_DecodedInstructionsReencode :
    decode .hdr1 (.bytes [128#8, 5#8]) = .instr (.hdrLiteral 128#8) ∧
      decode .host (.word 0x00000001#32) = .instr (.illegalHostWord 0#8 0#8 1#16) := by decide
theorem witness_ResetBothWays_busy :
    ({ hdrDemo 0 (List.replicate 32 0#8) with hostQ := [.hardReset] } : State).hostQ = .hardReset :: [] ∧
      (hdrDemo 0 (List.replicate 32 0#8)).st = .busy ∧ goesOn (engineStep (hdrDemo 0 (List.replicate 32 0#8))) := by
  decide +kernel
theorem witness_ResetBothWays_idle : ({ demo [] with hostQ := [.hardReset] } : State).st ≠ .busy := by decide
theorem witness_IllegalWordRaises : legalHostWord 0x00000001#32 = false ∧
    Accepts { demo [] with hostQ := [.regWr 0x00#7 0x00000001#32] } := by decide +kernel
theorem witness_PrologueRefusesLongStream :
    ({ demo [] with inlen := 513#32 } : State).params.inSize < ({ demo [] with inlen := 513#32 } : State).inlen.toNat := by
  decide +kernel
theorem witness_ResultWriters : after (exec (.hufResid 3#4) (demo [0x60#8])) (fun t => t.result != (demo []).result) ∧
    after (step { demo [] with result := 5#32, hostQ := [.hardReset] }) (fun t => t.result != 5#32) ∧
    after (step { demo [0x60#8] with hostQ := [.regWr 0x00#7 0x23030000#32] }) (fun t => t.result != 0#32) := by
  decide +kernel

/-! ### Bit reader -/

/-- 25 bits, the longest field, of a stuffed stream that holds exactly as many bits as it needs; and no bits. -/
theorem witness_BrReadTakesNextField : let s := { demo [0xFF#8, 0x00#8, 1#8, 2#8, 3#8] with stuff := true }
    StreamOk s ∧ s.primed = true ∧ WindowOk s ∧ (25#8).toNat ≤ 25 ∧ (25#8).toNat ≤ (streamBits s).length ∧
      (streamBits s).length = 32 := by decide +kernel
theorem witness_BrReadTakesNextField_none : let s := demo []
    StreamOk s ∧ s.primed = true ∧ WindowOk s ∧ (0#8).toNat ≤ (streamBits s).length := by decide +kernel
theorem witness_BrPeekAndSkip_skip : let s := { demo [] with bitbuf := 0xFFFFFFFF#32, vbits := 32#6 }
    s.primed = true ∧ WindowOk s ∧ (32#8).toNat ≤ s.vbits.toNat := by decide +kernel
theorem witness_BitFieldFaults_usage : let s := { demo [1#8] with primed := false }
    StreamOk s ∧ s.primed = false ∧ StreamOk (demo [1#8]) ∧ 25 < (26#8).toNat := by decide +kernel
/-- A last `FF` without its stuffed byte delivers nothing. -/
theorem witness_BitFieldFaults_eos : let s := { demo [1#8, 0xFF#8] with stuff := true }
    StreamOk s ∧ s.primed = true ∧ WindowOk s ∧ (9#8).toNat ≤ 25 ∧ (streamBits s).length < (9#8).toNat := by
  decide +kernel
theorem witness_BitFieldFaults_skip : (demo [1#8]).vbits.toNat < (1#8).toNat := by decide +kernel
theorem witness_SplitReadsAgree : let s := demo [0xA5#8, 0x3C#8, 0x5A#8, 0xF0#8]
    WindowOk s ∧ 12 + 13 ≤ 25 ∧
      (match readBits 12 s with
        | .ok _ s₁ => (match readBits 13 s₁ with | .ok _ _ => true | _ => false)
        | _ => false) = true := by decide +kernel

/-! ### Huffman -/

/-- Specification A fills its code space exactly. -/
theorem witness_HufBuildCanonical : StreamOk (demo specA) ∧ SpecFits countsA (specA.drop 16) ∧
    codeSpace countsA = 2 ^ 16 ∧ countsA ++ specA.drop 16 <+: streamTail (demo specA) := by decide +kernel
/-- The last count is missing. -/
theorem witness_HufBuildFaults_counts : let s := demo (List.replicate 15 0#8)
    StreamOk s ∧ (streamTail s).length = 15 := by decide +kernel
/-- The last symbol of a specification that fits is missing; and the second symbol of one that has room for two. -/
theorem witness_HufBuildFaults_eos : let s := { demo specA with inlen := 19#32 }
    let c := 3#8 :: List.replicate 15 0#8
    StreamOk s ∧ streamTail s = countsA ++ [0x00#8, 0x12#8, 0x23#8] ∧ 3 + 1 = placedLeaves countsA ∧
      StreamOk (demo (c ++ [1#8])) ∧ streamTail (demo (c ++ [1#8])) = c ++ [1#8] ∧ 1 + 1 = placedLeaves c := by
  decide +kernel
/-- Counts `[3, 0, ...]` (R153), the stream ending after the second symbol. -/
theorem witness_HufBuildFaults_table : let c := 3#8 :: List.replicate 15 0#8
    let s := demo (c ++ [1#8, 2#8])
    StreamOk s ∧ streamTail s = c ++ [1#8, 2#8] ∧ placedLeaves c = 2 ∧ 2 ^ 16 < codeSpace c := by decide +kernel
/-- A table index above 2. -/
theorem witness_TablesBuildCanonical : let s := { demo [] with table := 3#32 }
    s.params.tabrom.spec (min s.table.toNat 2) false = countsA ++ specA.drop 16 ++ [] ∧
      s.params.tabrom.spec (min s.table.toNat 2) true = countsA ++ specA.drop 16 ++ [] ∧
      SpecFits countsA (specA.drop 16) := by decide +kernel
/-- The second specification lacks its last symbol. -/
theorem witness_TablesBuildCanonical_second :
    let s := { demo [] with params := { (demo []).params with tabrom := ⟨specA, specA.take 19, [], [], [], []⟩ } }
    s.params.tabrom.spec (min s.table.toNat 2) false = countsA ++ specA.drop 16 ++ [] ∧ SpecFits countsA (specA.drop 16) ∧
      ¬ Loadable (s.params.tabrom.spec (min s.table.toNat 2) true) := by decide +kernel
theorem witness_TablesBuildCanonical_first :
    let s := { demo [] with params := { (demo []).params with tabrom := ⟨specA.take 15, specA, [], [], [], []⟩ } }
    ¬ Loadable (s.params.tabrom.spec (min s.table.toNat 2) false) := by decide +kernel
/-- One leaf too many. -/
theorem witness_TablesBuildCanonical_oversubscribed : let c := 3#8 :: List.replicate 15 0#8
    (Instr.tablespec c [1#8, 2#8, 3#8]).wf = true ∧ 2 ^ 16 < codeSpace c := by decide +kernel
theorem witness_HufDecodeFindsLeaf : let s := { demo [0xE0#8] with tree0 := treeA, treev0 := true }
    StreamOk s ∧ s.primed = true ∧ WindowOk s ∧ treeValid s 0#1 = true ∧ TreeOk (treeOf s 0#1) ∧
      (⟨3, 7, 0xFF#8⟩ : TreeEntry) ∈ treeOf s 0#1 ∧ codeBits ⟨3, 7, 0xFF#8⟩ <+: streamBits s := by decide +kernel
theorem witness_HufDecodeFaults_usage : StreamOk (demo []) ∧ treeValid (demo []) 1#1 = false := by decide +kernel
/-- The missing child of an incomplete code, at the first bit. -/
theorem witness_HufDecodeFaults_corrupt : let s := { demo [0x80#8] with tree0 := [⟨1, 0, 5#8⟩], treev0 := true }
    StreamOk s ∧ s.primed = true ∧ WindowOk s ∧ treeValid s 0#1 = true ∧ TreeOk (treeOf s 0#1) ∧
      matchLeaf (treeOf s 0#1) (streamBits s) = none ∧
      codeFault (treeOf s 0#1) (streamBits s) = (.corrupt, List.replicate 7 false) := by decide +kernel
/-- Two bits of a code of three. -/
theorem witness_HufDecodeFaults_eos :
    let s := { demo [] with tree0 := treeA, treev0 := true, bitbuf := 3#32, vbits := 2#6 }
    StreamOk s ∧ s.primed = true ∧ WindowOk s ∧ treeValid s 0#1 = true ∧ TreeOk (treeOf s 0#1) ∧
      matchLeaf (treeOf s 0#1) (streamBits s) = none ∧ codeFault (treeOf s 0#1) (streamBits s) = (.eos, []) := by
  decide +kernel
theorem witness_HufResidValue : let s := demo [0x7F#8, 0xFE#8]
    StreamOk s ∧ s.primed = true ∧ WindowOk s ∧ (15#4).toNat ≤ (streamBits s).length := by decide +kernel
theorem witness_HufResidValue_usage : let s := { demo [] with primed := false }
    StreamOk s ∧ s.primed = false := by decide +kernel
theorem witness_HufResidValue_eos : let s := demo [0x7F#8]
    StreamOk s ∧ s.primed = true ∧ WindowOk s ∧ (streamBits s).length + 1 = (9#4).toNat := by decide +kernel

/-! ### CRW -/

theorem witness_CrwDetectReportsLowBits_pair : StreamOk (demo [0x12#8, 0xFF#8, 0x00#8]) ∧
    StuffingPairInWindow (demo [0x12#8, 0xFF#8, 0x00#8]) :=
  ⟨by decide +kernel, 1, by decide +kernel, by decide +kernel, by decide +kernel, by decide +kernel, by decide +kernel⟩
/-- The first byte of a pair is the last one of the stream. -/
theorem witness_CrwDetectReportsLowBits_none : StreamOk (demo [0xFF#8]) ∧ ¬ StuffingPairInWindow (demo [0xFF#8]) := by
  refine ⟨by decide +kernel, ?_⟩
  rintro ⟨i, -, -, h, -⟩
  have : (demo [0xFF#8]).inlen.toNat = 1 := by decide +kernel
  omega
theorem witness_CrwBlockDecodesResiduals : let s := crwDemo blockBytes
    StreamOk s ∧ s.primed = true ∧ WindowOk s ∧ TreeOk s.tree0 ∧ TreeOk s.tree1 ∧
      blockFault (blockEnv s) 64 0 true (streamBits s) = none ∧
      ((blockResiduals (blockEnv s) 64 0 true (streamBits s)).map fun r => r.1.take 4) = some [5, -2, 0, 1] := by
  decide +kernel
/-- The terminator in the first place of a later block, without a second tree. -/
theorem witness_CrwBlockDecodesResiduals_terminator :
    let s := { crwDemo [0x80#8] with block := 1#32, treev1 := false, tree1 := [] }
    StreamOk s ∧ s.primed = true ∧ WindowOk s ∧ TreeOk s.tree0 ∧ TreeOk s.tree1 ∧
      blockFault (blockEnv s) 64 0 true (streamBits s) = none ∧
      ((blockResiduals (blockEnv s) 64 0 true (streamBits s)).map fun r => r.2.length) = some 6 := by decide +kernel
theorem witness_CrwBlockDecodesResiduals_usage : let s := { crwDemo [] with treev0 := false }
    StreamOk s ∧ s.treev0 = false := by decide +kernel
/-- 95 §3.2's trees: the symbols 03, then E0 four times, and the fifth place outside the block. -/
theorem witness_CrwBlockDecodesResiduals_overflow : let s := crwDemo [0x5F#8, 0xFF#8, 0x00#8, 0xFF#8, 0x00#8]
    StreamOk s ∧ s.primed = true ∧ WindowOk s ∧ TreeOk s.tree0 ∧ TreeOk s.tree1 ∧
      ((blockFault (blockEnv s) 64 0 true (streamBits s)).map fun r => (r.1, r.2.1.take 1)) = some (.overflow, [5]) := by
  decide +kernel
/-- The second tree is missing, and is asked for. -/
theorem witness_CrwBlockDecodesResiduals_second_tree : let s := { crwDemo blockBytes with treev1 := false, tree1 := [] }
    StreamOk s ∧ s.primed = true ∧ WindowOk s ∧ TreeOk s.tree0 ∧ TreeOk s.tree1 ∧
      ((blockFault (blockEnv s) 64 0 true (streamBits s)).map fun r => (r.1, r.2.1)) = some (.usage, [5]) := by
  decide +kernel
/-- The last block of the image. -/
theorem witness_CrwReconWritesSamples : let s := { reconDemo with column := 64#32 }
    s.params.outSize ≤ 2 ^ 32 ∧ 0 < s.width.toNat ∧ s.column.toNat + 64 = s.width.toNat * s.height.toNat ∧
      2 * (s.column.toNat + 64) ≤ s.params.outSize := by decide +kernel
theorem witness_CrwReconFaults_config : (demo []).width = 0#32 := by decide
theorem witness_CrwReconFaults_overflow : let s := { reconDemo with width := 32#32, height := 1#32 }
    s.params.outSize ≤ 2 ^ 32 ∧ 0 < s.width.toNat ∧
      32 = min (s.width.toNat * s.height.toNat) (s.params.outSize / 2) ∧ 32 = 32 - s.column.toNat ∧
      32 < s.column.toNat + 64 := by decide +kernel
/-- A block that leaves after its last sample but one, and a column already past the image. -/
theorem witness_CrwReconFaults_bounds : let s := { reconDemo with width := 63#32, height := 1#32 }
    let r := { reconDemo with width := 32#32, height := 1#32, column := 33#32 }
    63 = min (s.width.toNat * s.height.toNat) (s.params.outSize / 2) ∧ 63 + 1 = s.column.toNat + 64 ∧
      32 = min (r.width.toNat * r.height.toNat) (r.params.outSize / 2) ∧ 0 = 32 - r.column.toNat ∧
      32 < r.column.toNat := by decide +kernel
/-- Five samples need exactly the two bytes there are. -/
theorem witness_CrwMergeLowBits : let s := { demo [0xE4#8, 0x03#8] with column := 5#32 }
    StreamOk s ∧ s.lbaddr.toNat + (s.column.toNat + 3) / 4 = s.inlen.toNat ∧
      2 * s.column.toNat ≤ s.params.outSize := by decide +kernel
theorem witness_CrwMergeLowBits_eos : let s := { demo [0xE4#8] with column := 5#32 }
    StreamOk s ∧ s.inlen.toNat < s.lbaddr.toNat + (s.column.toNat + 3) / 4 := by decide +kernel
/-- An image that fills `OUT` exactly. -/
theorem witness_CrwRunStarts : let s := { crwDemo [] with height := 16#32 }
    0 < s.width.toNat ∧ 0 < s.height.toNat ∧ s.width.toNat * s.height.toNat % 64 = 0 ∧
      2 * (s.width.toNat * s.height.toNat) = s.params.outSize ∧ StreamOk s := by decide +kernel
theorem witness_CrwRunStarts_config : let s := { crwDemo [] with height := 17#32 }
    ¬ (2 * (s.width.toNat * s.height.toNat) ≤ s.params.outSize) := by decide +kernel
theorem witness_CrwSymbolClasses_last : let s := { crwDemo [0x00#8] with loc := { pos := 60 } }
    s.loc.pos + (3#4).toNat ≤ 63 ∧ StreamOk s ∧ s.primed = true ∧ WindowOk s ∧
      (8#4).toNat ≤ (streamBits s).length := by decide +kernel
theorem witness_CrwSymbolClasses_outside :
    63 < ({ crwDemo [] with loc := { pos := 60 } } : State).loc.pos + (4#4).toNat := by decide +kernel
/-- A run in each of its three phases. -/
theorem witness_CrwStepsComposeCommands_setup : let s := { crwDemo [] with st := .busy, unit := .crw }
    StreamOk s ∧ s.abort = false ∧ s.phase = 0#32 ∧
      after (exec .hufLoadt s) (fun u => u.st == .busy && goesOn (exec .crwInit u)) := by decide +kernel
theorem witness_CrwStepsComposeCommands_block :
    let s := { crwDemo blockBytes with st := .busy, unit := .crw, phase := 1#32 }
    StreamOk s ∧ s.abort = false ∧
      after (exec .crwBlock s) (fun u => u.st == .busy && after (exec .crwRecon u) (fun v => v.st == .busy &&
        v.block.toNat != v.width.toNat * v.height.toNat / 64)) := by decide +kernel
theorem witness_CrwStepsComposeCommands_last_block :
    let s := { crwDemo blockBytes with st := .busy, unit := .crw, phase := 1#32, height := 1#32 }
    StreamOk s ∧ s.abort = false ∧
      after (exec .crwBlock s) (fun u => u.st == .busy && after (exec .crwRecon u) (fun v => v.st == .busy &&
        v.block.toNat == v.width.toNat * v.height.toNat / 64)) := by decide +kernel
theorem witness_CrwStepsComposeCommands_block_error :
    let s := { crwDemo [0x5E#8, 0xEE#8, 0xE0#8] with st := .busy, unit := .crw, phase := 1#32 }
    StreamOk s ∧ s.abort = false ∧ after (exec .crwBlock s) (fun u => u.st != .busy) := by decide +kernel
theorem witness_CrwStepsComposeCommands_merge :
    let s := { demo [0xE4#8] with st := .busy, unit := .crw, phase := 2#32, column := 4#32 }
    StreamOk s ∧ s.abort = false ∧ after (exec .crwMerge s) (fun v => v.st == .busy) := by decide +kernel

/-! ### BMP -/

/-- A budget of exactly one row; and one byte less. -/
theorem witness_BmpRunStarts : let r := { bmpDemo true 0 0 [] with budget := 16#32 }
    StreamOk r ∧ 0 < r.width.toNat ∧ bmpStride r = r.budget.toNat ∧
      r.budget.toNat / bmpStride r * bmpStride r ≤ r.params.outSize := by decide +kernel
theorem witness_BmpRunStarts_config : let r := { bmpDemo true 0 0 [] with budget := 15#32 }
    StreamOk r ∧ ¬ bmpStride r ≤ r.budget.toNat := by decide +kernel
/-- A run from a full row to the end of the destination. -/
theorem witness_EncodedRunsDraw_8 : let s := bmpDemo false 20 1 []
    BmpReady s ∧ s.phase = 0#32 ∧ bmpPlace s + (20#8).toNat = bmpRows s * bmpCap s := by decide +kernel
theorem witness_EncodedRunsDraw_4 : let s := bmpDemo true 31 1 []
    BmpReady s ∧ s.phase = 1#32 ∧ bmpPlace s + (33#8).toNat = bmpRows s * bmpCap s := by decide +kernel
theorem witness_AbsoluteRunsDraw_8 : let s := bmpDemo false 17 2 [1#8, 2#8, 3#8, 0#8]
    StreamOk s ∧ BmpReady s ∧ bmpPlace s + (3#8).toNat = bmpRows s * bmpCap s ∧
      s.ipos.toNat + ((3#8).toNat + (3#8).toNat % 2) = s.inlen.toNat := by decide +kernel
theorem witness_AbsoluteRunsDraw_4 : let s := bmpDemo true 27 2 [0x12#8, 0x34#8, 0x56#8, 0#8]
    StreamOk s ∧ BmpReady s ∧ s.phase = 1#32 ∧ 3 = ((5#8).toNat + 1) / 2 ∧
      bmpPlace s + (5#8).toNat = bmpRows s * bmpCap s ∧ s.ipos.toNat + (3 + 3 % 2) = s.inlen.toNat := by decide +kernel
/-- The pad byte is missing. -/
theorem witness_AbsoluteRunsDraw_eos : let s := bmpDemo false 17 2 [1#8, 2#8, 3#8]
    let r := bmpDemo true 27 2 [0x12#8, 0x34#8, 0x56#8]
    StreamOk s ∧ BmpReady s ∧ s.phase = 0#32 ∧ bmpPlace s + min 3 (3#8).toNat = bmpRows s * bmpCap s ∧
      3 = s.inlen.toNat - s.ipos.toNat ∧ StreamOk r ∧ BmpReady r ∧ r.phase = 1#32 ∧
      bmpPlace r + min (2 * 3) (5#8).toNat = bmpRows r * bmpCap r ∧ 3 = r.inlen.toNat - r.ipos.toNat := by decide +kernel
/-- One pixel too many, its byte the last of the stream. -/
theorem witness_AbsoluteRunsDraw_overflow : let s := bmpDemo false 18 2 [1#8, 2#8, 3#8]
    let r := bmpDemo true 28 2 [0x12#8, 0x34#8, 0x56#8]
    StreamOk s ∧ BmpReady s ∧ bmpPlace s + 2 = bmpRows s * bmpCap s ∧ 2 < (3#8).toNat ∧
      2 + 1 = s.inlen.toNat - s.ipos.toNat ∧ StreamOk r ∧ BmpReady r ∧ bmpPlace r + 4 = bmpRows r * bmpCap r ∧
      4 < (5#8).toNat ∧ 4 / 2 + 1 = r.inlen.toNat - r.ipos.toNat := by decide +kernel
/-- No room at all, and one pixel too many. -/
theorem witness_EncodedRunsOverflow_8 : let s := bmpDemo false 20 2 []
    BmpReady s ∧ s.phase = 0#32 ∧ bmpPlace s + 0 = bmpRows s * bmpCap s ∧ 0 < (1#8).toNat := by decide +kernel
theorem witness_EncodedRunsOverflow_4 : let s := bmpDemo true 29 2 []
    BmpReady s ∧ s.phase = 1#32 ∧ bmpPlace s + 3 = bmpRows s * bmpCap s ∧ 3 < (4#8).toNat := by decide +kernel
theorem witness_BmpLineAndBitmapEnds : (0xFFFFFFFE#32 : Word).toNat + 1 < 2 ^ 32 := by decide
/-- The last row just filled; one place before that, at the end of the stream and one byte before it. -/
theorem witness_BmpLineAndBitmapEnds_steps : let s := { bmpDemo false 20 2 [] with st := .busy, unit := .bmp }
    let r := { bmpDemo false 19 2 [5#8] with st := .busy, unit := .bmp }
    s.abort = false ∧ s.y.toNat + 1 = bmpRows s ∧ bmpCap s = s.x.toNat ∧ bmpCap r = r.x.toNat + 1 ∧
      ¬ bmpRows r ≤ r.y.toNat ∧ StreamOk r ∧ r.ipos.toNat + 1 = r.inlen.toNat ∧
      ({ r with ipos := 1#32 } : State).ipos.toNat = r.inlen.toNat := by decide +kernel
/-- To the end of the last row, and one pixel further. -/
theorem witness_BmpDeltaMoves : let s := bmpDemo false 13 0 [7#8, 2#8]
    StreamOk s ∧ s.ipos.toNat + 2 ≤ s.inlen.toNat ∧
      20 = s.x.toNat + (Memory.read s.inMem s.ipos.toNat).toNat ∧
      2 = s.y.toNat + (Memory.read s.inMem (s.ipos.toNat + 1)).toNat ∧ 20 ≤ bmpCap s ∧ 2 < bmpRows s := by
  decide +kernel
theorem witness_BmpDeltaMoves_bounds : let s := bmpDemo false 13 0 [8#8, 2#8]
    StreamOk s ∧ s.ipos.toNat + 2 ≤ s.inlen.toNat ∧
      21 = s.x.toNat + (Memory.read s.inMem s.ipos.toNat).toNat ∧
      2 = s.y.toNat + (Memory.read s.inMem (s.ipos.toNat + 1)).toNat ∧ ¬ (21 ≤ bmpCap s ∧ 2 < bmpRows s) := by
  decide +kernel
theorem witness_BmpDeltaMoves_eos : let s := bmpDemo false 13 0 [8#8]
    StreamOk s ∧ s.inlen.toNat < s.ipos.toNat + 2 := by decide +kernel
theorem witness_BmpStepsStayEven : let s := { bmpDemo false 8 0 [0#8, 3#8, 1#8, 2#8, 3#8, 0#8] with
      st := .busy, unit := .bmp }
    after (engineStep s) (fun t => t.st != .error && t.ipos == 6#32) := by decide +kernel

/-! ### SGI -/

/-- The scanline fills `OUT` exactly. -/
theorem witness_SgiRunStarts : let s := { sgiDemo 0 [] with width := 2048#32 }
    StreamOk s ∧ s.bpc = 1#32 ∧ 0 < s.width.toNat ∧ 0 < s.height.toNat ∧ 0 < s.channels.toNat ∧
      s.channels.toNat * s.height.toNat ≤ s.params.tabEntries ∧
      s.channels.toNat * s.height.toNat * s.width.toNat = s.params.outSize := by decide +kernel
theorem witness_SgiRunStarts_unsupported : let s := { sgiDemo 0 [] with bpc := 2#32 }
    StreamOk s ∧ s.bpc = 2#32 := by decide +kernel
theorem witness_SgiRunStarts_config : let s := { sgiDemo 0 [] with width := 2049#32 }
    StreamOk s ∧ s.bpc ≠ 2#32 ∧ ¬ s.channels.toNat * s.height.toNat * s.width.toNat ≤ s.params.outSize := by
  decide +kernel
theorem witness_SgiControlBytes_overflow : (sgiDemo 3 []).width.toNat < (sgiDemo 3 []).x.toNat + (3#7).toNat := by
  decide +kernel
theorem witness_SgiControlBytes_eos : let s := sgiDemo 3 [1#8]
    s.x.toNat + (2#7).toNat ≤ s.width.toNat ∧ s.loc.lineEnd < s.ipos.toNat + (2#7).toNat ∧
      ({ s with ipos := 1#32 } : State).ipos.toNat = s.loc.lineEnd := by decide +kernel
/-- A run that ends both the scanline and its declared length. -/
theorem witness_SgiControlBytes_runs : let s := sgiDemo 3 [1#8, 2#8]
    StreamOk s ∧ s.x.toNat + (2#7).toNat = s.width.toNat ∧ s.loc.lineEnd ≤ s.inlen.toNat ∧
      s.loc.lineDst + s.x.toNat + (2#7).toNat ≤ s.params.outSize ∧ s.ipos.toNat + (2#7).toNat = s.loc.lineEnd ∧
      s.ipos.toNat < s.loc.lineEnd := by decide +kernel
theorem witness_SgiLineExpands : let s := sgiDemo 0 [0x03#8, 0xAA#8, 0x02#8, 0xBB#8]
    StreamOk s ∧ s.bpc = 1#32 ∧ 0 < s.width.toNat ∧ (0#8).toNat < s.channels.toNat ∧ (0#16).toNat < s.height.toNat ∧
      s.channels.toNat * s.height.toNat ≤ s.params.tabEntries ∧
      s.channels.toNat * s.height.toNat * s.width.toNat ≤ s.params.outSize ∧
      0 = (Memory.read s.offtab 0).toNat ∧ 4 = (Memory.read s.lentab 0).toNat ∧ 0 + 4 = s.inlen.toNat ∧
      sgiExpand 5 (Memory.readAll s.inMem 0 4) s.width.toNat = some ([0xAA#8, 0xAA#8, 0xAA#8, 0xBB#8, 0xBB#8], 4) := by
  decide +kernel
/-- R235's example: the declared length ends before the second run's value. -/
theorem witness_SgiLineExpands_fault : let s := sgiDemo 0 [0x03#8, 0xAA#8, 0x02#8]
    StreamOk s ∧ s.bpc = 1#32 ∧ (0#8).toNat < s.channels.toNat ∧ (0#16).toNat < s.height.toNat ∧
      0 + 3 = s.inlen.toNat ∧
      sgiFault 4 (Memory.readAll s.inMem 0 3) s.width.toNat = some (.eos, [0xAA#8, 0xAA#8, 0xAA#8], 3) := by
  decide +kernel
/-- The last scanline of the first of two channels. -/
theorem witness_SgiLineExpands_step : let s := { sgiDemo 0 [0x03#8, 0xAA#8] with
      channels := 2#32, height := 2#32, row := 1#32, st := .busy, unit := .sgi }
    StreamOk s ∧ s.abort = false ∧ SgiRunOk s ∧ s.row.toNat + 1 = s.height.toNat ∧
      s.chan.toNat + 1 < s.channels.toNat := by decide +kernel
theorem witness_SgiLineExpands_usage : (sgiDemo 0 []).channels.toNat ≤ (1#8).toNat := by decide +kernel
theorem witness_SgiLineExpands_bounds : let s := { sgiDemo 0 [1#8] with lentab := [(0, 2#32)] }
    (0#8).toNat < s.channels.toNat ∧ (0#16).toNat < s.height.toNat ∧ s.inlen.toNat < 0 + 2 := by decide +kernel
/-- Two memories that differ just behind the scanline. -/
theorem witness_SgiScanlineIsolation : let s := { sgiDemo 0 [0x03#8, 0xAA#8, 0x55#8] with lentab := [(0, 2#32)] }
    let m := Memory.write s.inMem 2 0x77#8
    StreamOk s ∧ 0 < s.height.toNat ∧ (0#32).toNat < s.channels.toNat ∧ (0#32).toNat < s.height.toNat ∧
      s.channels.toNat * s.height.toNat ≤ s.params.tabEntries ∧
      s.channels.toNat * s.height.toNat * s.width.toNat ≤ s.params.outSize ∧
      (∀ a, a < 2 → Memory.read m a = Memory.read s.inMem a) ∧ Memory.read m 2 ≠ Memory.read s.inMem 2 := by
  decide +kernel

/-! ### HDR -/

/-- 170 pixels are the most that fit 2048 bytes. -/
theorem witness_HdrRunStarts : let s := { hdrDemo 0 [] with width := 170#32 }
    StreamOk s ∧ 0 < s.width.toNat ∧ 0 < s.height.toNat ∧ 12 * (s.width.toNat * s.height.toNat) ≤ s.params.outSize := by
  decide +kernel
theorem witness_HdrRunStarts_config : let s := { hdrDemo 0 [] with width := 171#32 }
    StreamOk s ∧ ¬ 12 * (s.width.toNat * s.height.toNat) ≤ s.params.outSize := by decide +kernel
theorem witness_HdrPlaneItems_header : (8#15).toNat = (hdrDemo 0 []).width.toNat ∧
    (9#15).toNat ≠ (hdrDemo 0 []).width.toNat := by decide +kernel
theorem witness_HdrPlaneItems_overflow : (hdrDemo 5 []).width.toNat < (hdrDemo 5 []).loc.planeX + (4#7).toNat ∧
    (hdrDemo 5 []).width.toNat < (hdrDemo 5 []).loc.planeX + (4#8).toNat := by decide +kernel
/-- A run to the end of the plane, its bytes the last ones of the stream. -/
theorem witness_HdrPlaneItems_runs : let s := hdrDemo 5 [1#8, 2#8, 3#8]
    StreamOk s ∧ s.loc.planeX + (3#8).toNat = s.width.toNat ∧ s.width.toNat ≤ 0x7FFF ∧ s.loc.plane < 4 ∧
      s.ipos.toNat + (3#8).toNat = s.inlen.toNat ∧ s.ipos.toNat < s.inlen.toNat := by decide +kernel
theorem witness_HdrPlaneItems_eos : let s := hdrDemo 5 [1#8, 2#8]
    StreamOk s ∧ s.loc.planeX + (3#8).toNat ≤ s.width.toNat ∧ s.ipos.toNat ≤ s.inlen.toNat ∧
      s.inlen.toNat < s.ipos.toNat + (3#8).toNat ∧ (hdrDemo 5 []).inlen.toNat ≤ (hdrDemo 5 []).ipos.toNat := by
  decide +kernel
theorem witness_HdrFirstStepDetectsPath : let s := { hdrDemo 0 [2#8, 2#8, 0#8, 8#8] with phase := 0#32 }
    s.st = .busy ∧ s.unit = .hdr ∧ s.abort = false ∧ s.phase = 0#32 ∧
      0 = (Memory.read s.inMem (s.ipos.toNat + 2)).toNat ∧ 8 = (Memory.read s.inMem (s.ipos.toNat + 3)).toNat ∧
      8 ≤ s.width.toNat ∧ s.ipos.toNat + 4 = s.inlen.toNat := by decide +kernel
theorem witness_HdrFlatScanline : let s := hdrDemo 0 (List.replicate 32 1#8)
    StreamOk s ∧ s.st = .busy ∧ s.unit = .hdr ∧ s.abort = false ∧ s.phase = 1#32 ∧ s.hdrrle = false ∧
      s.row.toNat < s.height.toNat ∧ 12 * (s.width.toNat * s.height.toNat) ≤ s.params.outSize ∧
      s.ipos.toNat + 4 * s.width.toNat = s.inlen.toNat := by decide +kernel
/-- The last byte of the last pixel is missing. -/
theorem witness_HdrFlatScanline_eos : let s := hdrDemo 0 (List.replicate 31 1#8)
    StreamOk s ∧ s.phase = 1#32 ∧ s.hdrrle = false ∧ s.row.toNat < s.height.toNat ∧
      (streamTail s).length + 1 = 4 * s.width.toNat := by decide +kernel
/-- 95 §7.2's kind of scanline, at the least width that may be run-length coded: three repeat runs and a literal run. -/
theorem witness_HdrRleScanline :
    let body := [0x88#8, 0x80#8, 0x88#8, 0x40#8, 0x88#8, 0x20#8, 0x08#8, 1#8, 2#8, 3#8, 4#8, 5#8, 6#8, 7#8, 8#8]
    let s := { hdrDemo 0 ([2#8, 2#8, 0#8, 8#8] ++ body) with hdrrle := true }
    StreamOk s ∧ s.row.toNat < s.height.toNat ∧ 8 = s.width.toNat ∧
      12 * (s.width.toNat * s.height.toNat) ≤ s.params.outSize ∧
      streamTail s = 0x02#8 :: 0x02#8 :: 0#8 :: 8#8 :: body ∧
      hdrPlane s.width.toNat body s.width.toNat = some (List.replicate 8 0x80#8, body.drop 2) ∧
      hdrPlane s.width.toNat (body.drop 2) s.width.toNat = some (List.replicate 8 0x40#8, body.drop 4) ∧
      hdrPlane s.width.toNat (body.drop 4) s.width.toNat = some (List.replicate 8 0x20#8, body.drop 6) ∧
      hdrPlane s.width.toNat (body.drop 6) s.width.toNat = some (body.drop 7, []) := by decide +kernel
/-- A header of another width, one that is cut, and a plane that runs past the width. -/
theorem witness_HdrRleScanline_fault : let s := { hdrDemo 0 [2#8, 2#8, 0#8, 9#8] with hdrrle := true }
    let r := { hdrDemo 0 [2#8, 2#8, 0#8, 8#8, 0x88#8, 7#8, 0x89#8] with hdrrle := true }
    StreamOk s ∧ s.phase = 1#32 ∧ s.width.toNat ≤ 0x7FFF ∧ hdrScanFault s.width.toNat (streamTail s) = some (.corrupt, []) ∧
      hdrScanFault s.width.toNat ((streamTail s).take 3) = some (.eos, []) ∧
      StreamOk r ∧ hdrScanFault r.width.toNat (streamTail r) = some (.overflow, []) := by decide +kernel

/-! ### The machine -/

theorem witness_StepRunsAcceptedCommand : (Instr.brRead 5#8).wf = true ∧ encode (.brRead 5#8) = .word 0x11050000#32 ∧
    encode .clear = .word 0x02000000#32 ∧ Accepts { demo [] with hostQ := [.regWr 0x00#7 0x11050000#32] } ∧
    ({ demo [] with st := .error, err := .eos } : State).st = .error ∧
    ({ demo [] with st := .busy, unit := .hdr } : State).st = .busy := by decide +kernel
theorem witness_StepRunsDecodedItem_bmp : let s := { bmpDemo true 0 0 [0x05#8, 0x06#8] with st := .busy, unit := .bmp }
    StreamOk s ∧ s.hostQ = [] ∧ s.abort = false ∧ bmpFull s = false ∧ s.ipos.toNat + 2 ≤ s.inlen.toNat ∧
      decode (.bmp (decide (s.phase ≠ 0#32)))
        (.bytes [Memory.read s.inMem s.ipos.toNat, Memory.read s.inMem (s.ipos.toNat + 1)]) =
        .instr (.bmpRun4 5#8 0#4 6#4) := by decide +kernel
theorem witness_StepRunsDecodedItem_bytes : decode .sgi (.bytes [0x80#8]) = .instr (.sgiEnd 1#1) ∧
    decode .hdr1 (.bytes [0x81#8]) = .instr (.hdrRepeat 1#7) := by decide +kernel
theorem witness_StepRunsDecodedItem_header : let s := hdrDemo 0 [2#8, 2#8, 0#8, 8#8]
    StreamOk s ∧ s.ipos.toNat + 4 ≤ s.inlen.toNat ∧
      decode .hdrh (.bytes (Memory.readAll s.inMem s.ipos.toNat 4)) = .instr (.hdrHeader 8#15) := by decide +kernel
theorem witness_StepRunsDecodedItem_symbol : let s := { crwDemo [] with block := 1#32 }
    decode (.hsym (eobCondition s 0#8)) (.bytes [0#8]) = .instr .crwEob ∧
      decode (.hsym (eobCondition (crwDemo []) 0#8)) (.bytes [0#8]) = .instr (.crwZero 0#4) := by decide +kernel
theorem witness_RegisterWritesStore_read : after (step { demo [] with hostQ := [.regRd 0x05#7] }) (fun t =>
    t.busData == [(demo []).inlen]) ∧ 0x1D ≤ (0x1D#7).toNat ∧ (0x3F#7).toNat ≤ 0x3F := by decide +kernel
theorem witness_RegisterWritesStore_stored : (0x10#7 : BitVec 7) ≠ 0x00#7 ∧
    ({ demo [] with hostQ := [.regWr 0x10#7 5#32] } : State).st ≠ .busy := by decide +kernel
theorem witness_RegisterWritesStore_dropped : ({ hdrDemo 0 [] with hostQ := [.regWr 0x04#7 5#32] } : State).st = .busy ∧
    writeMask 0x04#7 ≠ 0#32 ∧ (0x04#7 : BitVec 7) ≠ 0x02#7 := by decide +kernel
theorem witness_RegisterWritesStore_ignored : writeMask 0x11#7 = 0#32 ∧ writeMask 0x7F#7 = 0#32 := by decide +kernel
/-- The last bytes of `IN` and the last entries of `OFFTAB`. -/
theorem witness_HostMemoryReadsBack : let s := demo []
    s.st ≠ .busy ∧ 510 + [1#8, 0#8].length = byteSpaceSize s .inp ∧
      14 + [1#32, 2#32].length = s.params.tabEntries := by decide +kernel
/-- The last byte of `OUT` and the last entry of `LENTAB`, read while `BUSY`. -/
theorem witness_HostMemoryReadsBack_busy : let s := hdrDemo 0 []
    s.st = .busy ∧ 2047 + 1 = byteSpaceSize s .out ∧ 15 + 1 = s.params.tabEntries := by decide +kernel
theorem witness_AbortTakenAtBoundary : let s := { hdrDemo 0 [] with abort := true }
    s.st = .busy ∧ s.abort = true ∧ s.hostQ = [] := by decide +kernel

/-! ### Invariants -/

/-- A run of each unit in progress, with every invariant, that steps. -/
def busyDemo (u : RunUnit) : State :=
  match u with
  | .crw => { crwDemo blockBytes with st := .busy, unit := .crw, phase := 1#32 }
  | .bmp => { bmpDemo false 8 0 [0x03#8, 0x04#8] with st := .busy, unit := .bmp }
  | .sgi => { sgiDemo 0 [0x03#8, 0xAA#8] with st := .busy, unit := .sgi, loc := {} }
  | .hdr => { hdrDemo 0 (List.replicate 32 1#8) with loc := {} }
  | .none => demo []

theorem witness_StepKeepsMemories : MemoriesOk (busyDemo .bmp) ∧ goesOn (step (busyDemo .bmp)) := by decide +kernel
theorem witness_StepKeepsWindow : WindowOk (busyDemo .crw) ∧ goesOn (step (busyDemo .crw)) := by decide +kernel
theorem witness_StepKeepsStatus : StatusOk (busyDemo .sgi) ∧ LocalsIdle (busyDemo .sgi) ∧ goesOn (step (busyDemo .sgi)) := by
  decide +kernel
theorem witness_StepKeepsTrees : let s := { busyDemo .crw with st := .idle, hostQ := [.regWr 0#7 0x20000000#32] }
    TreesOk s ∧ goesOn (step s) := by
  refine ⟨⟨by decide +kernel, by decide +kernel, by decide +kernel, by decide +kernel⟩, by decide +kernel⟩
theorem witness_StepKeepsRun_crw : RunInv (busyDemo .crw) ∧ goesOn (step (busyDemo .crw)) := by
  refine ⟨⟨by decide +kernel, by decide +kernel, fun _ => ⟨by decide +kernel, by decide +kernel, by decide +kernel,
    fun _ => ⟨by decide +kernel, by decide +kernel, by decide +kernel, by decide +kernel, fun _ => ?_,
      fun h => absurd h (by decide +kernel)⟩,
    fun h => absurd h (by decide +kernel), fun h => absurd h (by decide +kernel),
    fun h => absurd h (by decide +kernel)⟩⟩, by decide +kernel⟩
  decide +kernel
theorem witness_StepKeepsRun_bmp : RunInv (busyDemo .bmp) ∧ goesOn (step (busyDemo .bmp)) := by
  refine ⟨⟨by decide +kernel, by decide +kernel, fun _ => ⟨by decide +kernel, by decide +kernel, by decide +kernel,
    fun h => absurd h (by decide +kernel), fun _ => by decide +kernel, fun h => absurd h (by decide +kernel),
    fun h => absurd h (by decide +kernel)⟩⟩, by decide +kernel⟩
theorem witness_StepKeepsRun_sgi : RunInv (busyDemo .sgi) ∧ goesOn (step (busyDemo .sgi)) := by
  refine ⟨⟨by decide +kernel, by decide +kernel, fun _ => ⟨by decide +kernel, by decide +kernel, by decide +kernel,
    fun h => absurd h (by decide +kernel), fun h => absurd h (by decide +kernel), fun _ => by decide +kernel,
    fun h => absurd h (by decide +kernel)⟩⟩, by decide +kernel⟩
/-- Also the witness of `StepNeverFaults` and `RunEnds`. -/
theorem witness_StepKeepsRun_hdr : RunInv (busyDemo .hdr) ∧ (busyDemo .hdr).hostQ = [] ∧ goesOn (step (busyDemo .hdr)) := by
  refine ⟨⟨by decide +kernel, by decide +kernel, fun _ => ⟨by decide +kernel, by decide +kernel, by decide +kernel,
    fun h => absurd h (by decide +kernel), fun h => absurd h (by decide +kernel), fun h => absurd h (by decide +kernel),
    fun _ => by decide +kernel⟩⟩, by decide +kernel, by decide +kernel⟩
theorem witness_EngineKeepsInputs : goesOn (engineStep (busyDemo .bmp)) ∧ goesOn (exec .crwInit (demo [])) := by
  decide +kernel
theorem witness_EngineStateTransitions : after (step (busyDemo .hdr)) (fun t => t.st == .done) ∧
    after (step { busyDemo .hdr with abort := true }) (fun t => t.st == .aborted) ∧
    after (step { busyDemo .hdr with hostQ := [.hardReset] }) (fun t => t.st == .idle) ∧
    after (step { demo [] with st := .error, err := .eos, hostQ := [.regWr 0#7 0x02000000#32] }) (fun t => t.st == .idle) ∧
    after (step { crwDemo [] with hostQ := [.regWr 0#7 0x35000000#32] }) (fun t => t.st == .busy) := by decide +kernel

end Sys2Proof.Tests
end

section
/-! PROOFS. What neither a command nor an engine step writes (R9, R71, R75). A frame is a projection `p` of the state:
`Res.Keeps p s r` says that every state the pseudocode `r`, begun in `s`, can end in has the `p` of `s`. The rules of
sequencing are for every `p`; below them each operation of each unit is shown to keep `inputs`. -/

namespace Sys2Proof.Machine

/-! ### Frames -/

variable {α β γ : Type}

/-- Begun in `s`, the pseudocode leaves `p` as it was, whether it goes on or raises an error. -/
def Res.Keeps (p : State → γ) (s : State) (r : Res α) : Prop :=
  r.Post (fun _ t => p t = p s) (fun t => p t = p s) False

/-- A step from `s` that gives a next state leaves `p` as it was. -/
def NextKeeps (p : State → γ) (s : State) (o : Host.Outcome State Fault Refusal) : Prop :=
  ∀ t, o = .next t → p t = p s

section Frames
variable {p : State → γ} {s u : State} {r : Res α}

theorem Res.Keeps.ok {a : α} (h : p u = p s) : (Res.ok a u).Keeps p s := h

theorem Res.Keeps.raised (h : p u = p s) : (Res.raised u : Res α).Keeps p s := h

theorem Res.Keeps.stop (f : Fault) : (Res.stop f : Res α).Keeps p s := id

/-- A frame may be counted from any earlier state that agrees with the present one. -/
theorem Res.Keeps.since (hr : r.Keeps p u) (h : p u = p s) : r.Keeps p s :=
  hr.mono (fun _ _ ht => ht.trans h) (fun _ ht => ht.trans h) id

/-- The frame rule of sequencing. -/
theorem Res.Keeps.bind {k : α → State → Res β} (hr : r.Keeps p s) (hk : ∀ a u, (k a u).Keeps p u) :
    (r.bind k).Keeps p s :=
  Res.Post.bind hr fun a u hu => Res.Keeps.since (hk a u) hu

/-- A frame from what is known after a piece of pseudocode. -/
theorem Res.Post.keeps {P : α → State → Prop} {Q : State → Prop} {safe : Prop} (hr : r.Post P Q safe)
    (hP : ∀ a t, P a t → p t = p s) (hQ : ∀ t, Q t → p t = p s) : r.Keeps p s :=
  hr.mono hP hQ False.elim

theorem Res.Keeps.outcome (hr : r.Keeps p s) : NextKeeps p s r.outcome := by
  intro t ht
  rcases Res.Post.outcome hr ht with ⟨_, h⟩ | h <;> exact h

theorem nextKeeps_next (h : p u = p s) : NextKeeps p s (.next u) := by
  rintro t ⟨⟩
  exact h

theorem Res.Keeps.andThen {k : α → State → Host.Outcome State Fault Refusal} (hr : r.Keeps p s)
    (hk : ∀ a u, NextKeeps p u (k a u)) : NextKeeps p s (r.andThen k) := by
  intro t ht
  cases r with
  | ok a u => exact (hk a u t ht).trans hr
  | raised u => exact nextKeeps_next (p := p) hr t ht
  | stop f => cases ht

end Frames

/-! ### What the host alone writes -/

/-- `IN`, the two tables, the parameters, and the host's pending events. -/
def inputs (s : State) : Memory 8 × Memory 32 × Memory 32 × Params × List HostEvent :=
  (s.inMem, s.offtab, s.lentab, s.params, s.hostQ)

theorem inputs_eq_iff {s t : State} : inputs t = inputs s ↔
    t.inMem = s.inMem ∧ t.offtab = s.offtab ∧ t.lentab = s.lentab ∧ t.params = s.params ∧ t.hostQ = s.hostQ := by
  simp [inputs]

/-- The operation leaves `inputs` alone, from whatever state it is begun in. -/
def KeepsInputs (f : State → Res α) : Prop := ∀ s, (f s).Keeps inputs s

theorem keepsInputs_raise (e : ErrCode) : KeepsInputs (raise (α := α) e) := fun _ => .raised rfl

/-- A test that raises an error before an operation. -/
theorem keepsInputs_guard {c : Prop} [Decidable c] {e : ErrCode} {s : State} {r : Res α} (h : r.Keeps inputs s) :
    (if c then raise e s else r).Keeps inputs s := by
  split
  · exact keepsInputs_raise e s
  · exact h

/-- A command that begins with the prologue of R312. -/
theorem nextKeeps_needInput {k : State → Res α} (hk : KeepsInputs k) (s : State) :
    NextKeeps inputs s (needInput s k).outcome :=
  Res.Keeps.outcome (keepsInputs_guard (hk s))

/-! ### The memory spaces -/

theorem inByte_keepsInputs (a : Nat) : KeepsInputs (inByte a) := by
  intro s
  unfold inByte
  split
  · exact .ok rfl
  · exact .stop _

theorem fetchByte_keepsInputs : KeepsInputs fetchByte := fun s =>
  keepsInputs_guard <| (inByte_keepsInputs _ s).bind fun _ _ => .ok rfl

theorem outByte_keepsInputs (a : Nat) : KeepsInputs (outByte a) := by
  intro s
  unfold outByte
  split
  · exact .ok rfl
  · exact .stop _

theorem out16_keepsInputs (i : Nat) : KeepsInputs (out16 i) := fun s =>
  (outByte_keepsInputs _ s).bind fun _ u => (outByte_keepsInputs _ u).bind fun _ _ => .ok rfl

theorem out16Write_keepsInputs (i : Nat) (v : BitVec 16) : KeepsInputs (out16Write i v) := by
  intro s
  unfold out16Write
  split
  · exact .ok rfl
  · exact .stop _

theorem offsetEntry_keepsInputs (i : Nat) : KeepsInputs (offsetEntry i) := by
  intro s
  unfold offsetEntry
  split
  · exact .ok rfl
  · exact .stop _

theorem lengthEntry_keepsInputs (i : Nat) : KeepsInputs (lengthEntry i) := by
  intro s
  unfold lengthEntry
  split
  · exact .ok rfl
  · exact .stop _

theorem scanRead_keepsInputs (q x : Nat) : KeepsInputs (scanRead q x) := by
  intro s
  unfold scanRead
  split
  · exact .ok rfl
  · exact .stop _

/-! ### The bit reader and Huffman -/

theorem SameButWindow.inputs_eq {s t : State} (h : SameButWindow s t) : inputs t = inputs s := by rw [h]; rfl

theorem readBits_keepsInputs (n : Nat) : KeepsInputs (readBits n) := fun s =>
  (readBits_post n s).keeps (fun _ _ h => h.1.inputs_eq) (by rintro t (rfl | rfl) <;> rfl)

theorem peekBits_keepsInputs (n : Nat) : KeepsInputs (peekBits n) := fun s =>
  (peekBits_post n s).keeps (fun _ _ h => h.1.inputs_eq) (by rintro t (rfl | rfl) <;> rfl)

theorem skipBits_keepsInputs (n : Nat) : KeepsInputs (skipBits n) := fun s =>
  (skipBits_post n s).keeps (fun _ _ h => h.1.inputs_eq) (by rintro t rfl; rfl)

theorem decodeSymbol_keepsInputs (slot : BitVec 1) : KeepsInputs (decodeSymbol slot) := fun s =>
  (decodeSymbol_post slot s).keeps (fun _ _ h => h.1.inputs_eq) fun _ ⟨_, _, hv, _, ht⟩ => by
    rw [ht]; exact hv.inputs_eq

theorem residual_keepsInputs (len : Nat) : KeepsInputs (residual len) := fun s =>
  (residual_post len s).keeps (fun _ _ h => h.1.inputs_eq) (by rintro t (rfl | rfl) <;> rfl)

theorem buildSlot_keepsInputs {get : SpecSource} (hg : SourceMovesCursor get) (slot : BitVec 1) :
    KeepsInputs (buildSlot get slot) := fun s =>
  (buildSlot_post hg slot s).keeps (fun _ _ ⟨_, ht⟩ => by rw [ht]; rfl)
    (fun _ ⟨_, _, hu, ht⟩ => by rw [ht, hu]; rfl)

theorem loadTables_keepsInputs : KeepsInputs loadTables := fun s =>
  (buildSlot_keepsInputs (listSource_movesCursor _) _ s).bind fun _ u =>
    buildSlot_keepsInputs (listSource_movesCursor _) _ u

/-! ### CRW -/

theorem crwEobBody_keepsInputs : KeepsInputs crwEobBody := fun _ => .ok rfl

theorem crwContinueBody_keepsInputs : KeepsInputs crwContinueBody := fun _ => .ok rfl

theorem crwZeroBody_keepsInputs (run : BitVec 4) : KeepsInputs (crwZeroBody run) := fun _ =>
  keepsInputs_guard (.ok rfl)

theorem crwResidBody_keepsInputs (run len : BitVec 4) : KeepsInputs (crwResidBody run len) := fun s =>
  keepsInputs_guard <| (residual_keepsInputs _ s).bind fun _ _ => .ok rfl

theorem crwSymbol_keepsInputs (sym : Byte) : KeepsInputs (crwSymbol sym) := by
  intro s
  unfold crwSymbol
  split
  · exact crwEobBody_keepsInputs s
  split
  · exact crwContinueBody_keepsInputs s
  split
  · exact crwZeroBody_keepsInputs _ s
  · exact crwResidBody_keepsInputs _ _ s

theorem blockLoop_keepsInputs (fuel : Nat) : KeepsInputs (blockLoop fuel) := by
  induction fuel with
  | zero => exact fun _ => .ok rfl
  | succ fuel ih =>
    intro s
    unfold blockLoop
    split
    · exact (decodeSymbol_keepsInputs _ s).bind fun sym u => (crwSymbol_keepsInputs sym u).bind fun _ => ih
    · exact .ok rfl

theorem crwBlockBody_keepsInputs : KeepsInputs crwBlockBody := fun s =>
  ((blockLoop_keepsInputs _ s.startBlock).since rfl).bind fun _ _ => .ok rfl

theorem inputs_rowTest (s : State) : inputs (rowTest s) = inputs s := by
  unfold rowTest; split <;> rfl

theorem inputs_addResidual (i : Nat) (s : State) : inputs (addResidual i s) = inputs s := by
  unfold addResidual; split <;> rfl

theorem reconSample_keepsInputs (i : Nat) : KeepsInputs (reconSample i) := fun s =>
  Res.Keeps.since (u := addResidual i (rowTest s))
    (keepsInputs_guard <| (out16Write_keepsInputs _ _ _).bind fun _ _ => .ok rfl)
    ((inputs_addResidual i _).trans (inputs_rowTest s))

theorem reconLoop_keepsInputs (n i : Nat) : KeepsInputs (reconLoop n i) := by
  induction n generalizing i with
  | zero => exact fun _ => .ok rfl
  | succ n ih => exact fun s => (reconSample_keepsInputs i s).bind fun _ => ih (i + 1)

theorem crwReconBody_keepsInputs : KeepsInputs crwReconBody := fun s =>
  keepsInputs_guard <| ((reconLoop_keepsInputs _ _ (applyCarry s)).since rfl).bind fun _ _ => .ok rfl

theorem mergeAt_keepsInputs (k : Nat) : KeepsInputs (mergeAt k) := fun s =>
  (inByte_keepsInputs _ s).bind fun _ u => (out16_keepsInputs k u).bind fun _ => out16Write_keepsInputs k _

theorem mergeLoop_keepsInputs (n k : Nat) : KeepsInputs (mergeLoop n k) := by
  induction n generalizing k with
  | zero => exact fun _ => .ok rfl
  | succ n ih => exact fun s => (mergeAt_keepsInputs k s).bind fun _ => ih (k + 1)

theorem crwMergeBody_keepsInputs : KeepsInputs crwMergeBody := fun s =>
  keepsInputs_guard (mergeLoop_keepsInputs _ _ s)

theorem crwStart_keepsInputs : KeepsInputs crwStart := fun _ =>
  keepsInputs_guard <| keepsInputs_guard <| keepsInputs_guard (.ok rfl)

theorem crwEngineStep_keepsInputs : KeepsInputs crwEngineStep := by
  intro s
  unfold crwEngineStep
  split
  · exact (loadTables_keepsInputs s).bind fun _ _ => .ok rfl
  split
  · refine (crwBlockBody_keepsInputs s).bind fun _ u => (crwReconBody_keepsInputs u).bind fun _ v => ?_
    split
    · split <;> exact .ok rfl
    · exact .ok rfl
  · exact (crwMergeBody_keepsInputs s).bind fun _ _ => .ok rfl

/-! ### BMP -/

theorem putPixel_keepsInputs (v : Byte) : KeepsInputs (putPixel v) := fun s =>
  (putPixel_post v s).keeps (fun _ _ ⟨ht, _⟩ => by rw [ht]; rfl) (fun _ ⟨_, hu, ht⟩ => by rw [ht, hu]; rfl)

theorem putRun8_keepsInputs (n : Nat) (v : Byte) : KeepsInputs (putRun8 n v) := by
  induction n with
  | zero => exact fun _ => .ok rfl
  | succ n ih => exact fun s => (putPixel_keepsInputs v s).bind fun _ => ih

theorem putRun4_keepsInputs (n k : Nat) (e o : BitVec 4) : KeepsInputs (putRun4 n k e o) := by
  induction n generalizing k with
  | zero => exact fun _ => .ok rfl
  | succ n ih => exact fun s => (putPixel_keepsInputs _ s).bind fun _ => ih (k + 1)

theorem putLiterals8_keepsInputs (n : Nat) : KeepsInputs (putLiterals8 n) := by
  induction n with
  | zero => exact fun _ => .ok rfl
  | succ n ih => exact fun s => (fetchByte_keepsInputs s).bind fun b u => (putPixel_keepsInputs b u).bind fun _ => ih

theorem putLiterals4_keepsInputs (n j total : Nat) : KeepsInputs (putLiterals4 n j total) := by
  induction n generalizing j with
  | zero => exact fun _ => .ok rfl
  | succ n ih =>
    refine fun s => (fetchByte_keepsInputs s).bind fun _ u => (putPixel_keepsInputs _ u).bind fun _ v => ?_
    split
    · exact (putPixel_keepsInputs _ v).bind fun _ => ih (j + 1)
    · exact ih (j + 1) v

theorem padByte_keepsInputs (n : Nat) : KeepsInputs (padByte n) := by
  intro s
  unfold padByte
  split
  · exact (fetchByte_keepsInputs s).bind fun _ _ => .ok rfl
  · exact .ok rfl

theorem bmpDeltaBody_keepsInputs : KeepsInputs bmpDeltaBody := by
  refine fun s => (fetchByte_keepsInputs s).bind fun dx u => (fetchByte_keepsInputs u).bind fun dy v => ?_
  dsimp only
  split
  · exact .raised rfl
  · exact .ok rfl

theorem bmpAbs8Body_keepsInputs (n : BitVec 8) : KeepsInputs (bmpAbs8Body n) := fun s =>
  (putLiterals8_keepsInputs _ s).bind fun _ => padByte_keepsInputs _

theorem bmpAbs4Body_keepsInputs (n : BitVec 8) : KeepsInputs (bmpAbs4Body n) := fun s =>
  (putLiterals4_keepsInputs _ _ _ s).bind fun _ => padByte_keepsInputs _

theorem bmpStart_keepsInputs (mode : BitVec 1) : KeepsInputs (bmpStart mode) := fun s =>
  Res.Keeps.since (u := { s with phase := mode.setWidth 32 })
    (keepsInputs_guard <| keepsInputs_guard <| keepsInputs_guard (.ok rfl)) rfl

/-! ### SGI -/

theorem copyRun_keepsInputs (n src dst : Nat) : KeepsInputs (copyRun n src dst) := fun s =>
  (copyRun_post n src dst s).keeps (fun _ _ ht => by rw [ht]; rfl) fun _ => False.elim

theorem fillRun_keepsInputs (n : Nat) (v : Byte) (dst : Nat) : KeepsInputs (fillRun n v dst) := fun s =>
  (fillRun_post n v dst s).keeps (fun _ _ ht => by rw [ht]; rfl) fun _ => False.elim

theorem sgiEndBody_keepsInputs : KeepsInputs sgiEndBody := fun _ => .ok rfl

theorem sgiVerbatimBody_keepsInputs (count : BitVec 7) : KeepsInputs (sgiVerbatimBody count) := fun s =>
  keepsInputs_guard <| keepsInputs_guard <| (copyRun_keepsInputs _ _ _ s).bind fun _ _ => .ok rfl

theorem sgiRepeatBody_keepsInputs (count : BitVec 7) : KeepsInputs (sgiRepeatBody count) := fun s =>
  keepsInputs_guard <| keepsInputs_guard <| (inByte_keepsInputs _ s).bind fun v u =>
    ((fillRun_keepsInputs _ v _ (u.withIpos (u.ipos + 1#32))).since rfl).bind fun _ _ => .ok rfl

theorem sgiCommand_keepsInputs (ctl : Byte) : KeepsInputs (sgiCommand ctl) := by
  intro s
  unfold sgiCommand
  split
  · exact sgiEndBody_keepsInputs s
  split
  · exact sgiVerbatimBody_keepsInputs _ s
  · exact sgiRepeatBody_keepsInputs _ s

theorem lineLoop_keepsInputs (fuel : Nat) : KeepsInputs (lineLoop fuel) := by
  induction fuel with
  | zero => exact fun _ => .ok rfl
  | succ fuel ih =>
    intro s
    unfold lineLoop
    split
    · exact .ok rfl
    · exact (inByte_keepsInputs _ s).bind fun ctl u =>
        ((sgiCommand_keepsInputs ctl (u.withIpos (u.ipos + 1#32))).since rfl).bind fun _ => ih

theorem sgiLineBody_keepsInputs (c r : Word) : KeepsInputs (sgiLineBody c r) := fun s =>
  Res.Keeps.since (u := s.startLine c r)
    ((offsetEntry_keepsInputs _ _).bind fun off u => (lengthEntry_keepsInputs _ u).bind fun _ v =>
      keepsInputs_guard <|
        ((lineLoop_keepsInputs _ ((v.withIpos off).withLoc _)).since rfl).bind fun _ _ => .ok rfl)
    rfl

theorem sgiStart_keepsInputs : KeepsInputs sgiStart := fun _ => .ok rfl

theorem sgiConfigCheck_keepsInputs {k : State → Res Unit} (hk : KeepsInputs k) :
    KeepsInputs fun s => sgiConfigCheck s k := fun s =>
  keepsInputs_guard <| keepsInputs_guard <| keepsInputs_guard <| keepsInputs_guard <| keepsInputs_guard (hk s)

theorem sgiEngineStep_keepsInputs : KeepsInputs sgiEngineStep := by
  refine fun s => (sgiLineBody_keepsInputs _ _ s).bind fun _ u => ?_
  split
  · exact .ok rfl
  · split <;> exact .ok rfl

/-! ### HDR -/

theorem putRgbe_keepsInputs (y x : Nat) (r g b e : Byte) : KeepsInputs (putRgbe y x r g b e) := fun s =>
  (putRgbe_post y x r g b e s).keeps (fun _ _ ht => by rw [ht]; rfl) fun _ => False.elim

theorem scanFill_keepsInputs (n : Nat) (v : Byte) (q x : Nat) : KeepsInputs (scanFill n v q x) := fun s =>
  (scanFill_post n v q x s).keeps (fun _ _ ht => by rw [ht]; rfl) fun _ => False.elim

theorem scanLiterals_keepsInputs (n q x : Nat) : KeepsInputs (scanLiterals n q x) := fun s =>
  (scanLiterals_post n q x s).keeps (fun _ _ ht => by rw [ht]; rfl) (fun _ ⟨_, hu, ht⟩ => by rw [ht, hu]; rfl)

theorem hdrHeaderBody_keepsInputs (width : BitVec 15) : KeepsInputs (hdrHeaderBody width) := fun _ =>
  keepsInputs_guard (.ok rfl)

theorem hdrInvalidBody_keepsInputs : KeepsInputs hdrInvalidBody := keepsInputs_raise .corrupt

theorem hdrRepeatBody_keepsInputs (count : BitVec 7) : KeepsInputs (hdrRepeatBody count) := fun s =>
  keepsInputs_guard <| (fetchByte_keepsInputs s).bind fun v u =>
    (scanFill_keepsInputs _ v _ _ u).bind fun _ _ => .ok rfl

theorem hdrLiteralBody_keepsInputs (count : BitVec 8) : KeepsInputs (hdrLiteralBody count) := fun s =>
  keepsInputs_guard <| (scanLiterals_keepsInputs _ _ _ s).bind fun _ _ => .ok rfl

theorem hdrCommand_keepsInputs (ctl : Byte) : KeepsInputs (hdrCommand ctl) := by
  intro s
  unfold hdrCommand
  split
  · exact hdrRepeatBody_keepsInputs _ s
  split
  · exact hdrInvalidBody_keepsInputs s
  · exact hdrLiteralBody_keepsInputs ctl s

theorem planeLoop_keepsInputs (fuel : Nat) : KeepsInputs (planeLoop fuel) := by
  induction fuel with
  | zero => exact fun _ => .ok rfl
  | succ fuel ih =>
    intro s
    unfold planeLoop
    split
    · exact (fetchByte_keepsInputs s).bind fun ctl u => (hdrCommand_keepsInputs ctl u).bind fun _ => ih
    · exact .ok rfl

theorem planesLoop_keepsInputs (n q : Nat) : KeepsInputs (planesLoop n q) := by
  induction n generalizing q with
  | zero => exact fun _ => .ok rfl
  | succ n ih =>
    exact fun s => ((planeLoop_keepsInputs _ (s.withLoc { plane := q, planeX := 0 })).since rfl).bind
      fun _ => ih (q + 1)

theorem transposeLoop_keepsInputs (n y x : Nat) : KeepsInputs (transposeLoop n y x) := by
  induction n generalizing x with
  | zero => exact fun _ => .ok rfl
  | succ n ih =>
    exact fun s => (scanRead_keepsInputs _ _ s).bind fun _ s => (scanRead_keepsInputs _ _ s).bind fun _ s =>
      (scanRead_keepsInputs _ _ s).bind fun _ s => (scanRead_keepsInputs _ _ s).bind fun _ s =>
        (putRgbe_keepsInputs _ _ _ _ _ _ s).bind fun _ => ih (x + 1)

theorem flatLoop_keepsInputs (n y x : Nat) : KeepsInputs (flatLoop n y x) := by
  induction n generalizing x with
  | zero => exact fun _ => .ok rfl
  | succ n ih =>
    exact fun s => (fetchByte_keepsInputs s).bind fun _ s => (fetchByte_keepsInputs s).bind fun _ s =>
      (fetchByte_keepsInputs s).bind fun _ s => (fetchByte_keepsInputs s).bind fun _ s =>
        (putRgbe_keepsInputs _ _ _ _ _ _ s).bind fun _ => ih (x + 1)

theorem fetchHeader_keepsInputs : KeepsInputs fetchHeader := by
  refine fun s => (fetchByte_keepsInputs s).bind fun _ s => (fetchByte_keepsInputs s).bind fun _ s =>
    (fetchByte_keepsInputs s).bind fun _ s => (fetchByte_keepsInputs s).bind fun _ s => ?_
  split
  · exact hdrHeaderBody_keepsInputs _ s
  · exact keepsInputs_raise _ s

theorem rleScanline_keepsInputs (y : Nat) : KeepsInputs (rleScanline y) := fun s =>
  (fetchHeader_keepsInputs s).bind fun _ u => (planesLoop_keepsInputs 4 0 u).bind fun _ v =>
    (transposeLoop_keepsInputs _ _ _ (v.withLoc {})).since rfl

/-- Looking at the header (R257) writes `FLAGS.HDRRLE` and `PHASE` alone. -/
theorem inputs_detectRle (s : State) : inputs (detectRle s) = inputs s := rfl

theorem hdrEngineStep_keepsInputs : KeepsInputs hdrEngineStep := by
  intro s
  have hstart : inputs (if s.phase = 0#32 then detectRle s else s) = inputs s := by
    split
    · exact inputs_detectRle s
    · rfl
  unfold hdrEngineStep
  generalize (if s.phase = 0#32 then detectRle s else s) = u at hstart ⊢
  refine Res.Keeps.since (Res.Keeps.bind ?_ fun _ v => ?_) hstart
  · split
    · exact rleScanline_keepsInputs _ u
    · exact flatLoop_keepsInputs _ _ _ u
  · dsimp only
    split <;> exact .ok rfl

theorem hdrStart_keepsInputs : KeepsInputs hdrStart := fun _ =>
  keepsInputs_guard <| keepsInputs_guard (.ok rfl)

/-! ### Commands and engine steps -/

/-- No instruction writes `IN`, the tables or the parameters (R71, R75, R9). -/
theorem exec_keepsInputs (i : Instr) (s : State) : NextKeeps inputs s (exec i s) := by
  cases i with
  | nop => exact nextKeeps_next rfl
  | reset => exact nextKeeps_next rfl
  | clear => exact nextKeeps_next rfl
  | brPrime => exact nextKeeps_next rfl
  | brRead n =>
    refine nextKeeps_needInput (fun u => ?_) s
    exact (readBits_keepsInputs _ u).bind fun _ _ => .ok rfl
  | brPeek n =>
    refine nextKeeps_needInput (fun u => ?_) s
    exact (peekBits_keepsInputs _ u).bind fun _ _ => .ok rfl
  | brSkip n => exact (skipBits_keepsInputs _ s).outcome
  | hufBuild slot =>
    exact nextKeeps_needInput (fun u => (buildSlot_keepsInputs streamSource_movesCursor slot u.unprime).since rfl) s
  | hufLoadt => exact (loadTables_keepsInputs s).outcome
  | hufDecode slot =>
    refine nextKeeps_needInput (fun u => ?_) s
    exact (decodeSymbol_keepsInputs slot u).bind fun _ _ => .ok rfl
  | hufResid len =>
    refine nextKeeps_needInput (fun u => ?_) s
    exact keepsInputs_guard <| (residual_keepsInputs _ u).bind fun _ _ => .ok rfl
  | crwDetect =>
    refine nextKeeps_needInput (fun u => ?_) s
    exact .ok rfl
  | crwInit => exact nextKeeps_next rfl
  | crwBlock => exact nextKeeps_needInput crwBlockBody_keepsInputs s
  | crwRecon => exact (crwReconBody_keepsInputs s).outcome
  | crwMerge => exact nextKeeps_needInput crwMergeBody_keepsInputs s
  | crwRun => exact nextKeeps_needInput crwStart_keepsInputs s
  | bmpRun mode => exact nextKeeps_needInput (bmpStart_keepsInputs mode) s
  | sgiRun => exact nextKeeps_needInput (sgiConfigCheck_keepsInputs sgiStart_keepsInputs) s
  | sgiLine channel row =>
    exact nextKeeps_needInput (sgiConfigCheck_keepsInputs fun u =>
      keepsInputs_guard (sgiLineBody_keepsInputs _ _ u)) s
  | hdrRun => exact nextKeeps_needInput hdrStart_keepsInputs s
  | illegalHostWord op a b => exact nextKeeps_next rfl
  | bmpRun8 count value => exact (putRun8_keepsInputs _ value s).outcome
  | bmpRun4 count pixEven pixOdd => exact (putRun4_keepsInputs _ _ pixEven pixOdd s).outcome
  | bmpEol => exact nextKeeps_next rfl
  | bmpEob => exact nextKeeps_next rfl
  | bmpDelta => exact (bmpDeltaBody_keepsInputs s).outcome
  | bmpAbs8 n => exact (bmpAbs8Body_keepsInputs n s).outcome
  | bmpAbs4 n => exact (bmpAbs4Body_keepsInputs n s).outcome
  | sgiEnd type => exact (sgiEndBody_keepsInputs s).outcome
  | sgiVerbatim count => exact (sgiVerbatimBody_keepsInputs count s).outcome
  | sgiRepeat count => exact (sgiRepeatBody_keepsInputs count s).outcome
  | hdrHeader width => exact (hdrHeaderBody_keepsInputs width s).outcome
  | hdrInvalid => exact (hdrInvalidBody_keepsInputs s).outcome
  | hdrLiteral count => exact (hdrLiteralBody_keepsInputs count s).outcome
  | hdrRepeat count => exact (hdrRepeatBody_keepsInputs count s).outcome
  | crwEob => exact (crwEobBody_keepsInputs s).outcome
  | crwContinue => exact (crwContinueBody_keepsInputs s).outcome
  | crwZero run => exact (crwZeroBody_keepsInputs run s).outcome
  | crwResid run len => exact (crwResidBody_keepsInputs run len s).outcome
  | tablespec counts symbols => exact (buildSlot_keepsInputs (listSource_movesCursor _) _ s).outcome

/-- The BMP engine step fetches two bytes and then is a stream command (R206). -/
theorem bmpEngineStep_keepsInputs (s : State) : NextKeeps inputs s (bmpEngineStep s) := by
  unfold bmpEngineStep
  split
  · exact nextKeeps_next rfl
  split
  · exact nextKeeps_next rfl
  · exact (fetchByte_keepsInputs s).andThen fun _ u => (fetchByte_keepsInputs u).andThen fun _ v =>
      exec_keepsInputs _ v

theorem unitStep_keepsInputs (s : State) : NextKeeps inputs s (unitStep s) := by
  unfold unitStep
  split
  · rintro t ⟨⟩
  · exact (crwEngineStep_keepsInputs s).outcome
  · exact bmpEngineStep_keepsInputs s
  · exact (sgiEngineStep_keepsInputs s).outcome
  · exact (hdrEngineStep_keepsInputs s).outcome

theorem engineStep_keepsInputs (s : State) : NextKeeps inputs s (engineStep s) := by
  unfold engineStep
  split
  · exact nextKeeps_next rfl
  · exact unitStep_keepsInputs s

/-- Settles O59: a frame of every operation, by the rule of sequencing. -/
theorem engineKeepsInputs : Obligations.EngineKeepsInputs :=
  ⟨fun s t h => inputs_eq_iff.1 (engineStep_keepsInputs s t h),
    fun i s t h => inputs_eq_iff.1 (exec_keepsInputs i s t h)⟩

end Sys2Proof.Machine
end

section
/-! PROOFS. What an operation of the block does to the state as far as the invariants see it: the one relation `Effect`,
shown once of every operation of every unit, from which the window, the status, the trees and the writers of `RESULT`
(R25, R29, R52, R288) are all read off. -/

namespace Sys2Proof.Machine

variable {α β : Type} {mayResult mayLocals mayLocals' : Prop} {Q Q' : State → Prop}

/-! ### The relation -/

/-- No error stands, and a run in progress has a unit (R23, R288). -/
def NoError (s : State) : Prop := s.err = .none ∧ s.st ≠ .error ∧ (s.st = .busy → s.unit ≠ .none)

theorem NoError.statusOk {s : State} (h : NoError s) : StatusOk s := by
  obtain ⟨herr, hst, hunit⟩ := h
  exact ⟨⟨fun h => absurd herr h, fun h => absurd h hst⟩, hunit⟩

theorem noError_of_statusOk {s : State} (h : StatusOk s) (hs : s.st ≠ .error) : NoError s :=
  ⟨not_ne_iff.1 fun he => hs (h.1.1 he), hs, h.2⟩

/-- From `s` to `t` the invariants are kept, `Q` holds of `t` if no error stood in `s`, `RESULT` is written only where
`mayResult`, and locals are left behind (R156, R175, R235, R258) only where `mayLocals`. -/
structure Effect (mayResult mayLocals : Prop) (Q : State → Prop) (s t : State) : Prop where
  result : ¬ mayResult → t.result = s.result
  window : WindowOk s → WindowOk t
  trees : TreesOk s → TreesOk t
  status : NoError s → Q t
  locals : ¬ mayLocals → LocalsIdle s → LocalsIdle t

section Relation
variable {s t u : State}

theorem Effect.refl (s : State) : Effect mayResult mayLocals NoError s s := ⟨fun _ => rfl, id, id, id, fun _ => id⟩

theorem Effect.trans (h : Effect mayResult mayLocals NoError s u) (k : Effect mayResult mayLocals Q u t) :
    Effect mayResult mayLocals Q s t where
  result hr := (k.result hr).trans (h.result hr)
  window hw := k.window (h.window hw)
  trees ht := k.trees (h.trees ht)
  status hs := k.status (h.status hs)
  locals hl hi := k.locals hl (h.locals hl hi)

theorem Effect.mono (h : Effect mayResult mayLocals Q s t) (hl : mayLocals → mayLocals') (hQ : Q t → Q' t) :
    Effect mayResult mayLocals' Q' s t where
  result := h.result
  window := h.window
  trees := h.trees
  status hs := hQ (h.status hs)
  locals hn := h.locals fun hm => hn (hl hm)

/-- What the relation looks at. -/
def watched (s : State) : (Word × Word × BitVec 6 × Locals) × (Bool × Bool × List TreeEntry × List TreeEntry) ×
    EngineState × ErrCode × RunUnit :=
  ((s.result, s.bitbuf, s.vbits, s.loc), (s.treev0, s.treev1, s.tree0, s.tree1), s.st, s.err, s.unit)

/-- An update of anything else. -/
theorem Effect.of_watched (h : watched t = watched s) : Effect mayResult mayLocals NoError s t := by
  simp only [watched, Prod.mk.injEq] at h
  obtain ⟨⟨hres, hbuf, hvb, hloc⟩, ⟨hv0, hv1, ht0, ht1⟩, hst, herr, hunit⟩ := h
  refine ⟨fun _ => hres, fun h => ?_, fun h => ?_, fun h => ?_, fun _ h => hloc.trans h⟩
  · rwa [WindowOk, hbuf, hvb]
  · rwa [TreesOk, hv0, hv1, ht0, ht1]
  · rwa [NoError, hst, herr, hunit]

/-- The trap entry (R304): the locals end with the operation. -/
theorem effect_raise {e : ErrCode} (he : e ≠ .none) (s : State) : Effect mayResult mayLocals StatusOk s (s.raise e) :=
  ⟨fun _ => rfl, id, id, fun _ => ⟨⟨fun _ => rfl, fun _ => he⟩, by simp⟩, fun _ _ => rfl⟩

theorem effect_withResult (h : mayResult) (s : State) (v : Word) :
    Effect mayResult mayLocals NoError s (s.withResult v) :=
  ⟨fun hn => absurd h hn, id, id, id, fun _ => id⟩

theorem effect_withLoc (h : mayLocals) (s : State) (l : Locals) :
    Effect mayResult mayLocals NoError s (s.withLoc l) :=
  ⟨fun _ => rfl, id, id, id, fun hn => absurd h hn⟩

/-- The end of an operation: whatever its parts left in the locals is gone. -/
theorem Effect.closed (h : Effect mayResult True Q s t) (hQ : Q t → Q' (t.withLoc {})) :
    Effect mayResult mayLocals Q' s (t.withLoc {}) :=
  ⟨h.result, h.window, h.trees, fun hs => hQ (h.status hs), fun _ _ => rfl⟩

/-- The start of a run (R181, R205, R236, R256). -/
theorem effect_startRun (s : State) {u : RunUnit} (hu : u ≠ .none) :
    Effect mayResult mayLocals NoError s (s.startRun u) :=
  ⟨fun _ => rfl, id, id, fun h => ⟨h.1, by simp, fun _ => hu⟩, fun _ => id⟩

/-- The end of a run (R288). -/
theorem effect_finish (s : State) : Effect mayResult mayLocals NoError s s.finish :=
  ⟨fun _ => rfl, id, id, fun h => ⟨h.1, by simp, by simp⟩, fun _ => id⟩

/-- The end of a BMP run (R206). -/
theorem effect_bmpFinish (s : State) (r : EndReason) : Effect mayResult mayLocals NoError s (s.bmpFinish r) :=
  ⟨fun _ => rfl, id, id, fun h => ⟨h.1, by simp, by simp⟩, fun _ => id⟩

/-- The abort (R315). -/
theorem effect_takeAbort (s : State) : Effect mayResult mayLocals NoError s s.takeAbort :=
  ⟨fun _ => rfl, id, id, fun h => ⟨h.1, by simp, by simp⟩, fun _ => id⟩

/-- An empty window is canonical. -/
theorem windowOk_empty (hb : s.bitbuf = 0#32) (hv : s.vbits = 0#6) : WindowOk s := by
  simp [WindowOk, hb, hv]

/-- `BR.PRIME` (R131). -/
theorem effect_prime (s : State) : Effect mayResult mayLocals NoError s s.prime :=
  ⟨fun _ => rfl, fun _ => windowOk_empty rfl rfl, id, id, fun _ => id⟩

/-- `CRW.INIT` (R172). -/
theorem effect_crwInit (s : State) : Effect mayResult mayLocals NoError s s.crwInit :=
  ⟨fun _ => rfl, fun _ => windowOk_empty rfl rfl, id, id, fun _ => id⟩

/-- What the bit reader leaves (R134). -/
theorem SameButWindow.effect (h : SameButWindow s t) (hw : WindowOk s → WindowOk t) :
    Effect mayResult mayLocals NoError s t := by
  unfold SameButWindow at h
  refine ⟨fun _ => by rw [h], hw, fun k => ?_, fun k => ?_, fun _ k => ?_⟩ <;> rw [h] <;> exact k

end Relation

/-! ### Sequencing -/

/-- Begun in `s`, the pseudocode has the effect on the state it goes on with, and raises an error only with no local
left behind. -/
def Res.HasEffect (mayResult mayLocals : Prop) (s : State) (r : Res α) : Prop :=
  r.Post (fun _ t => Effect mayResult mayLocals NoError s t)
    (fun t => Effect mayResult True StatusOk s t ∧ LocalsIdle t) False

/-- The operation has the effect from whatever state it is begun in. -/
def HasEffect (mayResult mayLocals : Prop) (f : State → Res α) : Prop :=
  ∀ s, (f s).HasEffect mayResult mayLocals s

/-- A step from `s` that gives a next state has the effect on it. -/
def NextEffect (mayResult mayLocals : Prop) (s : State) (o : Host.Outcome State Fault Refusal) : Prop :=
  ∀ t, o = .next t → Effect mayResult mayLocals StatusOk s t

section Sequencing
variable {s u : State} {r : Res α}

theorem Res.HasEffect.ok {a : α} (h : Effect mayResult mayLocals NoError s u) :
    (Res.ok a u).HasEffect mayResult mayLocals s := h

/-- The common case of `Res.HasEffect.ok`: nothing that is watched changes. -/
theorem Res.HasEffect.unwatched {a : α} (h : watched u = watched s) :
    (Res.ok a u).HasEffect mayResult mayLocals s := .ok (.of_watched h)

theorem Res.HasEffect.stop (f : Fault) : (Res.stop f : Res α).HasEffect mayResult mayLocals s := id

theorem hasEffect_raise {e : ErrCode} (he : e ≠ .none) : HasEffect mayResult mayLocals (raise (α := α) e) :=
  fun s => ⟨effect_raise he s, rfl⟩

theorem Res.HasEffect.since (hr : r.HasEffect mayResult mayLocals u) (h : Effect mayResult mayLocals NoError s u) :
    r.HasEffect mayResult mayLocals s :=
  Res.Post.mono hr (fun _ _ ht => h.trans ht)
    (fun _ ⟨ht, hl⟩ => ⟨(h.mono (fun _ => trivial) id).trans ht, hl⟩) id

theorem Res.HasEffect.bind {k : α → State → Res β} (hr : r.HasEffect mayResult mayLocals s)
    (hk : ∀ a u, (k a u).HasEffect mayResult mayLocals u) : (r.bind k).HasEffect mayResult mayLocals s :=
  Res.Post.bind hr fun a u hu => Res.HasEffect.since (hk a u) hu

/-- Sequencing where an operation ends: its parts may leave locals, which are cleared before what follows. -/
theorem Res.HasEffect.close {k : α → State → Res β} (hr : r.HasEffect mayResult True s)
    (hk : ∀ a u, (k a u).HasEffect mayResult mayLocals (u.withLoc {})) :
    (r.bind k).HasEffect mayResult mayLocals s :=
  Res.Post.bind hr fun a u hu => (hk a u).since (hu.closed id)

/-- A test that raises an error before an operation. -/
theorem Res.HasEffect.guard {c : Prop} [Decidable c] {e : ErrCode} (hr : r.HasEffect mayResult mayLocals s)
    (he : e ≠ .none := by simp) : (if c then raise e s else r).HasEffect mayResult mayLocals s := by
  split
  · exact hasEffect_raise he s
  · exact hr

theorem Res.HasEffect.outcome (hr : r.HasEffect mayResult mayLocals s) :
    NextEffect mayResult mayLocals s r.outcome := by
  intro t ht
  rcases Res.Post.outcome hr ht with ⟨_, h⟩ | ⟨h, hl⟩
  · exact h.mono id NoError.statusOk
  · exact { h with locals := fun _ _ => hl }

theorem nextEffect_next (h : Effect mayResult mayLocals NoError s u) : NextEffect mayResult mayLocals s (.next u) := by
  rintro t ⟨⟩
  exact h.mono id NoError.statusOk

theorem NextEffect.since {o : Host.Outcome State Fault Refusal} (ho : NextEffect mayResult mayLocals u o)
    (h : Effect mayResult mayLocals NoError s u) : NextEffect mayResult mayLocals s o :=
  fun t ht => h.trans (ho t ht)

theorem NextEffect.mono {mayResult' : Prop} {o : Host.Outcome State Fault Refusal}
    (h : NextEffect mayResult mayLocals s o) (hr : mayResult → mayResult') (hl : mayLocals → mayLocals') :
    NextEffect mayResult' mayLocals' s o := fun t ht =>
  have ht := h t ht
  ⟨fun hn => ht.result fun hm => hn (hr hm), ht.window, ht.trees, ht.status, fun hn => ht.locals fun hm => hn (hl hm)⟩

theorem Res.HasEffect.andThen {k : α → State → Host.Outcome State Fault Refusal}
    (hr : r.HasEffect mayResult mayLocals s) (hk : ∀ a u, NextEffect mayResult mayLocals u (k a u)) :
    NextEffect mayResult mayLocals s (r.andThen k) := by
  cases r with
  | ok a u => exact (hk a u).since hr
  | raised u => exact Res.HasEffect.outcome (r := (Res.raised u : Res α)) hr
  | stop f => rintro t ⟨⟩

end Sequencing

/-- A command that begins with the prologue of R312. -/
theorem nextEffect_needInput {k : State → Res α} (hk : HasEffect mayResult mayLocals k) (s : State) :
    NextEffect mayResult mayLocals s (needInput s k).outcome :=
  Res.HasEffect.outcome (.guard (hk s))

/-! ### The memory spaces -/

theorem inByte_hasEffect (a : Nat) : HasEffect mayResult mayLocals (inByte a) := by
  intro s
  unfold inByte
  split
  · exact .unwatched rfl
  · exact .stop _

theorem fetchByte_hasEffect : HasEffect mayResult mayLocals fetchByte := fun s =>
  .guard <| (inByte_hasEffect _ s).bind fun _ _ => .unwatched rfl

theorem outByte_hasEffect (a : Nat) : HasEffect mayResult mayLocals (outByte a) := by
  intro s
  unfold outByte
  split
  · exact .unwatched rfl
  · exact .stop _

theorem out16_hasEffect (i : Nat) : HasEffect mayResult mayLocals (out16 i) := fun s =>
  (outByte_hasEffect _ s).bind fun _ u => (outByte_hasEffect _ u).bind fun _ _ => .unwatched rfl

theorem out16Write_hasEffect (i : Nat) (v : BitVec 16) : HasEffect mayResult mayLocals (out16Write i v) := by
  intro s
  unfold out16Write
  split
  · exact .unwatched rfl
  · exact .stop _

theorem offsetEntry_hasEffect (i : Nat) : HasEffect mayResult mayLocals (offsetEntry i) := by
  intro s
  unfold offsetEntry
  split
  · exact .unwatched rfl
  · exact .stop _

theorem lengthEntry_hasEffect (i : Nat) : HasEffect mayResult mayLocals (lengthEntry i) := by
  intro s
  unfold lengthEntry
  split
  · exact .unwatched rfl
  · exact .stop _

theorem scanRead_hasEffect (q x : Nat) : HasEffect mayResult mayLocals (scanRead q x) := by
  intro s
  unfold scanRead
  split
  · exact .unwatched rfl
  · exact .stop _

/-! ### The bit reader -/

/-- What is known after a piece of pseudocode that raises `USAGE` or `EOS` with nothing else changed. -/
theorem Res.Post.hasEffect_window {s : State} {r : Res α} {P : α → State → Prop} {safe : Prop}
    (hr : r.Post P (fun t => t = s.raise .usage ∨ t = s.raise .eos) safe)
    (hP : ∀ a t, P a t → SameButWindow s t ∧ (WindowOk s → WindowOk t)) : r.HasEffect mayResult mayLocals s := by
  refine hr.mono (fun a t h => (hP a t h).1.effect (hP a t h).2) ?_ False.elim
  rintro t (rfl | rfl)
  · exact ⟨effect_raise (by simp) s, rfl⟩
  · exact ⟨effect_raise (by simp) s, rfl⟩

theorem readBits_hasEffect (n : Nat) : HasEffect mayResult mayLocals (readBits n) := fun s =>
  (readBits_post n s).hasEffect_window fun _ _ ⟨hsame, hwin, _⟩ => ⟨hsame, hwin⟩

theorem peekBits_hasEffect (n : Nat) : HasEffect mayResult mayLocals (peekBits n) := fun s =>
  (peekBits_post n s).hasEffect_window fun _ _ ⟨hsame, hwin, _⟩ => ⟨hsame, hwin⟩

theorem skipBits_hasEffect (n : Nat) : HasEffect mayResult mayLocals (skipBits n) := fun s =>
  ((skipBits_post n s).mono (fun _ _ h => h) (fun _ h => .inl h) id).hasEffect_window fun _ _ h => h

theorem walkTree_hasEffect (t : List TreeEntry) (fuel l code : Nat) :
    HasEffect mayResult mayLocals (walkTree t fuel l code) := by
  induction fuel generalizing l code with
  | zero => exact hasEffect_raise (by simp)
  | succ fuel ih =>
    refine fun s => (readBits_hasEffect 1 s).bind fun b u => ?_
    split
    · exact .ok (.refl u)
    · split
      · exact ih _ _ u
      · exact hasEffect_raise (by simp) u

theorem decodeSymbol_hasEffect (slot : BitVec 1) : HasEffect mayResult mayLocals (decodeSymbol slot) := fun s =>
  .guard (walkTree_hasEffect _ _ _ _ s)

theorem residual_hasEffect (len : Nat) : HasEffect mayResult mayLocals (residual len) := fun s =>
  (residual_post len s).hasEffect_window fun _ _ h => h

end Sys2Proof.Machine
end

section
/-! PROOFS. The canonical expansion builds a tree of R52, whatever the counts are (R151, R152): the leaves stand in the
order of their codes, and the next free place lies past all of them. -/

namespace Sys2Proof.Machine

variable {α : Type} {mayResult mayLocals : Prop}

/-- Two things known after the same piece of pseudocode. -/
theorem Res.Post.and {P P' : α → State → Prop} {Q Q' : State → Prop} {safe safe' : Prop} {r : Res α}
    (h : r.Post P Q safe) (h' : r.Post P' Q' safe') :
    r.Post (fun a t => P a t ∧ P' a t) (fun t => Q t ∧ Q' t) (safe ∨ safe') := by
  cases r with
  | ok a t => exact ⟨h, h'⟩
  | raised t => exact ⟨h, h'⟩
  | stop f => exact not_or.2 ⟨h, h'⟩

/-! ### Leaves that exclude each other -/

theorem codePrefix_eq_true {e f : TreeEntry} :
    codePrefix e f = true ↔ e.len ≤ f.len ∧ f.code / 2 ^ (f.len - e.len) = e.code := by
  simp [codePrefix, Nat.shiftRight_eq_div_pow]

/-- The leaves placed so far are a tree of depth `l` at most, and the next free place of that depth lies past them. -/
structure Growing (l : Nat) (x : Expansion) : Prop where
  tree : TreeOk x.entries
  past : ∀ e ∈ x.entries, e.len ≤ l ∧ (e.code + 1) * 2 ^ (l - e.len) ≤ x.code

theorem treeOk_nil : TreeOk [] := ⟨by simp, .nil⟩

theorem growing_nil (l k : Nat) : Growing l ⟨[], k, 0⟩ := ⟨treeOk_nil, by simp⟩

/-- A place past a leaf is no part of it, nor the leaf of the place. -/
theorem codePrefix_of_past {e f : TreeEntry} (hlen : e.len ≤ f.len) (h : (e.code + 1) * 2 ^ (f.len - e.len) ≤ f.code) :
    codePrefix e f = false ∧ codePrefix f e = false := by
  have hlt : e.code < f.code / 2 ^ (f.len - e.len) := (Nat.le_div_iff_mul_le (by positivity)).2 h
  refine ⟨?_, ?_⟩ <;> rw [← Bool.not_eq_true, codePrefix_eq_true]
  · rintro ⟨-, heq⟩; omega
  · rintro ⟨hle, heq⟩
    have hsame : f.len - e.len = 0 := by omega
    have hsame' : e.len - f.len = 0 := by omega
    simp only [hsame, hsame', pow_zero, Nat.div_one] at hlt heq
    omega

/-- A leaf put on the next free place (R152). -/
theorem Growing.place {l : Nat} {x : Expansion} (h : Growing l x) (hl : 1 ≤ l ∧ l ≤ 16) (hc : x.code < 2 ^ l)
    (sym : Byte) : Growing l ⟨x.entries ++ [⟨l, x.code, sym⟩], x.k + 1, x.code + 1⟩ := by
  obtain ⟨⟨hfits, hfree⟩, hpast⟩ := h
  refine ⟨⟨fun e he => ?_, ?_⟩, fun e he => ?_⟩
  · rcases List.mem_append.1 he with he | he
    · exact hfits e he
    · rw [List.mem_singleton.1 he]
      exact ⟨hl.1, hl.2, hc⟩
  · refine List.pairwise_append.2 ⟨hfree, List.pairwise_singleton _ _, fun e he f hf => ?_⟩
    rw [List.mem_singleton.1 hf]
    exact codePrefix_of_past (hpast e he).1 (hpast e he).2
  · rcases List.mem_append.1 he with he | he
    · exact ⟨(hpast e he).1, (hpast e he).2.trans (Nat.le_succ _)⟩
    · rw [List.mem_singleton.1 he]
      simp

/-- The next length doubles the next free code (R152). -/
theorem Growing.deeper {l : Nat} {x : Expansion} (h : Growing l x) : Growing (l + 1) ⟨x.entries, x.k, 2 * x.code⟩ := by
  refine ⟨h.tree, fun e he => ?_⟩
  obtain ⟨hlen, hcode⟩ := h.past e he
  refine ⟨by omega, ?_⟩
  calc (e.code + 1) * 2 ^ (l + 1 - e.len) = 2 * ((e.code + 1) * 2 ^ (l - e.len)) := by
        rw [show l + 1 - e.len = l - e.len + 1 by omega, Nat.pow_succ]; ring
    _ ≤ 2 * x.code := by omega

/-- Nothing is claimed where an operation does not go on. -/
abbrev Res.Gives (P : α → Prop) (r : Res α) : Prop := r.Post (fun a _ => P a) (fun _ => True) False

theorem Res.gives_of_ok {P : α → Prop} {r : Res α} (h : ∀ a t, r = .ok a t → P a) : r.Gives P := by
  cases r with
  | ok a t => exact h a t rfl
  | raised t => trivial
  | stop f => exact id

theorem expandLevel_growing (get : SpecSource) {l : Nat} (hl : 1 ≤ l ∧ l ≤ 16) (n : Nat) {x : Expansion}
    (hx : Growing l x) (s : State) : (expandLevel get l n x s).Gives (Growing l) := by
  induction n generalizing x s with
  | zero => exact hx
  | succ n ih =>
    unfold expandLevel
    split
    · trivial
    · next hc =>
      exact Res.Post.bind (P := fun _ _ => True) (Res.gives_of_ok fun _ _ _ => trivial) fun sym u _ =>
        ih (hx.place hl (not_le.1 hc) sym) u

theorem expandLevels_growing (get : SpecSource) (cs : List Nat) {l : Nat} (hl : 1 ≤ l ∧ l + cs.length ≤ 17)
    {x : Expansion} (hx : Growing l x) (s : State) : (expandLevels get cs l x s).Gives fun y => TreeOk y.entries := by
  induction cs generalizing l x s with
  | nil => exact hx.tree
  | cons c cs ih =>
    rw [List.length_cons] at hl
    exact Res.Post.bind (expandLevel_growing get ⟨hl.1, by omega⟩ c hx s) fun y u hy =>
      ih ⟨by omega, by omega⟩ hy.deeper u

theorem readCounts_length (get : SpecSource) (n i : Nat) (s : State) :
    (readCounts get n i s).Gives fun cs => cs.length = n := by
  induction n generalizing i s with
  | zero => rfl
  | succ n ih =>
    refine Res.Post.bind (P := fun _ _ => True) (Res.gives_of_ok fun _ _ _ => trivial) fun c u _ =>
      Res.Post.bind (ih (i + 1) u) fun cs v hcs => ?_
    exact congrArg Nat.succ hcs

/-- Whatever a table specification says, what is built from it is a tree of R52. -/
theorem buildFrom_treeOk (get : SpecSource) (s : State) : (buildFrom get s).Gives TreeOk :=
  Res.Post.bind (readCounts_length get 16 0 s) fun cs u hcs =>
    Res.Post.bind (expandLevels_growing get cs ⟨le_rfl, by omega⟩ (growing_nil 1 0) u) fun _ _ hx => hx

/-! ### The effect of building a slot -/

section Source
variable {get : SpecSource}

theorem readCounts_hasEffect (hg : ∀ i, HasEffect mayResult mayLocals (get i)) (n i : Nat) :
    HasEffect mayResult mayLocals (readCounts get n i) := by
  induction n generalizing i with
  | zero => exact fun _ => .unwatched rfl
  | succ n ih => exact fun s => (hg i s).bind fun _ u => (ih (i + 1) u).bind fun _ _ => .unwatched rfl

theorem expandLevel_hasEffect (hg : ∀ i, HasEffect mayResult mayLocals (get i)) (l n : Nat) (x : Expansion) :
    HasEffect mayResult mayLocals (expandLevel get l n x) := by
  induction n generalizing x with
  | zero => exact fun _ => .unwatched rfl
  | succ n ih => exact fun s => .guard <| (hg _ s).bind fun _ => ih _

theorem expandLevels_hasEffect (hg : ∀ i, HasEffect mayResult mayLocals (get i)) (cs : List Nat) (l : Nat)
    (x : Expansion) : HasEffect mayResult mayLocals (expandLevels get cs l x) := by
  induction cs generalizing l x with
  | nil => exact fun _ => .unwatched rfl
  | cons c cs ih => exact fun s => (expandLevel_hasEffect hg l c x s).bind fun _ => ih _ _

theorem buildFrom_hasEffect (hg : ∀ i, HasEffect mayResult mayLocals (get i)) :
    HasEffect mayResult mayLocals (buildFrom get) := fun s =>
  (readCounts_hasEffect hg 16 0 s).bind fun cs u =>
    (expandLevels_hasEffect hg cs 1 _ u).bind fun _ _ => .unwatched rfl

/-- A slot written with a tree, or emptied. -/
theorem effect_withTree (s : State) (slot : BitVec 1) {valid : Bool} {t : List TreeEntry} (ht : TreeOk t)
    (hv : valid = false → t = []) : Effect mayResult mayLocals NoError s (s.withTree slot valid t) := by
  refine ⟨fun _ => rfl, id, fun ⟨h0, h1, hv0, hv1⟩ => ?_, id, fun _ => id⟩
  unfold State.withTree
  by_cases hs : slot = 0#1
  · simp only [TreesOk, hs, if_true]
    exact ⟨ht, h1, hv, hv1⟩
  · simp only [TreesOk, hs, if_false]
    exact ⟨h0, ht, hv0, hv⟩

/-- Rebuilding a slot (R153, R154) leaves a tree in it, or, after an error, nothing. -/
theorem buildSlot_hasEffect (hg : ∀ i, HasEffect mayResult mayLocals (get i)) (slot : BitVec 1) :
    HasEffect mayResult mayLocals (buildSlot get slot) := fun s =>
  Res.HasEffect.since (u := s.withTree slot false [])
    (Res.Post.bind (((buildFrom_hasEffect hg _).and (buildFrom_treeOk get _)).mono (fun _ _ h => h) (fun _ h => h.1)
      .inl) fun t u ⟨hu, ht⟩ => hu.trans (effect_withTree u slot ht (by simp)))
    (effect_withTree s slot treeOk_nil fun _ => rfl)

end Source

theorem streamSource_hasEffect (i : Nat) : HasEffect mayResult mayLocals (streamSource i) := fetchByte_hasEffect

theorem listSource_hasEffect (bytes : List Byte) (i : Nat) : HasEffect mayResult mayLocals (listSource bytes i) := by
  intro s
  unfold listSource
  split
  · exact .unwatched rfl
  · exact hasEffect_raise (by simp) s

theorem loadTables_hasEffect : HasEffect mayResult mayLocals loadTables := fun s =>
  (buildSlot_hasEffect (listSource_hasEffect _) _ s).bind fun _ u => buildSlot_hasEffect (listSource_hasEffect _) _ u

end Sys2Proof.Machine
end

section
/-! PROOFS. The effect of every operation of every unit, by the rule of sequencing. As in the test files, one
declaration is elaborated after the other: the many short proofs at the same time pass the memory limit. -/

namespace Sys2Proof.Machine

set_option Elab.async false

variable {mayResult mayLocals : Prop}

/-! ### CRW -/

theorem crwEobBody_hasEffect (h : mayLocals) : HasEffect mayResult mayLocals crwEobBody := fun s =>
  .ok (effect_withLoc h s _)

theorem crwContinueBody_hasEffect (h : mayLocals) : HasEffect mayResult mayLocals crwContinueBody := fun s =>
  .ok (effect_withLoc h s _)

theorem crwZeroBody_hasEffect (h : mayLocals) (run : BitVec 4) :
    HasEffect mayResult mayLocals (crwZeroBody run) := fun s => .guard <| .ok (effect_withLoc h s _)

theorem crwResidBody_hasEffect (h : mayLocals) (run len : BitVec 4) :
    HasEffect mayResult mayLocals (crwResidBody run len) := fun s =>
  .guard <| (residual_hasEffect _ s).bind fun _ u =>
    (Res.HasEffect.ok (effect_withLoc h (u.withDiff _ _) _)).since (.of_watched rfl)

theorem crwSymbol_hasEffect (h : mayLocals) (sym : Byte) : HasEffect mayResult mayLocals (crwSymbol sym) := by
  intro s
  unfold crwSymbol
  split
  · exact crwEobBody_hasEffect h s
  split
  · exact crwContinueBody_hasEffect h s
  split
  · exact crwZeroBody_hasEffect h _ s
  · exact crwResidBody_hasEffect h _ _ s

theorem blockLoop_hasEffect (h : mayLocals) (fuel : Nat) : HasEffect mayResult mayLocals (blockLoop fuel) := by
  induction fuel with
  | zero => exact fun _ => .unwatched rfl
  | succ fuel ih =>
    intro s
    unfold blockLoop
    split
    · exact (decodeSymbol_hasEffect _ s).bind fun sym u => (crwSymbol_hasEffect h sym u).bind fun _ => ih
    · exact .unwatched rfl

theorem crwBlockBody_hasEffect : HasEffect mayResult mayLocals crwBlockBody := fun s =>
  Res.HasEffect.close
    ((blockLoop_hasEffect trivial _ s.startBlock).since
      ((effect_withLoc trivial s {}).trans (.of_watched rfl)))
    fun _ _ => .unwatched rfl

theorem watched_rowTest (s : State) : watched (rowTest s) = watched s := by
  unfold rowTest; split <;> rfl

theorem watched_addResidual (i : Nat) (s : State) : watched (addResidual i s) = watched s := by
  unfold addResidual; split <;> rfl

theorem reconSample_hasEffect (i : Nat) : HasEffect mayResult mayLocals (reconSample i) := fun s =>
  Res.HasEffect.since (u := addResidual i (rowTest s))
    (.guard <| (out16Write_hasEffect _ _ _).bind fun _ _ => .unwatched rfl)
    (.of_watched ((watched_addResidual i _).trans (watched_rowTest s)))

theorem reconLoop_hasEffect (n i : Nat) : HasEffect mayResult mayLocals (reconLoop n i) := by
  induction n generalizing i with
  | zero => exact fun _ => .unwatched rfl
  | succ n ih => exact fun s => (reconSample_hasEffect i s).bind fun _ => ih (i + 1)

theorem crwReconBody_hasEffect : HasEffect mayResult mayLocals crwReconBody := fun s =>
  .guard <| Res.HasEffect.since (u := applyCarry s)
    ((reconLoop_hasEffect _ _ _).bind fun _ _ => .unwatched rfl) (.of_watched rfl)

theorem mergeAt_hasEffect (k : Nat) : HasEffect mayResult mayLocals (mergeAt k) := fun s =>
  (inByte_hasEffect _ s).bind fun _ u => (out16_hasEffect k u).bind fun _ => out16Write_hasEffect k _

theorem mergeLoop_hasEffect (n k : Nat) : HasEffect mayResult mayLocals (mergeLoop n k) := by
  induction n generalizing k with
  | zero => exact fun _ => .unwatched rfl
  | succ n ih => exact fun s => (mergeAt_hasEffect k s).bind fun _ => ih (k + 1)

theorem crwMergeBody_hasEffect : HasEffect mayResult mayLocals crwMergeBody := fun s =>
  .guard (mergeLoop_hasEffect _ _ s)

theorem crwStart_hasEffect : HasEffect mayResult mayLocals crwStart := fun s =>
  .guard <| .guard <| .guard <| .ok ((effect_startRun s (u := .crw) (by simp)).trans (.of_watched rfl))

theorem crwEngineStep_hasEffect : HasEffect mayResult mayLocals crwEngineStep := by
  intro s
  unfold crwEngineStep
  split
  · exact (loadTables_hasEffect s).bind fun _ u => .ok ((effect_crwInit u).trans (.of_watched rfl))
  split
  · refine (crwBlockBody_hasEffect s).bind fun _ u => (crwReconBody_hasEffect u).bind fun _ v => ?_
    split
    · split
      · exact .unwatched rfl
      · exact .ok (effect_finish v)
    · exact .unwatched rfl
  · exact (crwMergeBody_hasEffect s).bind fun _ u => .ok (effect_finish u)

/-! ### BMP -/

theorem watched_wrapCursor (s : State) : watched (wrapCursor s) = watched s := by
  unfold wrapCursor; split <;> rfl

theorem outWrite_hasEffect (a : Nat) (v : Byte) : HasEffect mayResult mayLocals (outWrite a v) := by
  intro s
  unfold outWrite
  split
  · exact .unwatched rfl
  · exact .stop _

theorem putPixel_hasEffect (v : Byte) : HasEffect mayResult mayLocals (putPixel v) := by
  refine fun s => Res.HasEffect.since (u := wrapCursor s) (.guard ?_) (.of_watched (watched_wrapCursor s))
  dsimp only
  split
  · exact (outWrite_hasEffect _ _ _).bind fun _ _ => .unwatched rfl
  · exact (outByte_hasEffect _ _).bind fun _ u => (outWrite_hasEffect _ _ u).bind fun _ _ => .unwatched rfl

theorem putRun8_hasEffect (n : Nat) (v : Byte) : HasEffect mayResult mayLocals (putRun8 n v) := by
  induction n with
  | zero => exact fun _ => .unwatched rfl
  | succ n ih => exact fun s => (putPixel_hasEffect v s).bind fun _ => ih

theorem putRun4_hasEffect (n k : Nat) (e o : BitVec 4) : HasEffect mayResult mayLocals (putRun4 n k e o) := by
  induction n generalizing k with
  | zero => exact fun _ => .unwatched rfl
  | succ n ih => exact fun s => (putPixel_hasEffect _ s).bind fun _ => ih (k + 1)

theorem putLiterals8_hasEffect (n : Nat) : HasEffect mayResult mayLocals (putLiterals8 n) := by
  induction n with
  | zero => exact fun _ => .unwatched rfl
  | succ n ih => exact fun s => (fetchByte_hasEffect s).bind fun b u => (putPixel_hasEffect b u).bind fun _ => ih

theorem putLiterals4_hasEffect (n j total : Nat) : HasEffect mayResult mayLocals (putLiterals4 n j total) := by
  induction n generalizing j with
  | zero => exact fun _ => .unwatched rfl
  | succ n ih =>
    refine fun s => (fetchByte_hasEffect s).bind fun _ u => (putPixel_hasEffect _ u).bind fun _ v => ?_
    split
    · exact (putPixel_hasEffect _ v).bind fun _ => ih (j + 1)
    · exact ih (j + 1) v

theorem padByte_hasEffect (n : Nat) : HasEffect mayResult mayLocals (padByte n) := by
  intro s
  unfold padByte
  split
  · exact (fetchByte_hasEffect s).bind fun _ _ => .unwatched rfl
  · exact .unwatched rfl

theorem bmpDeltaBody_hasEffect : HasEffect mayResult mayLocals bmpDeltaBody := by
  refine fun s => (fetchByte_hasEffect s).bind fun dx u => (fetchByte_hasEffect u).bind fun dy v => ?_
  dsimp only
  split
  · exact (hasEffect_raise (by simp) _).since (.of_watched rfl)
  · exact .unwatched rfl

theorem bmpAbs8Body_hasEffect (n : BitVec 8) : HasEffect mayResult mayLocals (bmpAbs8Body n) := fun s =>
  (putLiterals8_hasEffect _ s).bind fun _ => padByte_hasEffect _

theorem bmpAbs4Body_hasEffect (n : BitVec 8) : HasEffect mayResult mayLocals (bmpAbs4Body n) := fun s =>
  (putLiterals4_hasEffect _ _ _ s).bind fun _ => padByte_hasEffect _

theorem bmpStart_hasEffect (mode : BitVec 1) : HasEffect mayResult mayLocals (bmpStart mode) := fun s =>
  Res.HasEffect.since (u := { s with phase := mode.setWidth 32 })
    (.guard <| .guard <| .guard <| .ok <|
      Effect.trans (u := (({ s with phase := mode.setWidth 32 } : State).withCursor 0#32 0#32).unprime)
        (.of_watched rfl) (effect_startRun _ (by simp)))
    (.of_watched rfl)

/-! ### SGI -/

theorem copyRun_hasEffect (n src dst : Nat) : HasEffect mayResult mayLocals (copyRun n src dst) := by
  induction n generalizing src dst with
  | zero => exact fun _ => .unwatched rfl
  | succ n ih =>
    exact fun s => (inByte_hasEffect _ s).bind fun _ u => (outWrite_hasEffect _ _ u).bind fun _ => ih _ _

theorem fillRun_hasEffect (n : Nat) (v : Byte) (dst : Nat) : HasEffect mayResult mayLocals (fillRun n v dst) := by
  induction n generalizing dst with
  | zero => exact fun _ => .unwatched rfl
  | succ n ih => exact fun s => (outWrite_hasEffect _ _ s).bind fun _ => ih _

theorem sgiEndBody_hasEffect (h : mayLocals) : HasEffect mayResult mayLocals sgiEndBody := fun s =>
  .ok (effect_withLoc h s _)

theorem sgiVerbatimBody_hasEffect (count : BitVec 7) : HasEffect mayResult mayLocals (sgiVerbatimBody count) := fun s =>
  .guard <| .guard <| (copyRun_hasEffect _ _ _ s).bind fun _ _ => .unwatched rfl

theorem sgiRepeatBody_hasEffect (count : BitVec 7) : HasEffect mayResult mayLocals (sgiRepeatBody count) := fun s =>
  .guard <| .guard <| (inByte_hasEffect _ s).bind fun v u =>
    Res.HasEffect.since (u := u.withIpos (u.ipos + 1#32))
      ((fillRun_hasEffect _ v _ _).bind fun _ _ => .unwatched rfl) (.of_watched rfl)

theorem sgiCommand_hasEffect (h : mayLocals) (ctl : Byte) : HasEffect mayResult mayLocals (sgiCommand ctl) := by
  intro s
  unfold sgiCommand
  split
  · exact sgiEndBody_hasEffect h s
  split
  · exact sgiVerbatimBody_hasEffect _ s
  · exact sgiRepeatBody_hasEffect _ s

theorem lineLoop_hasEffect (h : mayLocals) (fuel : Nat) : HasEffect mayResult mayLocals (lineLoop fuel) := by
  induction fuel with
  | zero => exact fun _ => .unwatched rfl
  | succ fuel ih =>
    intro s
    unfold lineLoop
    split
    · exact .unwatched rfl
    · exact (inByte_hasEffect _ s).bind fun ctl u => Res.HasEffect.since (u := u.withIpos (u.ipos + 1#32))
        ((sgiCommand_hasEffect h ctl _).bind fun _ => ih) (.of_watched rfl)

theorem sgiLineBody_hasEffect (c r : Word) : HasEffect mayResult mayLocals (sgiLineBody c r) := fun s =>
  Res.HasEffect.since (u := s.startLine c r)
    ((offsetEntry_hasEffect _ _).bind fun off u => (lengthEntry_hasEffect _ u).bind fun _ v => .guard <|
      Res.HasEffect.close
        ((lineLoop_hasEffect trivial _ ((v.withIpos off).withLoc _)).since
          (Effect.trans (u := v.withIpos off) (.of_watched rfl) (effect_withLoc trivial _ _)))
        fun _ _ => .unwatched rfl)
    (.of_watched rfl)

theorem sgiStart_hasEffect : HasEffect mayResult mayLocals sgiStart := fun s =>
  .ok (Effect.trans (u := s.startLine 0#32 0#32) (.of_watched rfl)
    ((effect_startRun _ (u := .sgi) (by simp)).trans (.of_watched rfl)))

theorem sgiConfigCheck_hasEffect {k : State → Res Unit} (hk : HasEffect mayResult mayLocals k) :
    HasEffect mayResult mayLocals fun s => sgiConfigCheck s k := fun s =>
  .guard <| .guard <| .guard <| .guard <| .guard (hk s)

theorem sgiEngineStep_hasEffect : HasEffect mayResult mayLocals sgiEngineStep := by
  refine fun s => (sgiLineBody_hasEffect _ _ s).bind fun _ u => ?_
  split
  · exact .unwatched rfl
  · split
    · exact .unwatched rfl
    · exact .ok (effect_finish u)

/-! ### HDR -/

theorem out32Write_hasEffect (i : Nat) (v : Word) : HasEffect mayResult mayLocals (out32Write i v) := by
  intro s
  unfold out32Write
  split
  · exact .unwatched rfl
  · exact .stop _

theorem putRgbe_hasEffect (y x : Nat) (r g b e : Byte) : HasEffect mayResult mayLocals (putRgbe y x r g b e) := fun s =>
  (out32Write_hasEffect _ _ s).bind fun _ u => (out32Write_hasEffect _ _ u).bind fun _ => out32Write_hasEffect _ _

theorem scanWrite_hasEffect (q x : Nat) (v : Byte) : HasEffect mayResult mayLocals (scanWrite q x v) := by
  intro s
  unfold scanWrite
  split
  · exact .unwatched rfl
  · exact .stop _

theorem scanFill_hasEffect (n : Nat) (v : Byte) (q x : Nat) : HasEffect mayResult mayLocals (scanFill n v q x) := by
  induction n generalizing x with
  | zero => exact fun _ => .unwatched rfl
  | succ n ih => exact fun s => (scanWrite_hasEffect _ _ _ s).bind fun _ => ih _

theorem scanLiterals_hasEffect (n q x : Nat) : HasEffect mayResult mayLocals (scanLiterals n q x) := by
  induction n generalizing x with
  | zero => exact fun _ => .unwatched rfl
  | succ n ih =>
    exact fun s => (fetchByte_hasEffect s).bind fun b u => (scanWrite_hasEffect _ _ b u).bind fun _ => ih _

theorem hdrHeaderBody_hasEffect (width : BitVec 15) : HasEffect mayResult mayLocals (hdrHeaderBody width) := fun _ =>
  .guard (.unwatched rfl)

theorem hdrInvalidBody_hasEffect : HasEffect mayResult mayLocals hdrInvalidBody := hasEffect_raise (by simp)

theorem hdrRepeatBody_hasEffect (h : mayLocals) (count : BitVec 7) :
    HasEffect mayResult mayLocals (hdrRepeatBody count) := fun s =>
  .guard <| (fetchByte_hasEffect s).bind fun v u =>
    (scanFill_hasEffect _ v _ _ u).bind fun _ w => .ok (effect_withLoc h w _)

theorem hdrLiteralBody_hasEffect (h : mayLocals) (count : BitVec 8) :
    HasEffect mayResult mayLocals (hdrLiteralBody count) := fun s =>
  .guard <| (scanLiterals_hasEffect _ _ _ s).bind fun _ u => .ok (effect_withLoc h u _)

theorem hdrCommand_hasEffect (h : mayLocals) (ctl : Byte) : HasEffect mayResult mayLocals (hdrCommand ctl) := by
  intro s
  unfold hdrCommand
  split
  · exact hdrRepeatBody_hasEffect h _ s
  split
  · exact hdrInvalidBody_hasEffect s
  · exact hdrLiteralBody_hasEffect h ctl s

theorem planeLoop_hasEffect (h : mayLocals) (fuel : Nat) : HasEffect mayResult mayLocals (planeLoop fuel) := by
  induction fuel with
  | zero => exact fun _ => .unwatched rfl
  | succ fuel ih =>
    intro s
    unfold planeLoop
    split
    · exact (fetchByte_hasEffect s).bind fun ctl u => (hdrCommand_hasEffect h ctl u).bind fun _ => ih
    · exact .unwatched rfl

theorem planesLoop_hasEffect (h : mayLocals) (n q : Nat) : HasEffect mayResult mayLocals (planesLoop n q) := by
  induction n generalizing q with
  | zero => exact fun _ => .unwatched rfl
  | succ n ih =>
    exact fun s => ((planeLoop_hasEffect h _ (s.withLoc { plane := q, planeX := 0 })).since
      (effect_withLoc h s _)).bind fun _ => ih (q + 1)

theorem transposeLoop_hasEffect (n y x : Nat) : HasEffect mayResult mayLocals (transposeLoop n y x) := by
  induction n generalizing x with
  | zero => exact fun _ => .unwatched rfl
  | succ n ih =>
    exact fun s => (scanRead_hasEffect _ _ s).bind fun _ s => (scanRead_hasEffect _ _ s).bind fun _ s =>
      (scanRead_hasEffect _ _ s).bind fun _ s => (scanRead_hasEffect _ _ s).bind fun _ s =>
        (putRgbe_hasEffect _ _ _ _ _ _ s).bind fun _ => ih (x + 1)

theorem flatLoop_hasEffect (n y x : Nat) : HasEffect mayResult mayLocals (flatLoop n y x) := by
  induction n generalizing x with
  | zero => exact fun _ => .unwatched rfl
  | succ n ih =>
    exact fun s => (fetchByte_hasEffect s).bind fun _ s => (fetchByte_hasEffect s).bind fun _ s =>
      (fetchByte_hasEffect s).bind fun _ s => (fetchByte_hasEffect s).bind fun _ s =>
        (putRgbe_hasEffect _ _ _ _ _ _ s).bind fun _ => ih (x + 1)

theorem fetchHeader_hasEffect : HasEffect mayResult mayLocals fetchHeader := by
  refine fun s => (fetchByte_hasEffect s).bind fun _ s => (fetchByte_hasEffect s).bind fun _ s =>
    (fetchByte_hasEffect s).bind fun _ s => (fetchByte_hasEffect s).bind fun _ s => ?_
  split
  · exact hdrHeaderBody_hasEffect _ s
  · exact hasEffect_raise (by simp) s

theorem rleScanline_hasEffect (y : Nat) : HasEffect mayResult mayLocals (rleScanline y) := fun s =>
  (fetchHeader_hasEffect s).bind fun _ u =>
    Res.HasEffect.close (planesLoop_hasEffect trivial 4 0 u) fun _ v => transposeLoop_hasEffect _ _ _ (v.withLoc {})

theorem hdrEngineStep_hasEffect : HasEffect mayResult mayLocals hdrEngineStep := by
  intro s
  have hstart : watched (if s.phase = 0#32 then detectRle s else s) = watched s := by split <;> rfl
  unfold hdrEngineStep
  generalize (if s.phase = 0#32 then detectRle s else s) = u at hstart ⊢
  refine Res.HasEffect.since (Res.HasEffect.bind ?_ fun _ v => ?_) (.of_watched hstart)
  · split
    · exact rleScanline_hasEffect _ u
    · exact flatLoop_hasEffect _ _ _ u
  · dsimp only
    split
    · exact .ok (Effect.trans (u := { v with row := u.row + 1#32 }) (.of_watched rfl) (effect_finish _))
    · exact .unwatched rfl

theorem hdrStart_hasEffect : HasEffect mayResult mayLocals hdrStart := fun s =>
  .guard <| .guard <| .ok (Effect.trans (u := s.unprime) (.of_watched rfl)
    ((effect_startRun _ (u := .hdr) (by simp)).trans (.of_watched rfl)))

end Sys2Proof.Machine
end

section
/-! PROOFS. The effect of every instruction and of every step, and the invariants it keeps: the bit window (R132), the
trees (R52), the status (R288), and who writes `RESULT` (R25). -/

namespace Sys2Proof.Machine

open Sys2Proof.Ref

variable {mayResult mayLocals : Prop}

/-! ### Instructions -/

/-- The stream instructions that are part of an operation leave their locals to the rest of it (R175, R232, R258). -/
def LeavesLocals (i : Instr) : Prop := i.format = .sgi ∨ i.format = .hdr1 ∨ ∃ eob, i.format = .hsym eob

theorem statusOk_acknowledge (s : State) : StatusOk s.acknowledge := by simp [StatusOk]

/-- `CLEAR` (R285). -/
theorem effect_acknowledge (s : State) : Effect mayResult mayLocals NoError s s.acknowledge :=
  ⟨fun _ => rfl, id, id, fun _ => ⟨rfl, by simp, by simp⟩, fun _ => id⟩

/-- `RESET` (R284). -/
theorem effect_resetRegs (h : mayResult) (s : State) : Effect mayResult mayLocals NoError s s.resetRegs :=
  ⟨fun hn => absurd h hn, fun _ => windowOk_empty rfl rfl,
    fun _ => ⟨treeOk_nil, treeOk_nil, fun _ => rfl, fun _ => rfl⟩,
    fun _ => ⟨rfl, by simp [State.reset], by simp [State.reset]⟩, fun _ _ => rfl⟩

/-- A command that returns a value (R25). -/
theorem returns_hasEffect {α : Type} {f : State → Res α} (h : mayResult) (hf : HasEffect mayResult mayLocals f)
    (value : α → Word) :
    HasEffect mayResult mayLocals fun s => (f s).bind fun a u => Res.ok () (u.withResult (value a)) := fun s =>
  (hf s).bind fun _ u => .ok (effect_withResult h u _)

theorem exec_effect (i : Instr) (s : State) : NextEffect (WritesResult i) (LeavesLocals i) s (exec i s) := by
  cases i with
  | nop => exact nextEffect_next (.refl s)
  | reset => exact nextEffect_next (effect_resetRegs (by simp [WritesResult]) s)
  | clear => exact nextEffect_next (effect_acknowledge s)
  | brPrime => exact nextEffect_next (effect_prime s)
  | brRead n =>
    exact nextEffect_needInput (returns_hasEffect (by simp [WritesResult]) (readBits_hasEffect _) _) s
  | brPeek n =>
    exact nextEffect_needInput (returns_hasEffect (by simp [WritesResult]) (peekBits_hasEffect _) _) s
  | brSkip n => exact (skipBits_hasEffect _ s).outcome
  | hufBuild slot =>
    refine nextEffect_needInput (fun u => ?_) s
    exact Res.HasEffect.since (buildSlot_hasEffect streamSource_hasEffect slot u.unprime) (.of_watched rfl)
  | hufLoadt => exact (loadTables_hasEffect s).outcome
  | hufDecode slot =>
    exact nextEffect_needInput (returns_hasEffect (by simp [WritesResult]) (decodeSymbol_hasEffect slot) _) s
  | hufResid len =>
    exact nextEffect_needInput
      (fun u => .guard (returns_hasEffect (by simp [WritesResult]) (residual_hasEffect _) sext32 u)) s
  | crwDetect =>
    refine nextEffect_needInput (fun u => .ok ?_) s
    exact (effect_withResult (by simp [WritesResult]) u _).trans (.of_watched rfl)
  | crwInit => exact nextEffect_next (effect_crwInit s)
  | crwBlock => exact nextEffect_needInput crwBlockBody_hasEffect s
  | crwRecon => exact (crwReconBody_hasEffect s).outcome
  | crwMerge => exact nextEffect_needInput crwMergeBody_hasEffect s
  | crwRun => exact nextEffect_needInput crwStart_hasEffect s
  | bmpRun mode => exact nextEffect_needInput (bmpStart_hasEffect mode) s
  | sgiRun => exact nextEffect_needInput (sgiConfigCheck_hasEffect sgiStart_hasEffect) s
  | sgiLine channel row =>
    exact nextEffect_needInput (sgiConfigCheck_hasEffect fun u => .guard (sgiLineBody_hasEffect _ _ u)) s
  | hdrRun => exact nextEffect_needInput hdrStart_hasEffect s
  | illegalHostWord op a b => exact (hasEffect_raise (α := Unit) (e := .illegal) (by decide) s).outcome
  | bmpRun8 count value => exact (putRun8_hasEffect _ value s).outcome
  | bmpRun4 count pixEven pixOdd => exact (putRun4_hasEffect _ _ pixEven pixOdd s).outcome
  | bmpEol => exact nextEffect_next (.of_watched rfl)
  | bmpEob => exact nextEffect_next (effect_bmpFinish s _)
  | bmpDelta => exact (bmpDeltaBody_hasEffect s).outcome
  | bmpAbs8 n => exact (bmpAbs8Body_hasEffect n s).outcome
  | bmpAbs4 n => exact (bmpAbs4Body_hasEffect n s).outcome
  | sgiEnd type => exact (sgiEndBody_hasEffect (.inl rfl) s).outcome
  | sgiVerbatim count => exact (sgiVerbatimBody_hasEffect count s).outcome
  | sgiRepeat count => exact (sgiRepeatBody_hasEffect count s).outcome
  | hdrHeader width => exact (hdrHeaderBody_hasEffect width s).outcome
  | hdrInvalid => exact (hdrInvalidBody_hasEffect s).outcome
  | hdrLiteral count => exact (hdrLiteralBody_hasEffect (.inr (.inl rfl)) count s).outcome
  | hdrRepeat count => exact (hdrRepeatBody_hasEffect (.inr (.inl rfl)) count s).outcome
  | crwEob => exact (crwEobBody_hasEffect (.inr (.inr ⟨_, rfl⟩)) s).outcome
  | crwContinue => exact (crwContinueBody_hasEffect (.inr (.inr ⟨_, rfl⟩)) s).outcome
  | crwZero run => exact (crwZeroBody_hasEffect (.inr (.inr ⟨_, rfl⟩)) run s).outcome
  | crwResid run len => exact (crwResidBody_hasEffect (.inr (.inr ⟨_, rfl⟩)) run len s).outcome
  | tablespec counts symbols => exact (buildSlot_hasEffect (listSource_hasEffect _) _ s).outcome

/-! ### What the decoder hands to the engine -/

theorem format_decodeHost (w : Word) : (decodeHost w).format = .host := by
  unfold decodeHost
  dsimp only
  split <;> (try split) <;> rfl

theorem format_decodeBmp (rle4 : Bool) (b1 b2 : Byte) : ∃ mode, (decodeBmp rle4 b1 b2).format = .bmp mode := by
  unfold decodeBmp
  split
  · split <;> exact ⟨_, rfl⟩
  split
  · exact ⟨_, rfl⟩
  split
  · exact ⟨_, rfl⟩
  split
  · exact ⟨_, rfl⟩
  · split <;> exact ⟨_, rfl⟩

theorem not_leavesLocals_decodeHost (w : Word) : ¬ LeavesLocals (decodeHost w) := by
  simp [LeavesLocals, format_decodeHost]

theorem not_leavesLocals_decodeBmp (rle4 : Bool) (b1 b2 : Byte) : ¬ LeavesLocals (decodeBmp rle4 b1 b2) := by
  obtain ⟨mode, h⟩ := format_decodeBmp rle4 b1 b2
  simp [LeavesLocals, h]

theorem not_writesResult_decodeBmp (rle4 : Bool) (b1 b2 : Byte) : ¬ WritesResult (decodeBmp rle4 b1 b2) := by
  obtain ⟨mode, h⟩ := format_decodeBmp rle4 b1 b2
  rintro (hi | ⟨_, hi⟩ | ⟨_, hi⟩ | ⟨_, hi⟩ | ⟨_, hi⟩ | hi) <;> simp [hi, Instr.format] at h

/-! ### Engine steps -/

theorem bmpEngineStep_effect (s : State) : NextEffect False False s (bmpEngineStep s) := by
  unfold bmpEngineStep
  split
  · exact nextEffect_next (effect_bmpFinish s _)
  split
  · exact nextEffect_next (effect_bmpFinish s _)
  · exact (fetchByte_hasEffect s).andThen fun _ u => (fetchByte_hasEffect u).andThen fun _ v =>
      (exec_effect _ v).mono (not_writesResult_decodeBmp _ _ _) (not_leavesLocals_decodeBmp _ _ _)

theorem engineStep_effect (s : State) : NextEffect False False s (engineStep s) := by
  unfold engineStep
  split
  · exact nextEffect_next (effect_takeAbort s)
  unfold unitStep
  split
  · rintro t ⟨⟩
  · exact (crwEngineStep_hasEffect s).outcome
  · exact bmpEngineStep_effect s
  · exact (sgiEngineStep_hasEffect s).outcome
  · exact (hdrEngineStep_hasEffect s).outcome

/-! ### Steps -/

/-- What a step can be (R281, R286, R287, R340), as far as the watched fields go. -/
inductive StepKind (s t : State) : Prop where
  /-- A transaction of the host beside the commands, a dropped command, or nothing. -/
  | quiet (h : watched t = watched s)
  | hardReset (q : List HostEvent) (hq : s.hostQ = .hardReset :: q) (ht : t = Machine.hardReset (s.withQueue q))
  /-- An accepted command word; in `ERROR` only `RESET` and `CLEAR` are accepted. -/
  | command (w : Word) (q : List HostEvent) (hq : s.hostQ = .regWr 0x00#7 w :: q)
      (hw : s.st = .error → w = 0x01000000#32 ∨ w = 0x02000000#32) (ht : exec (decodeHost w) (s.withQueue q) = .next t)
  | engine (u : State) (hu : watched u = watched s) (hb : s.st = .busy) (ht : engineStep u = .next t)

theorem watched_writeConfig {s t : State} {idx : BitVec 7} {v : Word} (h : writeConfig s idx v = some t) :
    watched t = watched s := by
  unfold writeConfig at h
  split at h <;> cases h <;> rfl

/-- A write of the host to a register other than `CMD` (R286). -/
theorem watched_regWrite {s t : State} {idx : BitVec 7} {v : Word} (hidx : idx ≠ 0x00#7)
    (h : regWrite idx v s = .next t) : watched t = watched s := by
  unfold regWrite at h
  rw [if_neg hidx] at h
  split at h
  · cases h; rfl
  split at h
  · cases h; rfl
  · next hc =>
    split at h <;> cases h
    · rfl
    · exact watched_writeConfig hc

theorem watched_memWrite {s t : State} {sp : ByteSpace} {a : Nat} {bs : List Byte}
    (h : memWrite sp a bs s = .next t) : watched t = watched s := by
  unfold memWrite at h
  split at h
  · cases h
  split at h
  · cases h
  · cases sp <;> cases h <;> rfl

theorem watched_tabWrite {s t : State} {sp : TableSpace} {k : Nat} {es : List Word}
    (h : tabWrite sp k es s = .next t) : watched t = watched s := by
  unfold tabWrite at h
  split at h
  · cases h
  split at h
  · cases h
  · cases sp <;> cases h <;> rfl

theorem watched_memRead {s t : State} {sp : ByteSpace} {a n : Nat} (h : memRead sp a n s = .next t) :
    watched t = watched s := by
  unfold memRead at h
  split at h <;> cases h
  rfl

theorem watched_tabRead {s t : State} {sp : TableSpace} {k n : Nat} (h : tabRead sp k n s = .next t) :
    watched t = watched s := by
  unfold tabRead at h
  split at h <;> cases h
  rfl

theorem stepKind_of_event {s t : State} {e : HostEvent} {q : List HostEvent} (hq : s.hostQ = e :: q)
    (h : hostEvent e (s.withQueue q) = .next t) : StepKind s t := by
  cases e with
  | regWr idx v =>
    by_cases hidx : idx = 0x00#7
    · subst hidx
      change hostCommand v (s.withQueue q) = .next t at h
      rw [hostCommand_eq] at h
      split at h
      · cases h
        exact .quiet rfl
      · next hacc =>
        refine .command v q hq (fun he => ?_) h
        by_contra hv
        exact hacc (.inr ⟨he, not_or.1 hv⟩)
    · exact .quiet (watched_regWrite (s := s.withQueue q) hidx h)
  | regRd idx =>
    cases h
    exact .quiet rfl
  | memWr sp a bs => exact .quiet (watched_memWrite (s := s.withQueue q) h)
  | memRd sp a n => exact .quiet (watched_memRead (s := s.withQueue q) h)
  | tabWr sp k es => exact .quiet (watched_tabWrite (s := s.withQueue q) h)
  | tabRd sp k n => exact .quiet (watched_tabRead (s := s.withQueue q) h)
  | hardReset =>
    cases h
    exact .hardReset q hq rfl
  | engineStep =>
    change (if s.st = .busy then engineStep (s.withQueue q) else .next (s.withQueue q)) = .next t at h
    split at h
    · next hb => exact .engine (s.withQueue q) rfl hb h
    · cases h
      exact .quiet rfl

theorem stepKind {s t : State} (h : step s = .next t) : StepKind s t := by
  cases hq : s.hostQ with
  | cons e q => exact stepKind_of_event hq (step_event hq ▸ h)
  | nil =>
    by_cases hb : s.st = .busy
    · exact .engine s rfl hb (step_busy hq hb ▸ h)
    · rw [step_idle hq hb] at h
      cases h
      exact .quiet rfl

/-- The host's pending event may write `RESULT` (R25, R340). -/
def ResultWriterPending (s : State) : Prop :=
  (∃ q, s.hostQ = .hardReset :: q) ∨ ∃ w q, s.hostQ = .regWr 0x00#7 w :: q ∧ WritesResult (decodeHost w)

theorem watched_hardReset (s : State) : watched (hardReset s) = watched s.resetRegs := by
  unfold hardReset
  split <;> rfl

theorem step_effect {s t : State} (h : step s = .next t) : Effect (ResultWriterPending s) False StatusOk s t := by
  cases stepKind h with
  | quiet h => exact (Effect.of_watched h).mono id NoError.statusOk
  | hardReset q hq ht =>
    subst ht
    have hreset := effect_resetRegs (mayLocals := False) (.inl ⟨q, hq⟩ : ResultWriterPending s) s
    exact (hreset.trans (.of_watched (watched_hardReset (s.withQueue q)))).mono id NoError.statusOk
  | command w q hq hw ht =>
    have hexec := (exec_effect (decodeHost w) (s.withQueue q)).mono (mayResult' := ResultWriterPending s)
      (fun hr => .inr ⟨w, q, hq, hr⟩) (not_leavesLocals_decodeHost w)
    exact hexec.since (Effect.of_watched (s := s) rfl) t ht
  | engine u hu hb ht =>
    exact (((engineStep_effect u).mono False.elim id).since (.of_watched hu)) t ht

/-- In `ERROR` the block stays as it is, or `RESET`, `CLEAR` or a hard reset ends the error (R281, R308, R340). -/
theorem statusOk_step_of_error {s t : State} (hs : StatusOk s) (herr : s.st = .error) (h : step s = .next t) :
    StatusOk t := by
  cases stepKind h with
  | quiet h =>
    simp only [watched, Prod.mk.injEq] at h
    obtain ⟨-, -, hst, he, hu⟩ := h
    rwa [StatusOk, hst, he, hu]
  | hardReset q hq ht =>
    rw [ht]
    unfold hardReset
    split <;> simp [StatusOk, State.reset]
  | command w q hq hw ht =>
    rcases hw herr with rfl | rfl
    · have hd : decodeHost 0x01000000#32 = .reset := by decide
      rw [hd] at ht
      cases ht
      simp [StatusOk, State.reset]
    · have hd : decodeHost 0x02000000#32 = .clear := by decide
      rw [hd] at ht
      cases ht
      exact statusOk_acknowledge _
  | engine u hu hb ht => simp [herr] at hb

/-! ### The obligations -/

/-- Settles O54: the effect of a step, whose content for the trees is `buildFrom_treeOk`. -/
theorem stepKeepsTrees : Obligations.StepKeepsTrees := fun _ _ hs h => (step_effect h).trees hs

/-- Settles O52: the effect of a step. -/
theorem stepKeepsWindow : Obligations.StepKeepsWindow := fun _ _ hs h => (step_effect h).window hs

/-- Settles O53: the effect of a step, and the ways out of `ERROR`. -/
theorem stepKeepsStatus : Obligations.StepKeepsStatus := by
  intro s t hs hl h
  refine ⟨?_, (step_effect h).locals id hl⟩
  by_cases herr : s.st = .error
  · exact statusOk_step_of_error hs herr h
  · exact (step_effect h).status (noError_of_statusOk hs herr)

/-- Settles O9: the effects of an instruction, of an engine step and of a step. -/
theorem resultWriters : Obligations.ResultWriters := by
  refine ⟨fun i s t h hr => ?_, fun s t h => (engineStep_effect s t h).result id, fun s t h hr => ?_⟩
  · by_contra hw
    exact hr ((exec_effect i s t h).result hw)
  · by_contra hw
    exact hr ((step_effect h).result hw)

end Sys2Proof.Machine
end

section
/-! PROOFS. The register file as the host sees it (R21, R39, R286): what a write stores, what it leaves, and that every
register reads 0 after a reset (R59, R284, R340). -/

namespace Sys2Proof.Machine

open Sys2Proof.Ref

/-! ### Reset -/

/-- Every register of the reset state reads 0 (R59). -/
theorem readRegister_reset (idx : BitVec 7) : readRegister State.reset idx = 0#32 := by
  have hdiff (i : Nat) : diffGet State.reset i = 0#32 := diffGet_replicate State.reset i
  unfold readRegister
  split
  case h_29 => simp [hdiff]
  all_goals rfl

theorem readRegister_resetRegs (s : State) (idx : BitVec 7) : readRegister s.resetRegs idx = 0#32 :=
  readRegister_reset idx

/-- A bit of a mixture is the old bit or the new one. -/
theorem getLsbD_mixByte (mask old new : Byte) (i : Nat) :
    (mixByte mask old new).getLsbD i = old.getLsbD i ∨ (mixByte mask old new).getLsbD i = new.getLsbD i := by
  by_cases hi : i < 8
  · simp only [mixByte, BitVec.getLsbD_or, BitVec.getLsbD_and, BitVec.getLsbD_not, hi, decide_true, Bool.true_and]
    cases mask.getLsbD i <;> simp
  · exact .inl (by rw [BitVec.getLsbD_of_ge _ _ (not_lt.1 hi), BitVec.getLsbD_of_ge _ _ (not_lt.1 hi)])

theorem Memory.read_mix (mask : Nat → Byte) (old new : Memory 8) (a : Nat) :
    Memory.read (Memory.mix mask old new) a = Memory.read old a ∨
      Memory.read (Memory.mix mask old new) a = mixByte (mask a) (Memory.read old a) (Memory.read new a) := by
  unfold Memory.mix
  induction old ++ new using List.reverseRecOn with
  | nil => exact .inl rfl
  | append_singleton cs c ih =>
    rw [List.foldl_append, List.foldl_cons, List.foldl_nil, Memory.read_write]
    split
    · next hc => exact .inr (by rw [hc])
    · exact ih

/-- A hard reset of a step in progress keeps each bit of `OUT` or takes it from the abandoned step (R340, U7). -/
theorem getLsbD_abandonedOut {s u : State} (h : engineStep s = .next u) (a i : Nat) :
    (Memory.read (abandonedOut s) a).getLsbD i = (Memory.read s.outMem a).getLsbD i ∨
      (Memory.read (abandonedOut s) a).getLsbD i = (Memory.read u.outMem a).getLsbD i := by
  have hout : abandonedOut s = Memory.mix (Config.abandonedMask s.freeTick) s.outMem u.outMem := by
    unfold abandonedOut
    rw [h]
  rw [hout]
  rcases Memory.read_mix (Config.abandonedMask s.freeTick) s.outMem u.outMem a with hr | hr <;> rw [hr]
  · exact .inl rfl
  · exact getLsbD_mixByte _ _ _ _

theorem hardReset_of_busy {s : State} (hb : s.st = .busy) :
    hardReset s = { s.resetRegs with outMem := abandonedOut s, freeTick := s.freeTick + 1 } := if_pos hb

theorem hardReset_of_not_busy {s : State} (hb : s.st ≠ .busy) : hardReset s = s.resetRegs := if_neg hb

/-- Settles O6: the reset registers, and the mixture that a hard reset leaves in `OUT`. -/
theorem resetBothWays : Obligations.ResetBothWays := by
  refine ⟨fun s => ⟨s.resetRegs, rfl, readRegister_resetRegs s, rfl, rfl, rfl, rfl, rfl, rfl, rfl, rfl⟩,
    fun s q hq => ?_⟩
  have hstep : step s = .next (hardReset (s.withQueue q)) := step_event hq
  by_cases hb : s.st = .busy
  · rw [hardReset_of_busy (s := s.withQueue q) hb] at hstep
    exact ⟨_, hstep, readRegister_resetRegs s, rfl, rfl, rfl, rfl, rfl, rfl, rfl, fun hn => absurd hb hn,
      fun u _ hu => getLsbD_abandonedOut hu⟩
  · rw [hardReset_of_not_busy (s := s.withQueue q) hb] at hstep
    exact ⟨_, hstep, readRegister_resetRegs s, rfl, rfl, rfl, rfl, rfl, rfl, rfl, fun _ => rfl,
      fun _ h => absurd h hb⟩

/-- Settles O56: every field of the reset state is known. -/
theorem resetSatisfiesInvariants : Obligations.ResetSatisfiesInvariants :=
  ⟨⟨rfl, rfl, rfl, rfl, rfl⟩, windowOk_empty rfl rfl, by simp [StatusOk, State.reset], rfl,
    ⟨treeOk_nil, treeOk_nil, fun _ => rfl, fun _ => rfl⟩,
    ⟨⟨le_rfl, le_rfl⟩, by simp [State.reset], by simp [State.reset]⟩,
    readRegister_reset⟩

/-! ### What a register write stores -/

/-- A register whose 32 bits are all writable. -/
theorem stored_all (v old : Word) : v = (v &&& 0xFFFFFFFF#32) ||| (old &&& ~~~ 0xFFFFFFFF#32) := by
  rw [show 0xFFFFFFFF#32 = BitVec.allOnes 32 from rfl, BitVec.and_allOnes, BitVec.not_allOnes, BitVec.and_zero,
    BitVec.or_zero]

theorem getLsbD_bit (b : Bool) (i : Nat) : (bit b).getLsbD i = (decide (i = 0) && b) := by
  cases b <;> cases i <;> simp [bit]

/-- A register whose lowest bit alone is writable, and whose others read 0 (R24, R36). -/
theorem stored_bit (v : Word) (old : Bool) :
    0#31 ++ bit (v.getLsbD 0) = (v &&& 0x1#32) ||| ((0#31 ++ bit old : Word) &&& ~~~ 0x1#32) := by
  have hmask : ∀ i < 32, (0x1#32).getLsbD i = decide (i = 0) := by decide
  apply BitVec.eq_of_getLsbD_eq
  intro i hi
  simp only [BitVec.getLsbD_or, BitVec.getLsbD_and, BitVec.getLsbD_not, BitVec.getLsbD_append, getLsbD_bit, hmask i hi]
  rcases i with _ | i <;> simp

/-- `BRCFG`, whose two lowest bits are writable (R28). -/
theorem stored_brcfg (v : Word) (stuff order : Bool) :
    0#30 ++ bit (v.getLsbD 1) ++ bit (v.getLsbD 0) =
      (v &&& 0x3#32) ||| ((0#30 ++ bit stuff ++ bit order : Word) &&& ~~~ 0x3#32) := by
  have hmask : ∀ i < 32, (0x3#32).getLsbD i = decide (i = 0 ∨ i = 1) := by decide
  apply BitVec.eq_of_getLsbD_eq
  intro i hi
  simp only [BitVec.getLsbD_or, BitVec.getLsbD_and, BitVec.getLsbD_not, BitVec.getLsbD_append, getLsbD_bit, hmask i hi]
  rcases i with _ | _ | i <;> simp

section Write
variable {s t : State} {idx : BitVec 7} {v : Word}

/-- The written register reads the bits the host may store, and its others as they were (R286). -/
theorem readRegister_writeConfig_same (h : writeConfig s idx v = some t) :
    readRegister t idx = (v &&& writeMask idx) ||| (readRegister s idx &&& ~~~ writeMask idx) := by
  unfold writeConfig at h
  split at h
  all_goals cases h
  all_goals
    rename_i hidx
    simp only [readRegister, writeMask, hidx]
  case h_3 => exact stored_brcfg v s.stuff s.order
  case h_10 => exact stored_bit v s.lbmode
  all_goals exact stored_all v _

/-- Every other register but `BRSTAT` reads as it did (R286). -/
theorem readRegister_writeConfig_other (h : writeConfig s idx v = some t) {j : BitVec 7} (hj : j ≠ idx)
    (hbrstat : j ≠ 0x08#7) : readRegister t j = readRegister s j := by
  unfold writeConfig at h
  split at h
  all_goals cases h
  all_goals
    unfold readRegister
    split
    all_goals try rfl
    all_goals bv_omega

/-- Nothing beside the registers changes, and `PRIMED` only with `IPOS` or `BRCFG` (R29, R286). -/
theorem writeConfig_frame (h : writeConfig s idx v = some t) :
    t.hostQ = s.hostQ ∧ t.primed = (s.primed && idx != 0x04#7 && idx != 0x06#7) ∧ t.vbits = s.vbits ∧
      t.tree0 = s.tree0 ∧ t.tree1 = s.tree1 ∧ t.inMem = s.inMem ∧ t.outMem = s.outMem ∧ t.offtab = s.offtab ∧
      t.lentab = s.lentab ∧ t.params = s.params := by
  have hipos : (idx != 0x04#7) = !(idx.toNat == 4) := by rw [Bool.eq_iff_iff]; simp [BitVec.toNat_eq]
  have hbrcfg : (idx != 0x06#7) = !(idx.toNat == 6) := by rw [Bool.eq_iff_iff]; simp [BitVec.toNat_eq]
  unfold writeConfig at h
  split at h
  all_goals cases h
  all_goals
    rename_i hidx
    simp [hipos, hbrcfg, hidx]

/-- The registers that `writeConfig` knows are those with writable bits, `CTRL` aside. -/
theorem writeConfig_eq_none_iff (hctrl : idx ≠ 0x02#7) : writeConfig s idx v = none ↔ writeMask idx = 0#32 := by
  have hctrl' : idx.toNat ≠ 2 := fun h => hctrl (BitVec.eq_of_toNat_eq h)
  unfold writeConfig writeMask
  split
  all_goals simp_all

theorem regWrite_of_some (hcmd : idx ≠ 0x00#7) (hctrl : idx ≠ 0x02#7) (h : writeConfig s idx v = some t) :
    regWrite idx v s = if s.st = .busy then .next s.drop else .next t := by
  simp [regWrite, hcmd, hctrl, h]

theorem regWrite_of_none (hcmd : idx ≠ 0x00#7) (hctrl : idx ≠ 0x02#7) (h : writeConfig s idx v = none) :
    regWrite idx v s = .next s := by
  simp [regWrite, hcmd, hctrl, h]

end Write

/-- `CMD` and the reserved indices read 0 (R21, R39). -/
theorem readRegister_reserved (s : State) {idx : BitVec 7}
    (h : idx = 0x00#7 ∨ (0x1D ≤ idx.toNat ∧ idx.toNat ≤ 0x3F)) : readRegister s idx = 0#32 := by
  have hn : idx.toNat = 0 ∨ (0x1D ≤ idx.toNat ∧ idx.toNat ≤ 0x3F) := h.imp_left (congrArg BitVec.toNat)
  have hdiff : ¬ 0x40 ≤ idx.toNat := by omega
  unfold readRegister
  split
  case h_29 => exact if_neg hdiff
  all_goals exfalso; omega

/-- `CTRL` stores its one bit, and every other register reads as it did (R24). -/
theorem readRegister_writeCtrl (s : State) (v : Word) {j : BitVec 7} (hj : j ≠ 0x02#7) :
    readRegister { s with abort := v.getLsbD 0 } j = readRegister s j := by
  unfold readRegister
  split
  all_goals try rfl
  bv_omega

theorem stored_none (v old : Word) : old = (v &&& 0#32) ||| (old &&& ~~~ 0#32) := by
  rw [show ~~~ 0#32 = BitVec.allOnes 32 from rfl, BitVec.and_allOnes, BitVec.and_zero, BitVec.zero_or]

/-- Settles O48: the host's write to `CTRL`, to a register with writable bits, and to one without. -/
theorem registerWritesStore : Obligations.RegisterWritesStore := by
  refine ⟨fun s idx q hq => ⟨step_event hq, readRegister_reserved s⟩, fun s idx v q hcmd hq => ?_⟩
  have hstep : step s = regWrite idx v (s.withQueue q) := step_event hq
  by_cases hctrl : idx = 0x02#7
  · subst hctrl
    refine ⟨fun _ => ⟨_, hstep, rfl, ?_⟩, fun _ _ h => absurd rfl h, fun h => absurd h (by simp [writeMask])⟩
    exact ⟨stored_bit v s.abort, fun j hj _ => readRegister_writeCtrl s v hj, by simp,
      rfl, rfl, rfl, rfl, rfl, rfl, rfl, rfl⟩
  cases hw : writeConfig (s.withQueue q) idx v with
  | some t =>
    rw [regWrite_of_some hcmd hctrl hw] at hstep
    have hmask : writeMask idx ≠ 0#32 := fun h => by simp [(writeConfig_eq_none_iff hctrl).2 h] at hw
    refine ⟨fun hb => ⟨t, ?_, ?_⟩, fun hb _ _ => ?_, fun h => absurd h hmask⟩
    · exact hstep.trans (if_neg (hb.resolve_right hctrl))
    · obtain ⟨hqueue, hframe⟩ := writeConfig_frame hw
      exact ⟨hqueue, readRegister_writeConfig_same (s := s.withQueue q) hw,
        fun j hj hbrstat => readRegister_writeConfig_other (s := s.withQueue q) hw hj hbrstat, hframe⟩
    · exact hstep.trans (if_pos hb)
  | none =>
    rw [regWrite_of_none hcmd hctrl hw] at hstep
    have hmask := (writeConfig_eq_none_iff hctrl).1 hw
    have hipos : (idx != 0x04#7) = true := bne_iff_ne.2 (by rintro rfl; simp [writeMask] at hmask)
    have hbrcfg : (idx != 0x06#7) = true := bne_iff_ne.2 (by rintro rfl; simp [writeMask] at hmask)
    refine ⟨fun _ => ⟨_, hstep, rfl, ?_, fun _ _ _ => rfl, ?_, rfl, rfl, rfl, rfl, rfl, rfl, rfl, rfl⟩,
      fun _ h => absurd hmask h, fun _ => hstep⟩
    · rw [hmask]
      exact stored_none v _
    · rw [hipos, hbrcfg, Bool.and_true, Bool.and_true]
      rfl

end Sys2Proof.Machine
end

section
/-! PROOFS. A specification that fits is expanded into its canonical tree (R119, R152): the code of a leaf is the space
that the leaves before it take, counted in places of its own depth. -/

namespace Sys2Proof.Machine

open Sys2Proof.Ref

/-! ### The lengths of the leaves and the space they take -/

/-- The lengths of the codes of the counts `cs`, the first of them the count of length `l` (R119). -/
def levelLengths (cs : List Nat) (l : Nat) : List Nat := (cs.zipIdx l).flatMap fun c => List.replicate c.1 c.2

@[simp] theorem levelLengths_nil (l : Nat) : levelLengths [] l = [] := rfl

@[simp] theorem levelLengths_cons (c : Nat) (cs : List Nat) (l : Nat) :
    levelLengths (c :: cs) l = List.replicate c l ++ levelLengths cs (l + 1) := rfl

theorem leafLengths_eq (counts : List Byte) : leafLengths counts = levelLengths (counts.map BitVec.toNat) 1 := by
  simp [leafLengths, levelLengths, List.zipIdx_map, List.flatMap_map]

theorem length_levelLengths (cs : List Nat) (l : Nat) : (levelLengths cs l).length = cs.sum := by
  induction cs generalizing l with
  | nil => rfl
  | cons c cs ih => simp [ih]

/-- The places of depth `l` that the first `k` leaves take. -/
def spaceBefore (lens : List Nat) (l k : Nat) : Nat := ((lens.take k).map fun m => 2 ^ (l - m)).sum

theorem leafCode_eq (lens : List Nat) (k : Nat) : leafCode lens k = spaceBefore lens (lens.getD k 0) k := rfl

/-- One more leaf at the depth of the count takes one more place. -/
theorem spaceBefore_append (pre post : List Nat) (l : Nat) :
    spaceBefore (pre ++ l :: post) l (pre.length + 1) = spaceBefore (pre ++ l :: post) l pre.length + 1 := by
  simp [spaceBefore, List.take_length_add_append]

/-- A place of depth `l` is `2 ^ n` places `n` deeper. -/
theorem spaceBefore_deeper {lens : List Nat} {l k : Nat} (h : ∀ m ∈ lens.take k, m ≤ l) (n : Nat) :
    spaceBefore lens (l + n) k = 2 ^ n * spaceBefore lens l k := by
  unfold spaceBefore
  rw [← List.sum_map_mul_left]
  refine congrArg List.sum (List.map_congr_left fun m hm => ?_)
  rw [← Nat.pow_add, Nat.add_comm n, Nat.sub_add_comm (h m hm)]

theorem spaceBefore_mono (lens : List Nat) (l k : Nat) : spaceBefore lens l k ≤ spaceBefore lens l lens.length := by
  have hall : (lens.map fun m => 2 ^ (l - m)).sum =
      ((lens.take k).map fun m => 2 ^ (l - m)).sum + ((lens.drop k).map fun m => 2 ^ (l - m)).sum := by
    rw [← List.sum_append, ← List.map_append, List.take_append_drop]
  simp only [spaceBefore, List.take_length, hall]
  omega

theorem codeSpace_eq (counts : List Byte) :
    codeSpace counts = spaceBefore (leafLengths counts) 16 (leafLengths counts).length := by
  rw [spaceBefore, List.take_length]
  simp [codeSpace, leafLengths, List.flatMap_def, List.sum_flatten, Function.comp_def]

/-- Where all leaves have room, the code of the next one fits its length. -/
theorem spaceBefore_lt {pre post : List Nat} {l : Nat} (hl : l ≤ 16) (hpre : ∀ m ∈ pre, m ≤ l)
    (hfit : spaceBefore (pre ++ l :: post) 16 (pre ++ l :: post).length ≤ 2 ^ 16) :
    spaceBefore (pre ++ l :: post) l pre.length < 2 ^ l := by
  have htake : ∀ m ∈ (pre ++ l :: post).take (pre.length + 1), m ≤ l := by
    simpa [List.take_length_add_append, or_imp, forall_and] using hpre
  have hroom : 2 ^ (16 - l) * (spaceBefore (pre ++ l :: post) l pre.length + 1) ≤ 2 ^ (16 - l) * 2 ^ l :=
    calc 2 ^ (16 - l) * (spaceBefore (pre ++ l :: post) l pre.length + 1)
        = spaceBefore (pre ++ l :: post) 16 (pre.length + 1) := by
          rw [← spaceBefore_append, ← spaceBefore_deeper htake, Nat.add_sub_cancel' hl]
      _ ≤ 2 ^ 16 := (spaceBefore_mono _ _ _).trans hfit
      _ = 2 ^ (16 - l) * 2 ^ l := by rw [← Nat.pow_add, Nat.sub_add_cancel hl]
  exact Nat.le_of_mul_le_mul_left hroom (by positivity)

/-! ### The expansion -/

/-- The first `k` leaves of the canonical tree (R152). -/
def leavesTo (lens : List Nat) (symbols : List Byte) (k : Nat) : List TreeEntry :=
  (List.range k).map fun i => ⟨lens.getD i 0, leafCode lens i, symbols.getD i 0#8⟩

theorem canonicalLeaves_eq (counts symbols : List Byte) :
    canonicalLeaves counts symbols = leavesTo (leafLengths counts) symbols symbols.length := rfl

/-- The expansion after `k` leaves, before a leaf of length `l`. -/
def placed (lens : List Nat) (symbols : List Byte) (l k : Nat) : Expansion :=
  ⟨leavesTo lens symbols k, k, spaceBefore lens l k⟩

/-- The source gives the bytes in order, from state to state. -/
def Delivers (get : SpecSource) (bytes : List Byte) (st : Nat → State) : Prop :=
  ∀ i < bytes.length, get i (st i) = .ok (bytes.getD i 0#8) (st (i + 1))

section Source
variable {get : SpecSource} {st : Nat → State}

theorem readCounts_delivers {bytes : List Byte} (hd : Delivers get bytes st) (n i : Nat) (h : i + n ≤ bytes.length) :
    readCounts get n i (st i) = .ok (((bytes.drop i).take n).map BitVec.toNat) (st (i + n)) := by
  induction n generalizing i with
  | zero => rfl
  | succ n ih =>
    have hi : i < bytes.length := by omega
    unfold readCounts
    rw [hd i hi, Res.bind_ok, ih (i + 1) (by omega), Res.bind_ok, List.drop_eq_getElem_cons hi,
      List.getD_eq_getElem _ _ hi, List.take_succ_cons, List.map_cons, Nat.add_right_comm, Nat.add_assoc]

variable {counts symbols : List Byte} {lens : List Nat}

theorem Delivers.symbol (hd : Delivers get (counts ++ symbols) st) (hcounts : counts.length = 16) {k : Nat}
    (hk : k < symbols.length) : get (16 + k) (st (16 + k)) = .ok (symbols.getD k 0#8) (st (16 + k + 1)) := by
  have h := hd (16 + k) (by rw [List.length_append]; omega)
  rwa [List.getD_append_right _ _ _ _ (by omega), hcounts, Nat.add_sub_cancel_left] at h

/-- One leaf with room (R152). -/
theorem expandLevel_succ {l n : Nat} {x : Expansion} {sym : Byte} {s u : State} (hc : x.code < 2 ^ l)
    (hg : get (16 + x.k) s = .ok sym u) : expandLevel get l (n + 1) x s =
      expandLevel get l n ⟨x.entries ++ [⟨l, x.code, sym⟩], x.k + 1, x.code + 1⟩ u := by
  rw [expandLevel, if_neg (not_le.2 hc), hg, Res.bind_ok]

/-- The codes of one length (R152). -/
theorem expandLevel_placed (hd : Delivers get (counts ++ symbols) st) (hcounts : counts.length = 16)
    (hsymbols : symbols.length = lens.length) (hfit : spaceBefore lens 16 lens.length ≤ 2 ^ 16) {l : Nat} (hl : l ≤ 16)
    (n : Nat) {pre post : List Nat} (hlens : lens = pre ++ (List.replicate n l ++ post)) (hpre : ∀ m ∈ pre, m ≤ l) :
    expandLevel get l n (placed lens symbols l pre.length) (st (16 + pre.length)) =
      .ok (placed lens symbols l (pre.length + n)) (st (16 + (pre.length + n))) := by
  induction n generalizing pre with
  | zero => rfl
  | succ n ih =>
    have hcons : lens = pre ++ l :: (List.replicate n l ++ post) := hlens
    have hroom : spaceBefore lens l pre.length < 2 ^ l := by
      rw [hcons] at hfit ⊢
      exact spaceBefore_lt hl hpre hfit
    have hget := hd.symbol hcounts (k := pre.length) (by rw [hsymbols, hcons]; simp)
    have hleaf : (⟨leavesTo lens symbols pre.length ++
          [⟨l, spaceBefore lens l pre.length, symbols.getD pre.length 0#8⟩], pre.length + 1,
          spaceBefore lens l pre.length + 1⟩ : Expansion) = placed lens symbols l (pre.length + 1) := by
      have hlen : lens.getD pre.length 0 = l := by rw [hcons]; simp
      have hspace : spaceBefore lens l (pre.length + 1) = spaceBefore lens l pre.length + 1 := by
        rw [hcons]; exact spaceBefore_append _ _ _
      rw [placed, hspace, leavesTo, leavesTo, List.range_succ, List.map_append, List.map_singleton, leafCode_eq, hlen]
    have hnext := ih (pre := pre ++ [l]) (by rw [hcons]; simp)
      (by simpa [or_imp, forall_and] using hpre)
    rw [List.length_append, List.length_singleton] at hnext
    calc expandLevel get l (n + 1) (placed lens symbols l pre.length) (st (16 + pre.length))
        = expandLevel get l n (placed lens symbols l (pre.length + 1)) (st (16 + (pre.length + 1))) :=
          (expandLevel_succ (x := placed lens symbols l pre.length) hroom hget).trans
            (congrArg (fun x => expandLevel get l n x _) hleaf)
      _ = .ok (placed lens symbols l (pre.length + (n + 1))) (st (16 + (pre.length + (n + 1)))) := by
          rw [hnext, Nat.add_right_comm, Nat.add_assoc]

/-- Going to the next length (R152). -/
theorem placed_deeper {l k : Nat} (h : ∀ m ∈ lens.take k, m ≤ l) :
    (⟨(placed lens symbols l k).entries, (placed lens symbols l k).k, 2 * (placed lens symbols l k).code⟩ : Expansion) =
      placed lens symbols (l + 1) k := by
  simp [placed, spaceBefore_deeper h 1]

/-- The lengths from `l` on (R152). -/
theorem expandLevels_placed (hd : Delivers get (counts ++ symbols) st) (hcounts : counts.length = 16)
    (hsymbols : symbols.length = lens.length) (hfit : spaceBefore lens 16 lens.length ≤ 2 ^ 16) (cs : List Nat)
    {l : Nat} (hl : l + cs.length ≤ 17) {pre : List Nat} (hlens : lens = pre ++ levelLengths cs l)
    (hpre : ∀ m ∈ pre, m ≤ l) :
    expandLevels get cs l (placed lens symbols l pre.length) (st (16 + pre.length)) =
      .ok (placed lens symbols (l + cs.length) lens.length) (st (16 + lens.length)) := by
  induction cs generalizing l pre with
  | nil =>
    have : lens = pre := by simpa using hlens
    subst this
    rfl
  | cons c cs ih =>
    rw [List.length_cons] at hl
    have hall : ∀ m ∈ pre ++ List.replicate c l, m ≤ l := by
      intro m hm
      rcases List.mem_append.1 hm with hm | hm
      · exact hpre m hm
      · exact (List.eq_of_mem_replicate hm).le
    have htake : lens.take (pre.length + c) = pre ++ List.replicate c l := by
      rw [hlens, levelLengths_cons, ← List.append_assoc, List.take_left' (by simp)]
    have hnext := ih (l := l + 1) (pre := pre ++ List.replicate c l) (by omega)
      (by rw [hlens, levelLengths_cons, List.append_assoc]) fun m hm => (hall m hm).trans (Nat.le_succ l)
    rw [List.length_append, List.length_replicate] at hnext
    unfold expandLevels
    rw [expandLevel_placed hd hcounts hsymbols hfit (by omega) c hlens hpre, Res.bind_ok]
    rw [placed_deeper (by rw [htake]; exact hall), hnext, List.length_cons, Nat.add_right_comm, Nat.add_assoc]

/-- A source that gives a whole specification that fits builds the canonical tree (R152). -/
theorem buildFrom_canonical (hfits : SpecFits counts symbols) (hd : Delivers get (counts ++ symbols) st) :
    buildFrom get (st 0) = .ok (canonicalLeaves counts symbols) (st (16 + symbols.length)) := by
  obtain ⟨hwf, hspace⟩ := hfits
  simp only [Instr.wf, Bool.and_eq_true, beq_iff_eq] at hwf
  obtain ⟨hcounts, hsymbols⟩ := hwf
  have hlens : symbols.length = (leafLengths counts).length := by
    rw [leafLengths_eq, length_levelLengths, hsymbols]
  have hread := readCounts_delivers hd 16 0 (by rw [List.length_append]; omega)
  have hexpand := expandLevels_placed hd hcounts hlens (codeSpace_eq counts ▸ hspace) (counts.map BitVec.toNat)
    (l := 1) (pre := []) (by simp [hcounts]) (by simpa using leafLengths_eq counts) (by simp)
  rw [List.drop_zero, List.take_left' hcounts] at hread
  unfold buildFrom
  rw [hread, Res.bind_ok]
  refine (congrArg (fun r => Res.bind r _) hexpand).trans ?_
  rw [Res.bind_ok, canonicalLeaves_eq, hlens]
  rfl

end Source

/-! ### A specification in the stream -/

theorem withIpos_self (s : State) : s.withIpos (s.ipos + BitVec.ofNat 32 0) = s := by
  simp [State.withIpos]

/-- The bytes of the stream from the cursor on (R153). -/
theorem streamSource_delivers {s : State} {bytes : List Byte} (hs : StreamOk s) (hb : bytes <+: streamTail s) :
    Delivers streamSource bytes fun i => s.withIpos (s.ipos + BitVec.ofNat 32 i) := by
  intro i hi
  have hlen : bytes.length ≤ s.inlen.toNat - s.ipos.toNat := by simpa [streamTail] using hb.length_le
  have hin := s.inlen.isLt
  have hpos : (s.ipos + BitVec.ofNat 32 i).toNat = s.ipos.toNat + i := by
    rw [BitVec.toNat_add, BitVec.toNat_ofNat]; omega
  have hbyte : bytes.getD i 0#8 = Memory.read s.inMem (s.ipos.toNat + i) := by
    rw [← Memory.getD_readAll s.inMem s.ipos.toNat (s.inlen.toNat - s.ipos.toNat) i 0#8 (by omega)]
    obtain ⟨rest, hrest⟩ := hb
    rw [← streamTail, ← hrest, List.getD_append _ _ _ _ hi]
  have hfetch := fetchByte_of_lt (s := s.withIpos (s.ipos + BitVec.ofNat 32 i))
    (by simp only [State.withIpos_ipos, State.withIpos_inlen, hpos]; omega) hs
  simp only [State.withIpos_ipos, State.withIpos_inMem, hpos, ← hbyte] at hfetch
  have hnext : s.ipos + BitVec.ofNat 32 i + 1#32 = s.ipos + BitVec.ofNat 32 (i + 1) := by
    rw [BitVec.ofNat_add, BitVec.add_assoc]
  rw [hnext] at hfetch
  exact hfetch

/-- Settles O15: the canonical expansion of the bytes at the cursor. -/
theorem hufBuildCanonical : Obligations.HufBuildCanonical := by
  intro s slot counts symbols hs hfits hbytes
  have hbuild := buildFrom_canonical hfits
    (streamSource_delivers (s := s.unprime.withTree slot false []) hs hbytes)
  rw [withIpos_self] at hbuild
  show (needInput s fun s => buildSlot streamSource slot s.unprime).outcome = _
  rw [needInput_of_le _ _ hs, buildSlot, hbuild, Res.bind_ok, Res.outcome_ok]
  exact congrArg (fun t : State => Host.Outcome.next
      ({ t with primed := false, ipos := s.ipos + BitVec.ofNat 32 (16 + symbols.length) } : State))
    (withTree_withTree s slot false true [] (canonicalLeaves counts symbols))

end Sys2Proof.Machine
end

section
/-! PROOFS. The bit reader against the stream of bits (R132 to R134, R139): what a refill and a read do to the list of
unread bits. -/

namespace Sys2Proof.Machine

open Sys2Proof.Ref

/-! ### Fields of bits -/

/-- The `n` lowest bits of a number in the order the reader delivers them (R28). -/
def bitsOf (order : Bool) (x n : Nat) : List Bool :=
  (List.range n).map fun i => x.testBit (if order then i else n - 1 - i)

@[simp] theorem length_bitsOf (order : Bool) (x n : Nat) : (bitsOf order x n).length = n := by simp [bitsOf]

theorem byteBits_eq (order : Bool) (b : Byte) : byteBits order b = bitsOf order b.toNat 8 := by
  cases order <;> rfl

theorem windowBits_eq (s : State) : windowBits s = bitsOf s.order s.bitbuf.toNat s.vbits.toNat := by
  unfold windowBits bitsOf
  cases s.order <;> rfl

theorem codeBits_eq (e : TreeEntry) : codeBits e = bitsOf false e.code e.len := rfl

/-- Only the `n` lowest bits of the number count. -/
theorem bitsOf_mod (order : Bool) (x n : Nat) : bitsOf order (x % 2 ^ n) n = bitsOf order x n := by
  refine List.map_congr_left fun i hi => ?_
  have hi : i < n := List.mem_range.1 hi
  rw [Nat.testBit_mod_two_pow, decide_eq_true, Bool.true_and]
  split <;> omega

/-- The first bits are the lowest ones for `ORDER = 1`. -/
theorem bitsOf_true_add (x n m : Nat) : bitsOf true x (n + m) = bitsOf true x n ++ bitsOf true (x >>> n) m := by
  simp only [bitsOf, List.range_add, List.map_append, List.map_map]
  simp [Function.comp_def, Nat.testBit_shiftRight]

/-- The first bits are the highest ones for `ORDER = 0`. -/
theorem bitsOf_false_add (x n m : Nat) : bitsOf false x (n + m) = bitsOf false (x >>> m) n ++ bitsOf false x m := by
  simp only [bitsOf, List.range_add, List.map_append, List.map_map]
  refine congrArg₂ _ (List.map_congr_left fun i hi => ?_) (List.map_congr_left fun i _ => ?_)
  · have hi : i < n := List.mem_range.1 hi
    rw [Nat.testBit_shiftRight]
    simp only [Bool.false_eq_true, if_false]
    congr 1
    omega
  · simp only [Function.comp, Bool.false_eq_true, if_false]
    congr 1
    omega

theorem bitsOf_false_succ (x n : Nat) : bitsOf false x (n + 1) = x.testBit n :: bitsOf false x n := by
  rw [Nat.add_comm, bitsOf_false_add]
  simp [bitsOf]

/-- The number a field of bits stands for (R134). -/
theorem bitsValue_bitsOf (order : Bool) (x n : Nat) : bitsValue order (bitsOf order x n) = x % 2 ^ n := by
  induction n generalizing x with
  | zero => cases order <;> simp [bitsOf, bitsValue, Nat.mod_one]
  | succ n ih =>
    have hsplit : x % 2 ^ (n + 1) = (x.testBit 0).toNat + 2 * ((x >>> 1) % 2 ^ n) := by
      rw [Nat.pow_succ', Nat.mod_mul, Nat.toNat_testBit, Nat.shiftRight_eq_div_pow, pow_zero, pow_one, Nat.div_one]
    rw [hsplit, ← ih]
    cases order with
    | true =>
      rw [Nat.add_comm n 1, bitsOf_true_add]
      simp [bitsValue, bitsOf]
    | false =>
      rw [bitsOf_false_add]
      simp [bitsValue, bitsOf, Nat.add_comm]

/-! ### The operations on a window -/

theorem take_bitsOf (order : Bool) (w : Window) {n : Nat} (hn : n ≤ w.vb) :
    (bitsOf order w.buf w.vb).take n = bitsOf order (if order then w.buf else w.buf >>> (w.vb - n)) n := by
  cases order with
  | true =>
    conv_lhs => rw [← Nat.add_sub_cancel' hn, bitsOf_true_add]
    exact List.take_left' (length_bitsOf _ _ _)
  | false =>
    conv_lhs => rw [← Nat.add_sub_cancel' hn, bitsOf_false_add]
    exact List.take_left' (length_bitsOf _ _ _)

/-- The oldest bits are the first ones of the window (R134). -/
theorem oldestBits_eq (order : Bool) (w : Window) {n : Nat} (hn : n ≤ w.vb) :
    oldestBits order w n = bitsValue order ((bitsOf order w.buf w.vb).take n) := by
  rw [take_bitsOf order w hn, bitsValue_bitsOf]
  unfold oldestBits
  split <;> rw [Nat.and_two_pow_sub_one_eq_mod]

/-- Dropping bits drops the first ones of the window (R134, R138). -/
theorem bitsOf_dropBits (order : Bool) (w : Window) {n : Nat} (hn : n ≤ w.vb) :
    bitsOf order (dropBits order w n) (w.vb - n) = (bitsOf order w.buf w.vb).drop n := by
  cases order with
  | true =>
    conv_rhs => rw [← Nat.add_sub_cancel' hn, bitsOf_true_add]
    exact (List.drop_left' (length_bitsOf _ _ _)).symm
  | false =>
    have hdrop : dropBits false w n = w.buf % 2 ^ (w.vb - n) := Nat.and_two_pow_sub_one_eq_mod _ _
    conv_rhs => rw [← Nat.add_sub_cancel' hn, bitsOf_false_add]
    rw [hdrop, bitsOf_mod]
    exact (List.drop_left' (length_bitsOf _ _ _)).symm

/-- The two parts of a number put together of low and high bits. -/
theorem shiftLeft_or_parts {x m : Nat} (hx : x < 2 ^ m) (y : Nat) :
    (y <<< m ||| x) % 2 ^ m = x ∧ (y <<< m ||| x) >>> m = y := by
  rw [← Nat.shiftLeft_add_eq_or_of_lt hx, Nat.shiftLeft_eq, Nat.mul_comm, Nat.shiftRight_eq_div_pow]
  exact ⟨by rw [Nat.mul_add_mod, Nat.mod_eq_of_lt hx],
    by rw [Nat.mul_add_div (by positivity), Nat.div_eq_of_lt hx, Nat.add_zero]⟩

/-- A joined byte follows the bits that were there (R133). -/
theorem bitsOf_joinByte (order : Bool) {w : Window} (c : Byte) (hw : w.buf < 2 ^ w.vb) :
    bitsOf order (joinByte order w c) (w.vb + 8) = bitsOf order w.buf w.vb ++ byteBits order c := by
  rw [byteBits_eq]
  cases order with
  | true =>
    obtain ⟨hlow, hhigh⟩ := shiftLeft_or_parts hw c.toNat
    rw [show joinByte true w c = c.toNat <<< w.vb ||| w.buf from Nat.or_comm _ _, bitsOf_true_add, hhigh, ← bitsOf_mod,
      hlow]
  | false =>
    obtain ⟨hlow, hhigh⟩ := shiftLeft_or_parts (show c.toNat < 2 ^ 8 from c.isLt) w.buf
    rw [show joinByte false w c = w.buf <<< 8 ||| c.toNat from rfl, bitsOf_false_add, hhigh, ← bitsOf_mod false _ 8,
      hlow]

/-! ### The unread bits -/

/-- The bytes from address `p` to the end of the stream that the reader delivers (R27, R133). -/
def pending (s : State) (p : Nat) : List Byte :=
  let tail := Memory.readAll s.inMem p (s.inlen.toNat - p)
  if s.stuff then destuff tail else tail

/-- The bits of a window and of the bytes after it. -/
def unread (s : State) (w : Window) : List Bool :=
  bitsOf s.order w.buf w.vb ++ (pending s w.pos).flatMap (byteBits s.order)

theorem streamBits_eq (s : State) : streamBits s = unread s ⟨s.bitbuf.toNat, s.vbits.toNat, s.ipos.toNat⟩ := by
  rw [streamBits, windowBits_eq]
  rfl

section Pending
variable {s : State} {p : Nat}

theorem readAll_of_le (h : s.inlen.toNat ≤ p) : Memory.readAll s.inMem p (s.inlen.toNat - p) = [] := by
  rw [Nat.sub_eq_zero_of_le h]
  rfl

theorem readAll_of_lt (h : p < s.inlen.toNat) : Memory.readAll s.inMem p (s.inlen.toNat - p) =
    Memory.read s.inMem p :: Memory.readAll s.inMem (p + 1) (s.inlen.toNat - (p + 1)) := by
  rw [show s.inlen.toNat - p = s.inlen.toNat - (p + 1) + 1 by omega]
  rfl

theorem destuff_cons_of_ne {c : Byte} (hc : c ≠ 0xFF#8) (cs : List Byte) : destuff (c :: cs) = c :: destuff cs := by
  cases cs <;> simp [destuff, hc]

theorem pending_of_le (h : s.inlen.toNat ≤ p) : pending s p = [] := by
  simp [pending, readAll_of_le h, destuff]

/-- A byte that is not followed by a stuffed one. -/
theorem pending_of_lt (h : p < s.inlen.toNat) (hstuff : ¬ (s.stuff = true ∧ Memory.read s.inMem p = 0xFF#8)) :
    pending s p = Memory.read s.inMem p :: pending s (p + 1) := by
  simp only [pending, readAll_of_lt h]
  split
  · next hs => exact destuff_cons_of_ne (fun hc => hstuff ⟨hs, hc⟩) _
  · rfl

/-- `0xFF` and the byte after it, which is not delivered. -/
theorem pending_of_stuffed (h : p + 1 < s.inlen.toNat) (hs : s.stuff = true) (hc : Memory.read s.inMem p = 0xFF#8) :
    pending s p = Memory.read s.inMem p :: pending s (p + 2) := by
  simp only [pending, readAll_of_lt (show p < s.inlen.toNat by omega), readAll_of_lt h, hs, if_true]
  simp [destuff, hc]

/-- A last `0xFF` without a follower delivers nothing. -/
theorem pending_of_cut (h : s.inlen.toNat = p + 1) (hs : s.stuff = true) (hc : Memory.read s.inMem p = 0xFF#8) :
    pending s p = [] := by
  simp [pending, readAll_of_lt (show p < s.inlen.toNat by omega), readAll_of_le h.le, hs, hc, destuff]

end Pending

theorem unread_joinByte {s : State} {w : Window} {c : Byte} {p : Nat} (hw : w.buf < 2 ^ w.vb)
    (hp : pending s w.pos = c :: pending s p) : unread s ⟨joinByte s.order w c, w.vb + 8, p⟩ = unread s w := by
  simp only [unread, bitsOf_joinByte _ _ hw, hp, List.flatMap_cons, List.append_assoc]

/-- A refill leaves the unread bits as they are; it fails only where fewer than `n` are left (R133). -/
theorem refillLoop_unread (fuel n : Nat) (s : State) {w : Window} (hw : w.buf < 2 ^ w.vb) :
    (refillLoop fuel n s w).Post (fun w' _ => unread s w' = unread s w) (fun _ => (unread s w).length < n)
      (StreamOk s) := by
  induction fuel generalizing w with
  | zero => rfl
  | succ fuel ih =>
    have hjoin {c : Byte} {p : Nat} (hp : pending s w.pos = c :: pending s p) :
        (refillLoop fuel n s ⟨joinByte s.order w c, w.vb + 8, p⟩).Post (fun w' _ => unread s w' = unread s w)
          (fun _ => (unread s w).length < n) (StreamOk s) := by
      have h := ih (w := ⟨joinByte s.order w c, w.vb + 8, p⟩) (joinByte_lt _ _ _ hw)
      rwa [unread_joinByte hw hp] at h
    have hend (hn : w.vb < n) (hp : pending s w.pos = []) : (unread s w).length < n := by simp [unread, hp, hn]
    unfold refillLoop
    split
    · next hn =>
      split
      · next hle => exact hend hn (pending_of_le hle)
      · next hlt =>
        unfold inByte
        split
        · rw [Res.bind_ok]
          split
          · next hstuff =>
            split
            · next hle => exact hend hn (pending_of_cut (by omega) hstuff.1 hstuff.2)
            · next hlt' => exact hjoin (pending_of_stuffed (by omega) hstuff.1 hstuff.2)
          · next hstuff => exact hjoin (pending_of_lt (by omega) hstuff)
        · next hin => exact fun hs => hin (lt_of_lt_of_le (not_le.1 hlt) hs)
    · rfl

/-- How far a refill goes (R133). -/
theorem Refilled.vb_eq {n : Nat} {s : State} {w w' : Window} (h : Refilled n s w w') (hn : n ≤ w'.vb) :
    w'.vb = w.vb + refillBits w.vb n := by
  have hgrows := h.grows
  have hlazy := h.lazy
  have hbytes := h.bytes
  unfold refillBits
  omega

/-- A committed window holds the bits it was made of. -/
theorem streamBits_withWindow (s : State) {b v p : Nat} (hv : v ≤ 32) (hb : b < 2 ^ v) (hp : p < 2 ^ 32) :
    streamBits (s.withWindow b v p) = unread s ⟨b, v, p⟩ := by
  have hb' : b < 2 ^ 32 := hb.trans_le (Nat.pow_le_pow_right (by norm_num) hv)
  rw [streamBits_eq]
  simp only [State.withWindow_bitbuf, State.withWindow_vbits, State.withWindow_ipos, BitVec.toNat_ofNat,
    Nat.mod_eq_of_lt hb', Nat.mod_eq_of_lt hp, Nat.mod_eq_of_lt (show v < 2 ^ 6 by omega)]
  rfl

/-- `ReadBits(n)` takes the next `n` bits of the stream (R134, R139). -/
theorem readBits_next {s : State} {n : Nat} (hs : StreamOk s) (hp : s.primed = true) (hw : WindowOk s) (hn : n ≤ 25)
    (hlen : n ≤ (streamBits s).length) :
    ∃ t, readBits n s = .ok (bitsValue s.order ((streamBits s).take n)) t ∧ SameButWindow s t ∧ WindowOk t ∧
      streamBits t = (streamBits s).drop n ∧
      t.vbits.toNat + n = s.vbits.toNat + refillBits s.vbits.toNat n := by
  rw [streamBits_eq] at hlen ⊢
  have hpost := (refill_post n s hn).and
    (refillLoop_unread 4 n s (w := ⟨s.bitbuf.toNat, s.vbits.toNat, s.ipos.toNat⟩) hw.2)
  unfold readBits
  rw [needPrimed_of_primed s _ hp, if_neg (by simpa [Config.nbitsMax] using hn)]
  cases hr : refill n s with
  | raised t =>
    rw [hr] at hpost
    exact absurd hpost.2 (not_lt.2 hlen)
  | stop f =>
    rw [hr] at hpost
    exact absurd (.inl hs) hpost
  | ok w t =>
    rw [hr] at hpost
    obtain ⟨⟨rfl, hfill, hnw⟩, hunread⟩ := hpost
    have hbits : n ≤ (bitsOf t.order w.buf w.vb).length := by rwa [length_bitsOf]
    have hvb := hfill.vb_eq hnw
    have hcanon := dropBits_lt t.order w n (hfill.canonical hw.2) hnw
    have hlazy := hfill.lazy
    have hinside := hfill.inside
    have hvbits := hw.1
    have hipos := t.ipos.isLt
    have hinlen := t.inlen.isLt
    simp only at hvb hlazy hinside
    have hv : w.vb - n ≤ 32 := by omega
    refine ⟨_, ?_, sameButWindow_withWindow t _ _ _, windowOk_withWindow t (p := w.pos) hv hcanon, ?_, ?_⟩
    · rw [Res.bind_ok, ← hunread, unread, List.take_append_of_le_length hbits, oldestBits_eq _ _ hnw]
    · rw [streamBits_withWindow t hv hcanon (by omega), ← hunread, unread, unread, List.drop_append_of_le_length hbits,
        bitsOf_dropBits _ _ hnw]
    · simp only [State.withWindow_vbits, BitVec.toNat_ofNat, Nat.mod_eq_of_lt (show w.vb - n < 2 ^ 6 by omega)]
      omega

end Sys2Proof.Machine
end

section
/-! PROOFS. The walk of a tree (R156): where the stream goes on with the code of a leaf, the walk ends at that leaf. -/

namespace Sys2Proof.Machine

open Sys2Proof.Ref

/-! ### Leaves and the places above them -/

section Tree
variable {t : List TreeEntry} {e : TreeEntry}

/-- Two leaves of a tree of which one lies at or above the other are the same. -/
theorem TreeOk.eq_of_codePrefix (ht : TreeOk t) (he : e ∈ t) {f : TreeEntry} (hf : f ∈ t) (h : codePrefix f e = true) :
    f = e := by
  by_contra hne
  have hsymm : Std.Symm fun e f : TreeEntry => codePrefix e f = false ∧ codePrefix f e = false := ⟨fun _ _ h => h.symm⟩
  have hfree := ht.2.forall hf he hne
  simp [h] at hfree

/-- The walk stops at a leaf. -/
theorem treeFind_leaf (ht : TreeOk t) (he : e ∈ t) : treeFind t e.len e.code = some e := by
  cases hfind : treeFind t e.len e.code with
  | none =>
    have hnone := List.find?_eq_none.1 hfind e he
    simp at hnone
  | some f =>
    have hf := List.find?_some hfind
    simp only [Bool.and_eq_true, beq_iff_eq] at hf
    have hsame : codePrefix f e = true := codePrefix_eq_true.2 (by simp [hf.1, hf.2])
    rw [ht.eq_of_codePrefix he (List.mem_of_find?_eq_some hfind) hsame]

/-- No leaf lies on the way to another one. -/
theorem treeFind_above (ht : TreeOk t) (he : e ∈ t) {l r : Nat} (hr : 0 < r) (hl : l + r = e.len) :
    treeFind t l (e.code >>> r) = none := by
  refine List.find?_eq_none.2 fun f hf hfound => ?_
  simp only [Bool.and_eq_true, beq_iff_eq] at hfound
  have habove : codePrefix f e = true := by
    rw [codePrefix_eq_true, hfound.1, hfound.2, Nat.shiftRight_eq_div_pow, ← hl, Nat.add_sub_cancel_left]
    exact ⟨Nat.le_add_right _ _, rfl⟩
  have := hfound.1
  rw [ht.eq_of_codePrefix he hf habove] at this
  omega

/-- On the way to a leaf something lies below. -/
theorem treeBelow_above (he : e ∈ t) {l r : Nat} (hr : 0 < r) (hl : l + r = e.len) :
    treeBelow t l (e.code >>> r) = true := by
  refine List.any_eq_true.2 ⟨e, he, ?_⟩
  simp only [Bool.and_eq_true, decide_eq_true_eq, beq_iff_eq]
  exact ⟨by omega, by rw [← hl, Nat.add_sub_cancel_left]⟩

end Tree

/-! ### The walk -/

/-- One more bit of a code. -/
theorem shiftRight_testBit (x r : Nat) : 2 * (x >>> (r + 1)) + (x.testBit r).toNat = x >>> r := by
  rw [Nat.toNat_testBit, Nat.shiftRight_eq_div_pow, Nat.shiftRight_eq_div_pow, Nat.pow_succ, ← Nat.div_div_eq_div_mul]
  omega

/-- One bit at a time fetches what a field of that many bits does. -/
theorem refillBits_one_add (v w n : Nat) (h : w + 1 = v + refillBits v 1) :
    refillBits v 1 + refillBits w n = refillBits v (n + 1) := by
  unfold refillBits at *
  omega

/-- Reading the next bit of a code that the stream goes on with. -/
theorem readBits_codeBit {x r : Nat} {s : State} (hs : StreamOk s) (hp : s.primed = true) (hw : WindowOk s)
    (hbits : bitsOf false x (r + 1) <+: streamBits s) :
    ∃ u, readBits 1 s = .ok (x.testBit r).toNat u ∧ SameButWindow s u ∧ WindowOk u ∧
      bitsOf false x r <+: streamBits u ∧ streamBits u = (streamBits s).drop 1 ∧
      u.vbits.toNat + 1 = s.vbits.toNat + refillBits s.vbits.toNat 1 := by
  obtain ⟨rest, hrest⟩ := hbits
  rw [bitsOf_false_succ, List.cons_append] at hrest
  obtain ⟨u, hread, hsame, hwu, hstream, hvb⟩ := readBits_next hs hp hw (n := 1) (by omega) (by simp [← hrest])
  have hvalue : bitsValue s.order ((streamBits s).take 1) = (x.testBit r).toNat := by
    rw [← hrest]
    cases s.order <;> simp [bitsValue]
  exact ⟨u, hvalue ▸ hread, hsame, hwu, ⟨rest, by rw [hstream, ← hrest]; rfl⟩, hstream, hvb⟩

/-- The walk from the place `r + 1` bits above a leaf whose bits come next. -/
theorem walkTree_leaf {t : List TreeEntry} (ht : TreeOk t) {e : TreeEntry} (he : e ∈ t) (r : Nat) {fuel l : Nat}
    (hfuel : r < fuel) (hl : l + r = e.len) {s : State} (hs : StreamOk s) (hp : s.primed = true) (hw : WindowOk s)
    (hbits : bitsOf false e.code (r + 1) <+: streamBits s) :
    ∃ u, walkTree t fuel l (e.code >>> (r + 1)) s = .ok e.sym u ∧ SameButWindow s u ∧ WindowOk u ∧
      streamBits u = (streamBits s).drop (r + 1) ∧
      u.vbits.toNat + (r + 1) = s.vbits.toNat + refillBits s.vbits.toNat (r + 1) := by
  induction r generalizing fuel l s with
  | zero =>
    obtain ⟨u, hread, hsame, hwu, -, hstream, hvb⟩ := readBits_codeBit hs hp hw hbits
    obtain ⟨fuel, rfl⟩ : ∃ k, fuel = k + 1 := ⟨fuel - 1, by omega⟩
    obtain rfl : l = e.len := hl
    rw [walkTree, hread, Res.bind_ok, shiftRight_testBit, Nat.shiftRight_zero, treeFind_leaf ht he]
    exact ⟨u, rfl, hsame, hwu, hstream, hvb⟩
  | succ r ih =>
    obtain ⟨u, hread, hsame, hwu, hnext, hstream, hvb⟩ := readBits_codeBit hs hp hw hbits
    obtain ⟨fuel, rfl⟩ : ∃ k, fuel = k + 1 := ⟨fuel - 1, by omega⟩
    have hsu : StreamOk u := by rw [hsame]; exact hs
    have hpu : u.primed = true := by rw [hsame]; exact hp
    obtain ⟨v, hwalk, hsame', hwv, hstream', hvb'⟩ :=
      ih (fuel := fuel) (l := l + 1) (by omega) (by omega) hsu hpu hwu hnext
    rw [walkTree, hread, Res.bind_ok, shiftRight_testBit, treeFind_above ht he r.succ_pos hl]
    refine ⟨v, (if_pos (treeBelow_above he r.succ_pos hl)).trans hwalk, hsame.trans hsame', hwv, ?_, ?_⟩
    · rw [hstream', hstream, List.drop_drop, Nat.add_comm]
    · have := refillBits_one_add _ _ (r + 1) hvb
      omega

/-- `DecodeSymbol(s)` where the stream goes on with the code of a leaf (R156). -/
theorem decodeSymbol_leaf {s : State} {slot : BitVec 1} {e : TreeEntry} (hs : StreamOk s) (hp : s.primed = true)
    (hw : WindowOk s) (hv : treeValid s slot = true) (ht : TreeOk (treeOf s slot)) (he : e ∈ treeOf s slot)
    (hbits : codeBits e <+: streamBits s) :
    ∃ u, decodeSymbol slot s = .ok e.sym u ∧ SameButWindow s u ∧ WindowOk u ∧
      streamBits u = (streamBits s).drop e.len ∧
      u.vbits.toNat + e.len = s.vbits.toNat + refillBits s.vbits.toNat e.len := by
  obtain ⟨hpos, hmax, hcode⟩ := ht.1 e he
  obtain ⟨r, hr⟩ : ∃ r, e.len = r + 1 := ⟨e.len - 1, by omega⟩
  have hroot : e.code >>> (r + 1) = 0 := by
    rw [Nat.shiftRight_eq_div_pow, ← hr, Nat.div_eq_of_lt hcode]
  rw [codeBits_eq, hr] at hbits
  have hwalk := walkTree_leaf ht he r (fuel := Config.hufMaxLen) (l := 1) (by unfold Config.hufMaxLen; omega) (by omega)
    hs hp hw hbits
  rw [hroot, ← hr] at hwalk
  rw [decodeSymbol, hv]
  exact hwalk

/-- Settles O18: the walk that `HUF.DECODE` makes. -/
theorem hufDecodeFindsLeaf : Obligations.HufDecodeFindsLeaf := by
  intro s slot e hs hp hw hv ht he hbits
  obtain ⟨u, hdecode, hsame, hwu, hstream, hvb⟩ := decodeSymbol_leaf hs hp hw hv ht he hbits
  refine ⟨u.withResult (e.sym.setWidth 32), ?_, ?_, hstream, hwu, hvb⟩
  · show (needInput s _).outcome = _
    rw [needInput_of_le _ _ hs, hdecode]
    rfl
  · exact congrArg (fun t : State => t.withResult (e.sym.setWidth 32)) hsame

end Sys2Proof.Machine
end

section
/-! PROOFS. The host's memory transactions (R84, R286): what each of them answers, and that a write is read back. -/

namespace Sys2Proof.Machine

open Sys2Proof.Ref

-- One declaration after another: as tasks, each would hold a thread of its own.
set_option Elab.async false

variable {w : Nat} {s : State}

/-! ### The spaces -/

/-- A byte space replaced. -/
def State.withBytes (s : State) : ByteSpace → Memory 8 → State
  | .inp, m => { s with inMem := m }
  | .out, m => { s with outMem := m }

/-- A table replaced. -/
def State.withEntries (s : State) : TableSpace → Memory 32 → State
  | .offtab, m => { s with offtab := m }
  | .lentab, m => { s with lentab := m }

@[simp] theorem byteSpace_withBytes_same (s : State) (sp : ByteSpace) (m : Memory 8) :
    byteSpace (s.withBytes sp m) sp = m := by cases sp <;> rfl

theorem byteSpace_withBytes_other (s : State) {sp other : ByteSpace} (m : Memory 8) (h : other ≠ sp) :
    byteSpace (s.withBytes sp m) other = byteSpace s other :=
  match sp, other with
  | .inp, .inp | .out, .out => absurd rfl h
  | .inp, .out | .out, .inp => rfl

@[simp] theorem byteSpaceSize_withBytes (s : State) (sp other : ByteSpace) (m : Memory 8) :
    byteSpaceSize (s.withBytes sp m) other = byteSpaceSize s other := by cases sp <;> rfl

@[simp] theorem tableSpace_withEntries_same (s : State) (sp : TableSpace) (m : Memory 32) :
    tableSpace (s.withEntries sp m) sp = m := by cases sp <;> rfl

theorem tableSpace_withEntries_other (s : State) {sp other : TableSpace} (m : Memory 32) (h : other ≠ sp) :
    tableSpace (s.withEntries sp m) other = tableSpace s other :=
  match sp, other with
  | .offtab, .offtab | .lentab, .lentab => absurd rfl h
  | .offtab, .lentab | .lentab, .offtab => rfl

@[simp] theorem byteSpace_withQueue (s : State) (q : List HostEvent) (sp : ByteSpace) :
    byteSpace (s.withQueue q) sp = byteSpace s sp := by cases sp <;> rfl

@[simp] theorem byteSpaceSize_withQueue (s : State) (q : List HostEvent) (sp : ByteSpace) :
    byteSpaceSize (s.withQueue q) sp = byteSpaceSize s sp := by cases sp <;> rfl

@[simp] theorem tableSpace_withQueue (s : State) (q : List HostEvent) (sp : TableSpace) :
    tableSpace (s.withQueue q) sp = tableSpace s sp := by cases sp <;> rfl

/-! ### The transactions -/

theorem memWrite_eq (sp : ByteSpace) (a : Nat) (bs : List Byte) (s : State) :
    memWrite sp a bs s =
      if s.st = .busy then .refused .memWriteWhileBusy
      else if byteSpaceSize s sp < a + bs.length then .refused .outsideSpace
      else .next (s.withBytes sp (Memory.writeAll (byteSpace s sp) a bs)) := by
  cases sp <;> rfl

theorem tabWrite_eq (sp : TableSpace) (k : Nat) (es : List Word) (s : State) :
    tabWrite sp k es s =
      if s.st = .busy then .refused .memWriteWhileBusy
      else if s.params.tabEntries < k + es.length then .refused .outsideSpace
      else .next (s.withEntries sp (Memory.writeAll (tableSpace s sp) k es)) := by
  cases sp <;> rfl

theorem memWrite_of_fits {sp : ByteSpace} {a : Nat} {bs : List Byte} (hst : s.st ≠ .busy)
    (h : a + bs.length ≤ byteSpaceSize s sp) :
    memWrite sp a bs s = .next (s.withBytes sp (Memory.writeAll (byteSpace s sp) a bs)) := by
  rw [memWrite_eq, if_neg hst, if_neg (not_lt.2 h)]

theorem tabWrite_of_fits {sp : TableSpace} {k : Nat} {es : List Word} (hst : s.st ≠ .busy)
    (h : k + es.length ≤ s.params.tabEntries) :
    tabWrite sp k es s = .next (s.withEntries sp (Memory.writeAll (tableSpace s sp) k es)) := by
  rw [tabWrite_eq, if_neg hst, if_neg (not_lt.2 h)]

theorem memRead_of_fits {sp : ByteSpace} {a n : Nat} (h : a + n ≤ byteSpaceSize s sp) :
    memRead sp a n s = .next (s.withBus ((Memory.readAll (byteSpace s sp) a n).map fun b => b.setWidth 32)) :=
  if_neg (not_lt.2 h)

theorem tabRead_of_fits {sp : TableSpace} {k n : Nat} (h : k + n ≤ s.params.tabEntries) :
    tabRead sp k n s = .next (s.withBus (Memory.readAll (tableSpace s sp) k n)) :=
  if_neg (not_lt.2 h)

/-! ### Reading back -/

theorem Memory.readAll_eq_map (m : Memory w) (a n : Nat) :
    Memory.readAll m a n = (List.range n).map fun i => Memory.read m (a + i) := by
  refine List.ext_getElem (by simp) fun i h _ => ?_
  have hi : i < n := by simpa using h
  have hread := Memory.getD_readAll m a n i (Memory.unlisted w) hi
  rw [List.getD_eq_getElem _ _ h] at hread
  simpa using hread

/-- What consecutive writes leave, against what was there. -/
theorem bytesWritten_writeAll (m : Memory 8) (a : Nat) (bs : List Byte) :
    BytesWritten m (Memory.writeAll m a bs) a bs := by
  refine ⟨fun k hk => ?_, fun b hb => ?_⟩
  · rw [Memory.read_writeAll, if_pos ⟨Nat.le_add_right a k, by omega⟩, Nat.add_sub_cancel_left]
    rfl
  · rw [Memory.read_writeAll, if_neg (by omega)]

/-- A byte space read right after it has been written. -/
theorem memRead_withBytes {sp : ByteSpace} {a : Nat} {bs : List Byte} (h : a + bs.length ≤ byteSpaceSize s sp) :
    memRead sp a bs.length (s.withBytes sp (Memory.writeAll (byteSpace s sp) a bs)) =
      .next ((s.withBytes sp (Memory.writeAll (byteSpace s sp) a bs)).withBus (bs.map fun b => b.setWidth 32)) := by
  rw [memRead_of_fits (by simpa using h), byteSpace_withBytes_same, Memory.readAll_writeAll]

/-- A table read right after it has been written. -/
theorem tabRead_withEntries {sp : TableSpace} {k : Nat} {es : List Word} (h : k + es.length ≤ s.params.tabEntries) :
    tabRead sp k es.length (s.withEntries sp (Memory.writeAll (tableSpace s sp) k es)) =
      .next ((s.withEntries sp (Memory.writeAll (tableSpace s sp) k es)).withBus es) := by
  rw [tabRead_of_fits (by cases sp <;> exact h), tableSpace_withEntries_same, Memory.readAll_writeAll]

/-- A write and a read, one after the other. -/
theorem stepsFrom_two {s t u : State} (ht : step s = .next t) (hu : step t = .next u) : stepsFrom 2 s = some u := by
  simp [stepsFrom, ht, hu]

theorem stepsFrom_memWr_memRd {sp : ByteSpace} {a : Nat} {bs : List Byte} {q : List HostEvent} (hst : s.st ≠ .busy)
    (hfit : a + bs.length ≤ byteSpaceSize s sp) (hq : s.hostQ = .memWr sp a bs :: .memRd sp a bs.length :: q) :
    stepsFrom 2 s = some (((s.withQueue q).withBytes sp (Memory.writeAll (byteSpace s sp) a bs)).withBus
      (bs.map fun b => b.setWidth 32)) := by
  have hwrite : step s = .next ((s.withQueue (.memRd sp a bs.length :: q)).withBytes sp
      (Memory.writeAll (byteSpace s sp) a bs)) := by
    have hwr := memWrite_of_fits (s := s.withQueue (.memRd sp a bs.length :: q)) hst (by simpa using hfit)
    rw [step_event hq, hostEvent, hwr, byteSpace_withQueue]
  refine stepsFrom_two hwrite ?_
  have hread := memRead_withBytes (s := s.withQueue q) (by simpa using hfit)
  rw [byteSpace_withQueue] at hread
  rw [← hread]
  cases sp <;> rfl

theorem stepsFrom_tabWr_tabRd {sp : TableSpace} {k : Nat} {es : List Word} {q : List HostEvent} (hst : s.st ≠ .busy)
    (hfit : k + es.length ≤ s.params.tabEntries) (hq : s.hostQ = .tabWr sp k es :: .tabRd sp k es.length :: q) :
    stepsFrom 2 s = some (((s.withQueue q).withEntries sp (Memory.writeAll (tableSpace s sp) k es)).withBus es) := by
  have hwrite : step s = .next ((s.withQueue (.tabRd sp k es.length :: q)).withEntries sp
      (Memory.writeAll (tableSpace s sp) k es)) := by
    rw [step_event hq, hostEvent, tabWrite_of_fits (s := s.withQueue (.tabRd sp k es.length :: q)) hst hfit,
      tableSpace_withQueue]
  refine stepsFrom_two hwrite ?_
  have hread := tabRead_withEntries (s := s.withQueue q) (sp := sp) hfit
  rw [tableSpace_withQueue] at hread
  rw [← hread]
  cases sp <;> rfl

/-- Settles O49: the answers of the four transactions, and reading after writing. -/
theorem hostMemoryReadsBack : Obligations.HostMemoryReadsBack := by
  refine ⟨fun s sp a n q hfit hq => ?_, fun s sp k n q hfit hq => ?_, fun s sp a bs q hst hfit hq => ?_,
    fun s sp k es q hst hfit hq => ?_⟩
  · rw [step_event hq, hostEvent, memRead_of_fits (by simpa using hfit), Memory.readAll_eq_map, List.map_map,
      byteSpace_withQueue]
    rfl
  · rw [step_event hq, hostEvent, tabRead_of_fits (s := s.withQueue q) hfit, Memory.readAll_eq_map,
      tableSpace_withQueue]
    rfl
  · refine ⟨_, stepsFrom_memWr_memRd hst hfit hq, ?_, ?_, fun other ho => ?_⟩
    · cases sp <;> rfl
    · cases sp <;> exact bytesWritten_writeAll _ a bs
    · exact (byteSpace_withBytes_other (s.withQueue q) _ ho).trans (byteSpace_withQueue s q other)
  · refine ⟨_, stepsFrom_tabWr_tabRd hst hfit hq, ?_, fun j hj => ?_, fun other ho => ?_⟩
    · cases sp <;> rfl
    · have hsame :
          tableSpace (((s.withQueue q).withEntries sp (Memory.writeAll (tableSpace s sp) k es)).withBus es) sp =
            Memory.writeAll (tableSpace s sp) k es := by cases sp <;> rfl
      rw [hsame, Memory.read_writeAll, if_neg (by omega)]
    · exact (tableSpace_withEntries_other (s.withQueue q) _ ho).trans (tableSpace_withQueue s q other)

end Sys2Proof.Machine
end

section
/-! PROOFS. That no operation leaves a memory space where its rule's tests and the run invariant speak for it (R81), and
that every operation keeps `OUT` and `SCAN` in canonical form: both are said of each operation at once by `Res.Sound`,
and follow for the whole operation by the rule of sequencing. One declaration is elaborated after the other,
for the memory limit. -/

namespace Sys2Proof.Machine

open Sys2Proof.Ref

set_option Elab.async false

variable {α β : Type} {pre pre' : Prop} {J J' : State → Prop} {s t u : State} {r : Res α}

/-! ### The triple -/

/-- The memories that the block itself writes are in canonical form. -/
def BuffersOk (s : State) : Prop := Memory.wf s.outMem = true ∧ Memory.wf s.scan = true

/-- Begun in `s`, the pseudocode keeps the canonical form of what it writes; and where `pre` holds it leaves no memory
space, and the state it goes on with has `J`. -/
def Res.Sound (pre : Prop) (J : State → Prop) (s : State) (r : Res α) : Prop :=
  r.Post (fun _ t => (BuffersOk s → BuffersOk t) ∧ (pre → J t)) (fun t => BuffersOk s → BuffersOk t) pre

/-- The operation is sound from every state, with an invariant of the unit in front of it and behind it. -/
def Sound (I : State → Prop) (f : State → Res α) : Prop := ∀ s, (f s).Sound (I s) I s

theorem Res.Sound.ok {a : α} (hb : BuffersOk s → BuffersOk t) (hJ : pre → J t) : (Res.ok a t).Sound pre J s := ⟨hb, hJ⟩

theorem Res.Sound.raise (e : ErrCode) (hb : BuffersOk s → BuffersOk t) :
    (Machine.raise e t : Res α).Sound pre J s := hb

theorem Res.Sound.stop (f : Fault) (h : ¬ pre) : (Res.stop f : Res α).Sound pre J s := h

/-- The rule of consequence. -/
theorem Res.Sound.mono (hr : r.Sound pre' J' s) (hpre : pre → pre') (hJ : pre → ∀ t, J' t → J t) : r.Sound pre J s :=
  Res.Post.mono hr (fun _ t h => ⟨h.1, fun hp => hJ hp t (h.2 (hpre hp))⟩) (fun _ h => h) hpre

/-- Soundness may be counted from any earlier state with the same canonical form. -/
theorem Res.Sound.since (hr : r.Sound pre' J u) (hb : BuffersOk s → BuffersOk u) (hpre : pre → pre') :
    r.Sound pre J s :=
  Res.Post.mono hr (fun _ _ h => ⟨fun hs => h.1 (hb hs), fun hp => h.2 (hpre hp)⟩) (fun _ h hs => h (hb hs)) hpre

/-- The rule of sequencing. -/
theorem Res.Sound.bind {k : α → State → Res β} {K : State → Prop} (hr : r.Sound pre J s)
    (hk : ∀ a u, (k a u).Sound (J u) K u) : (r.bind k).Sound pre K s :=
  Res.Post.bind hr fun a u hu => Res.Sound.since (hk a u) hu.1 hu.2

/-- A test that raises an error before an operation, which may count on it. -/
theorem Res.Sound.guard {c : Prop} [Decidable c] {e : ErrCode} (hr : r.Sound (pre ∧ ¬ c) J s) :
    (if c then Machine.raise e s else r).Sound pre J s := by
  split
  · exact .raise e id
  · next hc => exact hr.mono (fun h => ⟨h, hc⟩) fun _ _ h => h

/-- A test that raises an error before an operation that does not need it. -/
theorem Res.Sound.test {c : Prop} [Decidable c] {e : ErrCode} (hr : r.Sound pre J s) :
    (if c then Machine.raise e s else r).Sound pre J s :=
  .guard (hr.mono And.left fun _ _ h => h)

/-- Soundness from what is known after a piece of pseudocode. -/
theorem Res.Post.sound {P : α → State → Prop} {Q : State → Prop} {safe : Prop} (hr : r.Post P Q safe)
    (hP : ∀ a t, P a t → (BuffersOk s → BuffersOk t) ∧ (pre → J t)) (hQ : ∀ t, Q t → BuffersOk s → BuffersOk t)
    (hpre : pre → safe) : r.Sound pre J s := Res.Post.mono hr hP hQ hpre

/-! ### The memory spaces -/

theorem BuffersOk.withOut (h : BuffersOk s) {m : Memory 8} (hm : Memory.wf m = true) : BuffersOk (s.withOut m) :=
  ⟨hm, h.2⟩

theorem BuffersOk.withScan (h : BuffersOk s) {m : Memory 8} (hm : Memory.wf m = true) : BuffersOk (s.withScan m) :=
  ⟨h.1, hm⟩

theorem inByte_sound (a : Nat) (s : State) : (inByte a s).Sound (a < s.params.inSize) (· = s) s := by
  unfold inByte
  split
  · exact .ok id fun _ => rfl
  · next h => exact .stop _ h

theorem fetchByte_sound (s : State) : (fetchByte s).Sound (StreamOk s) (· = s.withIpos (s.ipos + 1#32)) s := by
  refine .guard (Res.Sound.bind ((inByte_sound _ s).mono (fun h => ?_) fun _ _ h => h) fun b u => .ok id ?_)
  · obtain ⟨hs, hpos⟩ := h
    exact (not_le.1 hpos).trans_le hs
  · rintro rfl; rfl

theorem outByte_sound (a : Nat) (s : State) : (outByte a s).Sound (a < s.params.outSize) (· = s) s := by
  unfold outByte
  split
  · exact .ok id fun _ => rfl
  · next h => exact .stop _ h

theorem outWrite_sound (a : Nat) (v : Byte) (s : State) :
    (outWrite a v s).Sound (a < s.params.outSize) (fun t => t = s.withOut t.outMem) s := by
  unfold outWrite
  split
  · exact .ok (fun h => h.withOut (Memory.wf_write _ _ _ h.1)) fun _ => rfl
  · next h => exact .stop _ h

theorem out16_sound (i : Nat) (s : State) : (out16 i s).Sound (2 * i + 1 < s.params.outSize) (· = s) s := by
  refine Res.Sound.bind (J := fun u => u = s ∧ 2 * i + 1 < s.params.outSize)
    ((outByte_sound _ s).mono (fun h => by omega) fun hp _ h => ⟨h, hp⟩) fun _ u => ?_
  refine Res.Sound.bind (J := (· = s)) ((outByte_sound _ u).mono ?_ ?_) fun _ v => .ok id id
  · rintro ⟨rfl, h⟩; exact h
  · rintro ⟨rfl, -⟩ _ h; exact h

theorem out16Write_sound (i : Nat) (v : BitVec 16) (s : State) :
    (out16Write i v s).Sound (2 * i + 1 < s.params.outSize) (fun t => t = s.withOut t.outMem) s := by
  unfold out16Write
  split
  · exact .ok (fun h => h.withOut (Memory.wf_writeAll _ _ _ h.1)) fun _ => rfl
  · next h => exact .stop _ h

theorem out32Write_sound (i : Nat) (v : Word) (s : State) :
    (out32Write i v s).Sound (4 * i + 3 < s.params.outSize) (fun t => t = s.withOut t.outMem) s := by
  unfold out32Write
  split
  · exact .ok (fun h => h.withOut (Memory.wf_writeAll _ _ _ h.1)) fun _ => rfl
  · next h => exact .stop _ h

theorem offsetEntry_sound (i : Nat) (s : State) : (offsetEntry i s).Sound (i < s.params.tabEntries) (· = s) s := by
  unfold offsetEntry
  split
  · exact .ok id fun _ => rfl
  · next h => exact .stop _ h

theorem lengthEntry_sound (i : Nat) (s : State) : (lengthEntry i s).Sound (i < s.params.tabEntries) (· = s) s := by
  unfold lengthEntry
  split
  · exact .ok id fun _ => rfl
  · next h => exact .stop _ h

theorem scanRead_sound (p x : Nat) (s : State) : (scanRead p x s).Sound (p < 4 ∧ x ≤ 0x7FFE) (· = s) s := by
  unfold scanRead
  split
  · exact .ok id fun _ => rfl
  · next h => exact .stop _ h

theorem scanWrite_sound (p x : Nat) (v : Byte) (s : State) :
    (scanWrite p x v s).Sound (p < 4 ∧ x ≤ 0x7FFE) (fun t => t = s.withScan t.scan) s := by
  unfold scanWrite
  split
  · exact .ok (fun h => h.withScan (Memory.wf_write _ _ _ h.2)) fun _ => rfl
  · next h => exact .stop _ h

/-! ### The bit reader and Huffman -/

theorem SameButWindow.buffersOk (h : SameButWindow s t) (hb : BuffersOk s) : BuffersOk t := by rw [h]; exact hb

theorem SameButWindow.streamOk (h : SameButWindow s t) (hs : StreamOk s) : StreamOk t := by rw [h]; exact hs

/-- What is known after a piece of pseudocode that reads bits and raises `USAGE` or `EOS` with nothing else changed. -/
theorem Res.Post.sound_window {P : α → State → Prop}
    (hr : r.Post P (fun t => t = s.raise .usage ∨ t = s.raise .eos) (s.inlen.toNat ≤ s.params.inSize))
    (hP : ∀ a t, P a t → SameButWindow s t) : r.Sound (StreamOk s) StreamOk s :=
  hr.sound (fun a t h => ⟨(hP a t h).buffersOk, (hP a t h).streamOk⟩) (by rintro t (rfl | rfl) <;> exact id) id

theorem readBits_sound (n : Nat) : Sound StreamOk (readBits n) := fun s =>
  (readBits_post n s).sound_window fun _ _ h => h.1

theorem peekBits_sound (n : Nat) : Sound StreamOk (peekBits n) := fun s =>
  (peekBits_post n s).sound_window fun _ _ h => h.1

theorem skipBits_sound (n : Nat) (s : State) : (skipBits n s).Sound True (fun _ => True) s :=
  (skipBits_post n s).sound (fun _ _ h => ⟨h.1.buffersOk, fun _ => trivial⟩) (by rintro t rfl; exact id) id

theorem residual_sound (len : Nat) : Sound StreamOk (residual len) := fun s =>
  (residual_post len s).sound_window fun _ _ h => h.1

theorem decodeSymbol_sound (slot : BitVec 1) : Sound StreamOk (decodeSymbol slot) := fun s =>
  (decodeSymbol_post slot s).sound (fun _ _ h => ⟨h.1.buffersOk, h.1.streamOk⟩)
    (by rintro t ⟨v, e, hv, -, rfl⟩; exact hv.buffersOk) id

section Source
variable {I : State → Prop} {get : SpecSource}

theorem readCounts_sound (hg : ∀ i, Sound I (get i)) (n i : Nat) : Sound I (readCounts get n i) := by
  induction n generalizing i with
  | zero => exact fun _ => .ok id id
  | succ n ih => exact fun s => (hg i s).bind fun _ u => (ih (i + 1) u).bind fun _ _ => .ok id id

theorem expandLevel_sound (hg : ∀ i, Sound I (get i)) (l n : Nat) (x : Expansion) :
    Sound I (expandLevel get l n x) := by
  induction n generalizing x with
  | zero => exact fun _ => .ok id id
  | succ n ih => exact fun s => .test <| (hg _ s).bind fun _ => ih _

theorem expandLevels_sound (hg : ∀ i, Sound I (get i)) (cs : List Nat) (l : Nat) (x : Expansion) :
    Sound I (expandLevels get cs l x) := by
  induction cs generalizing l x with
  | nil => exact fun _ => .ok id id
  | cons c cs ih => exact fun s => (expandLevel_sound hg l c x s).bind fun _ => ih _ _

theorem buildFrom_sound (hg : ∀ i, Sound I (get i)) : Sound I (buildFrom get) := fun s =>
  (readCounts_sound hg 16 0 s).bind fun cs u => (expandLevels_sound hg cs 1 _ u).bind fun _ _ => .ok id id

/-- Rebuilding a slot (R153, R154), for an invariant that does not look at the trees. -/
theorem buildSlot_sound (hg : ∀ i, Sound I (get i)) (hI : ∀ s slot v t, I s → I (s.withTree slot v t))
    (slot : BitVec 1) : Sound I (buildSlot get slot) := fun s =>
  Res.Sound.since (u := s.withTree slot false [])
    ((buildFrom_sound hg _).bind fun t u => .ok id (hI u slot true t)) id (hI s slot false [])

end Source

theorem streamSource_sound (i : Nat) : Sound StreamOk (streamSource i) := fun s =>
  (fetchByte_sound s).mono id (by rintro hs t rfl; exact hs)

theorem listSource_sound (bytes : List Byte) (i : Nat) : Sound (fun _ => True) (listSource bytes i) := by
  intro s
  unfold listSource
  split
  · exact .ok id id
  · exact .raise _ id

theorem loadTables_sound : Sound (fun _ => True) loadTables := fun s =>
  (buildSlot_sound (listSource_sound _) (fun _ _ _ _ => id) _ s).bind fun _ u =>
    buildSlot_sound (listSource_sound _) (fun _ _ _ _ => id) _ u

/-! ### CRW -/

theorem crwSymbol_sound (sym : Byte) : Sound StreamOk (crwSymbol sym) := by
  intro s
  unfold crwSymbol
  split
  · exact .ok id id
  split
  · exact .ok id id
  split
  · exact .test (.ok id id)
  · exact .test ((residual_sound _ s).bind fun _ _ => .ok id id)

theorem blockLoop_sound (fuel : Nat) : Sound StreamOk (blockLoop fuel) := by
  induction fuel with
  | zero => exact fun _ => .ok id id
  | succ fuel ih =>
    intro s
    unfold blockLoop
    split
    · exact (decodeSymbol_sound _ s).bind fun sym u => (crwSymbol_sound sym u).bind fun _ => ih
    · exact .ok id id

theorem crwBlockBody_sound : Sound StreamOk crwBlockBody := fun s =>
  Res.Sound.since (u := s.startBlock) ((blockLoop_sound _ _).bind fun _ _ => .ok id id) id id

theorem buffersOk_rowTest (h : BuffersOk s) : BuffersOk (rowTest s) := by
  unfold rowTest; split <;> exact h

theorem buffersOk_addResidual (i : Nat) (h : BuffersOk s) : BuffersOk (addResidual i s) := by
  unfold addResidual; split <;> exact h

/-- A sample is written only after the test that it lies inside `OUT` (R177). -/
theorem reconSample_sound (i : Nat) : Sound (fun _ => True) (reconSample i) := fun s =>
  Res.Sound.since (u := addResidual i (rowTest s))
    (.guard <| Res.Sound.bind ((out16Write_sound _ _ _).mono (fun h => not_le.1 (not_or.1 h.2).2) fun _ _ h => h)
      fun _ _ => .ok id fun _ => trivial)
    (fun h => buffersOk_addResidual i (buffersOk_rowTest h)) id

theorem reconLoop_sound (n i : Nat) : Sound (fun _ => True) (reconLoop n i) := by
  induction n generalizing i with
  | zero => exact fun _ => .ok id id
  | succ n ih => exact fun s => (reconSample_sound i s).bind fun _ => ih (i + 1)

theorem crwReconBody_sound : Sound (fun _ => True) crwReconBody := fun s =>
  .test <| Res.Sound.since (u := applyCarry s) ((reconLoop_sound _ _ _).bind fun _ _ => .ok id id) id id

/-- The `n` samples from `k` on, and their low bits, lie inside `OUT` and `IN` (R179). -/
def MergeInside (k n : Nat) (s : State) : Prop :=
  s.lbaddr.toNat + (k + n + 3) / 4 ≤ s.params.inSize ∧ 2 * (k + n) ≤ s.params.outSize

theorem mergeAt_sound (k n : Nat) (s : State) :
    (mergeAt k s).Sound (MergeInside k (n + 1) s) (MergeInside (k + 1) n) s := by
  refine Res.Sound.bind (J := fun u => u = s ∧ MergeInside k (n + 1) s)
    ((inByte_sound _ s).mono (fun h => ?_) fun hp _ h => ⟨h, hp⟩) fun b u => ?_
  · have := h.1; omega
  refine Res.Sound.bind (J := fun v => v = s ∧ MergeInside k (n + 1) s) ((out16_sound k u).mono ?_ ?_) fun _ v => ?_
  · rintro ⟨rfl, h⟩; have := h.2; omega
  · rintro ⟨rfl, hp⟩ _ h; exact ⟨h, hp⟩
  · refine (out16Write_sound k _ v).mono ?_ ?_
    · rintro ⟨rfl, h⟩; have := h.2; omega
    · rintro ⟨rfl, h⟩ t ht
      rw [ht]
      exact ⟨by have := h.1; simp only [State.withOut_params, State.withOut_lbaddr]; omega,
        by have := h.2; simp only [State.withOut_params]; omega⟩

theorem mergeLoop_sound (n k : Nat) (s : State) : (mergeLoop n k s).Sound (MergeInside k n s) (fun _ => True) s := by
  induction n generalizing k s with
  | zero => exact .ok id fun _ => trivial
  | succ n ih => exact (mergeAt_sound k n s).bind fun _ u => ih (k + 1) u

theorem crwMergeBody_sound (s : State) :
    (crwMergeBody s).Sound (StreamOk s ∧ ColumnOk s) (fun _ => True) s := by
  refine .guard ((mergeLoop_sound _ 0 s).mono ?_ fun _ _ h => h)
  rintro ⟨⟨hs, hc⟩, hfit⟩
  simp only [MergeInside, Nat.zero_add]
  exact ⟨(not_lt.1 hfit).trans hs, hc⟩

theorem crwStart_sound : Sound (fun _ => True) crwStart := fun _ => .test <| .test <| .test <| .ok id id

theorem crwEngineStep_sound (s : State) :
    (crwEngineStep s).Sound (StreamOk s ∧ ColumnOk s) (fun _ => True) s := by
  unfold crwEngineStep
  split
  · exact Res.Sound.bind ((loadTables_sound s).mono (fun _ => trivial) fun _ _ h => h) fun _ _ => .ok id id
  split
  · refine Res.Sound.bind ((crwBlockBody_sound s).mono And.left fun _ _ _ => trivial) fun _ u =>
      (crwReconBody_sound u).bind fun _ v => ?_
    split
    · split <;> exact .ok id id
    · exact .ok id id
  · exact (crwMergeBody_sound s).bind fun _ _ => .ok id id

/-! ### BMP -/

/-- The destination rows lie inside `OUT`, the cursor inside a row, and the stream inside `IN` (R202, R203, R205). -/
def DrawSafe (s : State) : Prop :=
  StreamOk s ∧ 0 < bmpCap s ∧ bmpRows s * bmpStride s ≤ s.params.outSize ∧ s.x.toNat ≤ bmpCap s

theorem cursorWord_le {n cap : Nat} (h : n ≤ cap) : (cursorWord n).toNat ≤ cap := by
  have := (Config.cursorPastRegister n).isLt
  unfold cursorWord
  split
  · rw [BitVec.toNat_ofNat]; omega
  · omega

theorem bmpCap_of_rle8 (h : s.phase = 0#32) : bmpCap s = bmpStride s := by simp [bmpCap, bmpBpp, h]

theorem bmpCap_of_rle4 (h : s.phase ≠ 0#32) : bmpCap s = 2 * bmpStride s := by
  simp only [bmpCap, bmpBpp, if_neg h]; omega

theorem bmpStride_pos (h : 0 < s.width.toNat) : 0 < bmpStride s := by
  unfold bmpStride bmpBpp
  split <;> omega

theorem bmpCap_pos (h : 0 < s.width.toNat) : 0 < bmpCap s := by
  have := bmpStride_pos h
  by_cases hp : s.phase = 0#32
  · rw [bmpCap_of_rle8 hp]; exact this
  · rw [bmpCap_of_rle4 hp]; omega

/-- A row of the destination ends inside it. -/
theorem row_le_of_lt {y rows : Nat} (stride : Nat) (h : y < rows) : y * stride + stride ≤ rows * stride := by
  rw [← Nat.succ_mul]; exact Nat.mul_le_mul_right stride h

/-- The byte of a pixel inside a row lies inside the destination (R204). -/
theorem pixelAddress_lt (hx : s.x.toNat < bmpCap s) (hy : s.y.toNat < bmpRows s) :
    pixelAddress s < bmpRows s * bmpStride s := by
  have hrow := row_le_of_lt (bmpStride s) hy
  unfold pixelAddress
  split
  · next hp => rw [bmpCap_of_rle8 hp] at hx; omega
  · next hp => rw [bmpCap_of_rle4 hp] at hx; omega

/-- After the implicit wrap the cursor stands on a pixel place of its row (R203). -/
theorem DrawSafe.wrapCursor (h : DrawSafe s) :
    DrawSafe (wrapCursor s) ∧ (wrapCursor s).x.toNat < bmpCap (wrapCursor s) := by
  obtain ⟨hs, hcap, hdest, hx⟩ := h
  unfold Machine.wrapCursor
  split
  · exact ⟨⟨hs, hcap, hdest, Nat.zero_le _⟩, hcap⟩
  · next hne => exact ⟨⟨hs, hcap, hdest, hx⟩, lt_of_le_of_ne hx hne⟩

theorem buffersOk_wrapCursor (h : BuffersOk s) : BuffersOk (wrapCursor s) := by
  unfold wrapCursor; split <;> exact h

theorem DrawSafe.advance (h : DrawSafe s) (hx : s.x.toNat < bmpCap s) (m : Memory 8) :
    DrawSafe ((s.withOut m).withCursor (cursorWord (s.x.toNat + 1)) s.y) := by
  obtain ⟨hs, hcap, hdest, -⟩ := h
  exact ⟨hs, hcap, hdest, cursorWord_le (cap := bmpCap s) hx⟩

theorem putPixel_sound (v : Byte) : Sound DrawSafe (putPixel v) := by
  refine fun s => Res.Sound.since (u := wrapCursor s)
    (pre' := DrawSafe (wrapCursor s) ∧ (wrapCursor s).x.toNat < bmpCap (wrapCursor s)) (.guard ?_)
    buffersOk_wrapCursor DrawSafe.wrapCursor
  generalize wrapCursor s = w
  have hin : (DrawSafe w ∧ w.x.toNat < bmpCap w) ∧ ¬ bmpRows w ≤ w.y.toNat → pixelAddress w < w.params.outSize :=
    fun ⟨⟨⟨_, _, hdest, _⟩, hx⟩, hy⟩ => (pixelAddress_lt hx (not_le.1 hy)).trans_le hdest
  dsimp only
  split
  · refine Res.Sound.bind (J := fun t => t = w.withOut t.outMem ∧ DrawSafe w ∧ w.x.toNat < bmpCap w)
      ((outWrite_sound _ _ w).mono hin fun hp t h => ⟨h, hp.1⟩) fun _ t => .ok id ?_
    rintro ⟨ht, hw, hx⟩
    rw [ht]; exact hw.advance hx _
  · refine Res.Sound.bind
      (J := fun t => t = w ∧ pixelAddress w < w.params.outSize ∧ DrawSafe w ∧ w.x.toNat < bmpCap w)
      ((outByte_sound _ w).mono hin fun hp t h => ⟨h, hin hp, hp.1⟩) fun old t => ?_
    refine Res.Sound.bind (J := fun t => t = w.withOut t.outMem ∧ DrawSafe w ∧ w.x.toNat < bmpCap w)
      ((outWrite_sound _ _ t).mono ?_ ?_) fun _ t => .ok id ?_
    · rintro ⟨rfl, h, -⟩; exact h
    · rintro ⟨rfl, -, h⟩ _ ht; exact ⟨ht, h⟩
    · rintro ⟨ht, hw, hx⟩
      rw [ht]; exact hw.advance hx _

theorem fetchByte_soundDraw : Sound DrawSafe fetchByte := fun s =>
  (fetchByte_sound s).mono And.left (by rintro hs t rfl; exact hs)

theorem putRun8_sound (n : Nat) (v : Byte) : Sound DrawSafe (putRun8 n v) := by
  induction n with
  | zero => exact fun _ => .ok id id
  | succ n ih => exact fun s => (putPixel_sound v s).bind fun _ => ih

theorem putRun4_sound (n k : Nat) (e o : BitVec 4) : Sound DrawSafe (putRun4 n k e o) := by
  induction n generalizing k with
  | zero => exact fun _ => .ok id id
  | succ n ih => exact fun s => (putPixel_sound _ s).bind fun _ => ih (k + 1)

theorem putLiterals8_sound (n : Nat) : Sound DrawSafe (putLiterals8 n) := by
  induction n with
  | zero => exact fun _ => .ok id id
  | succ n ih => exact fun s => (fetchByte_soundDraw s).bind fun b u => (putPixel_sound b u).bind fun _ => ih

theorem putLiterals4_sound (n j total : Nat) : Sound DrawSafe (putLiterals4 n j total) := by
  induction n generalizing j with
  | zero => exact fun _ => .ok id id
  | succ n ih =>
    refine fun s => (fetchByte_soundDraw s).bind fun _ u => (putPixel_sound _ u).bind fun _ v => ?_
    split
    · exact (putPixel_sound _ v).bind fun _ => ih (j + 1)
    · exact ih (j + 1) v

theorem padByte_sound (n : Nat) : Sound DrawSafe (padByte n) := by
  intro s
  unfold padByte
  split
  · exact (fetchByte_soundDraw s).bind fun _ _ => .ok id id
  · exact .ok id id

/-- Delta (R212) reads two bytes and writes nothing. -/
theorem bmpDeltaBody_sound (s : State) : (bmpDeltaBody s).Sound (DrawSafe s) (fun _ => True) s := by
  refine (fetchByte_soundDraw s).bind fun dx u => (fetchByte_soundDraw u).bind fun dy v => ?_
  dsimp only
  split
  · exact .raise _ id
  · exact .ok id fun _ => trivial

theorem bmpAbs8Body_sound (n : BitVec 8) : Sound DrawSafe (bmpAbs8Body n) := fun s =>
  (putLiterals8_sound _ s).bind fun _ => padByte_sound _

theorem bmpAbs4Body_sound (n : BitVec 8) : Sound DrawSafe (bmpAbs4Body n) := fun s =>
  (putLiterals4_sound _ _ _ s).bind fun _ => padByte_sound _

theorem bmpStart_sound (mode : BitVec 1) : Sound (fun _ => True) (bmpStart mode) := fun s =>
  Res.Sound.since (u := { s with phase := mode.setWidth 32 }) (.test <| .test <| .test <| .ok id id) id id

/-! ### SGI -/

/-- The bytes of a scanline lie inside `IN`, the row it fills inside `OUT`, and both cursors inside them (R235). -/
def LineSafe (s : State) : Prop :=
  s.loc.lineEnd ≤ s.params.inSize ∧ s.loc.lineEnd < 2 ^ 32 ∧ s.ipos.toNat ≤ s.loc.lineEnd ∧
    s.x.toNat ≤ s.width.toNat ∧ s.loc.lineDst + s.width.toNat ≤ s.params.outSize

/-- The verbatim copy (R233), where it stays inside `IN` and `OUT`. -/
theorem copyRun_writes (n src dst : Nat) (s : State) :
    (copyRun n src dst s).Post
      (fun _ t => t = s.withOut (Memory.writeAll s.outMem dst (Memory.readAll s.inMem src n))) (fun _ => False)
      (src + n ≤ s.params.inSize ∧ dst + n ≤ s.params.outSize) := by
  induction n generalizing src dst s with
  | zero => rfl
  | succ n ih =>
    unfold copyRun inByte
    split
    · simp only [Res.bind_ok]
      unfold outWrite
      split
      · simp only [Res.bind_ok]
        exact (ih (src + 1) (dst + 1) _).mono (fun _ _ h => h) (fun _ h => h)
          (by simp only [State.withOut_params]; omega)
      · simp only [Res.bind_stop, Res.post_stop]; omega
    · simp only [Res.bind_stop, Res.post_stop]; omega

/-- The repeated byte (R234), where it stays inside `OUT`. -/
theorem fillRun_writes (n : Nat) (v : Byte) (dst : Nat) (s : State) :
    (fillRun n v dst s).Post (fun _ t => t = s.withOut (Memory.writeAll s.outMem dst (List.replicate n v)))
      (fun _ => False) (dst + n ≤ s.params.outSize) := by
  induction n generalizing dst s with
  | zero => rfl
  | succ n ih =>
    unfold fillRun outWrite
    split
    · simp only [Res.bind_ok]
      exact (ih (dst + 1) _).mono (fun _ _ h => h) (fun _ h => h) (by simp only [State.withOut_params]; omega)
    · simp only [Res.bind_stop, Res.post_stop]; omega

/-- Both cursors of a scanline moved on, inside its bytes and its row. -/
theorem LineSafe.advance (h : LineSafe s) (hu : u = s.withOut u.outMem) {p n : Nat} (hp : p ≤ s.loc.lineEnd)
    (hx : s.x.toNat + n ≤ s.width.toNat) :
    LineSafe ((u.withIpos (BitVec.ofNat 32 p)).withX (s.x.toNat + n)) := by
  obtain ⟨hin, hend, -, -, hdst⟩ := h
  have hw := s.width.isLt
  rw [hu]
  refine ⟨hin, hend, ?_, ?_, hdst⟩
  · show (BitVec.ofNat 32 p).toNat ≤ s.loc.lineEnd
    rw [BitVec.toNat_ofNat]; omega
  · show (BitVec.ofNat 32 (s.x.toNat + n)).toNat ≤ s.width.toNat
    rw [BitVec.toNat_ofNat]; omega

theorem ofNat_toNat_add_one (v : Word) : BitVec.ofNat 32 (v.toNat + 1) = v + 1#32 := by
  rw [BitVec.ofNat_add, BitVec.ofNat_toNat, BitVec.setWidth_eq]

theorem sgiVerbatimBody_sound (count : BitVec 7) : Sound LineSafe (sgiVerbatimBody count) := fun s => by
  refine .guard <| .guard <| Res.Sound.bind
    (J := fun u => u = s.withOut u.outMem ∧ (LineSafe s ∧ ¬ s.width.toNat < s.x.toNat + count.toNat) ∧
      ¬ s.loc.lineEnd < s.ipos.toNat + count.toNat)
    ((copyRun_writes _ _ _ s).sound ?_ (fun _ h => h.elim) ?_) fun _ u => .ok id ?_
  · rintro _ t rfl
    exact ⟨fun h => h.withOut (Memory.wf_writeAll _ _ _ h.1), fun h => ⟨rfl, h⟩⟩
  · rintro ⟨⟨⟨hin, -, -, -, hdst⟩, hx⟩, hp⟩
    omega
  · rintro ⟨hu, ⟨hs, hx⟩, hp⟩
    have hpos : u.ipos = s.ipos := by rw [hu]; rfl
    rw [hpos]
    exact hs.advance hu (not_lt.1 hp) (not_lt.1 hx)

theorem sgiRepeatBody_sound (count : BitVec 7) : Sound LineSafe (sgiRepeatBody count) := fun s => by
  refine .guard <| .guard <| Res.Sound.bind
    (J := fun u => u = s ∧ (LineSafe s ∧ ¬ s.width.toNat < s.x.toNat + count.toNat) ∧ ¬ s.ipos.toNat = s.loc.lineEnd)
    ((inByte_sound _ s).mono ?_ fun hp _ h => ⟨h, hp⟩) fun v u => ?_
  · rintro ⟨⟨⟨hin, -, hpos, -⟩, -⟩, hne⟩
    omega
  refine Res.Sound.bind
    (J := fun t => t = (u.withIpos (u.ipos + 1#32)).withOut t.outMem ∧ u = s ∧
      (LineSafe s ∧ ¬ s.width.toNat < s.x.toNat + count.toNat) ∧ ¬ s.ipos.toNat = s.loc.lineEnd)
    (Res.Sound.since (u := u.withIpos (u.ipos + 1#32))
      ((fillRun_writes _ v _ _).sound ?_ (fun _ h => h.elim) ?_) id id) fun _ t => .ok id ?_
  · rintro _ t rfl
    exact ⟨fun h => h.withOut (Memory.wf_writeAll _ _ _ h.1), fun h => ⟨rfl, h⟩⟩
  · rintro ⟨rfl, ⟨⟨-, -, -, -, hdst⟩, hx⟩, -⟩
    simp only [State.withIpos_params]; omega
  · rintro ⟨ht, rfl, ⟨hs, hx⟩, hne⟩
    obtain ⟨-, -, hpos, -⟩ := id hs
    rw [ht, ← ofNat_toNat_add_one]
    exact hs.advance (u := u.withOut t.outMem) rfl (by omega) (not_lt.1 hx)

theorem sgiCommand_sound (ctl : Byte) : Sound LineSafe (sgiCommand ctl) := by
  intro s
  unfold sgiCommand
  split
  · exact .ok id id
  split
  · exact sgiVerbatimBody_sound _ s
  · exact sgiRepeatBody_sound _ s

theorem lineLoop_sound (fuel : Nat) : Sound LineSafe (lineLoop fuel) := by
  induction fuel with
  | zero => exact fun _ => .ok id id
  | succ fuel ih =>
    intro s
    unfold lineLoop
    split
    · exact .ok id id
    · next hgo =>
      refine Res.Sound.bind (J := fun u => u = s ∧ LineSafe s) ((inByte_sound _ s).mono ?_ fun hp _ h => ⟨h, hp⟩)
        fun ctl u => Res.Sound.since (u := u.withIpos (u.ipos + 1#32))
          ((sgiCommand_sound ctl _).bind fun _ => ih) id ?_
      · rintro ⟨hin, -, hpos, -⟩
        have := not_or.1 hgo
        omega
      · rintro ⟨rfl, hin, hend, hpos, hx, hdst⟩
        have := (not_or.1 hgo).1
        refine ⟨hin, hend, ?_, hx, hdst⟩
        rw [← ofNat_toNat_add_one, State.withIpos_ipos, BitVec.toNat_ofNat]
        exact (Nat.mod_le _ _).trans (by simp only [State.withIpos_loc]; omega)

/-- The tables have an entry for every scanline of the image, and `OUT` a row (R231). -/
def ImageFits (s : State) : Prop :=
  s.channels.toNat * s.height.toNat ≤ s.params.tabEntries ∧
    s.channels.toNat * s.height.toNat * s.width.toNat ≤ s.params.outSize

/-- The index of a scanline of the image. -/
theorem scanline_lt {c r channels height : Nat} (hc : c < channels) (hr : r < height) :
    c * height + r < channels * height :=
  calc c * height + r < c * height + height := by omega
    _ ≤ channels * height := row_le_of_lt height hc

/-- The row of a scanline of the image ends inside `OUT` (R241). -/
theorem sgiDst_add_width_le {c r : Nat} (h : ImageFits s) (hc : c < s.channels.toNat) (hr : r < s.height.toNat) :
    sgiDst s c r + s.width.toNat ≤ s.params.outSize :=
  (row_le_of_lt _ (scanline_lt hc (show s.height.toNat - 1 - r < s.height.toNat by omega))).trans h.2

/-- What decoding scanline `(c, r)` counts on (R231, R235, R312). -/
def ScanlineInside (c r : Word) (s : State) : Prop :=
  StreamOk s ∧ ImageFits s ∧ c.toNat < s.channels.toNat ∧ r.toNat < s.height.toNat

/-- The decoding of a scanline begins inside its bytes and its row. -/
theorem ScanlineInside.lineSafe {c r off : Word} {len : Nat} (h : ScanlineInside c r s) (hx : s.x = 0#32)
    (hlen : off.toNat + len ≤ s.inlen.toNat) :
    LineSafe ((s.withIpos off).withLoc
      { lineEnd := off.toNat + len, lineDst := sgiDst s c.toNat r.toNat }) := by
  obtain ⟨hs, himg, hc, hr⟩ := h
  exact ⟨hlen.trans hs, hlen.trans_lt s.inlen.isLt, Nat.le_add_right _ _, by simp [hx], sgiDst_add_width_le himg hc hr⟩

theorem sgiLineBody_sound (c r : Word) (s : State) :
    (sgiLineBody c r s).Sound (ScanlineInside c r s) (fun _ => True) s := by
  unfold sgiLineBody
  dsimp only
  refine Res.Sound.since (u := s.startLine c r)
    (pre' := ScanlineInside c r (s.startLine c r) ∧ (s.startLine c r).x = 0#32) ?_ id fun h => ⟨h, rfl⟩
  generalize s.startLine c r = w
  refine Res.Sound.bind (J := fun u => u = w ∧ ScanlineInside c r w ∧ w.x = 0#32)
    ((offsetEntry_sound _ w).mono ?_ fun hp _ h => ⟨h, hp⟩) fun off u => ?_
  · rintro ⟨⟨-, himg, hc, hr⟩, -⟩; exact (scanline_lt hc hr).trans_le himg.1
  refine Res.Sound.bind (J := fun v => v = w ∧ ScanlineInside c r w ∧ w.x = 0#32) ((lengthEntry_sound _ u).mono ?_ ?_)
    fun len v => ?_
  · rintro ⟨rfl, ⟨-, himg, hc, hr⟩, -⟩; exact (scanline_lt hc hr).trans_le himg.1
  · rintro ⟨rfl, hp⟩ _ h; exact ⟨h, hp⟩
  refine .guard <| Res.Sound.bind (J := LineSafe)
    ((lineLoop_sound _ _).since (u := (v.withIpos off).withLoc _) id ?_) fun _ _ => .ok id fun _ => trivial
  rintro ⟨⟨rfl, hin, hx⟩, hlen⟩
  exact hin.lineSafe hx (not_lt.1 hlen)

theorem sgiStart_sound (s : State) : (sgiStart s).Sound True (fun _ => True) s := .ok id id

/-- An operation behind the configuration test (R231) may count on the image. -/
theorem sgiConfigCheck_sound {k : State → Res Unit} (hk : (k s).Sound (pre ∧ ImageFits s) J s) :
    (sgiConfigCheck s k).Sound pre J s := by
  refine .test <| .test <| .test <| .guard <| .guard <| hk.mono ?_ fun _ _ h => h
  rintro ⟨⟨hp, htab⟩, hout⟩
  exact ⟨hp, not_lt.1 htab, not_lt.1 hout⟩

theorem sgiEngineStep_sound (s : State) :
    (sgiEngineStep s).Sound (StreamOk s ∧ SgiRunOk s) (fun _ => True) s := by
  refine Res.Sound.bind ((sgiLineBody_sound s.chan s.row s).mono ?_ fun _ _ h => h) fun _ u => ?_
  · rintro ⟨hs, htab, hout, hc, hr⟩; exact ⟨hs, ⟨htab, hout⟩, hc, hr⟩
  split
  · exact .ok id id
  · split <;> exact .ok id id

/-! ### HDR -/

/-- The binary32 triples of row `y` lie inside `OUT`, its first `m` columns inside the row, and the stream inside `IN`
(R256). -/
def RowSafe (y m : Nat) (s : State) : Prop :=
  StreamOk s ∧ 12 * (s.width.toNat * s.height.toNat) ≤ s.params.outSize ∧ y < s.height.toNat ∧ m ≤ s.width.toNat

/-- A row whose planes `SCAN` has room for (R53, R257). -/
def RleSafe (y m : Nat) (s : State) : Prop := RowSafe y m s ∧ s.width.toNat ≤ 0x7FFF

/-- A plane of such a row is in progress (R258). -/
def PlaneSafe (y m : Nat) (s : State) : Prop := RleSafe y m s ∧ s.loc.plane < 4

theorem RowSafe.narrow {y m : Nat} (h : RowSafe y m s) : RowSafe y 0 s := by
  obtain ⟨hs, hout, hrow, -⟩ := h
  exact ⟨hs, hout, hrow, Nat.zero_le _⟩

theorem RleSafe.narrow {y m : Nat} (h : RleSafe y m s) : RleSafe y 0 s := ⟨h.1.narrow, h.2⟩

/-- The three elements of a pixel of the row lie inside `OUT` (R252). -/
theorem RowSafe.pixel_lt {y m x : Nat} (h : RowSafe y m s) (hx : x < m) :
    4 * ((y * s.width.toNat + x) * 3 + 2) + 3 < s.params.outSize := by
  obtain ⟨-, hout, hy, hm⟩ := h
  have hrow := row_le_of_lt s.width.toNat hy
  rw [Nat.mul_comm s.width.toNat] at hout
  omega

section Row
variable {y m : Nat}

theorem fetchByte_soundRow : Sound (RowSafe y m) fetchByte := fun s =>
  (fetchByte_sound s).mono And.left (by rintro hs t rfl; exact hs)

theorem fetchByte_soundRle : Sound (RleSafe y m) fetchByte := fun s =>
  (fetchByte_sound s).mono (fun ⟨⟨hs, _⟩, _⟩ => hs) (by rintro hs t rfl; exact hs)

theorem fetchByte_soundPlane : Sound (PlaneSafe y m) fetchByte := fun s =>
  (fetchByte_sound s).mono (fun ⟨⟨⟨hs, _⟩, _⟩, _⟩ => hs) (by rintro hs t rfl; exact hs)

theorem putRgbe_sound {x : Nat} (hx : x < m) (r g b e : Byte) (s : State) :
    (putRgbe y x r g b e s).Sound (RowSafe y m s) (fun t => t = s.withOut t.outMem) s := by
  have hw (k : Nat) (hk : k ≤ 2) (v : Word) (u : State) :
      (out32Write ((y * s.width.toNat + x) * 3 + k) v u).Sound (u = s.withOut u.outMem ∧ RowSafe y m s)
        (fun t => t = s.withOut t.outMem ∧ RowSafe y m s) u := by
    refine (out32Write_sound _ v u).mono ?_ ?_
    · rintro ⟨hu, hs⟩
      have := hs.pixel_lt hx
      rw [hu, State.withOut_params]
      omega
    · rintro ⟨hu, hs⟩ t ht
      exact ⟨by rw [ht, hu]; rfl, hs⟩
  exact ((hw 0 (by omega) _ s).bind fun _ u => (hw 1 (by omega) _ u).bind fun _ v => hw 2 le_rfl _ v).mono
    (fun h => ⟨rfl, h⟩) fun _ _ h => h.1

theorem flatLoop_sound {n x : Nat} (h : x + n ≤ m) : Sound (RowSafe y m) (flatLoop n y x) := by
  induction n generalizing x with
  | zero => exact fun _ => .ok id id
  | succ n ih =>
    exact fun s => (fetchByte_soundRow s).bind fun _ s => (fetchByte_soundRow s).bind fun _ s =>
      (fetchByte_soundRow s).bind fun _ s => (fetchByte_soundRow s).bind fun _ s =>
        Res.Sound.bind ((putRgbe_sound (by omega) _ _ _ _ s).mono id fun hs t ht => by rw [ht]; exact hs)
          fun _ => ih (by omega)

theorem scanRead_soundRle {p x : Nat} (hp : p < 4) (hx : x < m) : Sound (RleSafe y m) (scanRead p x) := fun s =>
  (scanRead_sound p x s).mono (fun ⟨⟨_, _, _, hm⟩, hw⟩ => ⟨hp, by omega⟩) (by rintro hs t rfl; exact hs)

theorem transposeLoop_sound {n x : Nat} (h : x + n ≤ m) : Sound (RleSafe y m) (transposeLoop n y x) := by
  induction n generalizing x with
  | zero => exact fun _ => .ok id id
  | succ n ih =>
    have hr {p : Nat} (hp : p < 4) := scanRead_soundRle (y := y) (m := m) (x := x) hp (by omega)
    exact fun s => (hr (by simp) s).bind fun _ s => (hr (by simp) s).bind fun _ s => (hr (by simp) s).bind fun _ s =>
      (hr (by simp) s).bind fun _ s =>
        Res.Sound.bind ((putRgbe_sound (by omega) _ _ _ _ s).mono And.left fun hs _ ht => by rw [ht]; exact hs)
          fun _ => ih (by omega)

theorem scanWrite_soundPlane {p x : Nat} (hx : x < m) (v : Byte) :
    Sound (fun s => PlaneSafe y m s ∧ p < 4) (scanWrite p x v) := fun s =>
  (scanWrite_sound p x v s).mono (fun ⟨⟨⟨⟨_, _, _, hm⟩, hw⟩, _⟩, hp⟩ => ⟨hp, by omega⟩)
    fun hs t ht => by rw [ht]; exact hs

theorem scanFill_sound {n p x : Nat} (h : x + n ≤ m) (v : Byte) :
    Sound (fun s => PlaneSafe y m s ∧ p < 4) (scanFill n v p x) := by
  induction n generalizing x with
  | zero => exact fun _ => .ok id id
  | succ n ih => exact fun s => (scanWrite_soundPlane (by omega) v s).bind fun _ => ih (by omega)

theorem scanLiterals_sound {n p x : Nat} (h : x + n ≤ m) :
    Sound (fun s => PlaneSafe y m s ∧ p < 4) (scanLiterals n p x) := by
  induction n generalizing x with
  | zero => exact fun _ => .ok id id
  | succ n ih =>
    exact fun s => Res.Sound.bind
      ((fetchByte_soundPlane (y := y) (m := m) s).mono And.left fun hs t ht => ⟨ht, hs.2⟩)
      fun b u => (scanWrite_soundPlane (by omega) b u).bind fun _ => ih (by omega)

/-- Behind the test of a run's width (R259, R260) the run lies inside the row. -/
theorem PlaneSafe.widen (h : PlaneSafe y 0 s) (hm : ¬ s.width.toNat < m) : PlaneSafe y m s := by
  obtain ⟨⟨⟨hs, hout, hrow, -⟩, hw⟩, hp⟩ := h
  exact ⟨⟨⟨hs, hout, hrow, not_lt.1 hm⟩, hw⟩, hp⟩

theorem hdrRepeatBody_sound (count : BitVec 7) : Sound (PlaneSafe y 0) (hdrRepeatBody count) := fun s =>
  .guard <| Res.Sound.bind
    ((fetchByte_soundPlane (y := y) (m := s.loc.planeX + count.toNat) s).mono (fun h => h.1.widen h.2) fun _ _ h => h)
    fun v u => Res.Sound.bind ((scanFill_sound le_rfl v u).mono (fun h => ⟨h, h.2⟩) fun _ _ h => h)
      fun _ _ => .ok id fun ⟨⟨hrow, hp⟩, _⟩ => ⟨hrow.narrow, hp⟩

theorem hdrLiteralBody_sound (count : BitVec 8) : Sound (PlaneSafe y 0) (hdrLiteralBody count) := fun s =>
  .guard <| Res.Sound.bind
    ((scanLiterals_sound (y := y) (m := s.loc.planeX + count.toNat) le_rfl s).mono (fun h => ⟨h.1.widen h.2, h.1.2⟩)
      fun _ _ h => h)
    fun _ _ => .ok id fun ⟨⟨hrow, hp⟩, _⟩ => ⟨hrow.narrow, hp⟩

theorem hdrCommand_sound (ctl : Byte) : Sound (PlaneSafe y 0) (hdrCommand ctl) := by
  intro s
  unfold hdrCommand
  split
  · exact hdrRepeatBody_sound _ s
  split
  · exact .raise _ id
  · exact hdrLiteralBody_sound ctl s

theorem planeLoop_sound (fuel : Nat) : Sound (PlaneSafe y 0) (planeLoop fuel) := by
  induction fuel with
  | zero => exact fun _ => .ok id id
  | succ fuel ih =>
    intro s
    unfold planeLoop
    split
    · exact (fetchByte_soundPlane s).bind fun ctl u => (hdrCommand_sound ctl u).bind fun _ => ih
    · exact .ok id id

theorem planesLoop_sound {n p : Nat} (h : p + n ≤ 4) : Sound (RleSafe y 0) (planesLoop n p) := by
  induction n generalizing p with
  | zero => exact fun _ => .ok id id
  | succ n ih =>
    exact fun s => Res.Sound.bind
      (((planeLoop_sound _ (s.withLoc { plane := p, planeX := 0 })).since id
        (fun hs => ⟨hs, show p < 4 by omega⟩)).mono id fun _ _ ht => ht.1)
      fun _ => ih (by omega)

theorem fetchHeader_sound : Sound (RleSafe y m) fetchHeader := by
  refine fun s => (fetchByte_soundRle s).bind fun _ s => (fetchByte_soundRle s).bind fun _ s =>
    (fetchByte_soundRle s).bind fun _ s => (fetchByte_soundRle s).bind fun _ s => ?_
  split
  · exact .test (.ok id id)
  · exact .raise _ id

theorem rleScanline_sound : Sound (RleSafe y 0) (rleScanline y) := fun s =>
  (fetchHeader_sound s).bind fun _ u => (planesLoop_sound (by simp) u).bind fun _ v =>
    Res.Sound.since (u := v.withLoc {}) (pre' := RleSafe y v.width.toNat (v.withLoc {}))
      ((transposeLoop_sound (by simp) _).mono id fun _ _ h => h.narrow) id
      fun ⟨⟨hs, hout, hrow, _⟩, hw⟩ => ⟨⟨hs, hout, hrow, le_rfl⟩, hw⟩

end Row

/-- The first step of a run decides for run-length coding only where the width is legal for it (R257). -/
theorem hdrRunOk_detectRle (h : HdrRunOk s) : HdrRunOk (detectRle s) := by
  obtain ⟨hout, hrow, -, -⟩ := h
  refine ⟨hout, hrow, by simp [detectRle], fun hrle => ?_⟩
  simp only [detectRle, Bool.and_eq_true, decide_eq_true_eq] at hrle
  exact hrle.1.1

theorem hdrEngineStep_sound (s : State) :
    (hdrEngineStep s).Sound (StreamOk s ∧ HdrRunOk s) (fun _ => True) s := by
  have hstart : StreamOk s ∧ HdrRunOk s → StreamOk (if s.phase = 0#32 then detectRle s else s) ∧
      HdrRunOk (if s.phase = 0#32 then detectRle s else s) := by
    split
    · exact fun ⟨hs, hrun⟩ => ⟨hs, hdrRunOk_detectRle hrun⟩
    · exact id
  have hbuf : BuffersOk s → BuffersOk (if s.phase = 0#32 then detectRle s else s) := by split <;> exact id
  unfold hdrEngineStep
  refine Res.Sound.since ?_ hbuf hstart
  generalize (if s.phase = 0#32 then detectRle s else s) = u
  dsimp only
  refine Res.Sound.bind (J := fun _ => True) ?_ fun _ v => ?_
  · split
    · next h =>
      refine (rleScanline_sound u).mono ?_ fun _ _ _ => trivial
      rintro ⟨hs, hout, hrow, -, hrle⟩
      exact ⟨⟨hs, hout, hrow, Nat.zero_le _⟩, (hrle h).2⟩
    · refine (flatLoop_sound (m := u.width.toNat) (by simp) u).mono ?_ fun _ _ _ => trivial
      rintro ⟨hs, hout, hrow, -, -⟩
      exact ⟨hs, hout, hrow, le_rfl⟩
  · split <;> exact .ok id id

theorem hdrStart_sound : Sound (fun _ => True) hdrStart := fun _ => .test <| .test <| .ok id id

end Sys2Proof.Machine
end

section
/-! PROOFS. No step of a state with the run invariant leaves a memory space (R81), and every step keeps every memory in
its canonical form: the soundness of the operations, at the commands the host gives and at the engine steps. One
declaration is elaborated after the other, for the memory limit. -/

namespace Sys2Proof.Machine

open Sys2Proof.Ref

set_option Elab.async false

variable {α : Type} {pre pre' : Prop} {s t : State} {o : Host.Outcome State Fault Refusal}

/-! ### Outcomes -/

/-- A step from `s` keeps the canonical form of `OUT` and `SCAN`, and it leaves no memory space where `pre` holds. -/
def NextSound (pre : Prop) (s : State) (o : Host.Outcome State Fault Refusal) : Prop :=
  (∀ t, o = .next t → BuffersOk s → BuffersOk t) ∧ (pre → ∀ f, o ≠ .fault f)

theorem nextSound_next (h : BuffersOk s → BuffersOk t) : NextSound pre s (.next t) :=
  ⟨by rintro t ⟨⟩; exact h, by rintro - f ⟨⟩⟩

theorem NextSound.mono (h : NextSound pre' s o) (hpre : pre → pre') : NextSound pre s o :=
  ⟨h.1, fun hp => h.2 (hpre hp)⟩

theorem Res.Sound.outcome {J : State → Prop} {r : Res α} (hr : r.Sound pre J s) : NextSound pre s r.outcome := by
  refine ⟨fun t ht => ?_, fun hp f hf => ?_⟩
  · rcases Res.Post.outcome hr ht with ⟨_, h, -⟩ | h <;> exact h
  · rw [Res.outcome_eq_fault.1 hf] at hr
    exact hr hp

theorem Res.Sound.andThen {J : State → Prop} {r : Res α} {k : α → State → Host.Outcome State Fault Refusal}
    (hr : r.Sound pre J s) (hk : ∀ a u, NextSound (J u) u (k a u)) : NextSound pre s (r.andThen k) := by
  cases r with
  | ok a u => exact ⟨fun t ht hs => (hk a u).1 t ht (hr.1 hs), fun hp => (hk a u).2 (hr.2 hp)⟩
  | raised u => exact nextSound_next hr
  | stop f => exact ⟨by rintro t ⟨⟩, fun hp => absurd hp hr⟩

/-- A command that begins with the prologue of R312 may count on the stream. -/
theorem nextSound_needInput {J : State → Prop} {k : State → Res α} (hk : (k s).Sound (pre ∧ StreamOk s) J s) :
    NextSound pre s (needInput s k).outcome :=
  Res.Sound.outcome (.guard (hk.mono (fun h => ⟨h.1, not_lt.1 h.2⟩) fun _ _ h => h))

/-! ### Instructions -/

/-- A command that returns a value (R25). -/
theorem returns_sound {f : State → Res α} (hf : Sound StreamOk f) (value : α → Word) (s : State) :
    ((f s).bind fun a u => Res.ok () (u.withResult (value a))).Sound (StreamOk s) (fun _ => True) s :=
  (hf s).bind fun _ _ => .ok id fun _ => trivial

/-- The command words of the host. Only `CRW.MERGE` counts on more than its own tests: on the samples that `COLUMN`
counts (R179). -/
theorem exec_host_sound {i : Instr} (hi : i.format = .host) (s : State) : NextSound (ColumnOk s) s (exec i s) := by
  cases i with
  | nop => exact nextSound_next id
  | reset => exact nextSound_next fun h => ⟨h.1, rfl⟩
  | clear => exact nextSound_next id
  | brPrime => exact nextSound_next id
  | brRead n => exact nextSound_needInput ((returns_sound (readBits_sound _) _ s).mono And.right fun _ _ h => h)
  | brPeek n => exact nextSound_needInput ((returns_sound (peekBits_sound _) _ s).mono And.right fun _ _ h => h)
  | brSkip n => exact (skipBits_sound _ s).outcome.mono fun _ => trivial
  | hufBuild slot =>
    exact nextSound_needInput
      ((buildSlot_sound streamSource_sound (fun _ _ _ _ => id) slot s.unprime).since id And.right)
  | hufLoadt => exact (loadTables_sound s).outcome.mono fun _ => trivial
  | hufDecode slot =>
    exact nextSound_needInput ((returns_sound (decodeSymbol_sound slot) _ s).mono And.right fun _ _ h => h)
  | hufResid len =>
    exact nextSound_needInput (.test ((returns_sound (residual_sound _) sext32 s).mono And.right fun _ _ h => h))
  | crwDetect => exact nextSound_needInput (J := fun _ => True) (.ok id fun _ => trivial)
  | crwInit => exact nextSound_next id
  | crwBlock => exact nextSound_needInput ((crwBlockBody_sound s).mono And.right fun _ _ h => h)
  | crwRecon => exact (crwReconBody_sound s).outcome.mono fun _ => trivial
  | crwMerge => exact nextSound_needInput ((crwMergeBody_sound s).mono And.symm fun _ _ h => h)
  | crwRun => exact nextSound_needInput ((crwStart_sound s).mono (fun _ => trivial) fun _ _ h => h)
  | bmpRun mode => exact nextSound_needInput ((bmpStart_sound mode s).mono (fun _ => trivial) fun _ _ h => h)
  | sgiRun =>
    exact nextSound_needInput (sgiConfigCheck_sound ((sgiStart_sound s).mono (fun _ => trivial) fun _ _ h => h))
  | sgiLine channel row =>
    refine nextSound_needInput (sgiConfigCheck_sound (.guard ((sgiLineBody_sound _ _ s).mono ?_ fun _ _ h => h)))
    rintro ⟨⟨⟨-, hs⟩, himg⟩, hop⟩
    simp only [not_or, not_le] at hop
    refine ⟨hs, himg, ?_, ?_⟩
    · rw [BitVec.toNat_setWidth_of_le (by simp)]; exact hop.1
    · rw [BitVec.toNat_setWidth_of_le (by simp)]; exact hop.2
  | hdrRun => exact nextSound_needInput ((hdrStart_sound s).mono (fun _ => trivial) fun _ _ h => h)
  | illegalHostWord op a b => exact nextSound_next id
  | _ => cases hi

/-- The stream commands of BMP (R206). -/
theorem exec_bmp_sound {i : Instr} {mode : Bool} (hi : i.format = .bmp mode) (s : State) :
    NextSound (DrawSafe s) s (exec i s) := by
  cases i with
  | bmpRun8 count value => exact (putRun8_sound _ value s).outcome
  | bmpRun4 count pixEven pixOdd => exact (putRun4_sound _ _ pixEven pixOdd s).outcome
  | bmpEol => exact nextSound_next id
  | bmpEob => exact nextSound_next id
  | bmpDelta => exact (bmpDeltaBody_sound s).outcome
  | bmpAbs8 n => exact (bmpAbs8Body_sound n s).outcome
  | bmpAbs4 n => exact (bmpAbs4Body_sound n s).outcome
  | _ => cases hi

/-! ### Engine steps -/

theorem bmpEngineStep_sound (s : State) : NextSound (DrawSafe s) s (bmpEngineStep s) := by
  unfold bmpEngineStep
  split
  · exact nextSound_next id
  split
  · exact nextSound_next id
  · refine (fetchByte_soundDraw s).andThen fun b1 u => (fetchByte_soundDraw u).andThen fun b2 v => ?_
    obtain ⟨mode, hi⟩ := format_decodeBmp (decide (v.phase ≠ 0#32)) b1 b2
    exact exec_bmp_sound hi v

theorem engineStep_sound (s : State) : NextSound (RunInv s ∧ s.st = .busy) s (engineStep s) := by
  unfold engineStep
  split
  · exact nextSound_next id
  unfold unitStep
  split
  · next hu =>
    refine ⟨by rintro t ⟨⟩, fun ⟨⟨_, _, hrun⟩, hb⟩ => ?_⟩
    obtain ⟨-, -, hne, -⟩ := hrun hb
    exact absurd hu hne
  · next hu =>
    refine (crwEngineStep_sound s).outcome.mono fun ⟨⟨_, hcol, hrun⟩, hb⟩ => ?_
    exact ⟨(hrun hb).1, hcol⟩
  · next hu =>
    refine (bmpEngineStep_sound s).mono fun ⟨⟨_, _, hrun⟩, hb⟩ => ?_
    obtain ⟨hs, hw, -, -, hbmp, -⟩ := hrun hb
    obtain ⟨-, -, hdest, hx⟩ := hbmp hu
    exact ⟨hs, bmpCap_pos hw, hdest, hx⟩
  · next hu =>
    refine (sgiEngineStep_sound s).outcome.mono fun ⟨⟨_, _, hrun⟩, hb⟩ => ?_
    obtain ⟨hs, -, -, -, -, hsgi, -⟩ := hrun hb
    exact ⟨hs, hsgi hu⟩
  · next hu =>
    refine (hdrEngineStep_sound s).outcome.mono fun ⟨⟨_, _, hrun⟩, hb⟩ => ?_
    obtain ⟨hs, -, -, -, -, -, hhdr⟩ := hrun hb
    exact ⟨hs, hhdr hu⟩

/-! ### Safety of a step -/

/-- The memories that the host alone writes are in canonical form (R71, R75). -/
def HostMemoriesOk (s : State) : Prop :=
  Memory.wf s.inMem = true ∧ Memory.wf s.offtab = true ∧ Memory.wf s.lentab = true

theorem memoriesOk_iff : MemoriesOk s ↔ HostMemoriesOk s ∧ BuffersOk s := by
  unfold MemoriesOk HostMemoriesOk BuffersOk; tauto

/-- A step from `s` keeps the canonical form of every memory, and it leaves no memory space where `pre` holds. -/
def StepSound (pre : Prop) (s : State) (o : Host.Outcome State Fault Refusal) : Prop :=
  (∀ t, o = .next t → MemoriesOk s → MemoriesOk t) ∧ (pre → ∀ f, o ≠ .fault f)

theorem stepSound_next (h : MemoriesOk s → MemoriesOk t) : StepSound pre s (.next t) :=
  ⟨by rintro t ⟨⟩; exact h, by rintro - f ⟨⟩⟩

theorem stepSound_refused (x : Refusal) : StepSound pre s (.refused x) := ⟨by rintro t ⟨⟩, by rintro - f ⟨⟩⟩

/-- What neither writes `IN` nor the tables keeps every memory when it keeps `OUT` and `SCAN`. -/
theorem NextSound.stepSound (h : NextSound pre s o) (hk : NextKeeps inputs s o) : StepSound pre s o := by
  refine ⟨fun t ht hs => ?_, h.2⟩
  obtain ⟨⟨hin, hoff, hlen⟩, hbuf⟩ := memoriesOk_iff.1 hs
  obtain ⟨hin', hoff', hlen', -⟩ := inputs_eq_iff.1 (hk t ht)
  refine memoriesOk_iff.2 ⟨?_, h.1 t ht hbuf⟩
  rw [HostMemoriesOk, hin', hoff', hlen']
  exact ⟨hin, hoff, hlen⟩

/-- Accepted or dropped, a command word leaves no memory space (R281). -/
theorem hostCommand_stepSound (w : Word) (s : State) : StepSound (ColumnOk s) s (hostCommand w s) := by
  rw [hostCommand_eq]
  split
  · exact stepSound_next id
  · exact (exec_host_sound (format_decodeHost w) s).stepSound (exec_keepsInputs _ s)

theorem writeConfig_memories {idx : BitVec 7} {v : Word} (h : writeConfig s idx v = some t) (hs : MemoriesOk s) :
    MemoriesOk t := by
  unfold writeConfig at h
  split at h <;> cases h <;> exact hs

theorem regWrite_stepSound (idx : BitVec 7) (v : Word) (s : State) : StepSound (ColumnOk s) s (regWrite idx v s) := by
  unfold regWrite
  split
  · exact hostCommand_stepSound v s
  split
  · exact stepSound_next id
  split
  · exact stepSound_next id
  · next hw =>
    split
    · exact stepSound_next id
    · exact stepSound_next (writeConfig_memories hw)

theorem memWrite_stepSound (sp : ByteSpace) (a : Nat) (bs : List Byte) (s : State) :
    StepSound pre s (memWrite sp a bs s) := by
  rw [memWrite_eq]
  split
  · exact stepSound_refused _
  split
  · exact stepSound_refused _
  · cases sp with
    | inp => exact stepSound_next fun ⟨hin, hrest⟩ => ⟨Memory.wf_writeAll _ _ _ hin, hrest⟩
    | out => exact stepSound_next fun ⟨hin, hout, hrest⟩ => ⟨hin, Memory.wf_writeAll _ _ _ hout, hrest⟩

theorem tabWrite_stepSound (sp : TableSpace) (k : Nat) (es : List Word) (s : State) :
    StepSound pre s (tabWrite sp k es s) := by
  rw [tabWrite_eq]
  split
  · exact stepSound_refused _
  split
  · exact stepSound_refused _
  · cases sp with
    | offtab =>
      exact stepSound_next fun ⟨hin, hout, hoff, hrest⟩ => ⟨hin, hout, Memory.wf_writeAll _ _ _ hoff, hrest⟩
    | lentab =>
      exact stepSound_next fun ⟨hin, hout, hoff, hlen, hscan⟩ =>
        ⟨hin, hout, hoff, Memory.wf_writeAll _ _ _ hlen, hscan⟩

theorem memRead_stepSound (sp : ByteSpace) (a n : Nat) (s : State) : StepSound pre s (memRead sp a n s) := by
  unfold memRead
  split
  · exact stepSound_refused _
  · exact stepSound_next id

theorem tabRead_stepSound (sp : TableSpace) (k n : Nat) (s : State) : StepSound pre s (tabRead sp k n s) := by
  unfold tabRead
  split
  · exact stepSound_refused _
  · exact stepSound_next id

theorem wf_abandonedOut (h : Memory.wf s.outMem = true) : Memory.wf (abandonedOut s) = true := by
  unfold abandonedOut
  split
  · exact Memory.wf_mix _ _ _ h
  · exact h
  · exact h

/-- A hard reset leaves `OUT` a mixture of canonical memories, and `SCAN` empty (R340). -/
theorem memoriesOk_hardReset (h : MemoriesOk s) : MemoriesOk (hardReset s) := by
  obtain ⟨hin, hout, hoff, hlen, -⟩ := h
  by_cases hb : s.st = .busy
  · rw [hardReset_of_busy hb]
    exact ⟨hin, wf_abandonedOut hout, hoff, hlen, rfl⟩
  · rw [hardReset_of_not_busy hb]
    exact ⟨hin, hout, hoff, hlen, rfl⟩

theorem engineStep_stepSound (s : State) : StepSound (RunInv s ∧ s.st = .busy) s (engineStep s) :=
  (engineStep_sound s).stepSound (engineStep_keepsInputs s)

/-- An engine step that is granted, or none where no run is in progress (R320, R341). -/
theorem grantedStep_stepSound (s : State) :
    StepSound (RunInv s) s (if s.st = .busy then engineStep s else .next s) := by
  split
  · next hb =>
    obtain ⟨hmem, hsafe⟩ := engineStep_stepSound s
    exact ⟨hmem, fun hinv => hsafe ⟨hinv, hb⟩⟩
  · exact stepSound_next id

theorem hostEvent_stepSound (e : HostEvent) (s : State) : StepSound (RunInv s) s (hostEvent e s) := by
  cases e with
  | regWr idx v =>
    obtain ⟨hmem, hsafe⟩ := regWrite_stepSound idx v s
    exact ⟨hmem, fun ⟨_, hcol, _⟩ => hsafe hcol⟩
  | regRd idx => exact stepSound_next id
  | memWr sp a bs => exact memWrite_stepSound sp a bs s
  | memRd sp a n => exact memRead_stepSound sp a n s
  | tabWr sp k es => exact tabWrite_stepSound sp k es s
  | tabRd sp k n => exact tabRead_stepSound sp k n s
  | hardReset => exact stepSound_next memoriesOk_hardReset
  | engineStep => exact grantedStep_stepSound s

theorem step_stepSound (s : State) : StepSound (RunInv s) s (step s) := by
  rw [step_eq]
  split
  · next e q _ => exact hostEvent_stepSound e (s.withQueue q)
  · exact grantedStep_stepSound s

/-! ### The obligations -/

/-- Settles O57: the soundness of a step, whose content is the soundness of the operations of each unit. -/
theorem stepNeverFaults : Obligations.StepNeverFaults := fun s hinv => (step_stepSound s).2 hinv

/-- Settles O51: the soundness of a step. -/
theorem stepKeepsMemories : Obligations.StepKeepsMemories := fun s t hs h => (step_stepSound s).1 t h hs

end Sys2Proof.Machine
end

section
/-! PROOFS. The 16-bit samples of `OUT` (R76) and the low-bits merge (R179). -/

namespace Sys2Proof.Machine

open Sys2Proof.Ref

-- One declaration after another: as tasks, each would hold a thread of its own.
set_option Elab.async false

variable {s : State}

/-! ### Samples -/

/-- `OUT16[i] <- v` on the memory alone (R76). -/
def Memory.write16 (m : Memory 8) (i : Nat) (v : BitVec 16) : Memory 8 :=
  Memory.writeAll m (2 * i) [v.extractLsb' 0 8, v.extractLsb' 8 8]

theorem Memory.read_write16_other (m : Memory 8) (i : Nat) (v : BitVec 16) {a : Nat} (h : a < 2 * i ∨ 2 * i + 2 ≤ a) :
    Memory.read (Memory.write16 m i v) a = Memory.read m a := by
  rw [Memory.write16, Memory.read_writeAll, if_neg (by simp only [List.length_cons, List.length_nil]; omega)]

theorem Memory.read_write16_low (m : Memory 8) (i : Nat) (v : BitVec 16) :
    Memory.read (Memory.write16 m i v) (2 * i) = v.extractLsb' 0 8 := by
  simp [Memory.write16, Memory.read_writeAll]

theorem Memory.read_write16_high (m : Memory 8) (i : Nat) (v : BitVec 16) :
    Memory.read (Memory.write16 m i v) (2 * i + 1) = v.extractLsb' 8 8 := by
  simp [Memory.write16, Memory.read_writeAll]

theorem sample_write16_same (m : Memory 8) (i : Nat) (v : BitVec 16) : sample (Memory.write16 m i v) i = v.toNat := by
  have := v.isLt
  rw [sample, Memory.read_write16_low, Memory.read_write16_high, BitVec.extractLsb'_toNat, BitVec.extractLsb'_toNat,
    Nat.shiftRight_eq_div_pow, Nat.shiftRight_eq_div_pow]
  omega

theorem sample_write16_other (m : Memory 8) {i j : Nat} (v : BitVec 16) (h : i ≠ j) :
    sample (Memory.write16 m i v) j = sample m j := by
  rw [sample, Memory.read_write16_other _ _ _ (by omega), Memory.read_write16_other _ _ _ (by omega), sample]

/-- What `OUT16[i]` reads (R76). -/
theorem toNat_append_sample (m : Memory 8) (i : Nat) :
    (Memory.read m (2 * i + 1) ++ Memory.read m (2 * i)).toNat = sample m i := by
  rw [BitVec.toNat_append, ← Nat.shiftLeft_add_eq_or_of_lt (Memory.read m (2 * i)).isLt, Nat.shiftLeft_eq, sample]
  omega

theorem out16Write_eq_write16 {i : Nat} (v : BitVec 16) (h : 2 * i + 1 < s.params.outSize) :
    out16Write i v s = .ok () (s.withOut (Memory.write16 s.outMem i v)) := out16Write_of_lt v h

/-! ### The merge -/

/-- Two bits below a sample (R179). -/
theorem toNat_mergeSample (v lb : BitVec 16) (h : lb.toNat < 4) :
    (mergeSample v lb).toNat = (4 * v.toNat + lb.toNat) % 65536 := by
  have hshift : (v <<< 2).toNat = (v.toNat % 2 ^ 14) <<< 2 := by
    rw [BitVec.toNat_shiftLeft, Nat.shiftLeft_eq, Nat.shiftLeft_eq]; omega
  rw [mergeSample, BitVec.toNat_or, hshift, ← Nat.shiftLeft_add_eq_or_of_lt (by omega), Nat.shiftLeft_eq]
  omega

/-- The low bits of sample `k` (R120, R179). -/
theorem toNat_lowBitsField (b : Byte) (k : Nat) : (lowBitsField b k).toNat = b.toNat / 4 ^ (k % 4) % 4 := by
  have hlt : b.toNat / 4 ^ (k % 4) % 4 < 4 := Nat.mod_lt _ (by norm_num)
  rw [lowBitsField, Nat.shiftRight_eq_div_pow, Nat.pow_mul, Nat.and_two_pow_sub_one_eq_mod _ 2, BitVec.toNat_ofNat,
    show 2 ^ 2 = 4 from rfl]
  omega

/-- Sample `k` of memory `m` with its low bits (R179). -/
def mergedSample (s : State) (m : Memory 8) (k : Nat) : Nat :=
  (4 * sample m k + (Memory.read s.inMem (s.lbaddr.toNat + k / 4)).toNat / 4 ^ (k % 4) % 4) % 65536

theorem mergeAt_of_fits {k : Nat} (hin : s.lbaddr.toNat + k / 4 < s.params.inSize)
    (hout : 2 * k + 1 < s.params.outSize) :
    ∃ v : BitVec 16, mergeAt k s = .ok () (s.withOut (Memory.write16 s.outMem k v)) ∧
      v.toNat = mergedSample s s.outMem k := by
  refine ⟨mergeSample (Memory.read s.outMem (2 * k + 1) ++ Memory.read s.outMem (2 * k))
    (lowBitsField (Memory.read s.inMem (s.lbaddr.toNat + k / 4)) k), ?_, ?_⟩
  · rw [mergeAt, inByte_of_lt hin, Res.bind_ok, out16_of_lt hout, Res.bind_ok, out16Write_eq_write16 _ hout]
  · rw [toNat_mergeSample _ _ (by rw [toNat_lowBitsField]; omega), toNat_append_sample, toNat_lowBitsField,
      mergedSample]

/-- The samples from `k` on are merged, each once, and nothing else changes (R179). -/
theorem mergeLoop_of_fits {n k : Nat} (h : MergeInside k n s) :
    ∃ m, mergeLoop n k s = .ok () (s.withOut m) ∧
      (∀ j, k ≤ j → j < k + n → sample m j = mergedSample s s.outMem j) ∧
      (∀ a, a < 2 * k ∨ 2 * (k + n) ≤ a → Memory.read m a = Memory.read s.outMem a) := by
  induction n generalizing k s with
  | zero => exact ⟨s.outMem, rfl, by omega, fun _ _ => rfl⟩
  | succ n ih =>
    obtain ⟨hin, hout⟩ := h
    obtain ⟨v, hat, hv⟩ := mergeAt_of_fits (s := s) (k := k) (by omega) (by omega)
    obtain ⟨m, hloop, hmerged, hsame⟩ := ih (k := k + 1) (s := s.withOut (Memory.write16 s.outMem k v))
      ⟨by simp only [State.withOut_params, State.withOut_lbaddr]; omega, by simp only [State.withOut_params]; omega⟩
    have hkept (a : Nat) (ha : a < 2 * (k + 1) ∨ 2 * (k + 1 + n) ≤ a) :
        Memory.read m a = Memory.read (Memory.write16 s.outMem k v) a := hsame a ha
    refine ⟨m, by rw [mergeLoop, hat, Res.bind_ok, hloop]; rfl, fun j hj hjn => ?_, fun a ha => ?_⟩
    · rcases Nat.lt_or_eq_of_le hj with hlt | rfl
      · rw [hmerged j hlt (by omega), mergedSample, State.withOut_outMem,
          sample_write16_other _ _ (Nat.ne_of_lt hlt)]
        rfl
      · rw [sample, hkept _ (by omega), hkept _ (by omega), ← hv]
        exact sample_write16_same _ _ _
    · rw [hkept a (by omega), Memory.read_write16_other _ _ _ (by omega)]

/-- Settles O25: the loop over the samples, and the test before it. -/
theorem crwMergeLowBits : Obligations.CrwMergeLowBits := by
  intro s hs
  have hexec : exec .crwMerge s = (crwMergeBody s).outcome := congrArg Res.outcome (needInput_of_le s _ hs)
  refine ⟨fun hfit hout => ?_, fun hcut => ?_⟩
  · obtain ⟨m, hloop, hmerged, hsame⟩ := mergeLoop_of_fits (s := s) (k := 0) (n := s.column.toNat)
      ⟨by rw [Nat.zero_add]; exact hfit.trans hs, by rwa [Nat.zero_add]⟩
    refine ⟨s.withOut m, ?_, rfl, fun k hk => hmerged k (Nat.zero_le k) (by omega), fun a ha => hsame a (by omega)⟩
    rw [hexec, crwMergeBody, if_neg (not_lt.2 hfit), hloop]
    rfl
  · rw [hexec, crwMergeBody, if_pos hcut]
    rfl

end Sys2Proof.Machine
end

section
/-! PROOFS. The differential reconstruction (R177): the bases after each position in closed form, and the samples that a
run of positions writes. -/

namespace Sys2Proof.Machine

open Sys2Proof.Ref

-- One declaration after another: as tasks, each would hold a thread of its own.
set_option Elab.async false

variable {s : State} {n : Nat}

/-! ### The bases in closed form -/

/-- The residual of position `i` for one parity (R177). -/
def parityResidual (s : State) (parity i : Nat) : Word := if i % 2 = parity then carriedResidual s i else 0#32

/-- The sum of the residuals of one parity at the `n - lo` positions from `lo` on. -/
def paritySumBelow (s : State) (parity lo n : Nat) : Word :=
  (((List.range n).filter fun k => decide (lo ≤ k) && k % 2 == parity).map (carriedResidual s)).sum

theorem paritySum_eq (s : State) (parity lo hi : Nat) :
    paritySum s parity lo hi = paritySumBelow s parity lo (hi + 1) := rfl

theorem paritySumBelow_of_le (s : State) (parity : Nat) {lo : Nat} (h : n ≤ lo) :
    paritySumBelow s parity lo n = 0#32 := by
  have hnone : (List.range n).filter (fun k => decide (lo ≤ k) && k % 2 == parity) = [] := by
    rw [List.filter_eq_nil_iff]
    intro k hk
    have : ¬ lo ≤ k := by have := List.mem_range.1 hk; omega
    simp [this]
  rw [paritySumBelow, hnone]
  rfl

theorem paritySumBelow_succ (s : State) (parity : Nat) {lo : Nat} (h : lo ≤ n) :
    paritySumBelow s parity lo (n + 1) = paritySumBelow s parity lo n + parityResidual s parity n := by
  by_cases hp : n % 2 = parity <;>
    simp [paritySumBelow, parityResidual, List.range_succ, h, hp]

/-- The base of one parity after the first `n` positions of a block. -/
def baseUpTo (s : State) (parity : Nat) : Nat → Word
  | 0 => if parity = 0 then s.base0 else s.base1
  | i + 1 => baseAfter s parity i

theorem lastRowStart_of_start {i : Nat} (h : (s.column.toNat + i) % s.width.toNat = 0) : lastRowStart s i = some i := by
  simp [lastRowStart, List.range_succ, h]

theorem lastRowStart_zero_of_not (h : (s.column.toNat + 0) % s.width.toNat ≠ 0) : lastRowStart s 0 = none := by
  simpa [lastRowStart, List.range_succ] using h

theorem lastRowStart_succ_of_not {i : Nat} (h : (s.column.toNat + (i + 1)) % s.width.toNat ≠ 0) :
    lastRowStart s (i + 1) = lastRowStart s i := by
  simp [lastRowStart, List.range_succ (n := i + 1), h]

theorem lastRowStart_le {i j : Nat} (h : lastRowStart s i = some j) : j ≤ i := by
  have := List.mem_of_find?_eq_some h
  rw [List.mem_reverse, List.mem_range] at this
  omega

/-- The row test and the addition of R177, on the closed form of a base. -/
theorem baseUpTo_succ (s : State) (parity i : Nat) :
    baseUpTo s parity (i + 1) =
      (if (s.column.toNat + i) % s.width.toNat = 0 then Config.baseReset else baseUpTo s parity i) +
        parityResidual s parity i := by
  show baseAfter s parity i = _
  unfold baseAfter
  by_cases h : (s.column.toNat + i) % s.width.toNat = 0
  · rw [lastRowStart_of_start h, if_pos h]
    simp [paritySum_eq, paritySumBelow_succ, paritySumBelow_of_le]
  rw [if_neg h]
  cases i with
  | zero =>
    rw [lastRowStart_zero_of_not h]
    simp [paritySum_eq, paritySumBelow_succ, paritySumBelow_of_le, baseUpTo]
  | succ i =>
    rw [lastRowStart_succ_of_not h, baseUpTo, baseAfter]
    cases hl : lastRowStart s i with
    | none =>
      simp only [paritySum_eq]
      rw [paritySumBelow_succ s parity (Nat.zero_le (i + 1)), add_assoc]
    | some j =>
      have := lastRowStart_le hl
      simp only [paritySum_eq]
      rw [paritySumBelow_succ s parity (by omega : j ≤ i + 1), add_assoc]

/-! ### The positions of a block -/

/-- What the loop of R177 writes. -/
@[simps] def State.withRecon (s : State) (m : Memory 8) (col b0 b1 : Word) : State :=
  { s with outMem := m, column := col, base0 := b0, base1 := b1 }

@[simp] theorem applyCarry_width (s : State) : (applyCarry s).width = s.width := by simp [applyCarry]
@[simp] theorem applyCarry_height (s : State) : (applyCarry s).height = s.height := by simp [applyCarry]
@[simp] theorem applyCarry_params (s : State) : (applyCarry s).params = s.params := by simp [applyCarry]

/-- `s` after the first `n` positions of a block, with `OUT` as in `m` (R177). -/
def reconState (s : State) (n : Nat) (m : Memory 8) : State :=
  (applyCarry s).withRecon m (s.column + BitVec.ofNat 32 n) (baseUpTo s 0 n) (baseUpTo s 1 n)

/-- The state in which position `n` is tested and written (R177): its residual is added to its base. -/
def reconAdded (s : State) (n : Nat) (m : Memory 8) : State :=
  (applyCarry s).withRecon m (s.column + BitVec.ofNat 32 n) (baseUpTo s 0 (n + 1)) (baseUpTo s 1 (n + 1))

theorem reconState_zero (s : State) : reconState s 0 s.outMem = applyCarry s := by
  simp [reconState, baseUpTo, applyCarry, State.withRecon]

theorem diffGet_applyCarry (s : State) (i : Nat) : diffGet (applyCarry s) i = carriedResidual s i := by
  have h : diffGet (applyCarry s) i = diffGet (s.withDiff 0 (diffGet s 0 + s.carry)) i := diffGet_congr (by rfl) i
  rw [h, diffGet_withDiff, carriedResidual]
  by_cases hi : i = 0
  · simp [hi]
  · simp [hi, Ne.symm hi]

theorem diffGet_withRecon (s : State) (m : Memory 8) (col b0 b1 : Word) (i : Nat) :
    diffGet (s.withRecon m col b0 b1) i = diffGet s i := diffGet_congr (by simp) i

theorem toNat_column_add (h : s.column.toNat + n < 2 ^ 32) :
    (s.column + BitVec.ofNat 32 n).toNat = s.column.toNat + n := by
  rw [BitVec.toNat_add, BitVec.toNat_ofNat]
  omega

/-- The row test and the addition at position `n` (R177). -/
theorem addResidual_rowTest_reconState (m : Memory 8) (h : s.column.toNat + n < 2 ^ 32) :
    addResidual n (rowTest (reconState s n m)) = reconAdded s n m := by
  have hrow : rowTest (reconState s n m) = (applyCarry s).withRecon m (s.column + BitVec.ofNat 32 n)
      (if (s.column.toNat + n) % s.width.toNat = 0 then Config.baseReset else baseUpTo s 0 n)
      (if (s.column.toNat + n) % s.width.toNat = 0 then Config.baseReset else baseUpTo s 1 n) := by
    rw [rowTest, reconState, State.withRecon_column, State.withRecon_width, toNat_column_add h, applyCarry_width]
    split <;> simp [State.withRecon]
  rw [hrow, addResidual, diffGet_withRecon, diffGet_applyCarry, reconAdded, baseUpTo_succ, baseUpTo_succ,
    parityResidual, parityResidual]
  rcases Nat.mod_two_eq_zero_or_one n with hn | hn <;> simp [hn, State.withRecon]

theorem baseOf_reconAdded (s : State) (n : Nat) (m : Memory 8) :
    baseOf (reconAdded s n m) n = baseAfter s (n % 2) n := by
  rcases Nat.mod_two_eq_zero_or_one n with hn | hn <;> simp [baseOf, reconAdded, hn, baseUpTo]

/-- One position of R177 behind its row test and its addition. -/
theorem reconSample_of_added {i : Nat} {u : State} (hu : addResidual i (rowTest s) = u)
    (himage : u.column.toNat < u.width.toNat * u.height.toNat) (hout : 2 * u.column.toNat + 1 < u.params.outSize) :
    reconSample i s = .ok () (u.withRecon
      (Memory.write16 u.outMem u.column.toNat ((baseOf u i).extractLsb' 0 16)) (u.column + 1#32) u.base0 u.base1) := by
  rw [reconSample, hu, if_neg (by omega), out16Write_eq_write16 _ hout]
  rfl

/-- Position `n` of a block has room in the image and in `OUT` (R177). -/
def SampleFits (s : State) (n : Nat) : Prop :=
  s.column.toNat + n < s.width.toNat * s.height.toNat ∧ 2 * (s.column.toNat + n) + 1 < s.params.outSize

theorem reconSample_of_fits (m : Memory 8) (hsize : s.params.outSize ≤ 2 ^ 32) (h : SampleFits s n) :
    reconSample n (reconState s n m) = .ok () (reconState s (n + 1)
      (Memory.write16 m (s.column.toNat + n) ((baseAfter s (n % 2) n).extractLsb' 0 16))) := by
  obtain ⟨himage, hout⟩ := h
  have hcol := toNat_column_add (s := s) (n := n) (by omega)
  rw [reconSample_of_added (addResidual_rowTest_reconState m (by omega)) (by simpa [reconAdded, hcol] using himage)
    (by simpa [reconAdded, hcol] using hout), baseOf_reconAdded]
  simp [reconAdded, reconState, State.withRecon, hcol, BitVec.ofNat_add, add_assoc]

/-- The `k` positions from `n` on, all of which have room: each sample is the low half of its base, and no other byte
changes (R177, R178). -/
theorem reconLoop_of_fits {k : Nat} (m : Memory 8) (hsize : s.params.outSize ≤ 2 ^ 32)
    (h : ∀ i, i < n + k → SampleFits s i) :
    ∃ m', reconLoop k n (reconState s n m) = .ok () (reconState s (n + k) m') ∧
      (∀ i, n ≤ i → i < n + k → sample m' (s.column.toNat + i) = (baseAfter s (i % 2) i).toNat % 65536) ∧
      (∀ a, a < 2 * (s.column.toNat + n) ∨ 2 * (s.column.toNat + (n + k)) ≤ a →
        Memory.read m' a = Memory.read m a) := by
  induction k generalizing n m with
  | zero => exact ⟨m, rfl, by omega, fun _ _ => rfl⟩
  | succ k ih =>
    obtain ⟨m', hloop, hsamples, hsame⟩ := ih (n := n + 1)
      (Memory.write16 m (s.column.toNat + n) ((baseAfter s (n % 2) n).extractLsb' 0 16)) fun i hi => h i (by omega)
    refine ⟨m', ?_, fun i hi hik => ?_, fun a ha => ?_⟩
    · rw [reconLoop, reconSample_of_fits m hsize (h n (by omega)), Res.bind_ok, hloop, Nat.add_right_comm,
        Nat.add_assoc]
    · rcases Nat.lt_or_eq_of_le hi with hlt | rfl
      · exact hsamples i hlt (by omega)
      · rw [sample, hsame _ (by omega), hsame _ (by omega), ← sample, sample_write16_same, BitVec.extractLsb'_toNat,
          Nat.shiftRight_zero]
    · rw [hsame a (by omega), Memory.read_write16_other _ _ _ (by omega)]

/-- Settles O23: the 64 positions of the block from the state with the carry applied. -/
theorem crwReconWritesSamples : Obligations.CrwReconWritesSamples := by
  intro s hsize hwidth himage hout
  obtain ⟨m, hloop, hsamples, hsame⟩ := reconLoop_of_fits (s := s) (n := 0) (k := 64) s.outMem hsize
    fun i hi => ⟨by omega, by omega⟩
  have hw : s.width ≠ 0#32 := by rintro h; simp [h] at hwidth
  have hexec : exec .crwRecon s = .next { reconState s 64 m with block := (reconState s 64 m).block + 1#32 } := by
    show (crwReconBody s).outcome = _
    rw [crwReconBody, if_neg hw, ← reconState_zero, Config.blockLen, hloop, Res.bind_ok, Res.outcome_ok]
  refine ⟨_, hexec, ?_, fun i => ?_, fun i hi => ?_, fun a ha => ?_⟩
  · simp [reconState, State.withRecon, applyCarry, baseUpTo]
  · exact (diffGet_congr (by simp [reconState]) i).trans (diffGet_applyCarry s i)
  · exact hsamples i (Nat.zero_le i) (by omega)
  · exact hsame a (by omega)

end Sys2Proof.Machine
end

section
/-! PROOFS. The SGI scanline decoder (R232 to R236) against a scan of the scanline's bytes, which says for every list of
bytes what is written, how many bytes are consumed and which error, if any, ends it. -/

namespace Sys2Proof.Machine

open Sys2Proof.Ref

-- One declaration after another: as tasks, each would hold a thread of its own.
set_option Elab.async false

variable {s t u : State}

/-! ### The scan of a scanline's bytes -/

/-- How a scan ends: the error that ends it, if one does, the bytes written until then and how many are consumed. -/
abbrev ScanEnd := Option ErrCode × List Byte × Nat

/-- A scan that goes on after it has written `bs` and consumed `n` bytes. -/
def ScanEnd.after (bs : List Byte) (n : Nat) (r : ScanEnd) : ScanEnd := (r.1, bs ++ r.2.1, n + r.2.2)

/-- The scan of a scanline's bytes, of at most as many control bytes as the first argument (R232 to R235): `sgiExpand`
and `sgiFault` in one. -/
def sgiScan : Nat → List Byte → Nat → ScanEnd
  | 0, _, _ => (none, [], 0)
  | _ + 1, [], _ => (none, [], 0)
  | fuel + 1, ctl :: rest, room =>
    let cnt := ctl.toNat % 128
    if cnt = 0 then (none, [], 1)
    else if room < cnt then (some .overflow, [], 1)
    else if 128 ≤ ctl.toNat then
      if rest.length < cnt then (some .eos, [], 1)
      else (sgiScan fuel (rest.drop cnt) (room - cnt)).after (rest.take cnt) (1 + cnt)
    else
      match rest with
      | [] => (some .eos, [], 1)
      | v :: rest => (sgiScan fuel rest (room - cnt)).after (List.replicate cnt v) 2

/-- What a scan that no error ends gives. -/
def ScanEnd.expansion : ScanEnd → Option (List Byte × Nat)
  | (none, r) => some r
  | (some _, _) => none

/-- What a scan that an error ends gives. -/
def ScanEnd.fault : ScanEnd → Option (ErrCode × List Byte × Nat)
  | (none, _) => none
  | (some e, r) => some (e, r)

theorem ScanEnd.expansion_after (bs : List Byte) (n : Nat) (r : ScanEnd) :
    (r.after bs n).expansion = r.expansion.map fun x => (bs ++ x.1, n + x.2) := by
  obtain ⟨_ | e, r⟩ := r <;> rfl

theorem ScanEnd.fault_after (bs : List Byte) (n : Nat) (r : ScanEnd) :
    (r.after bs n).fault = r.fault.map fun x => (x.1, bs ++ x.2.1, n + x.2.2) := by
  obtain ⟨_ | e, r⟩ := r <;> rfl

theorem ScanEnd.eq_of_expansion {r : ScanEnd} {bs : List Byte} {n : Nat} (h : r.expansion = some (bs, n)) :
    r = (none, bs, n) := by
  obtain ⟨_ | e, r⟩ := r
  · rw [Option.some.inj h]
  · cases h

theorem ScanEnd.eq_of_fault {r : ScanEnd} {e : ErrCode} {bs : List Byte} {n : Nat} (h : r.fault = some (e, bs, n)) :
    r = (some e, bs, n) := by
  obtain ⟨_ | d, r⟩ := r
  · cases h
  · cases h; rfl

theorem sgiExpand_eq (fuel : Nat) (bytes : List Byte) (room : Nat) :
    sgiExpand fuel bytes room = (sgiScan fuel bytes room).expansion := by
  induction fuel generalizing bytes room with
  | zero => rfl
  | succ fuel ih =>
    cases bytes with
    | nil => rfl
    | cons ctl rest =>
      simp only [sgiExpand, sgiScan]
      split_ifs with hend hroom htype hcut
      · rfl
      · rfl
      · rfl
      · rw [ih, ScanEnd.expansion_after]
      · cases rest with
        | nil => rfl
        | cons v rest => simp only [ih, ScanEnd.expansion_after]

theorem sgiFault_eq (fuel : Nat) (bytes : List Byte) (room : Nat) :
    sgiFault fuel bytes room = (sgiScan fuel bytes room).fault := by
  induction fuel generalizing bytes room with
  | zero => rfl
  | succ fuel ih =>
    cases bytes with
    | nil => rfl
    | cons ctl rest =>
      simp only [sgiFault, sgiScan]
      split_ifs with hend hroom htype hcut
      · rfl
      · rfl
      · rfl
      · rw [ih, ScanEnd.fault_after]
      · cases rest with
        | nil => rfl
        | cons v rest => simp only [ih, ScanEnd.fault_after]

/-! ### One control byte of the scan -/

section ControlByte
variable {fuel room : Nat} {ctl : Byte} {rest : List Byte}

theorem sgiScan_end (h : ctl.toNat % 128 = 0) : sgiScan (fuel + 1) (ctl :: rest) room = (none, [], 1) := by
  rw [sgiScan.eq_def]
  exact if_pos h

theorem sgiScan_overflow (h : room < ctl.toNat % 128) :
    sgiScan (fuel + 1) (ctl :: rest) room = (some .overflow, [], 1) := by
  rw [sgiScan.eq_def]
  dsimp only
  rw [if_neg (by omega), if_pos h]

theorem sgiScan_verbatim_cut (h : ctl.toNat % 128 ≤ room) (htype : 128 ≤ ctl.toNat)
    (hcut : rest.length < ctl.toNat % 128) : sgiScan (fuel + 1) (ctl :: rest) room = (some .eos, [], 1) := by
  rw [sgiScan.eq_def]
  dsimp only
  rw [if_neg (by omega), if_neg (by omega), if_pos htype, if_pos hcut]

theorem sgiScan_verbatim (h0 : ctl.toNat % 128 ≠ 0) (h : ctl.toNat % 128 ≤ room) (htype : 128 ≤ ctl.toNat)
    (hfit : ctl.toNat % 128 ≤ rest.length) : sgiScan (fuel + 1) (ctl :: rest) room =
      (sgiScan fuel (rest.drop (ctl.toNat % 128)) (room - ctl.toNat % 128)).after (rest.take (ctl.toNat % 128))
        (1 + ctl.toNat % 128) := by
  rw [sgiScan.eq_def]
  dsimp only
  rw [if_neg h0, if_neg (by omega), if_pos htype, if_neg (by omega)]

theorem sgiScan_repeat_cut (h0 : ctl.toNat % 128 ≠ 0) (h : ctl.toNat % 128 ≤ room) (htype : ¬ 128 ≤ ctl.toNat) :
    sgiScan (fuel + 1) [ctl] room = (some .eos, [], 1) := by
  rw [sgiScan.eq_def]
  dsimp only
  rw [if_neg h0, if_neg (by omega), if_neg htype]

theorem sgiScan_repeat (h0 : ctl.toNat % 128 ≠ 0) (h : ctl.toNat % 128 ≤ room) (htype : ¬ 128 ≤ ctl.toNat) (v : Byte) :
    sgiScan (fuel + 1) (ctl :: v :: rest) room =
      (sgiScan fuel rest (room - ctl.toNat % 128)).after (List.replicate (ctl.toNat % 128) v) 2 := by
  rw [sgiScan.eq_def]
  dsimp only
  rw [if_neg h0, if_neg (by omega), if_neg htype]

end ControlByte

/-! ### The bytes of a scanline -/

theorem toNat_count (ctl : Byte) : (ctl.extractLsb' 0 7).toNat = ctl.toNat % 128 := by
  rw [BitVec.extractLsb'_toNat, Nat.shiftRight_zero]

theorem verbatim_iff (ctl : Byte) : ctl.extractLsb' 7 1 = 1#1 ↔ 128 ≤ ctl.toNat := by
  have := ctl.isLt
  rw [← BitVec.toNat_inj, BitVec.extractLsb'_toNat, Nat.shiftRight_eq_div_pow]
  simp only [BitVec.toNat_ofNat]
  omega

theorem count_eq_zero_iff (ctl : Byte) : ctl.extractLsb' 0 7 = 0#7 ↔ ctl.toNat % 128 = 0 := by
  rw [← BitVec.toNat_inj, toNat_count]; rfl

/-- Both cursors moved on, with `OUT` as in `m` (R233, R234). -/
def State.lineAdvance (s : State) (n p : Nat) (m : Memory 8) : State :=
  ((s.withOut m).withIpos (BitVec.ofNat 32 (s.ipos.toNat + p))).withX (s.x.toNat + n)

theorem toNat_succ_of_lt {v : Word} {e : Nat} (h : v.toNat < e) (he : e < 2 ^ 32) : (v + 1#32).toNat = v.toNat + 1 := by
  rw [BitVec.toNat_add, BitVec.toNat_ofNat]; omega

/-- The bytes of the scanline that are left (R235). -/
def lineBytes (s : State) : List Byte := Memory.readAll s.inMem s.ipos.toNat (s.loc.lineEnd - s.ipos.toNat)

theorem Memory.readAll_drop {w : Nat} (m : Memory w) (a n k : Nat) :
    (Memory.readAll m a n).drop k = Memory.readAll m (a + k) (n - k) := by
  induction k generalizing a n with
  | zero => rfl
  | succ k ih =>
    cases n with
    | zero => simp [Memory.readAll]
    | succ n => rw [Memory.readAll, List.drop_succ_cons, ih, Nat.succ_sub_succ, Nat.add_right_comm, Nat.add_assoc]

theorem Memory.readAll_take {w : Nat} (m : Memory w) (a : Nat) {n k : Nat} (h : k ≤ n) :
    (Memory.readAll m a n).take k = Memory.readAll m a k := by
  induction k generalizing a n with
  | zero => rfl
  | succ k ih =>
    obtain ⟨n, rfl⟩ : ∃ l, n = l + 1 := ⟨n - 1, by omega⟩
    rw [Memory.readAll, List.take_succ_cons, ih _ (by omega), Memory.readAll]

theorem lineBytes_of_le (h : s.loc.lineEnd ≤ s.ipos.toNat) : lineBytes s = [] := by
  rw [lineBytes, Nat.sub_eq_zero_of_le h]
  rfl

/-- The bytes behind the next control byte. -/
def restBytes (s : State) : List Byte :=
  Memory.readAll s.inMem (s.ipos.toNat + 1) (s.loc.lineEnd - (s.ipos.toNat + 1))

theorem length_restBytes (s : State) : (restBytes s).length = s.loc.lineEnd - (s.ipos.toNat + 1) :=
  Memory.length_readAll _ _ _

theorem lineBytes_of_lt (h : s.ipos.toNat < s.loc.lineEnd) :
    lineBytes s = Memory.read s.inMem s.ipos.toNat :: restBytes s := by
  obtain ⟨k, hk⟩ : ∃ k, s.loc.lineEnd - s.ipos.toNat = k + 1 := ⟨s.loc.lineEnd - s.ipos.toNat - 1, by omega⟩
  rw [lineBytes, hk, Memory.readAll, restBytes, show s.loc.lineEnd - (s.ipos.toNat + 1) = k by omega]

theorem restBytes_of_le (h : s.loc.lineEnd ≤ s.ipos.toNat + 1) : restBytes s = [] := by
  rw [restBytes, Nat.sub_eq_zero_of_le h]
  rfl

theorem restBytes_of_lt (h : s.ipos.toNat + 1 < s.loc.lineEnd) :
    restBytes s = Memory.read s.inMem (s.ipos.toNat + 1) :: (restBytes s).drop 1 := by
  obtain ⟨k, hk⟩ : ∃ k, s.loc.lineEnd - (s.ipos.toNat + 1) = k + 1 := ⟨s.loc.lineEnd - s.ipos.toNat - 2, by omega⟩
  rw [restBytes, hk, Memory.readAll, List.drop_one, List.tail_cons]

/-! ### What is written and consumed so far -/

section Advance
variable {n p : Nat} {m : Memory 8}

theorem LineSafe.lineAdvance (h : LineSafe s) (hp : s.ipos.toNat + p ≤ s.loc.lineEnd)
    (hx : s.x.toNat + n ≤ s.width.toNat) : LineSafe (s.lineAdvance n p m) :=
  h.advance (u := s.withOut m) rfl hp hx

theorem toNat_ipos_lineAdvance (h : LineSafe s) (hp : s.ipos.toNat + p ≤ s.loc.lineEnd) :
    (s.lineAdvance n p m).ipos.toNat = s.ipos.toNat + p := by
  have hend := h.2.1
  show (BitVec.ofNat 32 (s.ipos.toNat + p)).toNat = _
  rw [BitVec.toNat_ofNat]
  omega

theorem toNat_x_lineAdvance (hx : s.x.toNat + n ≤ s.width.toNat) :
    (s.lineAdvance n p m).x.toNat = s.x.toNat + n := by
  have hw := s.width.isLt
  show (BitVec.ofNat 32 (s.x.toNat + n)).toNat = _
  rw [BitVec.toNat_ofNat]
  omega

theorem lineBytes_lineAdvance (h : LineSafe s) (hp : s.ipos.toNat + (1 + p) ≤ s.loc.lineEnd) :
    lineBytes (s.lineAdvance n (1 + p) m) = (restBytes s).drop p := by
  rw [lineBytes, toNat_ipos_lineAdvance h hp, restBytes, Memory.readAll_drop, ← Nat.sub_add_eq, Nat.add_assoc]
  rfl

theorem lineAdvance_lineAdvance (h : LineSafe s) (hp : s.ipos.toNat + p ≤ s.loc.lineEnd)
    (hx : s.x.toNat + n ≤ s.width.toNat) (n' p' : Nat) (m' : Memory 8) :
    (s.lineAdvance n p m).lineAdvance n' p' m' = s.lineAdvance (n + n') (p + p') m' := by
  rw [State.lineAdvance, toNat_ipos_lineAdvance h hp, toNat_x_lineAdvance hx, Nat.add_assoc, Nat.add_assoc]
  simp only [State.lineAdvance, State.withOut, State.withIpos, State.withX]

theorem lineAdvance_zero (s : State) : s.lineAdvance 0 0 s.outMem = s := by
  simp [State.lineAdvance, State.withOut, State.withIpos, State.withX]

end Advance

/-- The end of a scan as the end of the pseudocode (R235). -/
def Res.ended (e : Option ErrCode) (t : State) : Res Unit :=
  match e with
  | none => .ok () t
  | some e => .raised (t.raise e)

/-- From `s` on, the decoding of the scanline ends as the scan `r` of its bytes says (R235). -/
def LineScanned (s : State) (o : Res Unit) (r : ScanEnd) : Prop :=
  ∃ m l, BytesWritten s.outMem m (s.loc.lineDst + s.x.toNat) r.2.1 ∧
    o = Res.ended r.1 ((s.lineAdvance r.2.1.length r.2.2 m).withLoc l)

theorem bytesWritten_nil (m : Memory 8) (a : Nat) : BytesWritten m m a [] := ⟨by simp, fun _ _ => rfl⟩

/-- Bytes written one run after the other. -/
theorem bytesWritten_append {m m' m'' : Memory 8} {a : Nat} {bs cs : List Byte} (h : BytesWritten m m' a bs)
    (h' : BytesWritten m' m'' (a + bs.length) cs) : BytesWritten m m'' a (bs ++ cs) := by
  obtain ⟨hbs, hsame⟩ := h
  obtain ⟨hcs, hsame'⟩ := h'
  refine ⟨fun k hk => ?_, fun b hb => ?_⟩
  · by_cases hlt : k < bs.length
    · rw [hsame' _ (by omega), hbs k hlt, List.getD_append _ _ _ _ hlt]
    · rw [List.length_append] at hk
      rw [List.getD_append_right _ _ _ _ (by omega), ← hcs _ (by omega)]
      congr 1
      omega
  · rw [List.length_append] at hb
    rw [hsame' b (by omega), hsame b (by omega)]

/-- A scan that goes on after a run (R233, R234). -/
theorem LineScanned.after {o : Res Unit} {r : ScanEnd} {bs : List Byte} {p : Nat} (hs : LineSafe s)
    (hp : s.ipos.toNat + p ≤ s.loc.lineEnd) (hx : s.x.toNat + bs.length ≤ s.width.toNat)
    (h : LineScanned
      (s.lineAdvance bs.length p (Memory.writeAll s.outMem (s.loc.lineDst + s.x.toNat) bs)) o r) :
    LineScanned s o (r.after bs p) := by
  obtain ⟨m, l, hm, ho⟩ := h
  refine ⟨m, l, bytesWritten_append (bytesWritten_writeAll _ _ bs) ?_, ?_⟩
  · rw [toNat_x_lineAdvance hx, ← Nat.add_assoc] at hm
    exact hm
  · rw [ho, lineAdvance_lineAdvance hs hp hx, ScanEnd.after, List.length_append]

/-! ### The commands behind their tests -/

theorem Res.Post.eq_ok {r : Res Unit} {safe : Prop} (hr : r.Post (fun _ t => t = u) (fun _ => False) safe)
    (hsafe : safe) : r = .ok () u := by
  cases r with
  | ok a t => rw [show t = u from hr]
  | raised t => exact hr.elim
  | stop f => exact absurd hsafe hr

theorem sgiVerbatimBody_overflow {count : BitVec 7} (h : s.width.toNat < s.x.toNat + count.toNat) :
    sgiVerbatimBody count s = raise .overflow s := if_pos h

theorem sgiVerbatimBody_cut {count : BitVec 7} (hroom : s.x.toNat + count.toNat ≤ s.width.toNat)
    (h : s.loc.lineEnd < s.ipos.toNat + count.toNat) : sgiVerbatimBody count s = raise .eos s :=
  (if_neg (not_lt.2 hroom)).trans (if_pos h)

theorem sgiRepeatBody_overflow {count : BitVec 7} (h : s.width.toNat < s.x.toNat + count.toNat) :
    sgiRepeatBody count s = raise .overflow s := if_pos h

theorem sgiRepeatBody_cut {count : BitVec 7} (hroom : s.x.toNat + count.toNat ≤ s.width.toNat)
    (h : s.ipos.toNat = s.loc.lineEnd) : sgiRepeatBody count s = raise .eos s :=
  (if_neg (not_lt.2 hroom)).trans (if_pos h)

/-- A verbatim run (R233), from the state in which its control byte is still to be fetched. -/
theorem sgiVerbatimBody_of_fits {count : BitVec 7} (hs : LineSafe s) (hpos : s.ipos.toNat < s.loc.lineEnd)
    (hroom : s.x.toNat + count.toNat ≤ s.width.toNat) (hin : s.ipos.toNat + (1 + count.toNat) ≤ s.loc.lineEnd) :
    sgiVerbatimBody count (s.withIpos (s.ipos + 1#32)) =
      .ok () (s.lineAdvance count.toNat (1 + count.toNat) (Memory.writeAll s.outMem (s.loc.lineDst + s.x.toNat)
        (Memory.readAll s.inMem (s.ipos.toNat + 1) count.toNat))) := by
  obtain ⟨hend, hlt, -, -, hdst⟩ := hs
  have hnext := toNat_succ_of_lt hpos hlt
  have hcopy := (copyRun_writes count.toNat (s.ipos + 1#32).toNat (s.loc.lineDst + s.x.toNat)
    (s.withIpos (s.ipos + 1#32))).eq_ok (by rw [hnext, State.withIpos_params]; omega)
  simp only [sgiVerbatimBody, State.withIpos_x, State.withIpos_width, State.withIpos_loc, State.withIpos_ipos]
  rw [if_neg (by omega), if_neg (by omega), hcopy, Res.bind_ok, hnext, State.lineAdvance, ← Nat.add_assoc,
    State.withOut_ipos, State.withIpos_ipos, hnext]
  rfl

/-- A repeat run (R234), from the state in which its control byte is still to be fetched. -/
theorem sgiRepeatBody_of_fits {count : BitVec 7} (hs : LineSafe s) (hin : s.ipos.toNat + 2 ≤ s.loc.lineEnd)
    (hroom : s.x.toNat + count.toNat ≤ s.width.toNat) :
    sgiRepeatBody count (s.withIpos (s.ipos + 1#32)) =
      .ok () (s.lineAdvance count.toNat 2 (Memory.writeAll s.outMem (s.loc.lineDst + s.x.toNat)
        (List.replicate count.toNat (Memory.read s.inMem (s.ipos.toNat + 1))))) := by
  obtain ⟨hend, hlt, -, -, hdst⟩ := hs
  have hnext := toNat_succ_of_lt (v := s.ipos) (e := s.loc.lineEnd) (by omega) hlt
  have hread : inByte (s.ipos + 1#32).toNat (s.withIpos (s.ipos + 1#32)) =
      .ok (Memory.read s.inMem (s.ipos.toNat + 1)) (s.withIpos (s.ipos + 1#32)) := by
    rw [inByte_of_lt (by rw [hnext, State.withIpos_params]; omega), hnext, State.withIpos_inMem]
  have hfill := (fillRun_writes count.toNat (Memory.read s.inMem (s.ipos.toNat + 1)) (s.loc.lineDst + s.x.toNat)
    ((s.withIpos (s.ipos + 1#32)).withIpos (s.ipos + 1#32 + 1#32))).eq_ok (by simp only [State.withIpos_params]; omega)
  have hpos : s.ipos + 1#32 + 1#32 = BitVec.ofNat 32 (s.ipos.toNat + 2) := by
    rw [← ofNat_toNat_add_one, hnext]
  simp only [sgiRepeatBody, State.withIpos_x, State.withIpos_width, State.withIpos_loc, State.withIpos_ipos]
  rw [if_neg (by omega), if_neg (by omega), hread, Res.bind_ok, State.withIpos_ipos, State.withIpos_loc, hfill,
    Res.bind_ok, hpos]
  rfl

/-! ### The loop -/

/-- One round of the loop (R235). -/
theorem lineLoop_succ (fuel : Nat) (hs : LineSafe s) (hpos : s.ipos.toNat < s.loc.lineEnd) (hgo : s.loc.ended = false) :
    lineLoop (fuel + 1) s =
      (sgiCommand (Memory.read s.inMem s.ipos.toNat) (s.withIpos (s.ipos + 1#32))).bind fun _ => lineLoop fuel := by
  have hend := hs.1
  rw [lineLoop, if_neg (by rw [hgo]; simp; omega), inByte_of_lt (by omega)]
  rfl

theorem lineLoop_of_ended (fuel : Nat) (h : s.loc.ended = true) : lineLoop fuel s = .ok () s := by
  cases fuel with
  | zero => rfl
  | succ fuel => rw [lineLoop, if_pos (.inr h)]

/-- A scan that stops right behind the control byte, with or without an error. -/
theorem lineScanned_stop (s : State) (e : Option ErrCode) (l : Locals) :
    LineScanned s (Res.ended e ((s.withIpos (s.ipos + 1#32)).withLoc l)) (e, [], 1) := by
  refine ⟨s.outMem, l, bytesWritten_nil _ _, ?_⟩
  rw [← ofNat_toNat_add_one]
  simp [State.lineAdvance, State.withOut, State.withIpos, State.withX]

theorem lineScanned_start (s : State) : LineScanned s (.ok () s) (none, [], 0) :=
  ⟨s.outMem, s.loc, bytesWritten_nil _ _, congrArg (Res.ok ()) (lineAdvance_zero s).symm⟩

/-- `fuel` rounds of the loop decode any scanline as the scan of its bytes says (R235). -/
def LoopScans (fuel : Nat) : Prop :=
  ∀ s, LineSafe s → s.loc.ended = false →
    LineScanned s (lineLoop fuel s) (sgiScan fuel (lineBytes s) (s.width.toNat - s.x.toNat))

/-- A run of `n` bytes behind its tests: the loop goes on behind it, and so does the scan (R233, R234). -/
theorem LoopScans.run {fuel n p : Nat} {r : Res Unit} {bs : List Byte} (hfuel : LoopScans fuel) (hs : LineSafe s)
    (hgo : s.loc.ended = false) (hn : bs.length = n) (hp : s.ipos.toNat + (1 + p) ≤ s.loc.lineEnd)
    (hx : s.x.toNat + n ≤ s.width.toNat)
    (hrun : r = .ok () (s.lineAdvance n (1 + p) (Memory.writeAll s.outMem (s.loc.lineDst + s.x.toNat) bs))) :
    LineScanned s (r.bind fun _ => lineLoop fuel)
      ((sgiScan fuel ((restBytes s).drop p) (s.width.toNat - s.x.toNat - n)).after bs (1 + p)) := by
  subst hn
  have hloop := hfuel _ (hs.lineAdvance (m := Memory.writeAll s.outMem (s.loc.lineDst + s.x.toNat) bs) hp hx) hgo
  rw [lineBytes_lineAdvance hs hp, toNat_x_lineAdvance hx, Nat.sub_add_eq] at hloop
  rw [hrun, Res.bind_ok]
  exact hloop.after hs hp hx

/-- A run that raises an error right behind its control byte (R233, R234). -/
theorem lineScanned_raise {fuel : Nat} (s : State) (e : ErrCode) :
    LineScanned s ((raise e (s.withIpos (s.ipos + 1#32)) : Res Unit).bind fun _ => lineLoop fuel) (some e, [], 1) :=
  lineScanned_stop s (some e) s.loc

section Run
variable {fuel : Nat} {ctl : Byte} (hfuel : LoopScans fuel) (hs : LineSafe s) (hgo : s.loc.ended = false)
  (hpos : s.ipos.toNat < s.loc.lineEnd) (h0 : ctl.toNat % 128 ≠ 0)
include hfuel hs hgo hpos h0

/-- A verbatim run in the loop (R233). -/
theorem LoopScans.verbatimRun (htype : 128 ≤ ctl.toNat) :
    LineScanned s
      ((sgiVerbatimBody (ctl.extractLsb' 0 7) (s.withIpos (s.ipos + 1#32))).bind fun _ => lineLoop fuel)
      (sgiScan (fuel + 1) (ctl :: restBytes s) (s.width.toNat - s.x.toNat)) := by
  obtain ⟨hin, hend, hle, hx, hdst⟩ := id hs
  have hnext := toNat_succ_of_lt hpos hend
  have hcount := toNat_count ctl
  have hlen := length_restBytes s
  by_cases hroom : s.width.toNat - s.x.toNat < ctl.toNat % 128
  · rw [sgiScan_overflow hroom,
      sgiVerbatimBody_overflow (by simp only [State.withIpos_width, State.withIpos_x]; omega)]
    exact lineScanned_raise s _
  by_cases hcut : (restBytes s).length < ctl.toNat % 128
  · rw [sgiScan_verbatim_cut (not_lt.1 hroom) htype hcut, sgiVerbatimBody_cut
      (by simp only [State.withIpos_width, State.withIpos_x]; omega)
      (by simp only [State.withIpos_loc, State.withIpos_ipos]; omega)]
    exact lineScanned_raise s _
  have htake : (restBytes s).take (ctl.toNat % 128) = Memory.readAll s.inMem (s.ipos.toNat + 1) (ctl.toNat % 128) :=
    Memory.readAll_take _ _ (by omega)
  rw [sgiScan_verbatim h0 (not_lt.1 hroom) htype (not_lt.1 hcut), htake, ← hcount]
  exact hfuel.run hs hgo (Memory.length_readAll _ _ _) (by omega) (by omega)
    (sgiVerbatimBody_of_fits hs hpos (by omega) (by omega))

/-- A repeat run in the loop (R234). -/
theorem LoopScans.repeatRun (htype : ¬ 128 ≤ ctl.toNat) :
    LineScanned s
      ((sgiRepeatBody (ctl.extractLsb' 0 7) (s.withIpos (s.ipos + 1#32))).bind fun _ => lineLoop fuel)
      (sgiScan (fuel + 1) (ctl :: restBytes s) (s.width.toNat - s.x.toNat)) := by
  obtain ⟨hin, hend, hle, hx, hdst⟩ := id hs
  have hnext := toNat_succ_of_lt hpos hend
  have hcount := toNat_count ctl
  by_cases hroom : s.width.toNat - s.x.toNat < ctl.toNat % 128
  · rw [sgiScan_overflow hroom,
      sgiRepeatBody_overflow (by simp only [State.withIpos_width, State.withIpos_x]; omega)]
    exact lineScanned_raise s _
  by_cases hcut : s.ipos.toNat + 1 = s.loc.lineEnd
  · rw [restBytes_of_le hcut.ge, sgiScan_repeat_cut h0 (not_lt.1 hroom) htype, sgiRepeatBody_cut
      (by simp only [State.withIpos_width, State.withIpos_x]; omega)
      (by simp only [State.withIpos_loc, State.withIpos_ipos]; omega)]
    exact lineScanned_raise s _
  rw [restBytes_of_lt (by omega), sgiScan_repeat h0 (not_lt.1 hroom) htype, ← hcount]
  exact hfuel.run (p := 1) hs hgo List.length_replicate (by omega) (by omega)
    (sgiRepeatBody_of_fits hs (by omega) (by omega))

end Run

/-- The loop of R235 decodes the scanline as the scan of its bytes says. -/
theorem loopScans (fuel : Nat) : LoopScans fuel := by
  induction fuel with
  | zero => exact fun s _ _ => lineScanned_start s
  | succ fuel ih =>
    intro s hs hgo
    obtain ⟨-, -, hle, -⟩ := id hs
    rcases Nat.lt_or_eq_of_le hle with hpos | hpos
    · rw [lineBytes_of_lt hpos, lineLoop_succ fuel hs hpos hgo]
      generalize Memory.read s.inMem s.ipos.toNat = ctl
      unfold sgiCommand
      split_ifs with hzero htype
      · rw [sgiScan_end ((count_eq_zero_iff ctl).1 hzero), sgiEndBody, Res.bind_ok, lineLoop_of_ended _ rfl]
        exact lineScanned_stop s none _
      · exact ih.verbatimRun hs hgo hpos (mt (count_eq_zero_iff ctl).2 hzero) ((verbatim_iff ctl).1 htype)
      · exact ih.repeatRun hs hgo hpos (mt (count_eq_zero_iff ctl).2 hzero) (mt (verbatim_iff ctl).2 htype)
    · rw [lineBytes_of_le hpos.ge, lineLoop, if_pos (.inl hpos)]
      exact lineScanned_start s

/-! ### The scanline -/

/-- Where the bytes of scanline `(c, r)` begin in `IN` (R75, R235). -/
def scanlineOffset (s : State) (c r : Word) : Nat := (Memory.read s.offtab (sgiIndex s c.toNat r.toNat)).toNat

/-- How many bytes scanline `(c, r)` has (R75, R235). -/
def scanlineLength (s : State) (c r : Word) : Nat := (Memory.read s.lentab (sgiIndex s c.toNat r.toNat)).toNat

/-- Scanline `(c, r)` with `n` bytes written and `p` consumed, with `OUT` as in `m` (R235). -/
def lineState (s : State) (c r : Word) (n p : Nat) (m : Memory 8) : State :=
  { s.startLine c r with
    x := BitVec.ofNat 32 n, ipos := BitVec.ofNat 32 (scanlineOffset s c r + p), outMem := m, loc := {} }

/-- The scan of scanline `(c, r)` (R235). -/
def scanlineScan (s : State) (c r : Word) : ScanEnd :=
  sgiScan (scanlineLength s c r + 1)
    (Memory.readAll s.inMem (scanlineOffset s c r) (scanlineLength s c r)) s.width.toNat

/-- The state in which the loop of R235 begins. -/
def lineBegun (s : State) (c r : Word) : State :=
  ((s.startLine c r).withIpos (Memory.read s.offtab (sgiIndex s c.toNat r.toNat))).withLoc
    { lineEnd := scanlineOffset s c r + scanlineLength s c r, lineDst := sgiDst s c.toNat r.toNat }

theorem sgiLineBody_eq {c r : Word} (h : ScanlineInside c r s) :
    sgiLineBody c r s =
      if s.inlen.toNat < scanlineOffset s c r + scanlineLength s c r then .raised ((s.startLine c r).raise .bounds)
      else (lineLoop (scanlineLength s c r + 1) (lineBegun s c r)).bind fun _ s => .ok () (s.withLoc {}) := by
  obtain ⟨-, himg, hc, hr⟩ := h
  have hidx : sgiIndex (s.startLine c r) c.toNat r.toNat < (s.startLine c r).params.tabEntries :=
    (scanline_lt hc hr).trans_le himg.1
  rw [sgiLineBody, offsetEntry_of_lt hidx, Res.bind_ok, lengthEntry_of_lt hidx, Res.bind_ok]
  rfl

theorem lineSafe_lineBegun {c r : Word} (h : ScanlineInside c r s)
    (hfit : scanlineOffset s c r + scanlineLength s c r ≤ s.inlen.toNat) : LineSafe (lineBegun s c r) :=
  ScanlineInside.lineSafe (s := s.startLine c r) h rfl hfit

theorem lineBytes_lineBegun (s : State) (c r : Word) :
    lineBytes (lineBegun s c r) = Memory.readAll s.inMem (scanlineOffset s c r) (scanlineLength s c r) := by
  show Memory.readAll s.inMem (scanlineOffset s c r)
    (scanlineOffset s c r + scanlineLength s c r - scanlineOffset s c r) = _
  rw [Nat.add_sub_cancel_left]

theorem lineAdvance_lineBegun (s : State) (c r : Word) (n p : Nat) (m : Memory 8) :
    ((lineBegun s c r).lineAdvance n p m).withLoc {} = lineState s c r n p m := by
  simp [lineBegun, lineState, State.lineAdvance, State.withOut, State.withIpos, State.withX, State.withLoc,
    State.startLine, scanlineOffset]

theorem Res.ended_bind_withLoc (e : Option ErrCode) (t : State) (l : Locals) :
    ((Res.ended e (t.withLoc l)).bind fun _ s => .ok () (s.withLoc {})) = Res.ended e (t.withLoc {}) := by
  cases e <;> rfl

/-- A scanline that lies inside the stream is decoded as the scan of its bytes says (R235). -/
theorem sgiLineBody_scanned {c r : Word} (h : ScanlineInside c r s)
    (hfit : scanlineOffset s c r + scanlineLength s c r ≤ s.inlen.toNat) :
    ∃ m, BytesWritten s.outMem m (sgiDst s c.toNat r.toNat) (scanlineScan s c r).2.1 ∧
      sgiLineBody c r s = Res.ended (scanlineScan s c r).1
        (lineState s c r (scanlineScan s c r).2.1.length (scanlineScan s c r).2.2 m) := by
  obtain ⟨m, l, hm, hloop⟩ := loopScans (scanlineLength s c r + 1) _ (lineSafe_lineBegun h hfit) rfl
  rw [lineBytes_lineBegun] at hm hloop
  refine ⟨m, hm, ?_⟩
  rw [sgiLineBody_eq h, if_neg (not_lt.2 hfit), hloop, Res.ended_bind_withLoc, lineAdvance_lineBegun]
  rfl

/-- What `SgiLine(c, r)` leaves, in the words of the statement (R235, R241). -/
theorem lineResult_sgiLineBody {c r : Word} (h : ScanlineInside c r s) :
    LineResult s c r (sgiLineBody c r s).outcome := by
  refine ⟨fun hcut => ?_, fun bs used hfit hexpand => ?_, fun e bs used hfit hfault => ?_⟩
  · rw [sgiLineBody_eq h, if_pos (show s.inlen.toNat < scanlineOffset s c r + scanlineLength s c r from hcut)]
    rfl
  · obtain ⟨m, hm, hline⟩ := sgiLineBody_scanned h hfit
    have hscan : scanlineScan s c r = (none, bs, used) :=
      ScanEnd.eq_of_expansion ((sgiExpand_eq _ _ _).symm.trans hexpand)
    rw [hscan] at hm hline
    exact ⟨_, congrArg Res.outcome hline, rfl, hm⟩
  · obtain ⟨m, hm, hline⟩ := sgiLineBody_scanned h hfit
    have hscan : scanlineScan s c r = (some e, bs, used) := ScanEnd.eq_of_fault ((sgiFault_eq _ _ _).symm.trans hfault)
    rw [hscan] at hm hline
    exact ⟨_, congrArg Res.outcome hline, rfl, hm⟩

/-- `SgiLine(c, r)` goes on with the status and the image as they were, or it raises an error. -/
theorem sgiLineBody_ends {c r : Word} (h : ScanlineInside c r s) :
    (∃ t, sgiLineBody c r s = .ok () t ∧ t.st = s.st ∧ t.height = s.height ∧ t.channels = s.channels) ∨
      ∃ t, sgiLineBody c r s = .raised t ∧ t.st = .error := by
  by_cases hfit : scanlineOffset s c r + scanlineLength s c r ≤ s.inlen.toNat
  · obtain ⟨m, -, hline⟩ := sgiLineBody_scanned h hfit
    cases he : (scanlineScan s c r).1 with
    | none => rw [he] at hline; exact .inl ⟨_, hline, rfl, rfl, rfl⟩
    | some e => rw [he] at hline; exact .inr ⟨_, hline, rfl⟩
  · rw [sgiLineBody_eq h, if_pos (not_le.1 hfit)]
    exact .inr ⟨_, rfl, rfl⟩

/-! ### The command and the engine step -/

theorem sgiConfigCheck_of_fits {k : State → Res Unit} (hbpc : s.bpc = 1#32) (hw : 0 < s.width.toNat)
    (hh : 0 < s.height.toNat) (hc : 0 < s.channels.toNat) (himg : ImageFits s) : sgiConfigCheck s k = k s := by
  have hne {v : Word} (h : 0 < v.toNat) : v ≠ 0#32 := by rintro rfl; simp at h
  rw [sgiConfigCheck, hbpc, if_neg (by decide), if_neg (by simp), if_neg (by simp [hne hw, hne hh, hne hc]),
    if_neg (not_lt.2 himg.1), if_neg (not_lt.2 himg.2)]

theorem engineStep_sgi (hu : s.unit = .sgi) (ha : s.abort = false) : engineStep s = (sgiEngineStep s).outcome := by
  rw [engineStep, ha, if_neg (by simp), unitStep, hu]

/-- Where the run goes from the scanline it has decoded (R236). -/
def sgiNextLine (s t : State) : State :=
  if s.row.toNat + 1 < s.height.toNat then { t with row := s.row + 1#32 }
  else if s.chan.toNat + 1 < s.channels.toNat then { t with chan := s.chan + 1#32, row := 0#32 }
  else { t with st := .done }

theorem sgiEngineStep_of_line (hline : sgiLineBody s.chan s.row s = .ok () t) (hh : t.height = s.height)
    (hc : t.channels = s.channels) : sgiEngineStep s = .ok () (sgiNextLine s t) := by
  rw [sgiEngineStep, hline, Res.bind_ok, sgiNextLine, ← hh, ← hc]
  split_ifs <;> rfl

/-- Settles O38: the command behind its tests, and the engine step, both by the scan of the scanline's bytes. -/
theorem sgiLineExpands : Obligations.SgiLineExpands := by
  refine ⟨fun s c r hs hbpc hw hh hc htab hout => ?_, fun s hs hb hu ha hrun => ?_⟩
  · have hexec : exec (.sgiLine c r) s = (if s.channels.toNat ≤ c.toNat ∨ s.height.toNat ≤ r.toNat then raise .usage s
        else sgiLineBody (c.setWidth 32) (r.setWidth 32) s : Res Unit).outcome := by
      show (needInput s _).outcome = _
      rw [needInput_of_le _ _ hs, sgiConfigCheck_of_fits hbpc hw hh hc ⟨htab, hout⟩]
    refine ⟨fun hout => ?_, fun hcin hrin => ?_⟩
    · rw [hexec, if_pos hout]
      rfl
    · rw [hexec, if_neg (by omega)]
      refine lineResult_sgiLineBody ⟨hs, ⟨htab, hout⟩, ?_, ?_⟩
      · rwa [BitVec.toNat_setWidth_of_le (by simp)]
      · rwa [BitVec.toNat_setWidth_of_le (by simp)]
  · obtain ⟨htab, hout, hc, hr⟩ := hrun
    have hin : ScanlineInside s.chan s.row s := ⟨hs, ⟨htab, hout⟩, hc, hr⟩
    have hresult := lineResult_sgiLineBody hin
    rw [engineStep_sgi hu ha]
    rcases sgiLineBody_ends hin with ⟨t, hline, hst, hh, hch⟩ | ⟨t, hline, hst⟩
    · rw [hline] at hresult
      refine ⟨t, hresult, fun he => ?_, fun _ => ?_⟩
      · rw [hst, hb] at he; cases he
      · rw [sgiEngineStep_of_line hline hh hch]; rfl
    · rw [hline] at hresult
      refine ⟨t, hresult, fun _ => ?_, fun hne => absurd hst hne⟩
      rw [sgiEngineStep, hline]; rfl

end Sys2Proof.Machine
end

section
/-! PROOFS. The commands of the bit reader (R131 to R139) against the stream of bits: a field is taken or looked at, a
skip drops bits of the window, and two reads in a row are one. -/

namespace Sys2Proof.Machine

open Sys2Proof.Ref

/-! ### Fields of the stream -/

/-- The window and the cursor as they stand in the registers. -/
def windowOf (s : State) : Window := ⟨s.bitbuf.toNat, s.vbits.toNat, s.ipos.toNat⟩

/-- The window without its `n` oldest bits (R134). -/
def Window.consume (order : Bool) (w : Window) (n : Nat) : Window := ⟨dropBits order w n, w.vb - n, w.pos⟩

/-- A window committed to the registers. -/
def State.commit (s : State) (w : Window) : State := s.withWindow w.buf w.vb w.pos

/-- The tests and the refill that a read and a peek share (R134, R136); `keep` is the window that goes back to the
registers. -/
def bitField (keep : Bool → Window → Nat → Window) (n : Nat) (s : State) : Res Nat :=
  needPrimed s fun s =>
  if Config.nbitsMax < n then raise .usage s
  else (refill n s).bind fun w s => .ok (oldestBits s.order w n) (s.commit (keep s.order w n))

theorem readBits_eq_bitField : readBits = bitField Window.consume := rfl

theorem peekBits_eq_bitField : peekBits = bitField fun _ w _ => w := rfl

theorem streamBits_eq_unread (s : State) : streamBits s = unread s (windowOf s) := streamBits_eq s

/-- The window fits the registers and is canonical (R132). -/
structure Window.Fits (w : Window) : Prop where
  vb : w.vb ≤ 32
  buf : w.buf < 2 ^ w.vb
  pos : w.pos < 2 ^ 32

theorem Window.Fits.consume {w : Window} (h : w.Fits) (order : Bool) {n : Nat} (hn : n ≤ w.vb) :
    (w.consume order n).Fits :=
  ⟨(Nat.sub_le _ _).trans h.vb, dropBits_lt order w n h.buf hn, h.pos⟩

theorem Window.Fits.windowOf_commit {w : Window} (h : w.Fits) (s : State) : windowOf (s.commit w) = w := by
  have hbuf : w.buf < 2 ^ 32 := h.buf.trans_le (Nat.pow_le_pow_right (by norm_num) h.vb)
  have hvb : w.vb < 2 ^ 6 := by have := h.vb; omega
  simp only [windowOf, State.commit, State.withWindow_bitbuf, State.withWindow_vbits, State.withWindow_ipos,
    BitVec.toNat_ofNat, Nat.mod_eq_of_lt hbuf, Nat.mod_eq_of_lt hvb, Nat.mod_eq_of_lt h.pos]

theorem Window.Fits.windowOk_commit {w : Window} (h : w.Fits) (s : State) : WindowOk (s.commit w) :=
  windowOk_withWindow s h.vb h.buf

theorem Window.Fits.streamBits_commit {w : Window} (h : w.Fits) (s : State) :
    streamBits (s.commit w) = unread s w :=
  streamBits_withWindow s h.vb h.buf h.pos

/-- What a refill that goes on leaves in its local copies (R133). -/
structure Supplied (n : Nat) (s : State) (w : Window) : Prop where
  fits : w.Fits
  enough : n ≤ w.vb
  vb : w.vb = s.vbits.toNat + refillBits s.vbits.toNat n
  bits : unread s w = streamBits s

/-- Everything a refill can do from a canonical window: it supplies the field, or the stream is too short for it. -/
theorem refill_supplied {n : Nat} {s : State} (hw : WindowOk s) (hn : n ≤ 25) :
    (refill n s).Post (fun w t => t = s ∧ Supplied n s w)
      (fun t => t = s.raise .eos ∧ (streamBits s).length < n) (StreamOk s) := by
  refine ((refill_post n s hn).and (refillLoop_unread 4 n s (w := windowOf s) hw.2)).mono ?_ ?_ .inl
  · rintro w t ⟨⟨rfl, hfill, henough⟩, hbits⟩
    have hlazy := hfill.lazy
    have hinside := hfill.inside
    have hvbits := hw.1
    have hipos := t.ipos.isLt
    have hinlen := t.inlen.isLt
    simp only at hlazy hinside
    exact ⟨rfl, ⟨by omega, hfill.canonical hw.2, by omega⟩, henough, hfill.vb_eq henough,
      hbits.trans (streamBits_eq_unread t).symm⟩
  · rintro t ⟨ht, hshort⟩
    exact ⟨ht, by rwa [streamBits_eq_unread]⟩

/-- The bits of a supplied field are the next ones of the stream. -/
theorem Supplied.take_eq {n : Nat} {s : State} {w : Window} (h : Supplied n s w) :
    (bitsOf s.order w.buf w.vb).take n = (streamBits s).take n := by
  rw [← h.bits, unread, List.take_append_of_le_length (by simpa using h.enough)]

theorem Supplied.oldestBits_eq {n : Nat} {s : State} {w : Window} (h : Supplied n s w) :
    oldestBits s.order w n = bitsValue s.order ((streamBits s).take n) := by
  rw [Machine.oldestBits_eq _ _ h.enough, h.take_eq]

/-- What is left of the stream once the field is consumed. -/
theorem Supplied.unread_consume {n : Nat} {s : State} {w : Window} (h : Supplied n s w) :
    unread s (w.consume s.order n) = (streamBits s).drop n := by
  rw [← h.bits, unread, unread, List.drop_append_of_le_length (by simpa using h.enough)]
  exact congrArg (· ++ _) (bitsOf_dropBits s.order w h.enough)

theorem Supplied.le_length {n : Nat} {s : State} {w : Window} (h : Supplied n s w) : n ≤ (streamBits s).length := by
  rw [← h.bits, unread, List.length_append, length_bitsOf]
  exact h.enough.trans (Nat.le_add_right _ _)

theorem Supplied.value_lt {n : Nat} {s : State} {w : Window} (h : Supplied n s w) :
    bitsValue s.order ((streamBits s).take n) < 2 ^ n := by
  rw [← h.oldestBits_eq]
  exact oldestBits_lt _ _ _

/-! ### The three ends of a refill -/

section Refill
variable {n : Nat} {s t : State} {w : Window}

theorem supplied_of_refill (hw : WindowOk s) (hn : n ≤ 25) (h : refill n s = .ok w t) : t = s ∧ Supplied n s w := by
  have hpost := refill_supplied hw hn
  rwa [h] at hpost

theorem refill_of_short (hs : StreamOk s) (hw : WindowOk s) (hn : n ≤ 25) (hshort : (streamBits s).length < n) :
    refill n s = .raised (s.raise .eos) := by
  have hpost := refill_supplied hw hn
  cases hr : refill n s with
  | ok w t => exact absurd (supplied_of_refill hw hn hr).2.le_length (not_le.2 hshort)
  | raised t => rw [hr] at hpost; rw [hpost.1]
  | stop f => rw [hr] at hpost; exact absurd hs hpost

theorem refill_of_le (hs : StreamOk s) (hw : WindowOk s) (hn : n ≤ 25) (hlen : n ≤ (streamBits s).length) :
    ∃ w, refill n s = .ok w s ∧ Supplied n s w := by
  have hpost := refill_supplied hw hn
  cases hr : refill n s with
  | ok w t =>
    obtain ⟨rfl, hsup⟩ := supplied_of_refill hw hn hr
    exact ⟨w, rfl, hsup⟩
  | raised t => rw [hr] at hpost; exact absurd hpost.2 (not_lt.2 hlen)
  | stop f => rw [hr] at hpost; exact absurd hs hpost

end Refill

/-! ### The three ends of a bit field -/

section Field
variable {keep : Bool → Window → Nat → Window} {n : Nat} {s : State}

/-- An unprimed reader, or a field that is too long (R134). -/
theorem bitField_usage (h : s.primed = false ∨ 25 < n) : bitField keep n s = .raised (s.raise .usage) := by
  rw [bitField, needPrimed_eq]
  rcases h with hp | hn
  · rw [if_neg (by simp [hp])]
  · rw [if_pos (show Config.nbitsMax < n from hn), raise_eq, ite_self]

theorem bitField_of_le (hp : s.primed = true) (hn : n ≤ 25) : bitField keep n s =
    (refill n s).bind fun w s => .ok (oldestBits s.order w n) (s.commit (keep s.order w n)) := by
  rw [bitField, needPrimed_of_primed _ _ hp, if_neg (by simpa [Config.nbitsMax] using hn)]

/-- A stream that ends before the field (R135). -/
theorem bitField_eos (hs : StreamOk s) (hp : s.primed = true) (hw : WindowOk s) (hn : n ≤ 25)
    (hshort : (streamBits s).length < n) : bitField keep n s = .raised (s.raise .eos) := by
  rw [bitField_of_le hp hn, refill_of_short hs hw hn hshort, Res.bind_raised]

/-- A stream that holds the field (R134, R136). -/
theorem bitField_next (hs : StreamOk s) (hp : s.primed = true) (hw : WindowOk s) (hn : n ≤ 25)
    (hlen : n ≤ (streamBits s).length) : ∃ w, Supplied n s w ∧
      bitField keep n s = .ok (bitsValue s.order ((streamBits s).take n)) (s.commit (keep s.order w n)) := by
  obtain ⟨w, hr, hsup⟩ := refill_of_le hs hw hn hlen
  exact ⟨w, hsup, by rw [bitField_of_le hp hn, hr, Res.bind_ok, hsup.oldestBits_eq]⟩

end Field

/-! ### The commands that return a field -/

/-- The command that returns the value of a bit field in `RESULT` (R135, R137). -/
def fieldCommand (field : State → Res Nat) (s : State) : Host.Outcome State Fault Refusal :=
  (needInput s fun s => (field s).bind fun v s => .ok () (s.withResult (BitVec.ofNat 32 v))).outcome

theorem exec_brRead (n : BitVec 8) (s : State) :
    exec (.brRead n) s = fieldCommand (bitField Window.consume n.toNat) s := by
  rw [← readBits_eq_bitField]; rfl

theorem exec_brPeek (n : BitVec 8) (s : State) :
    exec (.brPeek n) s = fieldCommand (bitField (fun _ w _ => w) n.toNat) s := by
  rw [← peekBits_eq_bitField]; rfl

theorem fieldCommand_raised {field : State → Res Nat} {s t : State} (hs : StreamOk s) (h : field s = .raised t) :
    fieldCommand field s = .next t := by
  rw [fieldCommand, needInput_of_le _ _ hs, h, Res.bind_raised, Res.outcome_raised]

/-- Where the stream holds the field, `RESULT` takes it, the window that is kept is committed, and nothing else
changes. -/
theorem fieldCommand_next {keep : Bool → Window → Nat → Window} {n : Nat} {s : State} (hs : StreamOk s)
    (hp : s.primed = true) (hw : WindowOk s) (hn : n ≤ 25) (hlen : n ≤ (streamBits s).length) :
    ∃ w v, Supplied n s w ∧ v.toNat = bitsValue s.order ((streamBits s).take n) ∧
      fieldCommand (bitField keep n) s = .next ((s.commit (keep s.order w n)).withResult v) := by
  obtain ⟨w, hsup, hfield⟩ := bitField_next (keep := keep) hs hp hw hn hlen
  have hvalue : bitsValue s.order ((streamBits s).take n) < 2 ^ 32 :=
    hsup.value_lt.trans_le (Nat.pow_le_pow_right (by norm_num) (by omega))
  refine ⟨w, BitVec.ofNat 32 _, hsup, (BitVec.toNat_ofNat _ _).trans (Nat.mod_eq_of_lt hvalue), ?_⟩
  rw [fieldCommand, needInput_of_le _ _ hs, hfield, Res.bind_ok, Res.outcome_ok]

/-- Settles O11: the supplied window without the field goes back to the registers. -/
theorem brReadTakesNextField : Obligations.BrReadTakesNextField := by
  intro s n hs hp hw hn hlen
  obtain ⟨w, v, hsup, hv, hexec⟩ := fieldCommand_next (keep := Window.consume) hs hp hw hn hlen
  have hfits := hsup.fits.consume s.order hsup.enough
  have hvb := congrArg Window.vb (hfits.windowOf_commit s)
  refine ⟨_, (exec_brRead n s).trans hexec, rfl, hv, (hfits.streamBits_commit s).trans hsup.unread_consume,
    hfits.windowOk_commit s, ?_⟩
  rw [← hsup.vb, ← Nat.sub_add_cancel hsup.enough]
  exact congrArg (· + _) hvb

/-! ### The skip -/

theorem windowOf_fits {s : State} (hw : WindowOk s) : (windowOf s).Fits := ⟨hw.1, hw.2, s.ipos.isLt⟩

/-- The test of a skip (R138). -/
theorem skipBits_eq (n : Nat) (s : State) : skipBits n s =
    if s.primed = true ∧ n ≤ s.vbits.toNat then .ok () (s.commit ((windowOf s).consume s.order n))
    else .raised (s.raise .usage) := by
  rw [skipBits, needPrimed_eq]
  by_cases hp : s.primed = true
  · by_cases hn : n ≤ s.vbits.toNat
    · rw [if_pos hp, if_neg (not_lt.2 hn), if_pos ⟨hp, hn⟩]; rfl
    · rw [if_pos hp, if_pos (not_le.1 hn), if_neg (fun h => hn h.2)]; rfl
  · rw [if_neg hp, if_neg (fun h => hp h.1)]

theorem exec_brSkip (n : BitVec 8) (s : State) : exec (.brSkip n) s = (skipBits n.toNat s).outcome := rfl

/-- A skip commits the window with the cursor that it read (R138). -/
theorem commit_ipos (s : State) (w : Window) (h : w.pos = s.ipos.toNat) : (s.commit w).ipos = s.ipos := by
  rw [State.commit, State.withWindow_ipos, h, BitVec.ofNat_toNat, BitVec.setWidth_eq]

/-- Settles O12: a peek commits the supplied window whole; a skip commits the window of the registers without its
oldest bits. -/
theorem brPeekAndSkip : Obligations.BrPeekAndSkip := by
  refine ⟨fun s n hs hp hw hn hlen => ?_, fun s n hp hw hn => ?_⟩
  · obtain ⟨w, v, hsup, hv, hexec⟩ := fieldCommand_next (keep := fun _ w _ => w) hs hp hw hn hlen
    have hvb := congrArg Window.vb (hsup.fits.windowOf_commit s)
    exact ⟨_, (exec_brPeek n s).trans hexec, rfl, hv, (hsup.fits.streamBits_commit s).trans hsup.bits,
      hsup.fits.windowOk_commit s, hvb.trans hsup.vb⟩
  · have hfits := (windowOf_fits hw).consume s.order hn
    have hwin := hfits.windowOf_commit s
    have hexec : exec (.brSkip n) s = .next (s.commit ((windowOf s).consume s.order n.toNat)) := by
      rw [exec_brSkip, skipBits_eq, if_pos ⟨hp, hn⟩, Res.outcome_ok]
    refine ⟨_, hexec, ?_, ?_, ?_, hfits.windowOk_commit s⟩
    · conv_rhs => rw [← commit_ipos s ((windowOf s).consume s.order n.toNat) rfl]
      rfl
    · exact (congrArg (·.vb + n.toNat) hwin).trans (Nat.sub_add_cancel hn)
    · rw [windowBits_eq, windowBits_eq]
      exact (congrArg (fun w => bitsOf s.order w.buf w.vb) hwin).trans (bitsOf_dropBits s.order (windowOf s) hn)

/-- Settles O13: the tests before the refill, its failure, and the test of a skip. -/
theorem bitFieldFaults : Obligations.BitFieldFaults := by
  refine ⟨fun s n hs h => ?_, fun s n hs hp hw hn hshort => ?_, fun s n h => ?_⟩
  · rw [exec_brRead, exec_brPeek]
    exact ⟨fieldCommand_raised hs (bitField_usage h), fieldCommand_raised hs (bitField_usage h)⟩
  · rw [exec_brRead, exec_brPeek]
    exact ⟨fieldCommand_raised hs (bitField_eos hs hp hw hn hshort),
      fieldCommand_raised hs (bitField_eos hs hp hw hn hshort)⟩
  · rw [exec_brSkip, skipBits_eq, if_neg, Res.outcome_raised]
    rintro ⟨hp, hn⟩
    rcases h with hunprimed | hlt
    · exact Bool.false_ne_true (hunprimed.symm.trans hp)
    · exact not_le.2 hlt hn

/-- Settles O10: each command is one update of the registers. -/
theorem primeAndInit : Obligations.PrimeAndInit := fun _ => ⟨rfl, rfl⟩

/-! ### The refill as a number of bytes

A refill fetches a number of bytes that the window and the field determine, and a fetch does not look at the older bits
of the window, so it commutes with their consumption. -/

/-- The byte that the reader delivers at address `p`, and the address after it and its stuffed byte (R133); `none` where
the refill does not go on. -/
def delivered (s : State) (p : Nat) : Option (Byte × Nat) :=
  let c := Memory.read s.inMem p
  if s.inlen.toNat ≤ p ∨ s.params.inSize ≤ p then none
  else if s.stuff = true ∧ c = 0xFF#8 then if s.inlen.toNat ≤ p + 1 then none else some (c, p + 2)
  else some (c, p + 1)

/-- The window with a delivered byte joined to it. -/
def Window.join (order : Bool) (w : Window) (b : Byte × Nat) : Window := ⟨joinByte order w b.1, w.vb + 8, b.2⟩

/-- The window with the next `k` bytes of the stream joined to it, if there are so many. -/
def fetchBytes (s : State) : Nat → Window → Option Window
  | 0, w => some w
  | k + 1, w => (delivered s w.pos).bind fun b => fetchBytes s k (w.join s.order b)

theorem fetchBytes_add (s : State) (j k : Nat) (w : Window) :
    fetchBytes s (j + k) w = (fetchBytes s j w).bind (fetchBytes s k) := by
  induction j generalizing w with
  | zero => rw [Nat.zero_add]; rfl
  | succ j ih => simp only [Nat.succ_add, fetchBytes, ih, Option.bind_assoc]

/-- The registers of the window have no part in a fetch. -/
theorem fetchBytes_commit (s : State) (x : Window) (k : Nat) : fetchBytes (s.commit x) k = fetchBytes s k := by
  funext w
  induction k generalizing w with
  | zero => rfl
  | succ k ih => simp only [fetchBytes, ih]; rfl

/-- How many bytes a refill for `n` bits fetches into a window of `v`. -/
def refillBytes (v n : Nat) : Nat := (n - v + 7) / 8

theorem refillBytes_of_le {v n : Nat} (h : n ≤ v) : refillBytes v n = 0 := by
  unfold refillBytes; omega

theorem refillBytes_of_lt {v n : Nat} (h : v < n) : refillBytes v n = refillBytes (v + 8) n + 1 := by
  unfold refillBytes; omega

/-- The bytes of a long field are those of its first part and those of the rest. -/
theorem refillBytes_add (v a b : Nat) :
    refillBytes v (a + b) = refillBytes v a + refillBytes (v + refillBits v a - a) b := by
  unfold refillBytes refillBits; omega

/-- One round of the loop of R133. -/
theorem refillLoop_succ_eq_ok {fuel n : Nat} {s t : State} {w w' : Window} (hn : w.vb < n) :
    refillLoop (fuel + 1) n s w = .ok w' t ↔
      ∃ b, delivered s w.pos = some b ∧ refillLoop fuel n s (w.join s.order b) = .ok w' t := by
  rw [refillLoop, if_pos hn]
  unfold delivered inByte
  by_cases hend : s.inlen.toNat ≤ w.pos
  · simp [hend]
  · by_cases hin : w.pos < s.params.inSize
    · simp only [if_pos hin, Res.bind_ok, hend, not_le.2 hin, or_self, if_false]
      split_ifs <;> simp [Window.join]
    · simp [hend, hin, not_lt.1 hin]

theorem refillLoop_eq_ok {fuel n : Nat} {s t : State} {w w' : Window} (hfuel : n ≤ w.vb + 8 * fuel) :
    refillLoop fuel n s w = .ok w' t ↔ t = s ∧ fetchBytes s (refillBytes w.vb n) w = some w' := by
  induction fuel generalizing w with
  | zero => simp [refillLoop, refillBytes_of_le (show n ≤ w.vb by omega), fetchBytes, and_comm, eq_comm]
  | succ fuel ih =>
    by_cases hn : w.vb < n
    · rw [refillLoop_succ_eq_ok hn, refillBytes_of_lt hn, fetchBytes, Option.bind_eq_some_iff]
      have hround (b : Byte × Nat) : refillLoop fuel n s (w.join s.order b) = .ok w' t ↔
          t = s ∧ fetchBytes s (refillBytes (w.vb + 8) n) (w.join s.order b) = some w' :=
        ih (show n ≤ w.vb + 8 + 8 * fuel by omega)
      simp only [hround, and_left_comm, exists_and_left]
    · simp [refillLoop, hn, refillBytes_of_le (not_lt.1 hn), fetchBytes, and_comm, eq_comm]

theorem refill_eq_ok {n : Nat} {s t : State} {w : Window} (hn : n ≤ 25) :
    refill n s = .ok w t ↔ t = s ∧ fetchBytes s (refillBytes s.vbits.toNat n) (windowOf s) = some w :=
  refillLoop_eq_ok (w := windowOf s) (by omega)

/-! ### Consuming a field before or after a fetch -/

/-- A number that fits its bits is what they say. -/
theorem eq_of_bitsOf_eq {order : Bool} {x y n : Nat} (hx : x < 2 ^ n) (hy : y < 2 ^ n)
    (h : bitsOf order x n = bitsOf order y n) : x = y := by
  have hvalue := congrArg (bitsValue order) h
  rwa [bitsValue_bitsOf, bitsValue_bitsOf, Nat.mod_eq_of_lt hx, Nat.mod_eq_of_lt hy] at hvalue

theorem Window.join_consume {order : Bool} {w : Window} {n : Nat} (b : Byte × Nat) (hw : w.buf < 2 ^ w.vb)
    (hn : n ≤ w.vb) : (w.consume order n).join order b = (w.join order b).consume order n := by
  have hvb : w.vb + 8 - n = w.vb - n + 8 := by omega
  have hjoin : (w.join order b).buf < 2 ^ (w.join order b).vb := joinByte_lt order w b.1 hw
  have hdrop : (w.consume order n).buf < 2 ^ (w.consume order n).vb := dropBits_lt order w n hw hn
  have hbuf : joinByte order (w.consume order n) b.1 = dropBits order (w.join order b) n := by
    refine eq_of_bitsOf_eq (joinByte_lt order _ b.1 hdrop) ?_ ?_ (order := order)
    · exact hvb ▸ dropBits_lt order _ n hjoin (hn.trans (Nat.le_add_right _ 8))
    · calc bitsOf order (joinByte order (w.consume order n) b.1) (w.vb - n + 8)
          = (bitsOf order w.buf w.vb).drop n ++ byteBits order b.1 := by
            rw [← bitsOf_dropBits order w hn]; exact bitsOf_joinByte order b.1 hdrop
        _ = (bitsOf order (w.join order b).buf (w.join order b).vb).drop n := by
            rw [← List.drop_append_of_le_length (by simpa using hn)]
            exact congrArg _ (bitsOf_joinByte order b.1 hw).symm
        _ = bitsOf order (dropBits order (w.join order b) n) (w.vb - n + 8) := by
            rw [← hvb]; exact (bitsOf_dropBits order _ (hn.trans (Nat.le_add_right _ 8))).symm
  simp only [join, consume] at hbuf ⊢
  rw [hbuf, hvb]

theorem fetchBytes_consume (s : State) (k : Nat) {w : Window} {n : Nat} (hw : w.buf < 2 ^ w.vb) (hn : n ≤ w.vb) :
    fetchBytes s k (w.consume s.order n) = (fetchBytes s k w).map fun w => w.consume s.order n := by
  induction k generalizing w with
  | zero => rfl
  | succ k ih =>
    simp only [fetchBytes, Option.map_bind]
    refine congrArg _ (funext fun b => ?_)
    rw [Window.join_consume b hw hn]
    exact ih (joinByte_lt _ _ _ hw) (hn.trans (Nat.le_add_right _ 8))

theorem Window.consume_consume (order : Bool) (w : Window) (a b : Nat) :
    (w.consume order a).consume order b = w.consume order (a + b) := by
  have hbuf : dropBits order (w.consume order a) b = dropBits order w (a + b) := by
    cases order with
    | true => exact (Nat.shiftRight_add _ _ _).symm
    | false =>
      simp only [dropBits, consume, Bool.false_eq_true, if_false, Nat.and_two_pow_sub_one_eq_mod, Nat.sub_sub]
      exact Nat.mod_mod_of_dvd _ (pow_dvd_pow 2 (by omega))
  simp only [consume] at hbuf ⊢
  rw [hbuf, Nat.sub_sub]

/-! ### Reads in a row -/

/-- Everything a read that goes on has done (R134). -/
theorem readBits_eq_ok {n v : Nat} {s t : State} (hw : WindowOk s) : readBits n s = .ok v t ↔
    s.primed = true ∧ n ≤ 25 ∧ ∃ w, refill n s = .ok w s ∧ v = bitsValue s.order ((streamBits s).take n) ∧
      t = s.commit (w.consume s.order n) := by
  rw [readBits_eq_bitField]
  by_cases h : s.primed = false ∨ 25 < n
  · rw [bitField_usage h]
    refine iff_of_false (by simp) fun ⟨hp, hn, _⟩ => ?_
    rcases h with hunprimed | hlt
    · exact Bool.false_ne_true (hunprimed.symm.trans hp)
    · exact not_le.2 hlt hn
  · obtain ⟨hp, hn⟩ : s.primed = true ∧ n ≤ 25 := by simpa using h
    rw [bitField_of_le hp hn, Res.bind_eq_ok]
    constructor
    · rintro ⟨w, u, hr, hok⟩
      obtain ⟨rfl, hsup⟩ := supplied_of_refill hw hn hr
      rw [hsup.oldestBits_eq] at hok
      cases hok
      exact ⟨hp, hn, w, hr, rfl, rfl⟩
    · rintro ⟨-, -, w, hr, rfl, rfl⟩
      exact ⟨w, s, hr, by rw [(supplied_of_refill hw hn hr).2.oldestBits_eq]⟩

/-- Two fields in a row are one field (R134): the second stands below the first for `ORDER = 0`, above it for
`ORDER = 1`. -/
theorem bitsValue_append (order : Bool) (xs ys : List Bool) : bitsValue order (xs ++ ys) =
    if order then bitsValue order xs + 2 ^ xs.length * bitsValue order ys
    else 2 ^ ys.length * bitsValue order xs + bitsValue order ys := by
  cases order with
  | true =>
    induction xs with
    | nil => simp [bitsValue]
    | cons x xs ih =>
      simp only [bitsValue, if_true, List.cons_append, List.foldr_cons, List.length_cons] at ih ⊢
      rw [ih, Nat.pow_succ]; ring
  | false =>
    induction ys using List.reverseRecOn with
    | nil => simp [bitsValue]
    | append_singleton ys y ih =>
      simp only [bitsValue, Bool.false_eq_true, if_false, ← List.append_assoc, List.foldl_append, List.foldl_cons,
        List.foldl_nil, List.length_append, List.length_singleton] at ih ⊢
      rw [ih, Nat.pow_succ]; ring

/-- The refill of a long field is that of its first part and then that of the rest. -/
theorem refill_add {a b : Nat} {s : State} {w₁ w₂ : Window} (hab : a + b ≤ 25) (hsup : Supplied a s w₁)
    (h₁ : refill a s = .ok w₁ s)
    (h₂ : refill b (s.commit (w₁.consume s.order a)) = .ok w₂ (s.commit (w₁.consume s.order a))) :
    ∃ w, refill (a + b) s = .ok w s ∧ w₂ = w.consume s.order a := by
  have hwindow := (hsup.fits.consume s.order hsup.enough).windowOf_commit s
  obtain ⟨-, hfetch₁⟩ := (refill_eq_ok (by omega)).1 h₁
  obtain ⟨-, hfetch₂⟩ := (refill_eq_ok (by omega)).1 h₂
  rw [show (s.commit (w₁.consume s.order a)).vbits.toNat = w₁.vb - a from congrArg Window.vb hwindow, hwindow,
    fetchBytes_commit, fetchBytes_consume s _ hsup.fits.buf hsup.enough, Option.map_eq_some_iff] at hfetch₂
  obtain ⟨w, hfetch, rfl⟩ := hfetch₂
  refine ⟨w, (refill_eq_ok hab).2 ⟨rfl, ?_⟩, rfl⟩
  rw [refillBytes_add, fetchBytes_add, hfetch₁, Option.bind_some, ← hsup.vb, hfetch]

/-- Settles O14: the bytes of the one read are those of the two, and the fields are cut out of one list of bits. -/
theorem splitReadsAgree : Obligations.SplitReadsAgree := by
  intro s s₁ s₂ a b u v hw hab hread₁ hread₂
  obtain ⟨hp, ha, w₁, hrefill₁, rfl, rfl⟩ := (readBits_eq_ok hw).1 hread₁
  have hsup := (supplied_of_refill hw ha hrefill₁).2
  have hfits := hsup.fits.consume s.order hsup.enough
  obtain ⟨-, -, w₂, hrefill₂, rfl, rfl⟩ := (readBits_eq_ok (hfits.windowOk_commit s)).1 hread₂
  obtain ⟨w, hrefill, rfl⟩ := refill_add hab hsup hrefill₁ hrefill₂
  refine (readBits_eq_ok hw).2 ⟨hp, hab, w, hrefill, ?_, ?_⟩
  · have hlen := (supplied_of_refill hw hab hrefill).2.le_length
    rw [hfits.streamBits_commit, hsup.unread_consume, List.take_add, bitsValue_append, List.length_take,
      List.length_take, List.length_drop, Nat.min_eq_left (by omega), Nat.min_eq_left (by omega)]
    rfl
  · rw [← Window.consume_consume]
    rfl

end Sys2Proof.Machine
end

section
/-! PROOFS. How the expansion of a specification stops (R152, R153): where the source ends inside the counts, where it
ends before a symbol, and where a leaf has no room. Until then the expansion is the one of a shorter specification that
fits. -/

namespace Sys2Proof.Machine

open Sys2Proof.Ref

/-! ### The room of a leaf -/

theorem levelLengths_append (cs ds : List Nat) (l : Nat) :
    levelLengths (cs ++ ds) l = levelLengths cs l ++ levelLengths ds (l + cs.length) := by
  induction cs generalizing l with
  | nil => rfl
  | cons c cs ih => simp [ih, Nat.add_assoc, Nat.add_comm 1]

/-- The lengths of the counts lie between the first and the last of them. -/
theorem mem_levelLengths {cs : List Nat} {l m : Nat} (h : m ∈ levelLengths cs l) : l ≤ m ∧ m < l + cs.length := by
  induction cs generalizing l with
  | nil => simp at h
  | cons c cs ih =>
    rw [List.length_cons]
    rcases List.mem_append.1 h with h | h
    · rw [List.eq_of_mem_replicate h]; omega
    · have := ih h; omega

/-- The leaf of number `m` belongs to one of the counts: `j` leaves of that count stand before it. -/
theorem exists_count_of_lt_sum {cs : List Nat} {m : Nat} (h : m < cs.sum) :
    ∃ pre j n post, cs = pre ++ (j + (n + 1)) :: post ∧ m = (pre ++ [j]).sum := by
  induction cs generalizing m with
  | nil => simp at h
  | cons c cs ih =>
    by_cases hc : m < c
    · exact ⟨[], m, c - m - 1, cs, by simp; omega, by simp⟩
    · rw [List.sum_cons] at h
      obtain ⟨pre, j, n, post, rfl, hm⟩ := ih (m := m - c) (by omega)
      refine ⟨c :: pre, j, n, post, rfl, ?_⟩
      rw [List.cons_append, List.sum_cons]
      omega

/-- A place of depth 16 is free for the next leaf exactly when one of the leaf's own depth is. -/
theorem spaceBefore_lt_iff {lens : List Nat} {l k : Nat} (hl : l ≤ 16) (h : ∀ m ∈ lens.take k, m ≤ l) :
    spaceBefore lens l k < 2 ^ l ↔ spaceBefore lens 16 k < 2 ^ 16 := by
  obtain ⟨n, hn⟩ : ∃ n, 16 = l + n := ⟨16 - l, by omega⟩
  rw [hn, spaceBefore_deeper h, Nat.pow_add, Nat.mul_comm (2 ^ l)]
  exact (Nat.mul_lt_mul_left (by positivity)).symm

/-- The lengths before a leaf of the counts, its own length and the ones after it (R119). -/
theorem levelLengths_split (pre : List Nat) (j n : Nat) (post : List Nat) :
    levelLengths (pre ++ (j + (n + 1)) :: post) 1 = levelLengths (pre ++ [j]) 1 ++
      (1 + pre.length) :: (List.replicate n (1 + pre.length) ++ levelLengths post (1 + pre.length + 1)) := by
  simp [levelLengths_append, List.replicate_add, List.replicate_succ]

theorem le_of_mem_levelLengths {pre : List Nat} {j m : Nat} (h : m ∈ levelLengths (pre ++ [j]) 1) :
    m ≤ 1 + pre.length := by
  have := mem_levelLengths h
  rw [List.length_append, List.length_singleton] at this
  omega

/-- Behind a leaf with room the code space is full at most. -/
theorem spaceBefore_succ_le {cs : List Nat} {k : Nat} (hcs : cs.length = 16) (hk : k < (levelLengths cs 1).length)
    (hroom : spaceBefore (levelLengths cs 1) 16 k < 2 ^ 16) : spaceBefore (levelLengths cs 1) 16 (k + 1) ≤ 2 ^ 16 := by
  rw [length_levelLengths] at hk
  obtain ⟨front, j, n, back, rfl, hm⟩ := exists_count_of_lt_sum hk
  have hl : 1 + front.length ≤ 16 := by rw [← hcs, List.length_append, List.length_cons]; omega
  have hpre : ∀ x ∈ levelLengths (front ++ [j]) 1, x ≤ 1 + front.length := fun _ => le_of_mem_levelLengths
  rw [← length_levelLengths _ 1] at hm
  rw [levelLengths_split, hm] at hroom ⊢
  generalize levelLengths (front ++ [j]) 1 = pre at hroom hpre ⊢
  generalize 1 + front.length = l at hl hroom hpre ⊢
  generalize List.replicate n l ++ _ = post at hroom ⊢
  have hbefore : ∀ x ∈ (pre ++ l :: post).take pre.length, x ≤ l := by simpa using hpre
  have hupto : ∀ x ∈ (pre ++ l :: post).take (pre.length + 1), x ≤ l := by
    simpa [List.take_length_add_append, or_imp, forall_and] using hpre
  have hplace := (spaceBefore_lt_iff hl hbefore).2 hroom
  calc spaceBefore (pre ++ l :: post) 16 (pre.length + 1)
      = 2 ^ (16 - l) * (spaceBefore (pre ++ l :: post) l pre.length + 1) := by
        rw [← spaceBefore_append, ← spaceBefore_deeper hupto, Nat.add_sub_cancel' hl]
    _ ≤ 2 ^ (16 - l) * 2 ^ l := Nat.mul_le_mul_left _ hplace
    _ = 2 ^ 16 := by rw [← Nat.pow_add, Nat.sub_add_cancel hl]

/-! ### The leaves that have room -/

section Placed
variable {counts : List Byte}

theorem length_leafLengths (counts : List Byte) : (leafLengths counts).length = (counts.map BitVec.toNat).sum := by
  rw [leafLengths_eq, length_levelLengths]

/-- The search for the first leaf without room, by the space before each leaf (R152). -/
theorem placedLeaves_eq (counts : List Byte) : placedLeaves counts =
    ((List.range (leafLengths counts).length).find? fun k =>
      decide (2 ^ 16 ≤ spaceBefore (leafLengths counts) 16 k)).getD (leafLengths counts).length := rfl

/-- Either the first leaf without room ends the expansion, or all leaves have room. -/
theorem placedLeaves_cases (counts : List Byte) :
    (placedLeaves counts < (leafLengths counts).length ∧
      2 ^ 16 ≤ spaceBefore (leafLengths counts) 16 (placedLeaves counts) ∨
      placedLeaves counts = (leafLengths counts).length) ∧
    ∀ k < placedLeaves counts, spaceBefore (leafLengths counts) 16 k < 2 ^ 16 := by
  rw [placedLeaves_eq]
  cases hfind : (List.range (leafLengths counts).length).find?
      fun k => decide (2 ^ 16 ≤ spaceBefore (leafLengths counts) 16 k) with
  | none =>
    rw [List.find?_range_eq_none] at hfind
    exact ⟨.inr rfl, fun k hk => by simpa using hfind k hk⟩
  | some m =>
    obtain ⟨hfull, hm, hroom⟩ := List.find?_range_eq_some.1 hfind
    exact ⟨.inl ⟨List.mem_range.1 hm, of_decide_eq_true hfull⟩, fun k hk => by simpa using hroom k hk⟩

theorem placedLeaves_le (counts : List Byte) : placedLeaves counts ≤ (leafLengths counts).length := by
  obtain ⟨⟨hlt, -⟩ | heq, -⟩ := placedLeaves_cases counts <;> omega

/-- The leaves up to the first one without room fit the code space. -/
theorem spaceBefore_le_of_le_placedLeaves (hcounts : counts.length = 16) {m : Nat} (hm : m ≤ placedLeaves counts) :
    spaceBefore (leafLengths counts) 16 m ≤ 2 ^ 16 := by
  cases m with
  | zero => simp [spaceBefore]
  | succ k =>
    have hroom := (placedLeaves_cases counts).2 k hm
    have hk : k < (leafLengths counts).length := lt_of_lt_of_le hm (placedLeaves_le counts)
    rw [leafLengths_eq] at hroom hk ⊢
    exact spaceBefore_succ_le (by simpa using hcounts) hk hroom

/-- Over-subscribed counts have a leaf without room. -/
theorem full_of_codeSpace (hcounts : counts.length = 16) (hover : 2 ^ 16 < codeSpace counts) :
    placedLeaves counts < (leafLengths counts).length ∧
      2 ^ 16 ≤ spaceBefore (leafLengths counts) 16 (placedLeaves counts) := by
  refine (placedLeaves_cases counts).1.resolve_right fun hall => ?_
  have := spaceBefore_le_of_le_placedLeaves hcounts le_rfl
  rw [hall, ← codeSpace_eq] at this
  omega

end Placed

/-! ### The expansion in parts -/

theorem expandLevel_add (get : SpecSource) (l a b : Nat) (x : Expansion) (s : State) :
    expandLevel get l (a + b) x s = (expandLevel get l a x s).bind (expandLevel get l b) := by
  induction a generalizing x s with
  | zero => rw [Nat.zero_add]; rfl
  | succ a ih =>
    rw [Nat.succ_add, expandLevel, expandLevel]
    split
    · rfl
    · rw [Res.bind_assoc]
      exact congrArg _ (funext fun sym => funext fun u => ih _ u)

theorem expandLevels_append (get : SpecSource) (cs ds : List Nat) (l : Nat) (x : Expansion) (s : State) :
    expandLevels get (cs ++ ds) l x s = (expandLevels get cs l x s).bind (expandLevels get ds (l + cs.length)) := by
  induction cs generalizing l x s with
  | nil => rfl
  | cons c cs ih =>
    rw [List.cons_append, expandLevels, expandLevels, Res.bind_assoc, List.length_cons, Nat.add_comm cs.length,
      ← Nat.add_assoc]
    exact congrArg _ (funext fun y => funext fun u => ih _ _ u)

/-- Where a shorter list of counts ends and the next leaf of the longer one is not made. -/
theorem expandLevels_raised {get : SpecSource} {pre : List Nat} {j : Nat} (n : Nat) (post : List Nat) {l : Nat}
    {x z : Expansion} {s t u : State} (h : expandLevels get (pre ++ [j]) l x s = .ok z u)
    (hstop : ∀ y : Expansion, z = ⟨y.entries, y.k, 2 * y.code⟩ →
      expandLevel get (l + pre.length) (n + 1) y u = .raised t) :
    expandLevels get (pre ++ (j + (n + 1)) :: post) l x s = .raised t := by
  rw [expandLevels_append] at h ⊢
  obtain ⟨x', s', hpre, hlast⟩ := Res.bind_eq_ok.1 h
  obtain ⟨y, u', hlevel, hok⟩ := Res.bind_eq_ok.1 hlast
  cases hok
  rw [hpre, Res.bind_ok, expandLevels, expandLevel_add, hlevel, Res.bind_ok, hstop y rfl, Res.bind_raised]

/-! ### Where the expansion stops -/

section Source
variable {get : SpecSource} {st : Nat → State} {counts symbols : List Byte}

/-- A source that ends inside the counts. -/
theorem readCounts_raised {bytes : List Byte} {t : State} (hd : Delivers get bytes st)
    (hend : get bytes.length (st bytes.length) = .raised t) (n i : Nat) (hi : i ≤ bytes.length)
    (h : bytes.length < i + n) : readCounts get n i (st i) = .raised t := by
  induction n generalizing i with
  | zero => omega
  | succ n ih =>
    rw [readCounts]
    rcases hi.eq_or_lt with rfl | hlt
    · rw [hend, Res.bind_raised]
    · rw [hd i hlt, Res.bind_ok, ih (i + 1) hlt (by omega), Res.bind_raised]

/-- The leaves of the counts `pre` and `j` of the next count have their symbols; the expansion ends as the leaf after
them does. -/
theorem expandLevels_placed_raised (hd : Delivers get (counts ++ symbols) st) (hcounts : counts.length = 16)
    {pre : List Nat} {j : Nat} (hl : 1 + pre.length ≤ 16)
    (hsymbols : symbols.length = (levelLengths (pre ++ [j]) 1).length)
    (hfit : spaceBefore (levelLengths (pre ++ [j]) 1) 16 symbols.length ≤ 2 ^ 16) (n : Nat) (post : List Nat)
    {t : State}
    (hstop : ∀ l n x, x.k = symbols.length →
      (x.code < 2 ^ l ↔ spaceBefore (levelLengths (pre ++ [j]) 1) 16 symbols.length < 2 ^ 16) →
      expandLevel get l (n + 1) x (st (16 + symbols.length)) = .raised t) :
    expandLevels get (pre ++ (j + (n + 1)) :: post) 1 ⟨[], 0, 0⟩ (st 16) = .raised t := by
  have hexpand := expandLevels_placed hd hcounts hsymbols (hsymbols ▸ hfit) (pre ++ [j]) (l := 1) (pre := [])
    (by rw [List.length_append, List.length_singleton]; omega) rfl (by simp)
  refine expandLevels_raised n post hexpand fun y hy => ?_
  rw [← hsymbols] at hy ⊢
  simp only [placed, Expansion.mk.injEq] at hy
  obtain ⟨-, hk, hcode⟩ := hy
  have hdepth : ∀ m ∈ (levelLengths (pre ++ [j]) 1).take symbols.length, m ≤ 1 + pre.length :=
    fun m hm => le_of_mem_levelLengths (List.mem_of_mem_take hm)
  have hspace : y.code = spaceBefore (levelLengths (pre ++ [j]) 1) (1 + pre.length) symbols.length := by
    have hdeeper := spaceBefore_deeper hdepth 1
    rw [List.length_append, List.length_singleton, ← Nat.add_assoc] at hcode
    omega
  exact hstop _ n y hk.symm (hspace ▸ spaceBefore_lt_iff hl hdepth)

/-- A source with all the counts, and the symbols of the first leaves as far as they fit: the expansion ends as the next
leaf does, which has room exactly when they leave some. -/
theorem buildFrom_raised (hd : Delivers get (counts ++ symbols) st) (hcounts : counts.length = 16)
    (hmore : symbols.length < (leafLengths counts).length)
    (hfit : spaceBefore (leafLengths counts) 16 symbols.length ≤ 2 ^ 16) {t : State}
    (hstop : ∀ l n x, x.k = symbols.length →
      (x.code < 2 ^ l ↔ spaceBefore (leafLengths counts) 16 symbols.length < 2 ^ 16) →
      expandLevel get l (n + 1) x (st (16 + symbols.length)) = .raised t) :
    buildFrom get (st 0) = .raised t := by
  have hread := readCounts_delivers hd 16 0 (by rw [List.length_append]; omega)
  rw [List.drop_zero, List.take_left' hcounts] at hread
  rw [length_leafLengths] at hmore
  obtain ⟨pre, j, n, post, hcs, hm⟩ := exists_count_of_lt_sum hmore
  have hl : 1 + pre.length ≤ 16 := by
    have := congrArg List.length hcs
    rw [List.length_map, hcounts, List.length_append, List.length_cons] at this
    omega
  have hsymbols : symbols.length = (levelLengths (pre ++ [j]) 1).length := by rw [length_levelLengths, hm]
  have hspace : spaceBefore (leafLengths counts) 16 symbols.length =
      spaceBefore (levelLengths (pre ++ [j]) 1) 16 symbols.length := by
    rw [leafLengths_eq, hcs, levelLengths_split, spaceBefore, spaceBefore, List.take_left' hsymbols.symm, hsymbols,
      List.take_length]
  rw [hspace] at hfit hstop
  have hraised := expandLevels_placed_raised hd hcounts hl hsymbols hfit n post hstop
  rw [buildFrom, hread, Res.bind_ok, hcs]
  exact (congrArg (fun r => Res.bind r _) hraised).trans (Res.bind_raised _ _)

/-- A source that ends before the symbol of a leaf that has room (R152). -/
theorem buildFrom_short (hd : Delivers get (counts ++ symbols) st) (hcounts : counts.length = 16)
    (hshort : symbols.length < placedLeaves counts) {t : State}
    (hend : get (16 + symbols.length) (st (16 + symbols.length)) = .raised t) : buildFrom get (st 0) = .raised t := by
  refine buildFrom_raised hd hcounts (hshort.trans_le (placedLeaves_le counts))
    (spaceBefore_le_of_le_placedLeaves hcounts hshort.le) fun l n x hk hroom => ?_
  have hcode := hroom.2 ((placedLeaves_cases counts).2 _ hshort)
  rw [expandLevel, if_neg (not_le.2 hcode), hk, hend, Res.bind_raised]

/-- A source that gives a symbol to every leaf that has room, of counts that over-subscribe the code space (R152). -/
theorem buildFrom_overSubscribed (hd : Delivers get (counts ++ symbols) st) (hcounts : counts.length = 16)
    (hsymbols : symbols.length = placedLeaves counts) (hover : 2 ^ 16 < codeSpace counts) :
    buildFrom get (st 0) = .raised ((st (16 + placedLeaves counts)).raise .table) := by
  obtain ⟨hmore, hfull⟩ := full_of_codeSpace hcounts hover
  rw [← hsymbols] at hmore hfull ⊢
  refine buildFrom_raised hd hcounts hmore (spaceBefore_le_of_le_placedLeaves hcounts hsymbols.le)
    fun l n x _ hroom => ?_
  have hcode : 2 ^ l ≤ x.code := not_lt.1 fun h => absurd (hroom.1 h) (not_lt.2 hfull)
  rw [expandLevel, if_pos hcode, raise_eq]

end Source

/-! ### A stream that stops short -/

/-- `HUF.BUILD` with `i` bytes of the specification fetched: the slot is invalid and empty, the reader not primed
(R153). -/
def building (s : State) (slot : BitVec 1) (i : Nat) : State :=
  (s.unprime.withTree slot false []).withIpos (s.ipos + BitVec.ofNat 32 i)

section Building
variable {s : State} (slot : BitVec 1)

theorem streamSource_building {bytes : List Byte} (hs : StreamOk s) (hb : bytes <+: streamTail s) :
    Delivers streamSource bytes (building s slot) :=
  streamSource_delivers (s := s.unprime.withTree slot false []) hs hb

/-- Past the last byte of the stream (R78). -/
theorem streamSource_building_end {n : Nat} (hn : n = (streamTail s).length) (i : Nat) :
    streamSource i (building s slot n) = .raised ((building s slot n).raise .eos) := by
  have hlen : n = s.inlen.toNat - s.ipos.toNat := hn.trans (Memory.length_readAll _ _ _)
  have hin := s.inlen.isLt
  have hpast : s.inlen.toNat ≤ (s.ipos + BitVec.ofNat 32 n).toNat := by
    rw [BitVec.toNat_add, BitVec.toNat_ofNat]
    omega
  exact fetchByte_of_le hpast

/-- `HUF.BUILD` where the expansion raises an error: the slot is not built (R153). -/
theorem exec_hufBuild_of_raised {t : State} (hs : StreamOk s)
    (h : buildFrom streamSource (building s slot 0) = .raised t) : exec (.hufBuild slot) s = .next t := by
  have hstart : building s slot 0 = s.unprime.withTree slot false [] := withIpos_self _
  rw [hstart] at h
  show (needInput s fun s => buildSlot streamSource slot s.unprime).outcome = _
  rw [needInput_of_le _ _ hs, buildSlot, h, Res.bind_raised, Res.outcome_raised]

end Building

/-- Settles O16: the three places where the expansion of the bytes at the cursor stops. -/
theorem hufBuildFaults : Obligations.HufBuildFaults := by
  refine ⟨fun s slot hs hshort => exec_hufBuild_of_raised slot hs ?_, fun s slot counts symbols hs hcounts htail =>
    ⟨fun hshort => exec_hufBuild_of_raised slot hs ?_, fun henough hover => exec_hufBuild_of_raised slot hs ?_⟩⟩
  · have hraised := readCounts_raised (streamSource_building slot hs List.prefix_rfl)
      (streamSource_building_end slot rfl _) 16 0 (Nat.zero_le _) (by rw [Nat.zero_add]; exact hshort)
    rw [buildFrom, hraised, Res.bind_raised]
    rfl
  · have hlen : 16 + symbols.length = (streamTail s).length := by rw [htail, List.length_append, hcounts]
    exact buildFrom_short (streamSource_building slot hs (by rw [htail])) hcounts hshort
      (streamSource_building_end slot hlen _)
  · have hprefix : counts ++ symbols.take (placedLeaves counts) <+: streamTail s := by
      rw [htail]
      exact (List.prefix_append_right_inj _).2 (List.take_prefix _ _)
    exact buildFrom_overSubscribed (streamSource_building slot hs hprefix) hcounts
      (List.length_take_of_le henough) hover

end Sys2Proof.Machine
end

section
/-! PROOFS. The walk of a tree (R156) along bits that begin with no code: it goes on as long as a leaf lies below the
place, so it ends at the first dead bit or where the stream ends. -/

namespace Sys2Proof.Machine

open Sys2Proof.Ref

/-! ### Codes as lists of bits -/

/-- A list of bits is read back from the number it stands for, the first bit the highest (R134). -/
theorem bitsOf_bitsValue (bits : List Bool) : bitsOf false (bitsValue false bits) bits.length = bits := by
  induction bits using List.reverseRecOn with
  | nil => rfl
  | append_singleton bits b ih =>
    have hvalue : bitsValue false (bits ++ [b]) = 2 * bitsValue false bits + b.toNat := by
      simp [bitsValue]
    have hlast : bitsOf false (2 * bitsValue false bits + b.toNat) 1 = [b] := by
      cases b <;> simp [bitsOf]
    have hfront : (2 * bitsValue false bits + b.toNat) >>> 1 = bitsValue false bits := by
      have := b.toNat_lt
      rw [Nat.shiftRight_eq_div_pow]
      omega
    rw [List.length_append, List.length_singleton, hvalue, bitsOf_false_add, hlast, hfront, ih]

/-- The place that a path of bits leads to lies at or above a leaf exactly when the path begins the leaf's code. -/
theorem isPrefix_codeBits_iff {e : TreeEntry} {path : List Bool} (he : e.code < 2 ^ e.len)
    (hlen : path.length ≤ e.len) :
    path <+: codeBits e ↔ e.code >>> (e.len - path.length) = bitsValue false path := by
  have hfits : e.code >>> (e.len - path.length) < 2 ^ path.length := by
    rw [Nat.shiftRight_eq_div_pow]
    apply Nat.div_lt_of_lt_mul
    rwa [← Nat.pow_add, Nat.sub_add_cancel hlen]
  have hsplit : codeBits e =
      bitsOf false (e.code >>> (e.len - path.length)) path.length ++ bitsOf false e.code (e.len - path.length) := by
    rw [codeBits_eq, ← bitsOf_false_add, Nat.add_sub_cancel' hlen]
  rw [hsplit, List.prefix_iff_eq_take, List.take_left' (length_bitsOf _ _ _)]
  constructor
  · intro hpath
    rw [hpath, bitsValue_bitsOf, ← hpath, Nat.mod_eq_of_lt hfits]
  · intro hvalue
    rw [hvalue, bitsOf_bitsValue]

theorem length_codeBits (e : TreeEntry) : (codeBits e).length = e.len := by rw [codeBits_eq, length_bitsOf]

/-! ### Dead ends -/

/-- No leaf lies at or below the place that the first `k + 1` bits lead to (R156). -/
def deadEnd (t : List TreeEntry) (bits : List Bool) (k : Nat) : Bool :=
  t.all fun e => !(bits.take (k + 1)).isPrefixOf (codeBits e)

section Dead
variable {t : List TreeEntry} {bits : List Bool}

theorem deadEnd_eq_false_iff {k : Nat} :
    deadEnd t bits k = false ↔ ∃ e ∈ t, bits.take (k + 1) <+: codeBits e := by
  simp [deadEnd, List.all_eq_false]

/-- The first dead end is where the walk breaks off. -/
theorem codeFault_of_deadEnd {k : Nat} (hk : k < bits.length) (hlive : ∀ j < k, deadEnd t bits j = false)
    (hdead : deadEnd t bits k = true) : codeFault t bits = (.corrupt, bits.drop (k + 1)) := by
  have hfind : (List.range bits.length).find? (deadEnd t bits) = some k :=
    List.find?_range_eq_some.2 ⟨hdead, List.mem_range.2 hk, fun j hj => by simp [hlive j hj]⟩
  unfold deadEnd at hfind
  rw [codeFault, hfind]

/-- Without a dead end the bits run out. -/
theorem codeFault_of_live (hlive : ∀ j < bits.length, deadEnd t bits j = false) : codeFault t bits = (.eos, []) := by
  have hfind : (List.range bits.length).find? (deadEnd t bits) = none :=
    List.find?_range_eq_none.2 fun j hj => by simp [hlive j hj]
  unfold deadEnd at hfind
  rw [codeFault, hfind]

/-- The bits begin with no code of the tree. -/
theorem matchLeaf_eq_none_iff : matchLeaf t bits = none ↔ ∀ e ∈ t, ¬ codeBits e <+: bits := by
  simp [matchLeaf, Option.map_eq_none_iff, List.find?_eq_none]

variable (hmatch : ∀ e ∈ t, ¬ codeBits e <+: bits)
include hmatch

/-- A leaf at or below a place on the way lies below it. -/
theorem lt_len_of_isPrefix {e : TreeEntry} (he : e ∈ t) {k : Nat} (hk : k ≤ bits.length)
    (h : bits.take k <+: codeBits e) : k < e.len := by
  have hlen : k ≤ e.len := by simpa [length_codeBits, hk] using h.length_le
  refine hlen.lt_of_ne fun heq => hmatch e he ?_
  rw [← h.eq_of_length (by rw [length_codeBits, List.length_take_of_le hk, heq])]
  exact List.take_prefix _ _

/-- The walk finds no leaf on its way. -/
theorem treeFind_of_unmatched (ht : TreeOk t) {k : Nat} (hk : k ≤ bits.length) :
    treeFind t k (bitsValue false (bits.take k)) = none := by
  refine List.find?_eq_none.2 fun e he hfound => ?_
  simp only [Bool.and_eq_true, beq_iff_eq] at hfound
  obtain ⟨hlen, hcode⟩ := hfound
  have hpath : (bits.take k).length = k := List.length_take_of_le hk
  have hprefix : bits.take k <+: codeBits e :=
    (isPrefix_codeBits_iff (ht.1 e he).2.2 (by omega)).2 (by rw [hpath, hlen, Nat.sub_self, Nat.shiftRight_zero, hcode])
  exact (lt_len_of_isPrefix hmatch he hk hprefix).ne hlen.symm

/-- The walk goes on exactly where it has not come to a dead end. -/
theorem treeBelow_of_unmatched (ht : TreeOk t) {k : Nat} (hk : k < bits.length) :
    treeBelow t (k + 1) (bitsValue false (bits.take (k + 1))) = !deadEnd t bits k := by
  have hpath : (bits.take (k + 1)).length = k + 1 := List.length_take_of_le hk
  have hplace {e : TreeEntry} (he : e ∈ t) (hlen : k + 1 ≤ e.len) : bits.take (k + 1) <+: codeBits e ↔
      e.code >>> (e.len - (k + 1)) = bitsValue false (bits.take (k + 1)) := by
    rw [isPrefix_codeBits_iff (ht.1 e he).2.2 (by omega), hpath]
  rw [Bool.eq_iff_iff, Bool.not_eq_true', deadEnd_eq_false_iff]
  simp only [treeBelow, List.any_eq_true, Bool.and_eq_true, decide_eq_true_eq, beq_iff_eq]
  constructor
  · rintro ⟨e, he, hlen, hcode⟩
    exact ⟨e, he, (hplace he hlen.le).2 hcode⟩
  · rintro ⟨e, he, hprefix⟩
    have hlen := lt_len_of_isPrefix hmatch he hk hprefix
    exact ⟨e, he, hlen, (hplace he hlen.le).1 hprefix⟩

end Dead

/-! ### The walk -/

/-- Reading the bit at position `k` of a stream. -/
theorem readBits_one {s : State} {bits : List Bool} {k : Nat} (hs : StreamOk s) (hp : s.primed = true) (hw : WindowOk s)
    (hbits : streamBits s = bits.drop k) (hk : k < bits.length) :
    ∃ b u, readBits 1 s = .ok b u ∧ 2 * bitsValue false (bits.take k) + b = bitsValue false (bits.take (k + 1)) ∧
      SameButWindow s u ∧ WindowOk u ∧ streamBits u = bits.drop (k + 1) ∧
      u.vbits.toNat + 1 = s.vbits.toNat + refillBits s.vbits.toNat 1 := by
  obtain ⟨u, hread, hsame, hwu, hstream, hvb⟩ := readBits_next hs hp hw (n := 1) (by omega) (by simp [hbits]; omega)
  refine ⟨_, u, hread, ?_, hsame, hwu, by rw [hstream, hbits, List.drop_drop], hvb⟩
  rw [hbits, List.drop_eq_getElem_cons hk, List.take_succ_cons, List.take_zero, List.take_succ_eq_append_getElem hk,
    bitsValue_append]
  cases s.order <;> simp [bitsValue]

/-- How the walk of a tree has ended with an error: only the window has moved, to the bits that are left. -/
structure WalkFails (s : State) (e : ErrCode) (rest : List Bool) (r : Res Byte) (u : State) : Prop where
  raised : r = .raised (u.raise e)
  frame : SameButWindow s u
  window : WindowOk u
  stream : streamBits u = rest
  filled : ∃ n, (streamBits s).length = rest.length + n ∧
    u.vbits.toNat + n = s.vbits.toNat + refillBits s.vbits.toNat n

/-- The walk from the place that the first `k` bits lead to (R156). -/
theorem walkTree_fails {t : List TreeEntry} {bits : List Bool} (ht : TreeOk t) (hmatch : ∀ e ∈ t, ¬ codeBits e <+: bits)
    {e : ErrCode} {rest : List Bool} (hfault : codeFault t bits = (e, rest)) (fuel : Nat) {k : Nat}
    (hfuel : k + fuel = 16) (hk : k ≤ bits.length) (hlive : ∀ j < k, deadEnd t bits j = false) {s : State}
    (hs : StreamOk s) (hp : s.primed = true) (hw : WindowOk s) (hbits : streamBits s = bits.drop k) :
    ∃ u, WalkFails s e rest (walkTree t fuel (k + 1) (bitsValue false (bits.take k)) s) u := by
  induction fuel generalizing k s with
  | zero =>
    obtain ⟨f, hf, hprefix⟩ := deadEnd_eq_false_iff.1 (hlive 15 (by omega))
    have hdeep := lt_len_of_isPrefix hmatch hf (by omega) hprefix
    have := (ht.1 f hf).2.1
    omega
  | succ fuel ih =>
    rcases hk.eq_or_lt with rfl | hlt
    · rw [codeFault_of_live hlive, Prod.mk.injEq] at hfault
      obtain ⟨rfl, rfl⟩ := hfault
      rw [List.drop_length] at hbits
      refine ⟨s, ?_, .refl s, hw, hbits, 0, by rw [hbits]; rfl, by simp [refillBits]⟩
      rw [walkTree, readBits_eq_bitField, bitField_eos hs hp hw (by omega) (by simp [hbits]), Res.bind_raised]
    · obtain ⟨b, u, hread, hcode, hsame, hwu, hstream, hvb⟩ := readBits_one hs hp hw hbits hlt
      have hlen : (streamBits s).length = (streamBits u).length + 1 := by
        rw [hbits, hstream, List.length_drop, List.length_drop]; omega
      rw [walkTree, hread, Res.bind_ok, hcode, treeFind_of_unmatched hmatch ht hlt]
      simp only [treeBelow_of_unmatched hmatch ht hlt]
      cases hdead : deadEnd t bits k with
      | true =>
        rw [codeFault_of_deadEnd hlt hlive hdead, Prod.mk.injEq] at hfault
        obtain ⟨rfl, rfl⟩ := hfault
        exact ⟨u, rfl, hsame, hwu, hstream, 1, by rw [hlen, hstream], hvb⟩
      | false =>
        have hsu : StreamOk u := by rw [hsame]; exact hs
        have hpu : u.primed = true := by rw [hsame]; exact hp
        obtain ⟨v, hwalk⟩ := ih (k := k + 1) (by omega) hlt
          (fun j hj => (Nat.lt_succ_iff_lt_or_eq.1 hj).elim (hlive j) fun h => h ▸ hdead) hsu hpu hwu hstream
        refine ⟨v, hwalk.raised, hsame.trans hwalk.frame, hwalk.window, hwalk.stream, ?_⟩
        obtain ⟨n, hrest, hfilled⟩ := hwalk.filled
        have hrefill := refillBits_one_add _ _ n hvb
        exact ⟨n + 1, by omega, by omega⟩

/-! ### The command -/

theorem exec_hufDecode_of_raised {s t : State} {slot : BitVec 1} (hs : StreamOk s)
    (h : decodeSymbol slot s = .raised t) : exec (.hufDecode slot) s = .next t := by
  show (needInput s _).outcome = _
  rw [needInput_of_le _ _ hs, h, Res.bind_raised, Res.outcome_raised]

/-- The tests of `DecodeSymbol` and of its first read (R156). -/
theorem decodeSymbol_usage {s : State} {slot : BitVec 1} (h : treeValid s slot = false ∨ s.primed = false) :
    decodeSymbol slot s = .raised (s.raise .usage) := by
  unfold decodeSymbol
  split
  · rfl
  · next hvalid =>
    have hread : readBits 1 s = .raised (s.raise .usage) := by
      rw [readBits_eq_bitField, bitField_usage (.inl (h.resolve_left hvalid))]
    rw [show Config.hufMaxLen = 15 + 1 from rfl, walkTree, hread, Res.bind_raised]

/-- `DecodeSymbol` where the stream goes on with no code of the tree (R156). -/
theorem decodeSymbol_fails {s : State} {slot : BitVec 1} {e : ErrCode} {rest : List Bool} (hs : StreamOk s)
    (hp : s.primed = true) (hw : WindowOk s) (hv : treeValid s slot = true) (ht : TreeOk (treeOf s slot))
    (hmatch : matchLeaf (treeOf s slot) (streamBits s) = none)
    (hfault : codeFault (treeOf s slot) (streamBits s) = (e, rest)) :
    ∃ u, WalkFails s e rest (decodeSymbol slot s) u := by
  rw [decodeSymbol, hv]
  exact walkTree_fails ht (matchLeaf_eq_none_iff.1 hmatch) hfault Config.hufMaxLen (k := 0) rfl (Nat.zero_le _)
    (fun _ hj => absurd hj (Nat.not_lt_zero _)) hs hp hw rfl

/-- Settles O19: the tests before the walk, and the walk that reaches no leaf. -/
theorem hufDecodeFaults : Obligations.HufDecodeFaults := by
  refine ⟨fun s slot hs h => exec_hufDecode_of_raised hs (decodeSymbol_usage h),
    fun s slot e rest hs hp hw hv ht hmatch hfault => ?_⟩
  obtain ⟨u, hraised, hframe, hwindow, hstream, n, hrest, hfilled⟩ := decodeSymbol_fails hs hp hw hv ht hmatch hfault
  have hconsumed : (streamBits s).length - rest.length = n := by omega
  refine ⟨u.raise e, exec_hufDecode_of_raised hs hraised, congrArg (State.raise e) hframe, hstream, hwindow, ?_⟩
  rw [hconsumed]
  exact hfilled

end Sys2Proof.Machine
end

section
/-! PROOFS. The residuals (R158, R159): what a residual read returns and leaves, and how it ends where it cannot. -/

namespace Sys2Proof.Machine

open Sys2Proof.Ref

/-! ### The number that raw bits stand for -/

/-- The top bit of a field says which half of its range the number lies in (R158). -/
theorem residualOf_eq_residualValue {len v : Nat} (hv : v < 2 ^ len) : residualOf len v = residualValue len v := by
  cases len with
  | zero => rfl
  | succ k =>
    have htop : v.testBit k = true ↔ 2 ^ k ≤ v :=
      ⟨Nat.ge_two_pow_of_testBit, fun h => Nat.testBit_of_two_pow_le_and_two_pow_add_one_gt h hv⟩
    simp only [residualOf, residualValue, Nat.add_sub_cancel, htop]

/-! ### The residual read -/

section Residual
variable {len : Nat} {s : State}

/-- `Residual(len)` where the stream holds the bits; for `len = 0` it reads none (R158). -/
theorem residual_next (hs : StreamOk s) (hp : s.primed = true) (hw : WindowOk s) (hn : len ≤ 25)
    (hlen : len ≤ (streamBits s).length) :
    ∃ u, residual len s = .ok (residualValue len (bitsValue s.order ((streamBits s).take len))) u ∧
      SameButWindow s u ∧ WindowOk u ∧ streamBits u = (streamBits s).drop len := by
  rcases Nat.eq_zero_or_pos len with rfl | hpos
  · exact ⟨s, rfl, .refl s, hw, rfl⟩
  · obtain ⟨w, hsup, hfield⟩ := bitField_next (keep := Window.consume) hs hp hw hn hlen
    have hfits := hsup.fits.consume s.order hsup.enough
    refine ⟨s.commit (w.consume s.order len), ?_, sameButWindow_withWindow s _ _ _, hfits.windowOk_commit s,
      (hfits.streamBits_commit s).trans hsup.unread_consume⟩
    rw [residual, if_neg hpos.ne', readBits_eq_bitField, hfield, Res.bind_ok, residualOf_eq_residualValue hsup.value_lt]

/-- `Residual(len)` where the stream ends before the bits (R158). -/
theorem residual_eos (hs : StreamOk s) (hp : s.primed = true) (hw : WindowOk s) (hn : len ≤ 25)
    (hshort : (streamBits s).length < len) : residual len s = .raised (s.raise .eos) := by
  rw [residual, if_neg (by omega), readBits_eq_bitField, bitField_eos hs hp hw hn hshort, Res.bind_raised]

end Residual

/-! ### The command -/

theorem exec_hufResid_of_primed {s : State} (len : BitVec 4) (hs : StreamOk s) (hp : s.primed = true) :
    exec (.hufResid len) s =
      ((residual len.toNat s).bind fun v s => .ok () (s.withResult (sext32 v))).outcome := by
  show (needInput s fun s => needPrimed s _).outcome = _
  rw [needInput_of_le _ _ hs, needPrimed_of_primed _ _ hp]

theorem exec_hufResid_of_unprimed {s : State} (len : BitVec 4) (hs : StreamOk s) (hp : s.primed = false) :
    exec (.hufResid len) s = .next (s.raise .usage) := by
  show (needInput s fun s => needPrimed s _).outcome = _
  rw [needInput_of_le _ _ hs, needPrimed_eq, if_neg (by simp [hp]), Res.outcome_raised]

/-- Settles O20: the test of the reader, then the residual read with its two ends. -/
theorem hufResidValue : Obligations.HufResidValue := by
  have hlen25 (len : BitVec 4) : len.toNat ≤ 25 := by have := len.isLt; omega
  refine ⟨fun s len hs hp hw hlen => ?_, fun s hs hp => exec_hufResid_of_primed 0#4 hs hp,
    fun s len hs hp => exec_hufResid_of_unprimed len hs hp, fun s len hs hp hw hshort => ?_⟩
  · obtain ⟨u, hresid, hsame, hwu, hstream⟩ := residual_next hs hp hw (hlen25 len) hlen
    refine ⟨u.withResult (sext32 _), ?_, ?_, rfl, hstream, hwu⟩
    · rw [exec_hufResid_of_primed len hs hp, hresid, Res.bind_ok, Res.outcome_ok]
    · exact congrArg (fun t : State => t.withResult (sext32 _)) hsame
  · rw [exec_hufResid_of_primed len hs hp, residual_eos hs hp hw (hlen25 len) hshort, Res.bind_raised,
      Res.outcome_raised]

end Sys2Proof.Machine
end

section
/-! PROOFS. What a run in progress counts on (R181, R203, R205, R231, R256) stands in one view of the state. Every
operation below the engine steps leaves the view as it is, whether it goes on or raises an error, and the engine step of
each unit moves what it must move in it. One declaration is elaborated after the other, for the memory limit. -/

namespace Sys2Proof.Machine

open Sys2Proof.Ref

set_option Elab.async false

variable {α β γ δ : Type} {s t u : State} {r : Res α}

/-! ### Frames with the raising state -/

/-- Begun in `s`, the pseudocode goes on with the `p` of `s`, or raises an error (R304) in a state with the `p` of
`s`. -/
def Res.Framed (p : State → γ) (s : State) (r : Res α) : Prop :=
  r.Post (fun _ t => p t = p s) (fun t => ∃ (u : State) (e : ErrCode), p u = p s ∧ t = u.raise e) False

section Framed
variable {p : State → γ}

theorem Res.Framed.ok {a : α} (h : p u = p s) : (Res.ok a u).Framed p s := h

theorem Res.Framed.raise (e : ErrCode) (h : p u = p s) : (Machine.raise e u : Res α).Framed p s := ⟨u, e, h, rfl⟩

theorem Res.Framed.stop (f : Fault) : (Res.stop f : Res α).Framed p s := id

/-- A frame may be counted from any earlier state that agrees with the present one. -/
theorem Res.Framed.since (hr : r.Framed p u) (h : p u = p s) : r.Framed p s :=
  hr.mono (fun _ _ ht => ht.trans h) (fun _ ⟨v, e, hv, ht⟩ => ⟨v, e, hv.trans h, ht⟩) id

theorem Res.Framed.bind {k : α → State → Res β} (hr : r.Framed p s) (hk : ∀ a u, (k a u).Framed p u) :
    (r.bind k).Framed p s :=
  Res.Post.bind hr fun a u hu => Res.Framed.since (hk a u) hu

/-- A test that raises an error before an operation. -/
theorem Res.Framed.guard {c : Prop} [Decidable c] {e : ErrCode} (hr : r.Framed p s) :
    (if c then Machine.raise e s else r).Framed p s := by
  split
  · exact .raise e rfl
  · exact hr

/-- What a part of the frame sees is framed too. -/
theorem Res.Framed.project (hr : r.Framed p s) (f : γ → δ) : r.Framed (fun t => f (p t)) s :=
  hr.mono (fun _ _ h => congrArg f h) (fun _ ⟨u, e, h, ht⟩ => ⟨u, e, congrArg f h, ht⟩) id

end Framed

/-! ### The view -/

/-- The configuration, the unit and the place in the image: what the invariant of a run looks at beside the BMP column,
the reader and the trees. -/
def imageView (s : State) : (Params × Word × EngineState × RunUnit) × (Word × Word × Word × Word) ×
    (Word × Word × Word × Bool) × Word × Word :=
  ((s.params, s.inlen, s.st, s.unit), (s.width, s.height, s.channels, s.budget), (s.chan, s.row, s.phase, s.hdrrle),
    s.column, s.block)

/-- What the invariant of a run looks at beside the BMP column. -/
def runView (s : State) := (imageView s, s.primed, s.treev0, s.treev1)

/-- The operation leaves the view alone, from whatever state it is begun in. -/
def KeepsView (f : State → Res α) : Prop := ∀ s, (f s).Framed runView s

theorem Res.Framed.image (hr : r.Framed runView s) : r.Framed imageView s := hr.project Prod.fst

/-- No operation below the engine steps ends a run but by an error. -/
theorem Res.Framed.st (hr : r.Framed imageView s) : r.Framed State.st s := 
  hr.project fun ((_, _, st, _), _) => st

/-! ### The memory spaces and the bit reader -/

theorem inByte_keepsView (a : Nat) : KeepsView (inByte a) := by
  intro s
  unfold inByte
  split
  · exact .ok rfl
  · exact .stop _

theorem fetchByte_keepsView : KeepsView fetchByte := fun s =>
  .guard <| (inByte_keepsView _ s).bind fun _ _ => .ok rfl

theorem outByte_keepsView (a : Nat) : KeepsView (outByte a) := by
  intro s
  unfold outByte
  split
  · exact .ok rfl
  · exact .stop _

theorem out16_keepsView (i : Nat) : KeepsView (out16 i) := fun s =>
  (outByte_keepsView _ s).bind fun _ u => (outByte_keepsView _ u).bind fun _ _ => .ok rfl

theorem out16Write_keepsView (i : Nat) (v : BitVec 16) : KeepsView (out16Write i v) := by
  intro s
  unfold out16Write
  split
  · exact .ok rfl
  · exact .stop _

theorem offsetEntry_keepsView (i : Nat) : KeepsView (offsetEntry i) := by
  intro s
  unfold offsetEntry
  split
  · exact .ok rfl
  · exact .stop _

theorem lengthEntry_keepsView (i : Nat) : KeepsView (lengthEntry i) := by
  intro s
  unfold lengthEntry
  split
  · exact .ok rfl
  · exact .stop _

theorem scanRead_keepsView (q x : Nat) : KeepsView (scanRead q x) := by
  intro s
  unfold scanRead
  split
  · exact .ok rfl
  · exact .stop _

theorem SameButWindow.runView_eq (h : SameButWindow s t) : runView t = runView s := by rw [h]; rfl

/-- What is known after a piece of pseudocode that reads bits and raises `USAGE` or `EOS` with nothing else changed. -/
theorem Res.Post.framed_window {P : α → State → Prop} {safe : Prop}
    (hr : r.Post P (fun t => t = s.raise .usage ∨ t = s.raise .eos) safe) (hP : ∀ a t, P a t → SameButWindow s t) :
    r.Framed runView s := by
  refine hr.mono (fun a t h => (hP a t h).runView_eq) ?_ False.elim
  rintro t (rfl | rfl)
  · exact ⟨s, .usage, rfl, rfl⟩
  · exact ⟨s, .eos, rfl, rfl⟩

theorem readBits_keepsView (n : Nat) : KeepsView (readBits n) := fun s =>
  (readBits_post n s).framed_window fun _ _ h => h.1

theorem peekBits_keepsView (n : Nat) : KeepsView (peekBits n) := fun s =>
  (peekBits_post n s).framed_window fun _ _ h => h.1

theorem skipBits_keepsView (n : Nat) : KeepsView (skipBits n) := fun s =>
  ((skipBits_post n s).mono (fun _ _ h => h) (fun _ h => .inl h) id).framed_window fun _ _ h => h.1

theorem residual_keepsView (len : Nat) : KeepsView (residual len) := fun s =>
  (residual_post len s).framed_window fun _ _ h => h.1

theorem decodeSymbol_keepsView (slot : BitVec 1) : KeepsView (decodeSymbol slot) := fun s =>
  (decodeSymbol_post slot s).mono (fun _ _ h => h.1.runView_eq)
    (fun _ ⟨v, e, hv, _, ht⟩ => ⟨v, e, hv.runView_eq, ht⟩) False.elim

/-! ### CRW -/

theorem crwZeroBody_keepsView (run : BitVec 4) : KeepsView (crwZeroBody run) := fun _ => .guard (.ok rfl)

theorem crwResidBody_keepsView (run len : BitVec 4) : KeepsView (crwResidBody run len) := fun s =>
  .guard <| (residual_keepsView _ s).bind fun v u => .ok (by simp [runView, imageView])

theorem crwSymbol_keepsView (sym : Byte) : KeepsView (crwSymbol sym) := by
  intro s
  unfold crwSymbol
  split
  · exact .ok rfl
  split
  · exact .ok rfl
  split
  · exact crwZeroBody_keepsView _ s
  · exact crwResidBody_keepsView _ _ s

theorem blockLoop_keepsView (fuel : Nat) : KeepsView (blockLoop fuel) := by
  induction fuel with
  | zero => exact fun _ => .ok rfl
  | succ fuel ih =>
    intro s
    unfold blockLoop
    split
    · exact (decodeSymbol_keepsView _ s).bind fun sym u => (crwSymbol_keepsView sym u).bind fun _ => ih
    · exact .ok rfl

theorem crwBlockBody_keepsView : KeepsView crwBlockBody := fun s =>
  ((blockLoop_keepsView _ s.startBlock).since rfl).bind fun _ _ => .ok rfl

theorem mergeAt_keepsView (k : Nat) : KeepsView (mergeAt k) := fun s =>
  (inByte_keepsView _ s).bind fun _ u => (out16_keepsView k u).bind fun _ => out16Write_keepsView k _

theorem mergeLoop_keepsView (n k : Nat) : KeepsView (mergeLoop n k) := by
  induction n generalizing k with
  | zero => exact fun _ => .ok rfl
  | succ n ih => exact fun s => (mergeAt_keepsView k s).bind fun _ => ih (k + 1)

theorem crwMergeBody_keepsView : KeepsView crwMergeBody := fun s => .guard (mergeLoop_keepsView _ _ s)

/-! ### BMP -/

theorem putPixel_keepsView (v : Byte) : KeepsView (putPixel v) := fun s =>
  (putPixel_post v s).mono (fun _ _ ⟨ht, _⟩ => by rw [ht]; rfl)
    (fun _ ⟨u, hu, ht⟩ => ⟨u, .overflow, by rw [hu]; rfl, ht⟩) id

theorem putRun8_keepsView (n : Nat) (v : Byte) : KeepsView (putRun8 n v) := by
  induction n with
  | zero => exact fun _ => .ok rfl
  | succ n ih => exact fun s => (putPixel_keepsView v s).bind fun _ => ih

theorem putRun4_keepsView (n k : Nat) (e o : BitVec 4) : KeepsView (putRun4 n k e o) := by
  induction n generalizing k with
  | zero => exact fun _ => .ok rfl
  | succ n ih => exact fun s => (putPixel_keepsView _ s).bind fun _ => ih (k + 1)

theorem putLiterals8_keepsView (n : Nat) : KeepsView (putLiterals8 n) := by
  induction n with
  | zero => exact fun _ => .ok rfl
  | succ n ih => exact fun s => (fetchByte_keepsView s).bind fun b u => (putPixel_keepsView b u).bind fun _ => ih

theorem putLiterals4_keepsView (n j total : Nat) : KeepsView (putLiterals4 n j total) := by
  induction n generalizing j with
  | zero => exact fun _ => .ok rfl
  | succ n ih =>
    refine fun s => (fetchByte_keepsView s).bind fun _ u => (putPixel_keepsView _ u).bind fun _ v => ?_
    split
    · exact (putPixel_keepsView _ v).bind fun _ => ih (j + 1)
    · exact ih (j + 1) v

theorem padByte_keepsView (n : Nat) : KeepsView (padByte n) := by
  intro s
  unfold padByte
  split
  · exact (fetchByte_keepsView s).bind fun _ _ => .ok rfl
  · exact .ok rfl

theorem bmpAbs8Body_keepsView (n : BitVec 8) : KeepsView (bmpAbs8Body n) := fun s =>
  (putLiterals8_keepsView _ s).bind fun _ => padByte_keepsView _

theorem bmpAbs4Body_keepsView (n : BitVec 8) : KeepsView (bmpAbs4Body n) := fun s =>
  (putLiterals4_keepsView _ _ _ s).bind fun _ => padByte_keepsView _

/-! ### SGI -/

theorem copyRun_keepsView (n src dst : Nat) : KeepsView (copyRun n src dst) := fun s =>
  (copyRun_post n src dst s).mono (fun _ _ ht => by rw [ht]; rfl) (fun _ => False.elim) id

theorem fillRun_keepsView (n : Nat) (v : Byte) (dst : Nat) : KeepsView (fillRun n v dst) := fun s =>
  (fillRun_post n v dst s).mono (fun _ _ ht => by rw [ht]; rfl) (fun _ => False.elim) id

theorem sgiVerbatimBody_keepsView (count : BitVec 7) : KeepsView (sgiVerbatimBody count) := fun s =>
  .guard <| .guard <| (copyRun_keepsView _ _ _ s).bind fun _ _ => .ok rfl

theorem sgiRepeatBody_keepsView (count : BitVec 7) : KeepsView (sgiRepeatBody count) := fun s =>
  .guard <| .guard <| (inByte_keepsView _ s).bind fun v u =>
    ((fillRun_keepsView _ v _ (u.withIpos (u.ipos + 1#32))).since rfl).bind fun _ _ => .ok rfl

theorem sgiCommand_keepsView (ctl : Byte) : KeepsView (sgiCommand ctl) := by
  intro s
  unfold sgiCommand
  split
  · exact .ok rfl
  split
  · exact sgiVerbatimBody_keepsView _ s
  · exact sgiRepeatBody_keepsView _ s

theorem lineLoop_keepsView (fuel : Nat) : KeepsView (lineLoop fuel) := by
  induction fuel with
  | zero => exact fun _ => .ok rfl
  | succ fuel ih =>
    intro s
    unfold lineLoop
    split
    · exact .ok rfl
    · exact (inByte_keepsView _ s).bind fun ctl u =>
        ((sgiCommand_keepsView ctl (u.withIpos (u.ipos + 1#32))).since rfl).bind fun _ => ih

/-- The decoding of a scanline writes of the view what it writes at its start (R235). -/
theorem sgiLineBody_framed (c r : Word) (s : State) : (sgiLineBody c r s).Framed runView (s.startLine c r) :=
  (offsetEntry_keepsView _ _).bind fun off u => (lengthEntry_keepsView _ u).bind fun _ v => .guard <|
    ((lineLoop_keepsView _ ((v.withIpos off).withLoc _)).since rfl).bind fun _ _ => .ok rfl

/-! ### HDR -/

theorem putRgbe_keepsView (y x : Nat) (r g b e : Byte) : KeepsView (putRgbe y x r g b e) := fun s =>
  (putRgbe_post y x r g b e s).mono (fun _ _ ht => by rw [ht]; rfl) (fun _ => False.elim) id

theorem scanFill_keepsView (n : Nat) (v : Byte) (q x : Nat) : KeepsView (scanFill n v q x) := fun s =>
  (scanFill_post n v q x s).mono (fun _ _ ht => by rw [ht]; rfl) (fun _ => False.elim) id

theorem scanLiterals_keepsView (n q x : Nat) : KeepsView (scanLiterals n q x) := fun s =>
  (scanLiterals_post n q x s).mono (fun _ _ ht => by rw [ht]; rfl)
    (fun _ ⟨u, hu, ht⟩ => ⟨u, .eos, by rw [hu]; rfl, ht⟩) id

theorem hdrCommand_keepsView (ctl : Byte) : KeepsView (hdrCommand ctl) := by
  intro s
  unfold hdrCommand
  split
  · exact .guard <| (fetchByte_keepsView s).bind fun v u => (scanFill_keepsView _ v _ _ u).bind fun _ _ => .ok rfl
  split
  · exact .raise _ rfl
  · exact .guard <| (scanLiterals_keepsView _ _ _ s).bind fun _ _ => .ok rfl

theorem planeLoop_keepsView (fuel : Nat) : KeepsView (planeLoop fuel) := by
  induction fuel with
  | zero => exact fun _ => .ok rfl
  | succ fuel ih =>
    intro s
    unfold planeLoop
    split
    · exact (fetchByte_keepsView s).bind fun ctl u => (hdrCommand_keepsView ctl u).bind fun _ => ih
    · exact .ok rfl

theorem planesLoop_keepsView (n q : Nat) : KeepsView (planesLoop n q) := by
  induction n generalizing q with
  | zero => exact fun _ => .ok rfl
  | succ n ih =>
    exact fun s => ((planeLoop_keepsView _ (s.withLoc { plane := q, planeX := 0 })).since rfl).bind
      fun _ => ih (q + 1)

theorem transposeLoop_keepsView (n y x : Nat) : KeepsView (transposeLoop n y x) := by
  induction n generalizing x with
  | zero => exact fun _ => .ok rfl
  | succ n ih =>
    exact fun s => (scanRead_keepsView _ _ s).bind fun _ s => (scanRead_keepsView _ _ s).bind fun _ s =>
      (scanRead_keepsView _ _ s).bind fun _ s => (scanRead_keepsView _ _ s).bind fun _ s =>
        (putRgbe_keepsView _ _ _ _ _ _ s).bind fun _ => ih (x + 1)

theorem flatLoop_keepsView (n y x : Nat) : KeepsView (flatLoop n y x) := by
  induction n generalizing x with
  | zero => exact fun _ => .ok rfl
  | succ n ih =>
    exact fun s => (fetchByte_keepsView s).bind fun _ s => (fetchByte_keepsView s).bind fun _ s =>
      (fetchByte_keepsView s).bind fun _ s => (fetchByte_keepsView s).bind fun _ s =>
        (putRgbe_keepsView _ _ _ _ _ _ s).bind fun _ => ih (x + 1)

theorem fetchHeader_keepsView : KeepsView fetchHeader := by
  refine fun s => (fetchByte_keepsView s).bind fun _ s => (fetchByte_keepsView s).bind fun _ s =>
    (fetchByte_keepsView s).bind fun _ s => (fetchByte_keepsView s).bind fun _ s => ?_
  split
  · exact .guard (.ok rfl)
  · exact .raise _ rfl

theorem rleScanline_keepsView (y : Nat) : KeepsView (rleScanline y) := fun s =>
  (fetchHeader_keepsView s).bind fun _ u => (planesLoop_keepsView 4 0 u).bind fun _ v =>
    (transposeLoop_keepsView _ _ _ (v.withLoc {})).since rfl

/-! ### Operations that write to the view -/

/-- Rebuilding a slot (R153, R154) marks it valid and leaves the other's mark. -/
theorem buildSlot_view {get : SpecSource} (hg : SourceMovesCursor get) (slot : BitVec 1) (s : State) :
    (buildSlot get slot s).Post
      (fun _ t => imageView t = imageView s ∧ t.treev0 = (if slot = 0#1 then true else s.treev0) ∧
        t.treev1 = (if slot = 0#1 then s.treev1 else true))
      (fun t => ∃ (u : State) (e : ErrCode), imageView u = imageView s ∧ t = u.raise e) False := by
  refine (buildSlot_post hg slot s).mono ?_ ?_ id
  · rintro _ t ⟨tree, ht⟩
    rw [ht]
    exact ⟨rfl, rfl, rfl⟩
  · rintro t ⟨u, e, hu, ht⟩
    exact ⟨u, e, by rw [hu]; rfl, ht⟩

theorem buildSlot_framed {get : SpecSource} (hg : SourceMovesCursor get) (slot : BitVec 1) (s : State) :
    (buildSlot get slot s).Framed imageView s :=
  (buildSlot_view hg slot s).mono (fun _ _ h => h.1) (fun _ h => h) id

/-- `HUF.LOADT` (R154) leaves two valid trees. -/
theorem loadTables_view (s : State) :
    (loadTables s).Post (fun _ t => imageView t = imageView s ∧ t.treev0 = true ∧ t.treev1 = true)
      (fun t => ∃ (u : State) (e : ErrCode), imageView u = imageView s ∧ t = u.raise e) False := by
  refine Res.Post.bind (buildSlot_view (listSource_movesCursor _) 0#1 s) fun _ u ⟨hu, hv0, _⟩ => ?_
  refine (buildSlot_view (listSource_movesCursor _) 1#1 u).mono ?_ ?_ id
  · rintro _ t ⟨ht, h0, h1⟩
    exact ⟨ht.trans hu, h0.trans hv0, h1⟩
  · rintro t ⟨v, e, hv, ht⟩
    exact ⟨v, e, hv.trans hu, ht⟩

theorem loadTables_framed (s : State) : (loadTables s).Framed imageView s :=
  (loadTables_view s).mono (fun _ _ h => h.1) (fun _ h => h) id

/-- The row test and the addition of R177 write the bases alone. -/
theorem addResidual_rowTest_eq (i : Nat) (s : State) :
    ∃ b0 b1, addResidual i (rowTest s) = s.withRecon s.outMem s.column b0 b1 := by
  unfold addResidual rowTest
  split <;> split <;> exact ⟨_, _, rfl⟩

theorem toNat_add_one_le (c : Word) : (c + 1#32).toNat ≤ c.toNat + 1 := by
  rw [BitVec.toNat_add]
  exact Nat.mod_le _ _

/-- One position of R177: the column moves past a sample that lies inside `OUT`, or stays where it is. -/
theorem reconSample_post (i : Nat) (s : State) :
    (reconSample i s).Post
      (fun _ t => t = s.withRecon t.outMem (s.column + 1#32) t.base0 t.base1 ∧ ColumnOk t)
      (fun t => ∃ u : State, u = s.withRecon u.outMem s.column u.base0 u.base1 ∧ t = u.raise .overflow) False := by
  obtain ⟨b0, b1, h⟩ := addResidual_rowTest_eq i s
  unfold reconSample
  rw [h]
  dsimp only
  split
  · exact ⟨_, rfl, rfl⟩
  · next hfit =>
    obtain ⟨-, hout⟩ := not_or.1 hfit
    rw [out16Write_of_lt _ (not_le.1 hout)]
    have := toNat_add_one_le s.column
    exact ⟨rfl, by simp [ColumnOk] at hout ⊢; omega⟩

/-- The `n` positions from `i` on (R177). -/
theorem reconLoop_post (n i : Nat) (s : State) :
    (reconLoop n i s).Post
      (fun _ t => t = s.withRecon t.outMem (s.column + BitVec.ofNat 32 n) t.base0 t.base1 ∧ (ColumnOk s → ColumnOk t))
      (fun t => ∃ u : State, u = s.withRecon u.outMem u.column u.base0 u.base1 ∧ (ColumnOk s → ColumnOk u) ∧
        t = u.raise .overflow) False := by
  induction n generalizing i s with
  | zero => exact ⟨by simp [State.withRecon], id⟩
  | succ n ih =>
    refine Res.Post.bind ((reconSample_post i s).mono (fun _ _ h => h) ?_ id) fun _ u ⟨hu, hcol⟩ =>
      (ih (i + 1) u).mono ?_ ?_ id
    · rintro t ⟨u, hu, ht⟩
      exact ⟨u, by rw [hu]; rfl, fun h => by rw [hu]; exact h, ht⟩
    · rintro _ t ⟨ht, hc⟩
      have hcount : s.column + BitVec.ofNat 32 (n + 1) = s.column + 1#32 + BitVec.ofNat 32 n := by
        rw [Nat.add_comm, BitVec.ofNat_add, add_assoc]
      refine ⟨?_, fun _ => hc hcol⟩
      rw [hcount, ht, hu]
      rfl
    · rintro t ⟨v, hv, hc, ht⟩
      exact ⟨v, by rw [hv, hu]; rfl, fun _ => hc hcol, ht⟩

/-- A block more in the image (R177). -/
@[simps] def State.countBlock (s : State) : State := { s with column := s.column + 64#32, block := s.block + 1#32 }

/-- The reconstruction of a block (R177) moves the column by a block and counts it, or raises an error with every sample
that `COLUMN` counts inside `OUT`. -/
theorem crwReconBody_post (s : State) :
    (crwReconBody s).Post
      (fun _ t => runView t = runView s.countBlock ∧ (ColumnOk s → ColumnOk t))
      (fun t => ∃ (u : State) (e : ErrCode), runView { u with column := s.column } = runView s ∧
        (ColumnOk s → ColumnOk u) ∧ t = u.raise e) False := by
  unfold crwReconBody
  split
  · exact ⟨s, .config, rfl, id, rfl⟩
  · have hcarry : ColumnOk s → ColumnOk (applyCarry s) := by simp [ColumnOk, applyCarry]
    refine Res.Post.bind ((reconLoop_post _ 0 (applyCarry s)).mono (fun _ _ h => h) ?_ id) fun _ u ⟨hu, hc⟩ => ?_
    · rintro t ⟨u, hu, hc, ht⟩
      exact ⟨u, .overflow, by rw [hu]; simp [runView, imageView, applyCarry], fun h => hc (hcarry h), ht⟩
    · refine ⟨?_, fun h => hc (hcarry h)⟩
      rw [hu]
      simp [runView, imageView, applyCarry, Config.blockLen]

end Sys2Proof.Machine
end

section
/-! PROOFS. Every step keeps the run invariant (R181, R203, R205, R231, R256): the commands that start a run establish
it, no other command touches a run, and the engine step of each unit keeps its part of it. One declaration is elaborated
after the other, for the memory limit. -/

namespace Sys2Proof.Machine

open Sys2Proof.Ref

set_option Elab.async false

variable {α β : Type} {J : State → Prop} {s t u : State} {r : Res α}

/-! ### Where an operation lands -/

/-- Every next state that the step gives has `J`. -/
def LandsIn (J : State → Prop) (o : Host.Outcome State Fault Refusal) : Prop := ∀ t, o = .next t → J t

theorem landsIn_next (h : J t) : LandsIn J (.next t) := by
  rintro _ ⟨⟩
  exact h

theorem Res.Post.landsIn {safe : Prop} (hr : r.Post (fun _ => J) J safe) : LandsIn J r.outcome := fun _ ht =>
  (hr.outcome ht).elim (fun ⟨_, h⟩ => h) id

theorem Res.Post.andThen_landsIn {P : α → State → Prop} {safe : Prop}
    {k : α → State → Host.Outcome State Fault Refusal} (hr : r.Post P J safe)
    (hk : ∀ a u, P a u → LandsIn J (k a u)) : LandsIn J (r.andThen k) := by
  cases r with
  | ok a u => exact hk a u hr
  | raised u => exact landsIn_next hr
  | stop f => rintro t ⟨⟩

/-- The pseudocode ends, by an error or not, in a state with the run invariant. -/
abbrev Res.KeepsRun (r : Res α) : Prop := r.Post (fun _ => RunInv) RunInv False

/-! ### No run in progress -/

/-- The invariant where no run is in progress. -/
structure AtRest (s : State) : Prop where
  params : ParamsOk s
  column : ColumnOk s
  idle : s.st ≠ .busy

theorem AtRest.runInv (h : AtRest s) : RunInv s := ⟨h.params, h.column, fun hb => absurd hb h.idle⟩

/-- An error ends the run (R304). -/
theorem atRest_raise (e : ErrCode) (hp : ParamsOk s) (hc : ColumnOk s) : AtRest (s.raise e) := ⟨hp, hc, by simp⟩

/-- So does reaching `DONE` (R288). -/
theorem atRest_finish (hp : ParamsOk s) (hc : ColumnOk s) : AtRest s.finish := ⟨hp, hc, by simp⟩

/-- What the view tells about the part of the invariant that holds with and without a run. -/
theorem imageView_bounds (h : imageView t = imageView s) :
    t.params = s.params ∧ t.column = s.column ∧ t.st = s.st := by
  simp only [imageView, Prod.mk.injEq] at h
  obtain ⟨⟨hp, -, hst, -⟩, -, -, hc, -⟩ := h
  exact ⟨hp, hc, hst⟩

theorem AtRest.of_view (hs : AtRest s) (h : imageView t = imageView s) : AtRest t := by
  obtain ⟨hp, hc, hst⟩ := imageView_bounds h
  obtain ⟨hparams, hcol, hidle⟩ := hs
  exact ⟨by rwa [ParamsOk, hp], by rwa [ColumnOk, hc, hp], by rwa [hst]⟩

/-- A raised error leaves the bounds of the samples as they were. -/
theorem atRest_raise_of_view (e : ErrCode) (h : imageView u = imageView s) (hp : ParamsOk s) (hc : ColumnOk s) :
    AtRest (u.raise e) := by
  obtain ⟨hparams, hcol, -⟩ := imageView_bounds h
  exact atRest_raise e (by rwa [ParamsOk, hparams]) (by rwa [ColumnOk, hparams, hcol])

/-- A framed operation that begins at rest ends at rest. -/
theorem Res.Framed.atRest (hr : r.Framed imageView s) (hs : AtRest s) : r.Post (fun _ => AtRest) AtRest False :=
  hr.mono (fun _ _ h => hs.of_view h) (fun _ ⟨_, e, h, ht⟩ => ht ▸ atRest_raise_of_view e h hs.params hs.column) id

theorem Res.Framed.landsInRun (hr : r.Framed imageView s) (hs : AtRest s) : LandsIn RunInv r.outcome :=
  Res.Post.landsIn ((hr.atRest hs).mono (fun _ _ => AtRest.runInv) (fun _ => AtRest.runInv) id)

/-- A test that raises an error at rest, before what may count on it. -/
theorem AtRest.guard {c : Prop} [Decidable c] {e : ErrCode} (hs : AtRest s) (hr : ¬ c → r.KeepsRun) :
    (if c then raise e s else r).KeepsRun := by
  split
  · exact (atRest_raise e hs.params hs.column).runInv
  · next hc => exact hr hc

/-- A command that begins with the prologue of R312. -/
theorem AtRest.needInput {k : State → Res α} (hs : AtRest s) (hk : StreamOk s → (k s).KeepsRun) :
    LandsIn RunInv (needInput s k).outcome :=
  Res.Post.landsIn (hs.guard fun h => hk (not_lt.1 h))

/-- A command that reads `IN` and starts no run. -/
theorem AtRest.needInput_framed {k : State → Res α} (hs : AtRest s) (hk : (k s).Framed imageView s) :
    LandsIn RunInv (Machine.needInput s k).outcome :=
  hs.needInput fun _ => (hk.atRest hs).mono (fun _ _ => AtRest.runInv) (fun _ => AtRest.runInv) id

/-! ### A run in progress -/

/-- What a run of the unit has made sure of. -/
def UnitOk : RunUnit → State → Prop
  | .none, _ => False
  | .crw, s => CrwRunOk s
  | .bmp, s => BmpRunOk s
  | .sgi, s => SgiRunOk s
  | .hdr, s => HdrRunOk s

/-- The invariant where a run of the unit is in progress. -/
structure Running (un : RunUnit) (s : State) : Prop where
  params : ParamsOk s
  column : ColumnOk s
  busy : s.st = .busy
  unit : s.unit = un
  stream : StreamOk s
  width : 0 < s.width.toNat
  checked : UnitOk un s

theorem Running.runInv {un : RunUnit} (h : Running un s) : RunInv s := by
  obtain ⟨hp, hc, -, rfl, hin, hw, hok⟩ := h
  have hunit (un : RunUnit) (hu : s.unit = un) : UnitOk un s := hu ▸ hok
  exact ⟨hp, hc, fun _ => ⟨hin, hw, hunit .none, hunit .crw, hunit .bmp, hunit .sgi, hunit .hdr⟩⟩

theorem RunInv.running (h : RunInv s) (hb : s.st = .busy) : Running s.unit s := by
  obtain ⟨hp, hc, hrun⟩ := h
  obtain ⟨hin, hw, hne, hcrw, hbmp, hsgi, hhdr⟩ := hrun hb
  refine ⟨hp, hc, hb, rfl, hin, hw, ?_⟩
  cases hu : s.unit with
  | none => exact hne hu
  | crw => exact hcrw hu
  | bmp => exact hbmp hu
  | sgi => exact hsgi hu
  | hdr => exact hhdr hu

theorem Running.atRest_raise {un : RunUnit} (hs : Running un s) (e : ErrCode) (h : imageView u = imageView s) :
    AtRest (u.raise e) := atRest_raise_of_view e h hs.params hs.column

/-- What a run counts on: for CRW the whole view, for the others the place in the image, and for BMP the column. -/
theorem Running.of_view {un : RunUnit} (hs : Running un s) (h : imageView t = imageView s)
    (hcrw : un = .crw → runView t = runView s) (hbmp : un = .bmp → t.x.toNat ≤ bmpCap t) : Running un t := by
  obtain ⟨hp, hc, hst, hunit, hin, hw, hok⟩ := hs
  simp only [runView, imageView, Prod.mk.injEq] at h hcrw
  obtain ⟨⟨hparams, hinlen, hst', hunit'⟩, ⟨hwidth, hheight, hchannels, hbudget⟩, ⟨hchan, hrow, hphase, hrle⟩, hcolumn,
    hblock⟩ := h
  refine ⟨by rwa [ParamsOk, hparams], by rwa [ColumnOk, hcolumn, hparams], by rwa [hst'], by rwa [hunit'],
    by rwa [StreamOk, hinlen, hparams], by rwa [hwidth], ?_⟩
  cases un with
  | none => exact hok
  | crw =>
    obtain ⟨-, hprimed, hv0, hv1⟩ := hcrw rfl
    rwa [UnitOk, CrwRunOk, hparams, hwidth, hheight, hphase, hprimed, hv0, hv1, hcolumn, hblock]
  | bmp =>
    obtain ⟨hmode, hrows, hdest, -⟩ := hok
    have hstride : bmpStride t = bmpStride s := by rw [bmpStride, bmpBpp, hwidth, hphase]; rfl
    have hr : bmpRows t = bmpRows s := by rw [bmpRows, hbudget, hstride]; rfl
    exact ⟨by rwa [hphase], by rwa [hr], by rwa [hr, hstride, hparams], hbmp rfl⟩
  | sgi => rwa [UnitOk, SgiRunOk, hparams, hwidth, hheight, hchannels, hchan, hrow]
  | hdr => rwa [UnitOk, HdrRunOk, hparams, hwidth, hheight, hrow, hphase, hrle]

/-! ### The starts of the runs -/

theorem toNat_pos_of_ne {w : Word} (h : w ≠ 0#32) : 0 < w.toNat :=
  Nat.pos_of_ne_zero fun h0 => h (BitVec.eq_of_toNat_eq (by simpa using h0))

/-- `CRW.RUN` (R181). -/
theorem crwStart_keepsRun (hs : AtRest s) (hin : StreamOk s) : (crwStart s).KeepsRun := by
  refine hs.guard fun hsize => hs.guard fun hblocks => hs.guard fun hout =>
    Running.runInv (un := .crw) ⟨hs.params, hs.column, rfl, rfl, hin, ?_, ?_⟩
  · exact toNat_pos_of_ne (not_or.1 hsize).1
  · exact ⟨toNat_pos_of_ne (not_or.1 hsize).2, not_not.1 hblocks, by rw [← Nat.mul_assoc]; exact not_lt.1 hout, by simp,
      by simp, by simp⟩

/-- `BMP.RUN` (R205). -/
theorem bmpStart_keepsRun (mode : BitVec 1) (hs : AtRest s) (hin : StreamOk s) : (bmpStart mode s).KeepsRun := by
  have hr : AtRest { s with phase := mode.setWidth 32 } := ⟨hs.params, hs.column, hs.idle⟩
  refine hr.guard fun hw => hr.guard fun hrows => hr.guard fun hout =>
    Running.runInv (un := .bmp) ⟨hs.params, hs.column, rfl, rfl, hin, toNat_pos_of_ne hw, ?_⟩
  refine ⟨?_, not_lt.1 hrows, not_lt.1 hout, Nat.zero_le _⟩
  show (mode.setWidth 32).toNat ≤ 1
  rw [BitVec.toNat_setWidth_of_le (by simp)]
  exact Nat.le_of_lt_succ mode.isLt

/-- `SGI.RUN` (R231, R236). -/
theorem sgiRun_keepsRun (hs : AtRest s) (hin : StreamOk s) : (sgiConfigCheck s sgiStart).KeepsRun := by
  refine hs.guard fun _ => hs.guard fun _ => hs.guard fun hsize => hs.guard fun htab => hs.guard fun hout => ?_
  obtain ⟨hw, hh, hc⟩ : s.width ≠ 0#32 ∧ s.height ≠ 0#32 ∧ s.channels ≠ 0#32 := by simpa only [not_or] using hsize
  exact Running.runInv (un := .sgi) ⟨hs.params, hs.column, rfl, rfl, hin, toNat_pos_of_ne hw,
    not_lt.1 htab, not_lt.1 hout, toNat_pos_of_ne hc, toNat_pos_of_ne hh⟩

/-- `HDR.RUN` (R256). -/
theorem hdrStart_keepsRun (hs : AtRest s) (hin : StreamOk s) : (hdrStart s).KeepsRun := by
  refine hs.guard fun hsize => hs.guard fun hout =>
    Running.runInv (un := .hdr) ⟨hs.params, hs.column, rfl, rfl, hin, ?_, ?_⟩
  · exact toNat_pos_of_ne (not_or.1 hsize).1
  · exact ⟨by rw [← Nat.mul_assoc]; exact not_lt.1 hout, toNat_pos_of_ne (not_or.1 hsize).2, by simp, by simp⟩

/-! ### Commands -/

/-- A command that returns a value (R25). -/
theorem returns_framed {f : State → Res α} (hf : KeepsView f) (value : α → Word) (s : State) :
    ((f s).bind fun a u => Res.ok () (u.withResult (value a))).Framed imageView s :=
  Res.Framed.image ((hf s).bind fun _ _ => .ok rfl)

/-- `CRW.RECON` (R177), at rest. -/
theorem crwReconBody_keepsRest (hs : AtRest s) : (crwReconBody s).Post (fun _ => AtRest) AtRest False := by
  obtain ⟨hp, hc, hst⟩ := hs
  refine (crwReconBody_post s).mono ?_ ?_ id
  · rintro _ t ⟨ht, hcol⟩
    obtain ⟨hparams, -, hst'⟩ := imageView_bounds (congrArg Prod.fst ht)
    exact ⟨by rwa [ParamsOk, hparams], hcol hc, by rwa [hst']⟩
  · rintro _ ⟨u, e, hu, hcol, rfl⟩
    obtain ⟨hparams, -⟩ := imageView_bounds (congrArg Prod.fst hu)
    exact atRest_raise e (by rwa [ParamsOk, ← hparams] at hp) (hcol hc)

/-- Every command word of the host, given at rest (R281). -/
theorem exec_host_landsInRun {i : Instr} (hi : i.format = .host) (hs : AtRest s) : LandsIn RunInv (exec i s) := by
  cases i with
  | nop => exact landsIn_next hs.runInv
  | reset => exact landsIn_next (AtRest.runInv ⟨hs.params, Nat.zero_le _, by simp [State.reset]⟩)
  | clear => exact landsIn_next (AtRest.runInv ⟨hs.params, hs.column, by simp⟩)
  | brPrime => exact landsIn_next (hs.of_view (t := s.prime) rfl).runInv
  | brRead n => exact hs.needInput_framed (returns_framed (readBits_keepsView _) _ s)
  | brPeek n => exact hs.needInput_framed (returns_framed (peekBits_keepsView _) _ s)
  | brSkip n => exact (skipBits_keepsView _ s).image.landsInRun hs
  | hufBuild slot => exact hs.needInput_framed ((buildSlot_framed streamSource_movesCursor slot s.unprime).since rfl)
  | hufLoadt => exact (loadTables_framed s).landsInRun hs
  | hufDecode slot => exact hs.needInput_framed (returns_framed (decodeSymbol_keepsView slot) _ s)
  | hufResid len => exact hs.needInput_framed (.guard (returns_framed (residual_keepsView _) sext32 s))
  | crwDetect => exact hs.needInput_framed (.ok rfl)
  | crwInit => exact landsIn_next (AtRest.runInv ⟨hs.params, Nat.zero_le _, hs.idle⟩)
  | crwBlock => exact hs.needInput_framed (crwBlockBody_keepsView s).image
  | crwRecon =>
    exact Res.Post.landsIn ((crwReconBody_keepsRest hs).mono (fun _ _ => AtRest.runInv) (fun _ => AtRest.runInv) id)
  | crwMerge => exact hs.needInput_framed (crwMergeBody_keepsView s).image
  | crwRun => exact hs.needInput (crwStart_keepsRun hs)
  | bmpRun mode => exact hs.needInput (bmpStart_keepsRun mode hs)
  | sgiRun => exact hs.needInput (sgiRun_keepsRun hs)
  | sgiLine channel row =>
    refine hs.needInput fun _ => hs.guard fun _ => hs.guard fun _ => hs.guard fun _ => hs.guard fun _ =>
      hs.guard fun _ => hs.guard fun _ => ?_
    have hline : AtRest (s.startLine (channel.setWidth 32) (row.setWidth 32)) := ⟨hs.params, hs.column, hs.idle⟩
    exact ((sgiLineBody_framed _ _ s).image.atRest hline).mono (fun _ _ => AtRest.runInv) (fun _ => AtRest.runInv) id
  | hdrRun => exact hs.needInput (hdrStart_keepsRun hs)
  | illegalHostWord op a b => exact landsIn_next (atRest_raise _ hs.params hs.column).runInv
  | _ => cases hi

/-! ### The engine step of `CRW.RUN` -/

/-- The tables are loaded and the block position is set (R182): the first block is inside the image. -/
theorem crwSetup_keepsRun (hs : Running .crw s) :
    ((loadTables s).bind fun _ u => Res.ok () { u.crwInit with phase := 1#32 }).KeepsRun := by
  refine Res.Post.bind ((loadTables_view s).mono (fun _ _ h => h) ?_ id) fun _ u ⟨hu, hv0, hv1⟩ => ?_
  · rintro _ ⟨u, e, hu, rfl⟩
    exact (hs.atRest_raise e hu).runInv
  obtain ⟨hp, -, hb, hunit, hin, hw, hh, hblocks, hout, -⟩ := hs
  simp only [imageView, Prod.mk.injEq] at hu
  obtain ⟨⟨hparams, hinlen, hst, hun⟩, ⟨hwidth, hheight, -⟩, -⟩ := hu
  have hpixels : 64 * (0#32).toNat < u.width.toNat * u.height.toNat := by
    rw [hwidth, hheight]
    exact Nat.mul_pos hw hh
  refine Running.runInv (un := .crw) ⟨?_, Nat.zero_le _, hst.trans hb, hun.trans hunit, ?_, ?_, ?_, ?_, ?_, by simp,
    fun _ => ⟨rfl, hv0, hv1, rfl, hpixels⟩, by simp⟩
  · simpa [ParamsOk, hparams] using hp
  · simpa [StreamOk, hinlen, hparams] using hin
  · simpa [hwidth] using hw
  · simpa [hheight] using hh
  · simpa [hwidth, hheight] using hblocks
  · simpa [hwidth, hheight, hparams] using hout

theorem runView_withPhase (h : runView t = runView s) (p : Word) :
    runView { t with phase := p } = runView { s with phase := p } := by
  simp only [runView, imageView, Prod.mk.injEq] at h ⊢
  tauto

/-- Behind one more block the column still counts whole blocks of the image (R181, R182). -/
theorem Running.countBlock_inside (hs : Running .crw s) (hphase : s.phase = 1#32) :
    s.countBlock.column.toNat = 64 * s.countBlock.block.toNat ∧
      64 * s.countBlock.block.toNat ≤ s.width.toNat * s.height.toNat := by
  obtain ⟨-, hsize⟩ := hs.params
  obtain ⟨-, hblocks, hout, -, hinside, -⟩ := hs.checked
  obtain ⟨-, -, -, hcol, hlt⟩ := hinside hphase
  have hc : s.countBlock.column.toNat = s.column.toNat + 64 := by
    rw [State.countBlock_column, BitVec.toNat_add, BitVec.toNat_ofNat]; omega
  have hb : s.countBlock.block.toNat = s.block.toNat + 1 := by
    rw [State.countBlock_block, BitVec.toNat_add, BitVec.toNat_ofNat]; omega
  omega

/-- Not behind the last block: the next one is inside the image. -/
theorem Running.countBlock (hs : Running .crw s) (hphase : s.phase = 1#32)
    (hleft : s.countBlock.block.toNat ≠ s.width.toNat * s.height.toNat / 64) : Running .crw s.countBlock := by
  obtain ⟨hcol, hle⟩ := hs.countBlock_inside hphase
  obtain ⟨hh, hblocks, hout, hp, hinside, -⟩ := hs.checked
  obtain ⟨hprimed, hv0, hv1, -⟩ := hinside hphase
  have hcolumn : ColumnOk s.countBlock := by simp only [ColumnOk, State.countBlock_params]; omega
  have hlt : 64 * s.countBlock.block.toNat < s.width.toNat * s.height.toNat := by omega
  exact ⟨hs.params, hcolumn, hs.busy, hs.unit, hs.stream, hs.width, hh, hblocks, hout, hp,
    fun _ => ⟨hprimed, hv0, hv1, hcol, hlt⟩, by simp [hphase]⟩

/-- Behind the last block: the image is whole, and its low bits may be merged. -/
theorem Running.countBlock_last (hs : Running .crw s) (hphase : s.phase = 1#32)
    (hlast : s.countBlock.block.toNat = s.width.toNat * s.height.toNat / 64) :
    Running .crw { s.countBlock with phase := 2#32 } := by
  obtain ⟨hcol, hle⟩ := hs.countBlock_inside hphase
  obtain ⟨hh, hblocks, hout, -⟩ := hs.checked
  have hcolumn : ColumnOk s.countBlock := by simp only [ColumnOk, State.countBlock_params]; omega
  have hwhole : s.countBlock.column.toNat = s.width.toNat * s.height.toNat := by omega
  exact ⟨hs.params, hcolumn, hs.busy, hs.unit, hs.stream, hs.width, hh, hblocks, hout, by simp, by simp,
    fun _ => hwhole⟩

/-- A CRW run goes on in every state with the same view. -/
theorem Running.of_runView (hs : Running .crw s) (h : runView t = runView s) : Running .crw t :=
  hs.of_view (congrArg Prod.fst h) (fun _ => h) (by simp)

/-- The place in the image behind a block that is decoded and reconstructed (R182). -/
theorem crwCounted_keepsRun {v : State} (hs : Running .crw s) (hphase : s.phase = 1#32)
    (hv : runView v = runView s.countBlock) :
    (if v.block.toNat = v.width.toNat * v.height.toNat / 64 then
      if v.lbmode = true then Res.ok () { v with phase := 2#32 } else Res.ok () v.finish
    else Res.ok () v).KeepsRun := by
  have hfields : v.block = s.countBlock.block ∧ v.width = s.width ∧ v.height = s.height := by
    simp only [runView, imageView, Prod.mk.injEq] at hv
    obtain ⟨⟨-, ⟨hw, hh, -⟩, -, -, hb⟩, -⟩ := hv
    exact ⟨hb, hw, hh⟩
  obtain ⟨hb, hw, hh⟩ := hfields
  split
  · next hlast =>
    rw [hb, hw, hh] at hlast
    have hrun : Running .crw { v with phase := 2#32 } :=
      (hs.countBlock_last hphase hlast).of_runView (runView_withPhase hv 2#32)
    split
    · exact hrun.runInv
    · exact (atRest_finish (s := v) hrun.params hrun.column).runInv
  · next hleft =>
    rw [hb, hw, hh] at hleft
    exact ((hs.countBlock hphase hleft).of_runView hv).runInv

/-- A block is decoded and reconstructed (R182). -/
theorem crwBlockStep_keepsRun (hs : Running .crw s) (hphase : s.phase = 1#32) :
    ((crwBlockBody s).bind fun _ u => (crwReconBody u).bind fun _ v =>
      if v.block.toNat = v.width.toNat * v.height.toNat / 64 then
        if v.lbmode = true then Res.ok () { v with phase := 2#32 } else Res.ok () v.finish
      else Res.ok () v).KeepsRun := by
  refine Res.Post.bind ((crwBlockBody_keepsView s).mono (fun _ _ h => h) ?_ id) fun _ u hu => ?_
  · rintro _ ⟨u, e, hu, rfl⟩
    exact (hs.atRest_raise e (congrArg Prod.fst hu)).runInv
  have hrun : Running .crw u := hs.of_runView hu
  have hp : u.phase = 1#32 := by
    simp only [runView, imageView, Prod.mk.injEq] at hu
    obtain ⟨⟨-, -, ⟨-, -, hp, -⟩, -⟩, -⟩ := hu
    exact hp.trans hphase
  refine Res.Post.bind ((crwReconBody_post u).mono (fun _ _ h => h) ?_ id) fun _ v ⟨hv, _⟩ => ?_
  · rintro _ ⟨v, e, hv, hcol, rfl⟩
    obtain ⟨hparams, -⟩ := imageView_bounds (congrArg Prod.fst hv)
    have hpv := hrun.params
    rw [ParamsOk, ← hparams] at hpv
    exact (atRest_raise (s := v) e hpv (hcol hrun.column)).runInv
  · exact crwCounted_keepsRun hrun hp hv

theorem crwEngineStep_keepsRun (hs : Running .crw s) : (crwEngineStep s).KeepsRun := by
  unfold crwEngineStep
  split
  · exact crwSetup_keepsRun hs
  split
  · next hphase => exact crwBlockStep_keepsRun hs hphase
  · refine Res.Post.bind (P := fun _ u => imageView u = imageView s)
      ((crwMergeBody_keepsView s).image.mono (fun _ _ h => h) ?_ id) fun _ u hu => ?_
    · rintro _ ⟨u, e, hu, rfl⟩
      exact (hs.atRest_raise e hu).runInv
    · obtain ⟨hparams, hcol, -⟩ := imageView_bounds hu
      refine (atRest_finish (s := u) ?_ ?_).runInv
      · rw [ParamsOk, hparams]; exact hs.params
      · rw [ColumnOk, hparams, hcol]; exact hs.column

/-! ### The engine step of `BMP.RUN` -/

/-- A run may draw (R202, R203, R205). -/
theorem Running.drawSafe (hs : Running .bmp s) : DrawSafe s := by
  obtain ⟨-, -, hdest, hx⟩ := hs.checked
  exact ⟨hs.stream, bmpCap_pos hs.width, hdest, hx⟩

/-- What draws keeps the column in its row (R203), and with it the run. -/
theorem Running.draw {f : State → Res α} (hs : Running .bmp s) (hv : KeepsView f) (hd : Sound DrawSafe f) :
    (f s).Post (fun _ t => Running .bmp t) RunInv False := by
  refine Res.Post.mono (Res.Post.and (hv s).image (hd s)) ?_ ?_ .inl
  · rintro _ t ⟨hview, -, hsafe⟩
    obtain ⟨-, -, -, hx⟩ := hsafe hs.drawSafe
    exact hs.of_view hview (by simp) fun _ => hx
  · rintro _ ⟨⟨u, e, hu, rfl⟩, -⟩
    exact (hs.atRest_raise e hu).runInv

theorem Running.drawBody {f : State → Res Unit} (hs : Running .bmp s) (hv : KeepsView f) (hd : Sound DrawSafe f) :
    LandsIn RunInv (f s).outcome :=
  Res.Post.landsIn ((hs.draw hv hd).mono (fun _ _ => Running.runInv) (fun _ h => h) id)

/-- Delta (R212) raises `BOUNDS` where it would leave the row. -/
theorem bmpDeltaBody_keepsRun (hs : Running .bmp s) : (bmpDeltaBody s).KeepsRun := by
  refine Res.Post.bind (hs.draw fetchByte_keepsView fetchByte_soundDraw) fun dx u hu =>
    Res.Post.bind (hu.draw fetchByte_keepsView fetchByte_soundDraw) fun dy v hv => ?_
  dsimp only
  split
  · exact AtRest.runInv (hv.atRest_raise (u := v.withCursor _ _) .bounds rfl)
  · next hin =>
    exact Running.runInv (hv.of_view rfl (by simp) fun _ => cursorWord_le (cap := bmpCap v) (not_lt.1 (not_or.1 hin).1))

/-- The end of a BMP run (R206). -/
theorem Running.bmpFinish (hs : Running .bmp s) (why : EndReason) : RunInv (s.bmpFinish why) :=
  AtRest.runInv ⟨hs.params, hs.column, by simp⟩

/-- Every stream command of BMP keeps the run, or ends it (R207 to R214). -/
theorem exec_bmp_landsInRun {i : Instr} {mode : Bool} (hi : i.format = .bmp mode) (hs : Running .bmp s) :
    LandsIn RunInv (exec i s) := by
  cases i with
  | bmpRun8 count value => exact hs.drawBody (putRun8_keepsView _ value) (putRun8_sound _ value)
  | bmpRun4 count pixEven pixOdd =>
    exact hs.drawBody (putRun4_keepsView _ _ pixEven pixOdd) (putRun4_sound _ _ pixEven pixOdd)
  | bmpEol =>
    exact landsIn_next (Running.runInv (un := .bmp) (hs.of_view rfl (by simp) fun _ => Nat.zero_le _))
  | bmpEob => exact landsIn_next (hs.bmpFinish _)
  | bmpDelta => exact Res.Post.landsIn (bmpDeltaBody_keepsRun hs)
  | bmpAbs8 n => exact hs.drawBody (bmpAbs8Body_keepsView n) (bmpAbs8Body_sound n)
  | bmpAbs4 n => exact hs.drawBody (bmpAbs4Body_keepsView n) (bmpAbs4Body_sound n)
  | _ => cases hi

theorem bmpEngineStep_landsInRun (hs : Running .bmp s) : LandsIn RunInv (bmpEngineStep s) := by
  unfold bmpEngineStep
  split
  · exact landsIn_next (hs.bmpFinish _)
  split
  · exact landsIn_next (hs.bmpFinish _)
  · refine (hs.draw fetchByte_keepsView fetchByte_soundDraw).andThen_landsIn fun b1 u hu =>
      (hu.draw fetchByte_keepsView fetchByte_soundDraw).andThen_landsIn fun b2 v hv => ?_
    obtain ⟨mode, hi⟩ := format_decodeBmp (decide (v.phase ≠ 0#32)) b1 b2
    exact exec_bmp_landsInRun hi hv

/-! ### The engine steps of `SGI.RUN` and `HDR.RUN` -/

/-- A framed operation of a unit that has no more to count on than its place in the image. -/
theorem Running.framed {un : RunUnit} (hs : Running un s) (hr : r.Framed imageView s) (hcrw : un ≠ .crw)
    (hbmp : un ≠ .bmp) : r.Post (fun _ t => Running un t ∧ imageView t = imageView s) RunInv False := by
  refine hr.mono (fun _ t ht => ⟨hs.of_view ht (absurd · hcrw) (absurd · hbmp), ht⟩) ?_ id
  rintro _ ⟨u, e, hu, rfl⟩
  exact (hs.atRest_raise e hu).runInv

/-- What the view tells about the next scanline. -/
theorem imageView_scanline (h : imageView t = imageView s) : t.chan = s.chan ∧ t.row = s.row := by
  simp only [imageView, Prod.mk.injEq] at h
  obtain ⟨-, -, ⟨hchan, hrow, -⟩, -⟩ := h
  exact ⟨hchan, hrow⟩

/-- One scanline, and the next one channel-major (R236). -/
theorem sgiEngineStep_keepsRun (hs : Running .sgi s) : (sgiEngineStep s).KeepsRun := by
  refine Res.Post.bind (hs.framed ((sgiLineBody_framed s.chan s.row s).image.since rfl) (by simp) (by simp))
    fun _ u ⟨hu, hview⟩ => ?_
  obtain ⟨hchan, hrow⟩ := imageView_scanline hview
  obtain ⟨htab, hout, hc, hr⟩ := hu.checked
  split
  · next hnext =>
    exact Running.runInv (un := .sgi)
      { hu with checked := ⟨htab, hout, hc, (toNat_add_one_le s.row).trans_lt hnext⟩ }
  split
  · next hnext =>
    exact Running.runInv (un := .sgi)
      { hu with checked := ⟨htab, hout, (toNat_add_one_le s.chan).trans_lt hnext, Nat.zero_lt_of_lt hr⟩ }
  · exact (atRest_finish hu.params hu.column).runInv

/-- One scanline, and the next row (R258). -/
theorem hdrEngineStep_keepsRun (hs : Running .hdr s) : (hdrEngineStep s).KeepsRun := by
  have hstart : Running .hdr (if s.phase = 0#32 then detectRle s else s) := by
    split
    · exact { hs with checked := hdrRunOk_detectRle hs.checked }
    · exact hs
  unfold hdrEngineStep
  generalize (if s.phase = 0#32 then detectRle s else s) = u at hstart ⊢
  have hline : (if u.hdrrle = true then rleScanline u.row.toNat u
      else flatLoop u.width.toNat u.row.toNat 0 u).Framed imageView u := by
    split
    · exact (rleScanline_keepsView _ u).image
    · exact (flatLoop_keepsView _ _ _ u).image
  refine Res.Post.bind (hstart.framed hline (by simp) (by simp)) fun _ v ⟨hv, hview⟩ => ?_
  obtain ⟨-, hrow⟩ := imageView_scanline hview
  obtain ⟨hout, hr, hphase, hrle⟩ := hv.checked
  dsimp only
  split
  · exact (atRest_finish (s := { v with row := u.row + 1#32 }) hv.params hv.column).runInv
  · next hne =>
    have hlt : (u.row + 1#32).toNat < v.height.toNat := by
      refine lt_of_le_of_ne ?_ fun h => hne (BitVec.eq_of_toNat_eq h)
      rw [← hrow]
      exact (toNat_add_one_le v.row).trans hr
    exact Running.runInv (un := .hdr) { hv with checked := ⟨hout, hlt, hphase, hrle⟩ }

/-! ### Steps -/

theorem engineStep_landsInRun (hs : RunInv s) (hb : s.st = .busy) : LandsIn RunInv (engineStep s) := by
  have hrun := hs.running hb
  unfold engineStep
  split
  · exact landsIn_next (AtRest.runInv ⟨hrun.params, hrun.column, by simp⟩)
  unfold unitStep
  split
  · rintro t ⟨⟩
  · next hu => exact Res.Post.landsIn (crwEngineStep_keepsRun (hu ▸ hrun))
  · next hu => exact bmpEngineStep_landsInRun (hu ▸ hrun)
  · next hu => exact Res.Post.landsIn (sgiEngineStep_keepsRun (hu ▸ hrun))
  · next hu => exact Res.Post.landsIn (hdrEngineStep_keepsRun (hu ▸ hrun))

/-- An engine step that is granted, or none where no run is in progress (R320, R341). -/
theorem grantedStep_landsInRun (hs : RunInv s) : LandsIn RunInv (if s.st = .busy then engineStep s else .next s) := by
  split
  · next hb => exact engineStep_landsInRun hs hb
  · exact landsIn_next hs

theorem RunInv.atRest (hs : RunInv s) (hst : s.st ≠ .busy) : AtRest s := by
  obtain ⟨hp, hc, -⟩ := hs
  exact ⟨hp, hc, hst⟩

/-- Accepted or dropped, a command word keeps the invariant (R281). -/
theorem hostCommand_landsInRun (w : Word) (hs : RunInv s) : LandsIn RunInv (hostCommand w s) := by
  rw [hostCommand_eq]
  split
  · exact landsIn_next (t := s.drop) hs
  · next hacc => exact exec_host_landsInRun (format_decodeHost w) (hs.atRest (not_or.1 hacc).1)

/-- The registers that the host writes are not those of the bounds of the samples (R286). -/
theorem writeConfig_atRest {idx : BitVec 7} {v : Word} (h : writeConfig s idx v = some t) (hs : AtRest s) :
    AtRest t := by
  unfold writeConfig at h
  split at h <;> cases h <;> exact ⟨hs.params, hs.column, hs.idle⟩

/-- While a run is in progress the host changes no register that the run counts on (R21, R286). -/
theorem regWrite_landsInRun (idx : BitVec 7) (v : Word) (hs : RunInv s) : LandsIn RunInv (regWrite idx v s) := by
  unfold regWrite
  split
  · exact hostCommand_landsInRun v hs
  split
  · exact landsIn_next (t := { s with abort := v.getLsbD 0 }) hs
  split
  · exact landsIn_next hs
  · next hw =>
    split
    · exact landsIn_next (t := s.drop) hs
    · next hst => exact landsIn_next (writeConfig_atRest hw (hs.atRest hst)).runInv

theorem runInv_withBytes (hs : RunInv s) (sp : ByteSpace) (m : Memory 8) : RunInv (s.withBytes sp m) := by
  cases sp <;> exact hs

theorem runInv_withEntries (hs : RunInv s) (sp : TableSpace) (m : Memory 32) : RunInv (s.withEntries sp m) := by
  cases sp <;> exact hs

theorem memWrite_landsInRun (sp : ByteSpace) (a : Nat) (bs : List Byte) (hs : RunInv s) :
    LandsIn RunInv (memWrite sp a bs s) := by
  rw [memWrite_eq]
  split
  · rintro t ⟨⟩
  split
  · rintro t ⟨⟩
  · exact landsIn_next (runInv_withBytes hs sp _)

theorem tabWrite_landsInRun (sp : TableSpace) (k : Nat) (es : List Word) (hs : RunInv s) :
    LandsIn RunInv (tabWrite sp k es s) := by
  rw [tabWrite_eq]
  split
  · rintro t ⟨⟩
  split
  · rintro t ⟨⟩
  · exact landsIn_next (runInv_withEntries hs sp _)

theorem runInv_withBus (hs : RunInv s) (d : List Word) : RunInv (s.withBus d) := hs

theorem memRead_landsInRun (sp : ByteSpace) (a n : Nat) (hs : RunInv s) : LandsIn RunInv (memRead sp a n s) := by
  unfold memRead
  split
  · rintro t ⟨⟩
  · exact landsIn_next (runInv_withBus hs _)

theorem tabRead_landsInRun (sp : TableSpace) (k n : Nat) (hs : RunInv s) : LandsIn RunInv (tabRead sp k n s) := by
  unfold tabRead
  split
  · rintro t ⟨⟩
  · exact landsIn_next (runInv_withBus hs _)

/-- A hard reset leaves the parameters and no samples (R340). -/
theorem hardReset_atRest (hs : RunInv s) : AtRest (hardReset s) := by
  obtain ⟨hp, -⟩ := hs
  unfold hardReset
  split <;> exact ⟨hp, Nat.zero_le _, by simp [State.reset]⟩

theorem hostEvent_landsInRun (e : HostEvent) (hs : RunInv s) : LandsIn RunInv (hostEvent e s) := by
  cases e with
  | regWr idx v => exact regWrite_landsInRun idx v hs
  | regRd idx => exact landsIn_next (runInv_withBus hs _)
  | memWr sp a bs => exact memWrite_landsInRun sp a bs hs
  | memRd sp a n => exact memRead_landsInRun sp a n hs
  | tabWr sp k es => exact tabWrite_landsInRun sp k es hs
  | tabRd sp k n => exact tabRead_landsInRun sp k n hs
  | hardReset => exact landsIn_next (hardReset_atRest hs).runInv
  | engineStep => exact grantedStep_landsInRun hs

/-- Settles O55: the host's events and the engine step of each unit, from the frames of their operations. -/
theorem stepKeepsRun : Obligations.StepKeepsRun := by
  intro s t hs h
  rw [step_eq] at h
  split at h
  · next e q _ => exact hostEvent_landsInRun (s := s.withQueue q) e hs t h
  · exact grantedStep_landsInRun hs t h

end Sys2Proof.Machine
end

section
/-! PROOFS. The CRW commands (R171, R177, R181, R182): the start of a run, the window of the low-bits detection, the
samples before a fault of the reconstruction, and the engine step as a sequence of commands. -/

namespace Sys2Proof.Machine

open Sys2Proof.Ref

-- One declaration after another: as tasks, each would hold a thread of its own.
set_option Elab.async false

variable {s t u v : State}

/-! ### The start of a run -/

/-- The start tests of R181, on a stream inside `IN`. -/
theorem crwStart_eq (s : State) :
    crwStart s =
      if 0 < s.width.toNat ∧ 0 < s.height.toNat ∧ s.width.toNat * s.height.toNat % 64 = 0 ∧
        2 * (s.width.toNat * s.height.toNat) ≤ s.params.outSize
      then .ok () { s.startRun .crw with phase := 0#32 } else .raised (s.raise .config) := by
  have hzero (w : Word) : w = 0#32 ↔ w.toNat = 0 := by rw [← BitVec.toNat_inj]; rfl
  unfold crwStart
  simp only [hzero, Nat.mul_assoc]
  split
  · rw [if_neg (by omega), raise_eq]
  split
  · next hblocks => rw [if_neg fun ⟨_, _, h, _⟩ => hblocks h, raise_eq]
  split
  · rw [if_neg (by omega), raise_eq]
  · rw [if_pos (by omega)]

/-- Settles O26: the prologue, and the start tests. -/
theorem crwRunStarts : Obligations.CrwRunStarts := by
  intro s
  have hexec : exec .crwRun s = (needInput s crwStart).outcome := rfl
  refine ⟨fun ⟨hw, hh, hblocks, hout, hin⟩ => ?_, fun hbad => ?_⟩
  · rw [hexec, needInput_of_le _ _ hin, crwStart_eq, if_pos ⟨hw, hh, hblocks, hout⟩]
    rfl
  · rw [hexec, needInput_eq]
    split
    · next hin =>
      rw [crwStart_eq, if_neg fun ⟨hw, hh, hblocks, hout⟩ => hbad ⟨hw, hh, hblocks, hout, hin⟩]
      rfl
    · rfl

/-! ### Detection -/

theorem stuffingPair_iff {m : Memory 8} {n i : Nat} :
    stuffingPair m n i = true ↔
      ∃ j, i ≤ j ∧ j < i + n ∧ Memory.read m j = 0xFF#8 ∧ Memory.read m (j + 1) = 0x00#8 := by
  induction n generalizing i with
  | zero => simp [stuffingPair]; omega
  | succ n ih =>
    rw [stuffingPair, Bool.or_eq_true, Bool.and_eq_true, beq_iff_eq, beq_iff_eq, ih]
    constructor
    · rintro (hpair | ⟨j, hj, hjn, hpair⟩)
      · exact ⟨i, le_rfl, by omega, hpair⟩
      · exact ⟨j, by omega, by omega, hpair⟩
    · rintro ⟨j, hj, hjn, hpair⟩
      rcases Nat.eq_or_lt_of_le hj with rfl | hlt
      · exact .inl hpair
      · exact .inr ⟨j, hlt, by omega, hpair⟩

/-- Both bytes of a pair lie inside the window and inside the stream (R171). -/
theorem lowBitsPresent_eq_false_iff (s : State) : lowBitsPresent s = false ↔ StuffingPairInWindow s := by
  rw [lowBitsPresent, Bool.not_eq_false', stuffingPair_iff, StuffingPairInWindow, Config.lbWindow]
  have hwindow (j : Nat) : j + 1 < min (s.ipos.toNat + 0x4000) s.inlen.toNat ↔
      j + 1 < s.ipos.toNat + 0x4000 ∧ j + 1 < s.inlen.toNat := lt_min_iff
  refine exists_congr fun j => ⟨fun ⟨hlo, hhi, hpair⟩ => ?_, fun ⟨hlo, hwin, hin, hpair⟩ => ?_⟩
  · obtain ⟨hwin, hin⟩ := (hwindow j).1 (by omega)
    exact ⟨hlo, hwin, hin, hpair⟩
  · have := (hwindow j).2 ⟨hwin, hin⟩
    exact ⟨hlo, by omega, hpair⟩

theorem exec_crwDetect (hs : StreamOk s) : exec .crwDetect s = .next (s.withDetection (lowBitsPresent s)) := by
  show (needInput s _).outcome = _
  rw [needInput_of_le _ _ hs]
  rfl

/-- Settles O21: the pairs that the scan of the window finds. -/
theorem crwDetectReportsLowBits : Obligations.CrwDetectReportsLowBits := by
  refine fun s hs => ⟨fun hpair => ?_, fun hnone => ?_⟩
  · rw [exec_crwDetect hs, (lowBitsPresent_eq_false_iff s).2 hpair]
    rfl
  · rw [exec_crwDetect hs, Bool.eq_true_of_not_eq_false (mt (lowBitsPresent_eq_false_iff s).1 hnone)]
    rfl

/-! ### The faults of the reconstruction -/

theorem reconLoop_add (a b i : Nat) (s : State) :
    reconLoop (a + b) i s = (reconLoop a i s).bind fun _ u => reconLoop b (i + a) u := by
  induction a generalizing i s with
  | zero => rw [Nat.zero_add]; rfl
  | succ a ih =>
    rw [Nat.succ_add_eq_add_succ, Nat.add_succ, reconLoop, reconLoop, Res.bind_assoc]
    congr 1
    funext _ u
    rw [ih, Nat.succ_add_eq_add_succ]

/-- The first position that has no room in the image or in `OUT` ends the block (R177): its residual is in its base, and
nothing is written for it. -/
theorem reconLoop_of_full {n k : Nat} (m : Memory 8) (hcol : s.column.toNat + n < 2 ^ 32) (h : ¬ SampleFits s n) :
    reconLoop (k + 1) n (reconState s n m) = .raised ((reconAdded s n m).raise .overflow) := by
  have hcolumn : (reconAdded s n m).column.toNat = s.column.toNat + n := toNat_column_add hcol
  have hfull : (reconAdded s n m).width.toNat * (reconAdded s n m).height.toNat ≤ (reconAdded s n m).column.toNat ∨
      (reconAdded s n m).params.outSize ≤ 2 * (reconAdded s n m).column.toNat + 1 := by
    rw [hcolumn, ← not_lt, ← not_lt, ← not_and_or]
    exact h
  rw [reconLoop, reconSample, addResidual_rowTest_reconState m hcol, if_pos hfull]
  rfl

/-- Settles O24: the positions that have room, and then the one that has none. -/
theorem crwReconFaults : Obligations.CrwReconFaults := by
  refine ⟨fun s hw => ?_, fun s limit written hsize hwidth hlimit hwritten hleave => ?_⟩
  · show (crwReconBody s).outcome = _
    rw [crwReconBody, if_pos hw]
    rfl
  have hroom (i : Nat) (hi : i < 0 + written) : SampleFits s i := ⟨by omega, by omega⟩
  have hfull : ¬ SampleFits s written := by
    rintro ⟨himage, hout⟩
    omega
  have hcol : s.column.toNat + written < 2 ^ 32 := by have := s.column.isLt; omega
  obtain ⟨m, hloop, hsamples, hsame⟩ := reconLoop_of_fits (s := s) s.outMem hsize hroom
  have hw : s.width ≠ 0#32 := by rintro h; simp [h] at hwidth
  have hblock : Config.blockLen = written + ((63 - written) + 1) := by rw [Config.blockLen]; omega
  have hexec : exec .crwRecon s = .next ((reconAdded s written m).raise .overflow) := by
    show (crwReconBody s).outcome = _
    rw [crwReconBody, if_neg hw, ← reconState_zero, hblock, reconLoop_add, hloop, Res.bind_ok, Nat.zero_add,
      reconLoop_of_full m hcol hfull, Res.bind_raised, Res.outcome_raised]
  refine ⟨_, hexec, ?_, fun i => ?_, fun i hi => ?_, fun a ha => ?_⟩
  · simp [reconAdded, State.withRecon, applyCarry, baseUpTo, State.raise]
  · exact (diffGet_congr (by simp [reconAdded]) i).trans (diffGet_applyCarry s i)
  · exact hsamples i (Nat.zero_le i) (by omega)
  · exact hsame a (by omega)

/-! ### The engine step as a sequence of commands -/

/-- How a command of a run has ended is seen at `STATUS.ST` (R288, R304): it is still `BUSY`, or an error was raised. -/
theorem Res.Framed.outcome_busy {α : Type} {r : Res α} (hr : r.Framed State.st s) (hb : s.st = .busy)
    (h : r.outcome = .next u) : (u.st = .busy ∧ ∃ a, r = .ok a u) ∨ (u.st ≠ .busy ∧ r = .raised u) := by
  rcases Res.outcome_eq_next.1 h with ⟨a, rfl⟩ | rfl
  · exact .inl ⟨Eq.trans hr hb, a, rfl⟩
  · obtain ⟨v, e, -, rfl⟩ := hr
    exact .inr ⟨by simp, rfl⟩

theorem crwReconBody_framed (s : State) : (crwReconBody s).Framed State.st s := by
  refine (crwReconBody_post s).mono ?_ ?_ id
  · rintro _ t ⟨ht, -⟩
    obtain ⟨-, -, hst⟩ := imageView_bounds (congrArg Prod.fst ht)
    exact hst
  · rintro _ ⟨u, e, hu, -, rfl⟩
    obtain ⟨-, -, hst⟩ := imageView_bounds (congrArg Prod.fst hu)
    exact ⟨u, e, hst, rfl⟩

theorem engineStep_crw (hunit : s.unit = .crw) (habort : s.abort = false) :
    engineStep s = (crwEngineStep s).outcome := by
  rw [engineStep, if_neg (by simp [habort]), unitStep, hunit]

theorem crwEngineStep_setup (h : s.phase = 0#32) :
    crwEngineStep s = (loadTables s).bind fun _ u => .ok () { u.crwInit with phase := 1#32 } := if_pos h

theorem crwEngineStep_block (h : s.phase = 1#32) :
    crwEngineStep s = (crwBlockBody s).bind fun _ u => (crwReconBody u).bind fun _ v =>
      if v.block.toNat = v.width.toNat * v.height.toNat / 64 then
        if v.lbmode = true then .ok () { v with phase := 2#32 } else .ok () v.finish
      else .ok () v := by
  rw [crwEngineStep, if_neg (by simp [h]), if_pos h]

theorem crwEngineStep_merge (h : s.phase = 2#32) :
    crwEngineStep s = (crwMergeBody s).bind fun _ u => .ok () u.finish := by
  rw [crwEngineStep, if_neg (by simp [h]), if_neg (by simp [h])]

/-- The setup step is `HUF.LOADT` and then `CRW.INIT` (R182). -/
theorem crwSetup_composes (hb : s.st = .busy) (hphase : s.phase = 0#32) (hload : exec .hufLoadt s = .next u) :
    (u.st ≠ .busy → (crwEngineStep s).outcome = .next u) ∧
      (u.st = .busy → exec .crwInit u = .next v → (crwEngineStep s).outcome = .next { v with phase := 1#32 }) := by
  rw [crwEngineStep_setup hphase]
  rcases (loadTables_framed s).st.outcome_busy hb hload with ⟨hst, _, hok⟩ | ⟨hst, herr⟩
  · rw [hok]
    refine ⟨absurd hst, ?_⟩
    rintro - ⟨⟩
    rfl
  · rw [herr]
    exact ⟨fun _ => rfl, fun h => absurd h hst⟩

/-- A block step is `CRW.BLOCK` and then `CRW.RECON`, and it moves the phase or ends the run behind the last block
(R182). -/
theorem crwBlockStep_composes (hs : StreamOk s) (hb : s.st = .busy) (hphase : s.phase = 1#32)
    (hblock : exec .crwBlock s = .next u) :
    (u.st ≠ .busy → (crwEngineStep s).outcome = .next u) ∧
      (u.st = .busy → exec .crwRecon u = .next v →
        (v.st ≠ .busy → (crwEngineStep s).outcome = .next v) ∧
        (v.st = .busy → v.block.toNat ≠ v.width.toNat * v.height.toNat / 64 → (crwEngineStep s).outcome = .next v) ∧
        (v.st = .busy → v.block.toNat = v.width.toNat * v.height.toNat / 64 → (crwEngineStep s).outcome =
          .next (if v.lbmode then { v with phase := 2#32 } else { v with st := .done }))) := by
  have hblock : (crwBlockBody s).outcome = .next u := needInput_of_le s crwBlockBody hs ▸ hblock
  rw [crwEngineStep_block hphase]
  rcases (crwBlockBody_keepsView s).image.st.outcome_busy hb hblock with ⟨hst, _, hok⟩ | ⟨hst, herr⟩
  · rw [hok, Res.bind_ok]
    refine ⟨absurd hst, fun _ hrecon => ?_⟩
    rcases (crwReconBody_framed u).outcome_busy hst hrecon with ⟨hst', _, hok'⟩ | ⟨hst', herr'⟩
    · rw [hok', Res.bind_ok]
      refine ⟨absurd hst', fun _ hleft => ?_, fun _ hlast => ?_⟩
      · rw [if_neg hleft]
        rfl
      · rw [if_pos hlast]
        by_cases hlow : v.lbmode = true
        · rw [if_pos hlow, if_pos hlow]
          rfl
        · rw [if_neg hlow, if_neg hlow]
          rfl
    · rw [herr']
      exact ⟨fun _ => rfl, fun h => absurd h hst', fun h => absurd h hst'⟩
  · rw [herr]
    exact ⟨fun _ => rfl, fun h => absurd h hst⟩

/-- The merge step is `CRW.MERGE`, and it ends the run (R182). -/
theorem crwMergeStep_composes (hs : StreamOk s) (hb : s.st = .busy) (hphase : s.phase = 2#32)
    (hmerge : exec .crwMerge s = .next v) :
    (v.st ≠ .busy → (crwEngineStep s).outcome = .next v) ∧
      (v.st = .busy → (crwEngineStep s).outcome = .next { v with st := .done }) := by
  have hmerge : (crwMergeBody s).outcome = .next v := needInput_of_le s crwMergeBody hs ▸ hmerge
  rw [crwEngineStep_merge hphase]
  rcases (crwMergeBody_keepsView s).image.st.outcome_busy hb hmerge with ⟨hst, _, hok⟩ | ⟨hst, herr⟩
  · rw [hok]
    exact ⟨absurd hst, fun _ => rfl⟩
  · rw [herr]
    exact ⟨fun _ => rfl, fun h => absurd h hst⟩

/-- Settles O28: the three phases of a run. -/
theorem crwStepsComposeCommands : Obligations.CrwStepsComposeCommands := by
  intro s u v hs hb hunit habort
  rw [engineStep_crw hunit habort]
  exact ⟨fun hphase hload => crwSetup_composes hb hphase hload,
    fun hphase hblock => crwBlockStep_composes hs hb hphase hblock,
    fun hphase hmerge => crwMergeStep_composes hs hb hphase hmerge⟩

end Sys2Proof.Machine
end

section
/-! PROOFS. `PutPixel` (R204) on the pixel places of a destination (R201, R202): the cursor, the byte and the nibble of
a place, and what has been drawn after any number of pixels and fetched bytes. -/

namespace Sys2Proof.Machine

open Sys2Proof.Ref

-- One declaration after another: as tasks, each would hold a thread of its own.
set_option Elab.async false

variable {α : Type} {s t u : State} {m : Memory 8} {b : Byte} {i j k n p a : Nat} {v : Nat → Nat}

/-! ### The places of the pixels -/

/-- Rows of whole places stand without a gap: the byte of a place needs no row (R201, R202). -/
theorem placeByte_eq (s : State) (j : Nat) : placeByte s j = if s.phase = 0#32 then j else j / 2 := by
  have hrow := Nat.div_add_mod' j (bmpCap s)
  unfold placeByte
  split
  · next hp =>
    rw [bmpCap_of_rle8 hp] at hrow ⊢
    exact hrow
  · next hp =>
    rw [bmpCap_of_rle4 hp, Nat.mul_left_comm] at hrow
    rw [bmpCap_of_rle4 hp]
    omega

/-- A row of nibbles holds an even number of places, so the parity of a place is that of its column. -/
theorem column_mod_two (hp : s.phase ≠ 0#32) (j : Nat) : j % bmpCap s % 2 = j % 2 := by
  rw [bmpCap_of_rle4 hp, Nat.mod_mul_right_mod]

/-- The value that `PutPixel` stores for a byte: all of it, or its low nibble (R204). -/
def storedPixel (s : State) (b : Byte) : Nat := if s.phase = 0#32 then b.toNat else b.toNat % 16

/-- The output memory with one pixel replaced (R204). -/
def placePixel (s : State) (m : Memory 8) (j : Nat) (b : Byte) : Memory 8 :=
  Memory.write m (placeByte s j)
    (if s.phase = 0#32 then b
     else setNibble (Memory.read m (placeByte s j)) (j % bmpCap s) (b.extractLsb' 0 4))

theorem toNat_append_nibbles (p q : BitVec 4) : (p ++ q).toNat = 16 * p.toNat + q.toNat := by
  rw [BitVec.toNat_append, ← Nat.shiftLeft_add_eq_or_of_lt q.isLt, Nat.shiftLeft_eq]
  omega

theorem toNat_highNibble (b : Byte) : (b.extractLsb' 4 4).toNat = b.toNat / 16 := by
  rw [BitVec.extractLsb'_toNat, Nat.shiftRight_eq_div_pow]
  omega

theorem toNat_lowNibble (b : Byte) : (b.extractLsb' 0 4).toNat = b.toNat % 16 := BitVec.extractLsb'_toNat ..

theorem toNat_setNibble (old : Byte) (col : Nat) (q : BitVec 4) : (setNibble old col q).toNat =
    if col % 2 = 0 then 16 * q.toNat + old.toNat % 16 else 16 * (old.toNat / 16) + q.toNat := by
  unfold setNibble
  split
  · rw [toNat_append_nibbles, toNat_lowNibble]
  · rw [toNat_append_nibbles, toNat_highNibble]

theorem read_placePixel_other (h : a ≠ placeByte s j) : Memory.read (placePixel s m j b) a = Memory.read m a :=
  Memory.read_write_other _ _ h.symm

theorem pixelAt_placePixel_same (s : State) (m : Memory 8) (j : Nat) (b : Byte) :
    pixelAt s (placePixel s m j b) j = storedPixel s b := by
  simp only [pixelAt, placePixel, Memory.read_write_same, storedPixel]
  split
  · rfl
  · rw [toNat_setNibble, toNat_lowNibble]
    split <;> omega

/-- Another pixel keeps its value, also the one that shares the byte (R204). -/
theorem pixelAt_placePixel_other (h : i ≠ j) : pixelAt s (placePixel s m j b) i = pixelAt s m i := by
  by_cases hbyte : placeByte s i = placeByte s j
  · have hp : s.phase ≠ 0#32 := by
      intro hp
      simp only [placeByte_eq, if_pos hp] at hbyte
      exact h hbyte
    have hhalf := hbyte
    simp only [placeByte_eq, if_neg hp] at hhalf
    simp only [pixelAt, placePixel, hbyte, Memory.read_write_same, if_neg hp, toNat_setNibble, column_mod_two hp]
    have hq := (b.extractLsb' 0 4).isLt
    split <;> split <;> omega
  · simp only [pixelAt, read_placePixel_other hbyte]

/-! ### The cursor and one pixel -/

theorem bmpRows_lt (s : State) : bmpRows s < 2 ^ 32 :=
  (Nat.div_le_self _ _).trans_lt s.budget.isLt

theorem cursorWord_of_lt (h : n < 2 ^ 32) : cursorWord n = BitVec.ofNat 32 n := if_pos h

/-- The implicit wrap stands the cursor on the row and the column of its place (R203). -/
theorem wrapCursor_eq (hs : BmpReady s) (h : bmpPlace s ≤ bmpRows s * bmpCap s) :
    wrapCursor s =
      s.withCursor (BitVec.ofNat 32 (bmpPlace s % bmpCap s)) (BitVec.ofNat 32 (bmpPlace s / bmpCap s)) := by
  obtain ⟨hw, -, -, -, hx⟩ := hs
  have hcap := bmpCap_pos hw
  unfold wrapCursor bmpPlace at *
  split
  · next hfull =>
    rw [hfull, ← Nat.succ_mul] at h ⊢
    have hy : s.y.toNat + 1 < 2 ^ 32 := (Nat.le_of_mul_le_mul_right h hcap).trans_lt (bmpRows_lt s)
    rw [Nat.mul_mod_left, Nat.mul_div_cancel _ hcap, cursorWord_of_lt hy]
  · next hne =>
    have hlt : s.x.toNat < bmpCap s := lt_of_le_of_ne hx hne
    rw [Nat.mul_add_mod', Nat.mod_eq_of_lt hlt, Nat.add_comm, Nat.add_mul_div_right _ _ hcap, Nat.div_eq_of_lt hlt,
      Nat.zero_add, BitVec.ofNat_toNat, BitVec.ofNat_toNat, BitVec.setWidth_eq, BitVec.setWidth_eq]
    rfl

/-- The state with the pixel at the cursor drawn and the cursor behind it. -/
def State.withPixel (s : State) (b : Byte) : State :=
  (s.withOut (placePixel s s.outMem (bmpPlace s) b)).withCursor (BitVec.ofNat 32 (bmpPlace s % bmpCap s + 1))
    (BitVec.ofNat 32 (bmpPlace s / bmpCap s))

/-- The row and the column of a place inside the destination can be counted by the registers. -/
theorem toNat_row_of_room (h : j < bmpRows s * bmpCap s) :
    (BitVec.ofNat 32 (j / bmpCap s)).toNat = j / bmpCap s ∧ j / bmpCap s < bmpRows s := by
  have hrow : j / bmpCap s < bmpRows s := Nat.div_lt_of_lt_mul (Nat.mul_comm .. ▸ h)
  exact ⟨Nat.mod_eq_of_lt (hrow.trans (bmpRows_lt s)), hrow⟩

theorem toNat_column (hs : BmpReady s) (h : j ≤ bmpCap s) : (BitVec.ofNat 32 j).toNat = j := by
  obtain ⟨-, -, -, hcap, -⟩ := hs
  exact Nat.mod_eq_of_lt (h.trans_lt hcap)

/-- The cursor on a place addresses its byte (R202, R204). -/
theorem pixelAddress_withCursor (hs : BmpReady s) (h : j < bmpRows s * bmpCap s) :
    pixelAddress (s.withCursor (BitVec.ofNat 32 (j % bmpCap s)) (BitVec.ofNat 32 (j / bmpCap s))) = placeByte s j := by
  obtain ⟨hw, -⟩ := id hs
  have hx := toNat_column hs (Nat.mod_lt j (bmpCap_pos hw)).le
  obtain ⟨hy, -⟩ := toNat_row_of_room h
  simp only [pixelAddress, placeByte, State.withCursor_phase, State.withCursor_x, State.withCursor_y, hx, hy]
  split <;> rfl

/-- The byte of a place inside the destination lies inside `OUT` (R205). -/
theorem placeByte_lt (hs : BmpReady s) (h : j < bmpRows s * bmpCap s) : placeByte s j < s.params.outSize := by
  obtain ⟨-, hfits, -⟩ := hs
  refine lt_of_lt_of_le ?_ hfits
  rw [placeByte_eq]
  split
  · next hp => rwa [bmpCap_of_rle8 hp] at h
  · next hp =>
    rw [bmpCap_of_rle4 hp, Nat.mul_left_comm] at h
    omega

/-- `PutPixel` with a place at the cursor (R204). -/
theorem putPixel_of_room (hs : BmpReady s) (h : bmpPlace s < bmpRows s * bmpCap s) (b : Byte) :
    putPixel b s = .ok () (s.withPixel b) := by
  obtain ⟨hw, -, -, hcap, -⟩ := id hs
  obtain ⟨hy, hrow⟩ := toNat_row_of_room h
  have hcol := Nat.mod_lt (bmpPlace s) (bmpCap_pos hw)
  have hx := toNat_column hs hcol.le
  have hwrap := wrapCursor_eq hs h.le
  have haddr := pixelAddress_withCursor hs h
  have hin : placeByte s (bmpPlace s) < (wrapCursor s).params.outSize := by
    rw [hwrap]
    exact placeByte_lt hs h
  rw [hwrap] at hin
  rw [putPixel, hwrap]
  dsimp only
  rw [haddr, State.withPixel, placePixel]
  refine (if_neg (not_le.2 (hy.trans_lt hrow))).trans ?_
  split
  · next hp =>
    rw [State.withCursor_phase] at hp
    rw [outWrite_of_lt b hin, Res.bind_ok, State.withOut_x, State.withCursor_x, hx,
      cursorWord_of_lt (Nat.lt_of_le_of_lt hcol hcap), if_pos hp]
    rfl
  · next hp =>
    rw [State.withCursor_phase] at hp
    rw [outByte_of_lt hin, Res.bind_ok, outWrite_of_lt _ hin, Res.bind_ok, State.withOut_x, State.withCursor_x, hx,
      cursorWord_of_lt (Nat.lt_of_le_of_lt hcol hcap), if_neg hp]
    rfl

/-- `PutPixel` behind the last row (R204). -/
theorem putPixel_of_full (hs : BmpReady s) (h : bmpPlace s = bmpRows s * bmpCap s) (b : Byte) :
    putPixel b s = .raised ((s.withCursor 0#32 (BitVec.ofNat 32 (bmpRows s))).raise .overflow) := by
  obtain ⟨hw, -⟩ := id hs
  have hwrap := wrapCursor_eq hs h.le
  rw [h, Nat.mul_mod_left, Nat.mul_div_cancel _ (bmpCap_pos hw)] at hwrap
  have hy : (BitVec.ofNat 32 (bmpRows s)).toNat = bmpRows s := Nat.mod_eq_of_lt (bmpRows_lt s)
  rw [putPixel, hwrap]
  exact if_pos hy.ge

/-! ### Pixels one after the other -/

/-- One pixel more behind the ones drawn so far (R204). -/
theorem drawsPixels_succ (hs : BmpReady s) (ht : DrawsPixels s t n v)
    (hroom : bmpPlace s + n < bmpRows s * bmpCap s) (hv : v n = storedPixel s b)
    (hx : u.x = BitVec.ofNat 32 ((bmpPlace s + n) % bmpCap s + 1))
    (hy : u.y = BitVec.ofNat 32 ((bmpPlace s + n) / bmpCap s))
    (hm : u.outMem = placePixel s t.outMem (bmpPlace s + n) b) : DrawsPixels s u (n + 1) v := by
  obtain ⟨hw, -⟩ := id hs
  obtain ⟨-, -, hnew, hold, hbytes⟩ := ht
  have hcol := Nat.mod_lt (bmpPlace s + n) (bmpCap_pos hw)
  have hplace := Nat.div_add_mod' (bmpPlace s + n) (bmpCap s)
  refine ⟨by omega, fun _ => ?_, fun k hk => ?_, fun j hj => ?_, fun a ha => ?_⟩
  · rw [hx, hy, toNat_column hs hcol, (toNat_row_of_room hroom).1]
    omega
  · rw [hm]
    rcases Nat.lt_succ_iff_lt_or_eq.1 hk with hk | rfl
    · rw [pixelAt_placePixel_other (by omega), hnew k hk]
    · rw [pixelAt_placePixel_same, hv]
  · rw [hm, pixelAt_placePixel_other (by omega), hold j (by omega)]
  · rw [hm, read_placePixel_other (ha n (by omega)), hbytes a fun k hk => ha k (by omega)]

/-- In `t` the command begun in `s` has drawn `n` of the pixels `v` and fetched `p` bytes of the stream. -/
def Drawn (s t : State) (n p : Nat) (v : Nat → Nat) : Prop :=
  t = withDrawing s t ∧ t.ipos = s.ipos + BitVec.ofNat 32 p ∧ DrawsPixels s t n v

/-- The command begun in `s` goes on with `n` of the pixels `v` drawn and `p` bytes fetched. -/
def Res.Draws (s : State) (n p : Nat) (v : Nat → Nat) (r : Res Unit) : Prop := ∃ t, r = .ok () t ∧ Drawn s t n p v

/-- The command begun in `s` raises `OVERFLOW` at the first pixel without a place, with `n` of the pixels `v` written
and `p` bytes fetched (R204). -/
def Res.Overflows (s : State) (n p : Nat) (v : Nat → Nat) (r : Res Unit) : Prop :=
  ∃ t, r = .raised t ∧
    t = ({ s with
      outMem := t.outMem, x := 0#32, y := BitVec.ofNat 32 (bmpRows s), ipos := s.ipos + BitVec.ofNat 32 p
      } : State).raise .overflow ∧
    PixelsWritten s t n v

/-- The command begun in `s` raises `EOS` with `n` of the pixels `v` drawn and `p` bytes fetched. -/
def Res.StreamEnds (s : State) (n p : Nat) (v : Nat → Nat) (r : Res α) : Prop :=
  ∃ t, r = .raised t ∧ t = (withDrawing s t).raise .eos ∧ t.ipos = s.ipos + BitVec.ofNat 32 p ∧ DrawsPixels s t n v

theorem drawn_refl (s : State) (v : Nat → Nat) : Drawn s s 0 0 v :=
  ⟨rfl, by simp, fun _ => ⟨rfl, rfl⟩, by simp, by simp, fun _ _ => rfl, fun _ _ => rfl⟩

/-- Drawing leaves the geometry of the destination (R202). -/
theorem Drawn.cap (ht : Drawn s t n p v) : bmpCap t = bmpCap s := by
  obtain ⟨hst, -⟩ := ht
  rw [hst]
  rfl

theorem Drawn.rows (ht : Drawn s t n p v) : bmpRows t = bmpRows s := by
  obtain ⟨hst, -⟩ := ht
  rw [hst]
  rfl

/-- The cursor stands behind the pixels drawn so far. -/
theorem Drawn.place (ht : Drawn s t n p v) : bmpPlace t = bmpPlace s + n := by
  have hcap := ht.cap
  obtain ⟨-, -, hzero, hpos, -⟩ := ht
  rcases Nat.eq_zero_or_pos n with rfl | hn
  · obtain ⟨hx, hy⟩ := hzero rfl
    rw [bmpPlace, hcap, hx, hy]
    rfl
  · obtain ⟨-, -, hplace⟩ := hpos hn
    rw [bmpPlace, hcap, hplace]

theorem Drawn.ready (hs : BmpReady s) (ht : Drawn s t n p v) : BmpReady t := by
  obtain ⟨hw, hfits, hout, hcap, hx⟩ := hs
  obtain ⟨hst, -, hzero, hpos, -⟩ := ht
  have hxt : t.x.toNat ≤ bmpCap s := by
    rcases Nat.eq_zero_or_pos n with rfl | hn
    · rwa [(hzero rfl).1]
    · exact (hpos hn).2.1
  rw [hst]
  exact ⟨hw, hfits, hout, hcap, hxt⟩

theorem Drawn.pixel (hs : BmpReady s) (ht : Drawn s t n p v) (hroom : bmpPlace s + n < bmpRows s * bmpCap s)
    (hv : v n = storedPixel s b) : ∃ u, putPixel b t = .ok () u ∧ Drawn s u (n + 1) p v := by
  have hplace := ht.place
  have hready := ht.ready hs
  have hcap := ht.cap
  have hrows := ht.rows
  obtain ⟨hst, hipos, hdraws⟩ := ht
  have hput : placePixel t = placePixel s := by rw [hst]; rfl
  rw [← hplace, ← hcap, ← hrows] at hroom
  refine ⟨t.withPixel b, putPixel_of_room hready hroom b,
    congrArg (fun w => (w.withOut (t.withPixel b).outMem).withCursor (t.withPixel b).x (t.withPixel b).y) hst,
    hipos, ?_⟩
  rw [hcap, hrows, hplace] at hroom
  refine drawsPixels_succ hs hdraws hroom hv ?_ ?_ ?_ <;> rw [← hplace]
  · rw [← hcap]; rfl
  · rw [← hcap]; rfl
  · rw [← hput]; rfl

/-- The pixel that has no place (R204). -/
theorem Drawn.full (hs : BmpReady s) (ht : Drawn s t n p v) (hfull : bmpPlace s + n = bmpRows s * bmpCap s) (b : Byte) :
    (putPixel b t).Overflows s n p v := by
  have hplace := ht.place
  have hready := ht.ready hs
  have hcap := ht.cap
  have hrows := ht.rows
  obtain ⟨hst, hipos, hdraws⟩ := ht
  have hput := putPixel_of_full hready (by rw [hplace, hcap, hrows, hfull]) b
  obtain ⟨-, -, hnew, hold, hbytes⟩ := hdraws
  refine ⟨_, hput, ?_, hnew, fun j hj => hold j (.inl hj), hbytes⟩
  rw [hrows, ← hipos]
  exact congrArg (fun w => (w.withCursor 0#32 (BitVec.ofNat 32 (bmpRows s))).raise .overflow) hst

/-! ### Bytes of the stream -/

theorem Drawn.toNat_ipos (ht : Drawn s t n p v) (hp : s.ipos.toNat + p < 2 ^ 32) : t.ipos.toNat = s.ipos.toNat + p := by
  obtain ⟨-, hipos, -⟩ := ht
  rw [hipos, BitVec.toNat_add, BitVec.toNat_ofNat, Nat.add_mod_mod, Nat.mod_eq_of_lt hp]

/-- The next byte of the stream (R78). -/
theorem Drawn.fetch (hstream : StreamOk s) (ht : Drawn s t n p v) (hp : s.ipos.toNat + p < s.inlen.toNat) :
    ∃ u, fetchByte t = .ok (Memory.read s.inMem (s.ipos.toNat + p)) u ∧ Drawn s u n (p + 1) v := by
  have hpos := ht.toNat_ipos (hp.trans s.inlen.isLt)
  obtain ⟨hst, hipos, hdraws⟩ := ht
  have hinlen : t.inlen = s.inlen := by rw [hst]; rfl
  have hparams : t.params = s.params := by rw [hst]; rfl
  have hin : t.inMem = s.inMem := by rw [hst]; rfl
  have hfetch := fetchByte_of_lt (s := t) (by rwa [hpos, hinlen]) (by rwa [hinlen, hparams])
  rw [hpos, hin] at hfetch
  refine ⟨_, hfetch, congrArg (fun w => w.withIpos (t.ipos + 1#32)) hst, ?_, hdraws⟩
  rw [State.withIpos_ipos, hipos, BitVec.ofNat_add, BitVec.add_assoc]

/-- The end of the stream (R78). -/
theorem Drawn.fetch_eos (ht : Drawn s t n p v) (hp : s.inlen.toNat ≤ t.ipos.toNat) :
    fetchByte t = .raised (t.raise .eos) := by
  obtain ⟨hst, -⟩ := ht
  have hinlen : t.inlen = s.inlen := by rw [hst]; rfl
  exact fetchByte_of_le (by rwa [hinlen])

end Sys2Proof.Machine
end

section
/-! PROOFS. The runs of BMP (R208, R209, R213, R214). Both encoded runs are one loop over their pixels and both absolute
runs one loop over their literal bytes; each loop draws as far as there are places and bytes. -/

namespace Sys2Proof.Machine

open Sys2Proof.Ref

-- One declaration after another: as tasks, each would hold a thread of its own.
set_option Elab.async false

variable {α : Type} {s t u : State} {r : Res Unit} {b : Byte} {j n p room : Nat} {v : Nat → Nat}

/-! ### Encoded runs -/

theorem Res.Overflows.bind (hr : r.Overflows s n p v) (f : Unit → State → Res Unit) : (r.bind f).Overflows s n p v := by
  obtain ⟨t, rfl, ht⟩ := hr
  exact ⟨t, rfl, ht⟩

/-- The pixels `f k, f (k + 1), ...`, as many as the first argument says: both encoded runs (R208, R209). -/
def putPixels (f : Nat → Byte) : Nat → Nat → State → Res Unit
  | 0, _, s => .ok () s
  | n + 1, k, s => (putPixel (f k) s).bind fun _ s => putPixels f n (k + 1) s

theorem putRun8_eq_putPixels (n k : Nat) (b : Byte) (s : State) : putRun8 n b s = putPixels (fun _ => b) n k s := by
  induction n generalizing k s with
  | zero => rfl
  | succ n ih => exact congrArg _ (funext fun _ => funext fun u => ih (k + 1) u)

theorem putRun4_eq_putPixels (n k : Nat) (e o : BitVec 4) (s : State) :
    putRun4 n k e o s = putPixels (fun k => nibblePixel (runNibble e o k)) n k s := by
  induction n generalizing k s with
  | zero => rfl
  | succ n ih => exact congrArg _ (funext fun _ => funext fun u => ih (k + 1) u)

theorem putPixels_add (f : Nat → Byte) (m n k : Nat) (s : State) :
    putPixels f (m + n) k s = (putPixels f m k s).bind fun _ u => putPixels f n (k + m) u := by
  induction m generalizing k s with
  | zero => simp [putPixels]
  | succ m ih =>
    rw [Nat.succ_add, putPixels, putPixels, Res.bind_assoc, Nat.add_comm m 1, ← Nat.add_assoc]
    exact congrArg _ (funext fun _ => funext fun u => ih (k + 1) u)

/-- An encoded run with room for its pixels. -/
theorem putPixels_draws {f : Nat → Byte} (hs : BmpReady s) (hv : ∀ k, v k = storedPixel s (f k)) (n : Nat)
    (hroom : bmpPlace s + n ≤ bmpRows s * bmpCap s) : (putPixels f n 0 s).Draws s n 0 v := by
  induction n with
  | zero => exact ⟨s, rfl, drawn_refl s v⟩
  | succ n ih =>
    obtain ⟨t, hput, ht⟩ := ih (by omega)
    obtain ⟨u, hpixel, hu⟩ := ht.pixel hs hroom (hv n)
    rw [putPixels_add, hput, Res.bind_ok, putPixels, Nat.zero_add, hpixel]
    exact ⟨u, rfl, hu⟩

/-- An encoded run without room for its pixels. -/
theorem putPixels_overflows {f : Nat → Byte} (hs : BmpReady s) (hv : ∀ k, v k = storedPixel s (f k))
    (hfull : bmpPlace s + room = bmpRows s * bmpCap s) (hn : room < n) : (putPixels f n 0 s).Overflows s room 0 v := by
  obtain ⟨t, hput, ht⟩ := putPixels_draws hs hv room hfull.le
  obtain ⟨m, rfl⟩ := Nat.exists_eq_add_of_lt hn
  rw [Nat.add_assoc, putPixels_add, hput, Res.bind_ok, putPixels]
  exact (ht.full hs hfull _).bind _

/-- What the commands of an encoded run store (R208, R209). -/
theorem storedPixel_of_rle8 (hp : s.phase = 0#32) (b : Byte) : storedPixel s b = b.toNat := if_pos hp

theorem storedPixel_nibblePixel (hp : s.phase ≠ 0#32) (q : BitVec 4) : storedPixel s (nibblePixel q) = q.toNat := by
  rw [storedPixel, if_neg hp, nibblePixel, BitVec.toNat_setWidth]
  omega

theorem exec_bmpRun8_eq (count value : BitVec 8) (s : State) :
    exec (.bmpRun8 count value) s = (putPixels (fun _ => value) count.toNat 0 s).outcome :=
  congrArg Res.outcome (putRun8_eq_putPixels count.toNat 0 value s)

theorem exec_bmpRun4_eq (count : BitVec 8) (hi lo : BitVec 4) (s : State) :
    exec (.bmpRun4 count hi lo) s =
      (putPixels (fun k => nibblePixel (runNibble hi lo k)) count.toNat 0 s).outcome :=
  congrArg Res.outcome (putRun4_eq_putPixels count.toNat 0 hi lo s)

/-- The values of a run of two nibbles in turn (R209). -/
theorem runNibble_stored (hp : s.phase = 1#32) (hi lo : BitVec 4) (k : Nat) :
    (if k % 2 = 0 then hi.toNat else lo.toNat) = storedPixel s (nibblePixel (runNibble hi lo k)) := by
  rw [storedPixel_nibblePixel (by simp [hp])]
  exact (apply_ite ..).symm

/-- A command that fetches nothing leaves the stream cursor. -/
theorem Res.Draws.outcome_of_no_fetch (hr : r.Draws s n 0 v) :
    ∃ t, r.outcome = .next t ∧ t = withDrawing s t ∧ t.ipos = s.ipos ∧ DrawsPixels s t n v := by
  obtain ⟨t, rfl, hst, hipos, hdraws⟩ := hr
  exact ⟨t, rfl, hst, by simpa using hipos, hdraws⟩

theorem Res.Overflows.outcome_of_no_fetch (hr : r.Overflows s n 0 v) :
    ∃ t, r.outcome = .next t ∧
      t = ({ s with outMem := t.outMem, x := 0#32, y := BitVec.ofNat 32 (bmpRows s) } : State).raise .overflow ∧
      PixelsWritten s t n v := by
  obtain ⟨t, rfl, hst, hdraws⟩ := hr
  rw [show s.ipos + BitVec.ofNat 32 0 = s.ipos from BitVec.add_zero _] at hst
  exact ⟨t, rfl, hst, hdraws⟩

/-- Settles O30: both encoded runs are one loop over their pixels. -/
theorem encodedRunsDraw : Obligations.EncodedRunsDraw := by
  refine ⟨fun s count value hs hp hroom => ?_, fun s count hi lo hs hp hroom => ?_⟩
  · rw [exec_bmpRun8_eq]
    exact (putPixels_draws hs (fun _ => (storedPixel_of_rle8 hp value).symm) _ hroom).outcome_of_no_fetch
  · rw [exec_bmpRun4_eq]
    exact (putPixels_draws hs (runNibble_stored hp hi lo) _ hroom).outcome_of_no_fetch

/-- Settles O32: the run draws while there is a place. -/
theorem encodedRunsOverflow : Obligations.EncodedRunsOverflow := by
  refine fun s count value hi lo room hs hfull hn => ⟨fun hp => ?_, fun hp => ?_⟩
  · rw [exec_bmpRun8_eq]
    obtain ⟨t, ht, hst, hnew, -, hbytes⟩ :=
      (putPixels_overflows hs (fun _ => (storedPixel_of_rle8 hp value).symm) hfull hn).outcome_of_no_fetch
    exact ⟨t, ht, hst, hnew, hbytes⟩
  · rw [exec_bmpRun4_eq]
    exact (putPixels_overflows hs (runNibble_stored hp hi lo) hfull hn).outcome_of_no_fetch

/-! ### Literal bytes -/

/-- The bytes `j, j + 1, ...` of an absolute run, as many as the first argument says, each fetched and then written by
`put` (R213, R214). -/
def fetchEach (put : Nat → Byte → State → Res Unit) : Nat → Nat → State → Res Unit
  | 0, _, s => .ok () s
  | n + 1, j, s => (fetchByte s).bind fun b s => (put j b s).bind fun _ s => fetchEach put n (j + 1) s

/-- What an RLE4 run of `total` pixels writes of its literal byte `j`: both nibbles, or the high one alone (R214). -/
def putPacked (total j : Nat) (b : Byte) (s : State) : Res Unit :=
  (putPixel (nibblePixel (b.extractLsb' 4 4)) s).bind fun _ s =>
    if 2 * j + 1 < total then putPixel (nibblePixel (b.extractLsb' 0 4)) s else .ok () s

theorem putLiterals8_eq_fetchEach (n j : Nat) (s : State) :
    putLiterals8 n s = fetchEach (fun _ => putPixel) n j s := by
  induction n generalizing j s with
  | zero => rfl
  | succ n ih =>
    exact congrArg _ (funext fun b => funext fun u => congrArg _ (funext fun _ => funext fun w => ih (j + 1) w))

theorem putLiterals4_eq_fetchEach (n j total : Nat) (s : State) :
    putLiterals4 n j total s = fetchEach (putPacked total) n j s := by
  induction n generalizing j s with
  | zero => rfl
  | succ n ih =>
    refine congrArg _ (funext fun b => funext fun u => ?_)
    rw [putPacked, Res.bind_assoc]
    refine congrArg _ (funext fun _ => funext fun w => ?_)
    split
    · exact congrArg _ (funext fun _ => funext fun x => ih (j + 1) x)
    · exact ih (j + 1) w

theorem fetchEach_add (put : Nat → Byte → State → Res Unit) (m n j : Nat) (s : State) :
    fetchEach put (m + n) j s = (fetchEach put m j s).bind fun _ u => fetchEach put n (j + m) u := by
  induction m generalizing j s with
  | zero => simp [fetchEach]
  | succ m ih =>
    rw [Nat.succ_add, fetchEach, fetchEach, Res.bind_assoc, Nat.add_comm m 1, ← Nat.add_assoc]
    refine congrArg _ (funext fun b => funext fun u => ?_)
    rw [Res.bind_assoc]
    exact congrArg _ (funext fun _ => funext fun w => ih (j + 1) w)

theorem Res.StreamEnds.bind {α β : Type} {r : Res α} (hr : r.StreamEnds s n p v) (f : α → State → Res β) :
    (r.bind f).StreamEnds s n p v := by
  obtain ⟨t, rfl, ht⟩ := hr
  exact ⟨t, rfl, ht⟩

/-- A fetch at the end of the stream keeps the pixels before it (R213). -/
theorem Drawn.fetch_streamEnds (ht : Drawn s t n p v) (hp : s.ipos.toNat + p < 2 ^ 32)
    (hend : s.inlen.toNat ≤ s.ipos.toNat + p) : (fetchByte t).StreamEnds s n p v := by
  have hfetch := ht.fetch_eos (by rwa [ht.toNat_ipos hp])
  obtain ⟨hst, hipos, hdraws⟩ := ht
  exact ⟨_, hfetch, congrArg (State.raise .eos) hst, hipos, hdraws⟩

/-- The first `j` of the `total` literal bytes hold `c j` of the pixels `v`, and `put` writes those of each byte. -/
structure PutsLiterals (s : State) (total : Nat) (c v : Nat → Nat) (put : Nat → Byte → State → Res Unit) : Prop where
  count_zero : c 0 = 0
  count_mono : Monotone c
  put_draws : ∀ j t, j < total → Drawn s t (c j) (j + 1) v → bmpPlace s + c (j + 1) ≤ bmpRows s * bmpCap s →
    (put j (Memory.read s.inMem (s.ipos.toNat + j)) t).Draws s (c (j + 1)) (j + 1) v

section Literals
variable {total : Nat} {c : Nat → Nat} {put : Nat → Byte → State → Res Unit} (hstream : StreamOk s)
  (hput : PutsLiterals s total c v put)
include hstream hput

/-- Literal bytes that are all there, with room for their pixels. -/
theorem PutsLiterals.draws (n : Nat) (hn : n ≤ total) (hleft : n ≤ s.inlen.toNat - s.ipos.toNat)
    (hroom : bmpPlace s + c n ≤ bmpRows s * bmpCap s) : (fetchEach put n 0 s).Draws s (c n) n v := by
  induction n with
  | zero =>
    rw [hput.count_zero]
    exact ⟨s, rfl, drawn_refl s v⟩
  | succ n ih =>
    have hmono : c n ≤ c (n + 1) := hput.count_mono (Nat.le_succ n)
    obtain ⟨t, hrun, ht⟩ := ih (by omega) (by omega) (by omega)
    obtain ⟨u, hfetch, hu⟩ := ht.fetch hstream (by omega)
    obtain ⟨w, hbyte, hw⟩ := hput.put_draws n u hn hu hroom
    rw [fetchEach_add, hrun, Res.bind_ok, fetchEach, Nat.zero_add, hfetch, Res.bind_ok, hbyte]
    exact ⟨w, rfl, hw⟩

/-- The stream ends among the literal bytes (R213). -/
theorem PutsLiterals.streamEnds {left : Nat} (hleft : left = s.inlen.toNat - s.ipos.toNat) (hn : left < total)
    (hroom : bmpPlace s + c left ≤ bmpRows s * bmpCap s) : (fetchEach put total 0 s).StreamEnds s (c left) left v := by
  obtain ⟨t, hrun, ht⟩ := hput.draws hstream left hn.le hleft.le hroom
  obtain ⟨m, rfl⟩ := Nat.exists_eq_add_of_lt hn
  rw [Nat.add_assoc, fetchEach_add, hrun, Res.bind_ok, fetchEach]
  exact (ht.fetch_streamEnds (by omega) (by omega)).bind _

/-- A literal byte with a pixel that has no place (R204). -/
theorem PutsLiterals.overflows (hj : j < total) (hleft : j < s.inlen.toNat - s.ipos.toNat)
    (hroom : bmpPlace s + c j ≤ bmpRows s * bmpCap s)
    (hlast : ∀ t, Drawn s t (c j) (j + 1) v →
      (put j (Memory.read s.inMem (s.ipos.toNat + j)) t).Overflows s room (j + 1) v) :
    (fetchEach put total 0 s).Overflows s room (j + 1) v := by
  obtain ⟨t, hrun, ht⟩ := hput.draws hstream j hj.le hleft.le hroom
  obtain ⟨u, hfetch, hu⟩ := ht.fetch hstream (by omega)
  obtain ⟨m, rfl⟩ := Nat.exists_eq_add_of_lt hj
  rw [Nat.add_assoc, fetchEach_add, hrun, Res.bind_ok, fetchEach, Nat.zero_add, hfetch, Res.bind_ok]
  exact (hlast u hu).bind _

end Literals

/-! ### The pad byte -/

/-- The pad byte is fetched and dropped (R213, R214). -/
theorem Drawn.padByte (hstream : StreamOk s) (ht : Drawn s t n p v)
    (hleft : p + p % 2 ≤ s.inlen.toNat - s.ipos.toNat) : (padByte p t).Draws s n (p + p % 2) v := by
  unfold Machine.padByte
  split
  · next hodd =>
    obtain ⟨u, hfetch, hu⟩ := ht.fetch hstream (by omega)
    rw [hfetch, hodd]
    exact ⟨u, rfl, hu⟩
  · next heven =>
    rw [Nat.mod_two_not_eq_one.1 heven]
    exact ⟨t, rfl, ht⟩

/-- The stream ends at the pad byte. -/
theorem Drawn.padByte_streamEnds (ht : Drawn s t n p v) (hodd : p % 2 = 1) (hend : p = s.inlen.toNat - s.ipos.toNat) :
    (Machine.padByte p t).StreamEnds s n p v := by
  unfold Machine.padByte
  rw [if_pos hodd]
  exact (ht.fetch_streamEnds (by omega) (by omega)).bind _

/-! ### Absolute runs -/

/-- An absolute run of `total` literal bytes (R213, R214). -/
def absoluteRun (put : Nat → Byte → State → Res Unit) (total : Nat) (s : State) : Res Unit :=
  (fetchEach put total 0 s).bind fun _ s => padByte total s

theorem exec_bmpAbs8_eq (n : BitVec 8) (s : State) :
    exec (.bmpAbs8 n) s = (absoluteRun (fun _ => putPixel) n.toNat s).outcome := by
  rw [absoluteRun, ← putLiterals8_eq_fetchEach]
  rfl

theorem exec_bmpAbs4_eq (n : BitVec 8) (s : State) :
    exec (.bmpAbs4 n) s = (absoluteRun (putPacked n.toNat) ((n.toNat + 1) / 2) s).outcome := by
  rw [absoluteRun, ← putLiterals4_eq_fetchEach]
  rfl

section Absolute
variable {total left : Nat} {c : Nat → Nat} {put : Nat → Byte → State → Res Unit} (hstream : StreamOk s)
  (hput : PutsLiterals s total c v put) (hleft : left = s.inlen.toNat - s.ipos.toNat)
include hstream hput hleft

theorem PutsLiterals.run_draws (hroom : bmpPlace s + c total ≤ bmpRows s * bmpCap s)
    (htotal : total + total % 2 ≤ left) : (absoluteRun put total s).Draws s (c total) (total + total % 2) v := by
  obtain ⟨t, hrun, ht⟩ := hput.draws hstream total le_rfl (by omega) hroom
  rw [absoluteRun, hrun]
  exact ht.padByte hstream (by omega)

theorem PutsLiterals.run_streamEnds (hroom : bmpPlace s + c (min left total) ≤ bmpRows s * bmpCap s)
    (htotal : left < total + total % 2) : (absoluteRun put total s).StreamEnds s (c (min left total)) left v := by
  rcases Nat.lt_or_ge left total with hlt | hge
  · rw [Nat.min_eq_left hlt.le] at hroom ⊢
    exact (hput.streamEnds hstream hleft hlt hroom).bind _
  · obtain rfl : left = total := by omega
    rw [Nat.min_self] at hroom ⊢
    obtain ⟨t, hrun, ht⟩ := hput.draws hstream left le_rfl hleft.le hroom
    rw [absoluteRun, hrun]
    exact ht.padByte_streamEnds (by omega) hleft

end Absolute

/-- Each literal byte is one pixel (R213). -/
theorem putsLiterals8 (hs : BmpReady s) (total : Nat)
    (hv : ∀ k, v k = storedPixel s (Memory.read s.inMem (s.ipos.toNat + k))) :
    PutsLiterals s total id v (fun _ => putPixel) :=
  ⟨rfl, monotone_id, fun j _ _ ht hroom => ht.pixel hs hroom (hv j)⟩

/-- Each literal byte is two pixels, the last one of an odd run one (R214). -/
theorem putsLiterals4 (hs : BmpReady s) (total : Nat)
    (hhigh : ∀ j, v (2 * j) =
      storedPixel s (nibblePixel ((Memory.read s.inMem (s.ipos.toNat + j)).extractLsb' 4 4)))
    (hlow : ∀ j, v (2 * j + 1) =
      storedPixel s (nibblePixel ((Memory.read s.inMem (s.ipos.toNat + j)).extractLsb' 0 4))) :
    PutsLiterals s ((total + 1) / 2) (fun j => min (2 * j) total) v (putPacked total) := by
  refine ⟨Nat.zero_min _, fun i j hij => ?_, fun j t hj ht hroom => ?_⟩
  · omega
  rw [show min (2 * j) total = 2 * j by omega] at ht
  obtain ⟨u, hput, hu⟩ := ht.pixel hs (by omega) (hhigh j)
  rw [putPacked, hput, Res.bind_ok]
  split
  · next hlt =>
    rw [show min (2 * (j + 1)) total = 2 * j + 1 + 1 by omega] at hroom ⊢
    exact hu.pixel hs hroom (hlow j)
  · next hge =>
    rw [show min (2 * (j + 1)) total = 2 * j + 1 by omega]
    exact ⟨u, rfl, hu⟩

/-- The pixel without a place is the high or the low nibble of its byte (R204, R214). -/
theorem putPacked_overflows {total : Nat} (hs : BmpReady s) (ht : Drawn s t (2 * (room / 2)) p v)
    (hfull : bmpPlace s + room = bmpRows s * bmpCap s) (hroom : room < total)
    (hhigh : v (2 * (room / 2)) = storedPixel s (nibblePixel (b.extractLsb' 4 4))) :
    (putPacked total (room / 2) b t).Overflows s room p v := by
  rcases Nat.mod_two_eq_zero_or_one room with heven | hodd
  · rw [show 2 * (room / 2) = room by omega] at ht
    exact (ht.full hs hfull _).bind _
  · obtain ⟨u, hput, hu⟩ := ht.pixel hs (by omega) hhigh
    rw [show 2 * (room / 2) + 1 = room by omega] at hu
    rw [putPacked, hput, Res.bind_ok, if_pos (by omega)]
    exact hu.full hs hfull _

theorem Res.Draws.outcome (hr : r.Draws s n p v) :
    ∃ t, r.outcome = .next t ∧ t = withDrawing s t ∧ t.ipos = s.ipos + BitVec.ofNat 32 p ∧ DrawsPixels s t n v := by
  obtain ⟨t, rfl, ht⟩ := hr
  exact ⟨t, rfl, ht⟩

theorem Res.StreamEnds.outcome (hr : r.StreamEnds s n p v) :
    ∃ t, r.outcome = .next t ∧ t = (withDrawing s t).raise .eos ∧ t.ipos = s.ipos + BitVec.ofNat 32 p ∧
      DrawsPixels s t n v := by
  obtain ⟨t, rfl, ht⟩ := hr
  exact ⟨t, rfl, ht⟩

theorem Res.Overflows.outcome (hr : r.Overflows s n p v) :
    ∃ t, r.outcome = .next t ∧
      t = ({ s with
        outMem := t.outMem, x := 0#32, y := BitVec.ofNat 32 (bmpRows s), ipos := s.ipos + BitVec.ofNat 32 p
        } : State).raise .overflow ∧
      PixelsWritten s t n v := by
  obtain ⟨t, rfl, ht⟩ := hr
  exact ⟨t, rfl, ht⟩

/-- Settles O31: both absolute runs are one loop over their literal bytes, with one or two pixels a byte. -/
theorem absoluteRunsDraw : Obligations.AbsoluteRunsDraw := by
  refine ⟨fun s n left literal hstream hs hp hleft hliteral => ?_,
    fun s n nb left literal hstream hs hp hnb hleft hliteral => ?_⟩
  · have hput := putsLiterals8 hs n.toNat fun k => (hliteral k).trans (storedPixel_of_rle8 hp _).symm
    rw [exec_bmpAbs8_eq]
    refine ⟨fun hroom htotal => (hput.run_draws hstream hleft hroom htotal).outcome,
      fun hroom htotal => (hput.run_streamEnds hstream hleft hroom htotal).outcome,
      fun room hfull hn hlt => Res.Overflows.outcome ?_⟩
    exact (hput.overflows hstream hn (hleft ▸ hlt) hfull.le fun t ht => ht.full hs hfull _).bind _
  · have hp4 : s.phase ≠ 0#32 := by simp [hp]
    have hhigh : ∀ j, literal (2 * j) =
        storedPixel s (nibblePixel ((Memory.read s.inMem (s.ipos.toNat + j)).extractLsb' 4 4)) := fun j => by
      rw [hliteral, if_pos (by omega), storedPixel_nibblePixel hp4, toNat_highNibble, Nat.mul_div_cancel_left _ two_pos]
    have hlow : ∀ j, literal (2 * j + 1) =
        storedPixel s (nibblePixel ((Memory.read s.inMem (s.ipos.toNat + j)).extractLsb' 0 4)) := fun j => by
      rw [hliteral, if_neg (by omega), storedPixel_nibblePixel hp4, toNat_lowNibble,
        show (2 * j + 1) / 2 = j by omega]
    have hput := putsLiterals4 hs n.toNat hhigh hlow
    have hall : min (2 * nb) n.toNat = n.toNat := by omega
    have hsome : min (2 * min left nb) n.toNat = min (2 * left) n.toNat := by omega
    rw [exec_bmpAbs4_eq]
    rw [← hnb] at hput ⊢
    refine ⟨fun hroom htotal => ?_, fun hroom htotal => ?_, fun room hfull hn hlt => Res.Overflows.outcome ?_⟩
    · have hrun := hput.run_draws hstream hleft (by rwa [hall]) htotal
      rw [hall] at hrun
      exact hrun.outcome
    · have hrun := hput.run_streamEnds hstream hleft (by rwa [hsome]) htotal
      rw [hsome] at hrun
      exact hrun.outcome
    · refine (hput.overflows hstream (j := room / 2) (by omega) (hleft ▸ hlt) (by omega) fun t ht => ?_).bind _
      rw [show min (2 * (room / 2)) n.toNat = 2 * (room / 2) by omega] at ht
      exact putPacked_overflows hs ht hfull hn (hhigh _)

end Sys2Proof.Machine
end

section
/-! PROOFS. The start of `BMP.RUN` (R205), the stream commands that draw nothing (R210 to R212), and the engine step:
how it ends a run (R206), and by how many bytes it moves the stream cursor (R215). -/

namespace Sys2Proof.Machine

open Sys2Proof.Ref

-- One declaration after another: as tasks, each would hold a thread of its own.
set_option Elab.async false

variable {α β : Type} {s t u : State} {r : Res α} {n m total : Nat}

/-! ### The start of a run -/

/-- The start tests of R205, on a state that has its `PHASE`. -/
theorem bmpStart_eq (mode : BitVec 1) {r : State} (hr : r = { s with phase := mode.setWidth 32 }) :
    bmpStart mode s =
      if 0 < r.width.toNat ∧ bmpStride r ≤ r.budget.toNat ∧
        r.budget.toNat / bmpStride r * bmpStride r ≤ r.params.outSize then
        .ok () ((r.withCursor 0#32 0#32).unprime.startRun .bmp)
      else raise .config r := by
  have hwidth : r.width = 0#32 ↔ ¬ 0 < r.width.toNat := by rw [← BitVec.toNat_inj]; simp
  rw [bmpStart, ← hr]
  by_cases hw : 0 < r.width.toNat
  · simp only [hwidth, hw, not_true_eq_false, if_false, true_and, bmpRows, ← not_le, ite_not, ← ite_and,
      Nat.one_le_div_iff (bmpStride_pos hw)]
  · simp [hwidth, hw]

/-- Settles O29: the prologue passes, and the tests of R205 decide. -/
theorem bmpRunStarts : Obligations.BmpRunStarts := by
  intro s r mode hstream hr
  have hexec : exec (.bmpRun mode) s = (bmpStart mode s).outcome := congrArg Res.outcome (needInput_of_le s _ hstream)
  rw [hexec, bmpStart_eq mode hr]
  refine ⟨fun h => ?_, fun h => ?_⟩
  · rw [if_pos h]
    rfl
  · rw [if_neg h]
    rfl

/-! ### Delta -/

/-- A cursor on the last byte of the stream moves to its end. -/
theorem ipos_succ_of_last (h : s.ipos.toNat + 1 = s.inlen.toNat) : s.ipos + 1#32 = s.inlen :=
  BitVec.eq_of_toNat_eq ((toNat_succ_of_lt (h ▸ Nat.lt_succ_self _) s.inlen.isLt).trans h)

theorem exec_bmpDelta_eq (s : State) : exec .bmpDelta s = (bmpDeltaBody s).outcome := rfl

/-- Delta with both of its bytes in the stream (R212). -/
theorem bmpDeltaBody_of_fetched (hstream : StreamOk s) (h : s.ipos.toNat + 2 ≤ s.inlen.toNat) {nx ny : Nat}
    (hnx : nx = s.x.toNat + (Memory.read s.inMem s.ipos.toNat).toNat)
    (hny : ny = s.y.toNat + (Memory.read s.inMem (s.ipos.toNat + 1)).toNat) : bmpDeltaBody s =
      let moved := (s.withIpos (s.ipos + 2#32)).withCursor (cursorWord nx) (cursorWord ny)
      if bmpCap s < nx ∨ bmpRows s ≤ ny then raise .bounds moved else .ok () moved := by
  have hpos : (s.ipos + 1#32).toNat = s.ipos.toNat + 1 :=
    toNat_succ_of_lt (show _ < s.inlen.toNat by omega) s.inlen.isLt
  have hfetch := fetchByte_of_lt (s := s) (by omega) hstream
  have hfetch' := fetchByte_of_lt (s := s.withIpos (s.ipos + 1#32)) (by
    rw [State.withIpos_ipos, hpos]
    exact h) hstream
  rw [bmpDeltaBody, hfetch, Res.bind_ok, hfetch', Res.bind_ok, State.withIpos_ipos, hpos,
    BitVec.add_assoc]
  subst hnx hny
  rfl

/-- Delta with less than two bytes in the stream (R212). -/
theorem bmpDeltaBody_of_short (hstream : StreamOk s) (h : s.inlen.toNat < s.ipos.toNat + 2) :
    bmpDeltaBody s =
      raise .eos { s with ipos := if s.inlen.toNat ≤ s.ipos.toNat then s.ipos else s.inlen } := by
  by_cases hend : s.inlen.toNat ≤ s.ipos.toNat
  · rw [if_pos hend, bmpDeltaBody, fetchByte_of_le hend]
    rfl
  · have hlast : s.ipos.toNat + 1 = s.inlen.toNat := by omega
    rw [if_neg hend, bmpDeltaBody, fetchByte_of_lt (not_le.1 hend) hstream, Res.bind_ok, ipos_succ_of_last hlast,
      fetchByte_of_le le_rfl]
    rfl

/-- Settles O34: delta with two, one or no byte left. -/
theorem bmpDeltaMoves : Obligations.BmpDeltaMoves := by
  refine ⟨fun s m nx ny hstream h hnx hny hx hy hm => ?_, fun s hstream h => ?_⟩
  · have hbody := bmpDeltaBody_of_fetched hstream h hnx hny
    have hmoved : (s.withIpos (s.ipos + 2#32)).withCursor (cursorWord nx) (cursorWord ny) = m := by
      rw [cursorWord_of_lt hx, cursorWord_of_lt hy, hm]
      rfl
    rw [hmoved] at hbody
    dsimp only at hbody
    rw [exec_bmpDelta_eq, hbody]
    refine ⟨fun hin => ?_, fun hout => ?_⟩
    · rw [if_neg (by omega)]
      rfl
    · rw [if_pos (by omega)]
      rfl
  · rw [exec_bmpDelta_eq, bmpDeltaBody_of_short hstream h]
    rfl

/-! ### The ends of a run -/

theorem engineStep_bmp (hunit : s.unit = .bmp) (habort : s.abort = false) : engineStep s = bmpEngineStep s := by
  rw [engineStep, if_neg (by simp [habort]), unitStep, hunit]

theorem bmpFull_iff (s : State) : bmpFull s = true ↔
    bmpRows s ≤ s.y.toNat ∨ (s.y.toNat + 1 = bmpRows s ∧ bmpCap s ≤ s.x.toNat) := by
  simp [bmpFull]

/-- The destination is full (R206). -/
theorem bmpEngineStep_of_full (h : bmpFull s = true) : bmpEngineStep s = .next (s.bmpFinish .full) := if_pos h

/-- The stream is at its end (R206). -/
theorem bmpEngineStep_of_end (h : ¬ bmpFull s = true) (hend : s.inlen.toNat ≤ s.ipos.toNat) :
    bmpEngineStep s = .next (s.bmpFinish .endOfStream) := (if_neg h).trans (if_pos hend)

/-- The engine step fetches the two bytes of a command and executes it (R206, R207). -/
theorem bmpEngineStep_of_command (h : ¬ bmpFull s = true) (hmore : ¬ s.inlen.toNat ≤ s.ipos.toNat) :
    bmpEngineStep s = (fetchByte s).andThen fun b1 s => (fetchByte s).andThen fun b2 s =>
      exec (decodeBmp (decide (s.phase ≠ 0#32)) b1 b2) s := (if_neg h).trans (if_neg hmore)

/-- The stream ends between the bytes of a command (R206). -/
theorem bmpEngineStep_of_cut (h : ¬ bmpFull s = true) (hstream : StreamOk s)
    (hlast : s.ipos.toNat + 1 = s.inlen.toNat) :
    bmpEngineStep s = .next ((s.withIpos s.inlen).raise .eos) := by
  rw [bmpEngineStep_of_command h (by omega), fetchByte_of_lt (by omega) hstream, Res.andThen_ok,
    ipos_succ_of_last hlast, fetchByte_of_le le_rfl, Res.andThen_raised]

/-- Settles O33: the ends of a row, of the bitmap, of the destination and of the stream. -/
theorem bmpLineAndBitmapEnds : Obligations.BmpLineAndBitmapEnds := by
  refine ⟨fun s hy => ?_, fun s => rfl, fun s full _ hunit habort hfull => ?_⟩
  · have hnext : cursorWord (s.y.toNat + 1) = s.y + 1#32 := by
      rw [cursorWord_of_lt hy, BitVec.ofNat_add, BitVec.ofNat_toNat, BitVec.setWidth_eq]
    exact congrArg (fun y => Host.Outcome.next (s.withCursor 0#32 y)) hnext
  · rw [engineStep_bmp hunit habort]
    rw [← bmpFull_iff] at hfull
    exact ⟨fun h => bmpEngineStep_of_full (hfull.1 h), fun h => bmpEngineStep_of_end (h ∘ hfull.2),
      fun h => bmpEngineStep_of_cut (h ∘ hfull.2)⟩

/-! ### The bytes that a command fetches -/

/-- Begun in `s`, the pseudocode moves the stream cursor forward by `n` bytes, or raises an error. -/
def Res.Fetches (n : Nat) (s : State) (r : Res α) : Prop :=
  r.Post (fun _ t => t.ipos.toNat = s.ipos.toNat + n) (fun t => t.st = .error) False

theorem Res.Fetches.ok {a : α} (h : t.ipos = s.ipos) : (Res.ok a t).Fetches 0 s := congrArg BitVec.toNat h

theorem Res.Fetches.bind {k : α → State → Res β} (hr : r.Fetches n s) (hk : ∀ a u, (k a u).Fetches m u)
    (h : n + m = total) : (r.bind k).Fetches total s :=
  Res.Post.bind hr fun a u hu =>
    (hk a u).mono (fun _ _ ht => by rw [ht, hu, Nat.add_assoc, h]) (fun _ h => h) id

theorem fetchByte_fetches (s : State) : (fetchByte s).Fetches 1 s := by
  unfold fetchByte
  split
  · rfl
  · next hmore =>
    unfold inByte
    split
    · exact toNat_succ_of_lt (not_le.1 hmore) s.inlen.isLt
    · exact id

theorem putPixel_fetches (b : Byte) (s : State) : (putPixel b s).Fetches 0 s :=
  (putPixel_post b s).mono (fun _ _ ⟨ht, _⟩ => by rw [ht]; rfl) (fun _ ⟨_, _, ht⟩ => by rw [ht]; rfl) id

theorem putPixels_fetches (f : Nat → Byte) (n k : Nat) (s : State) : (putPixels f n k s).Fetches 0 s := by
  induction n generalizing k s with
  | zero => exact .ok rfl
  | succ n ih => exact (putPixel_fetches _ s).bind (fun _ u => ih (k + 1) u) rfl

theorem putPacked_fetches (total j : Nat) (b : Byte) (s : State) : (putPacked total j b s).Fetches 0 s := by
  refine (putPixel_fetches _ s).bind (m := 0) (fun _ u => ?_) rfl
  split
  · exact putPixel_fetches _ u
  · exact .ok rfl

theorem fetchEach_fetches {put : Nat → Byte → State → Res Unit} (hput : ∀ j b s, (put j b s).Fetches 0 s) (n j : Nat)
    (s : State) : (fetchEach put n j s).Fetches n s := by
  induction n generalizing j s with
  | zero => exact .ok rfl
  | succ n ih =>
    exact (fetchByte_fetches s).bind (fun b u => (hput j b u).bind (fun _ w => ih (j + 1) w) (Nat.zero_add n))
      (Nat.add_comm 1 n)

theorem padByte_fetches (n : Nat) (s : State) : (padByte n s).Fetches (n % 2) s := by
  unfold padByte
  split
  · next hodd => exact (fetchByte_fetches s).bind (fun _ _ => .ok rfl) hodd.symm
  · next heven =>
    rw [Nat.mod_two_not_eq_one.1 heven]
    exact .ok rfl

/-- An absolute run fetches an even number of bytes: its literals and their pad byte (R215). -/
theorem absoluteRun_fetches {put : Nat → Byte → State → Res Unit} (hput : ∀ j b s, (put j b s).Fetches 0 s)
    (total : Nat) (s : State) : (absoluteRun put total s).Fetches (2 * ((total + 1) / 2)) s :=
  (fetchEach_fetches hput total 0 s).bind (fun _ u => padByte_fetches total u) (by omega)

theorem bmpDeltaBody_fetches (s : State) : (bmpDeltaBody s).Fetches 2 s := by
  refine (fetchByte_fetches s).bind (fun dx u => (fetchByte_fetches u).bind (m := 0) (fun dy v => ?_) rfl) rfl
  dsimp only
  split
  · rfl
  · exact .ok rfl

/-- A step from `s` that raises nothing moves the stream cursor forward by `n` bytes and an even number of others. -/
def NextFetches (n : Nat) (s : State) (o : Host.Outcome State Fault Refusal) : Prop :=
  ∀ t, o = .next t → t.st ≠ .error → ∃ k, t.ipos.toNat = s.ipos.toNat + n + 2 * k

theorem nextFetches_next (h : t.ipos = s.ipos) : NextFetches 0 s (.next t) := by
  rintro _ ⟨⟩ -
  exact ⟨0, congrArg BitVec.toNat h⟩

theorem Res.Fetches.outcome {k : Nat} (hr : r.Fetches (2 * k) s) : NextFetches 0 s r.outcome := by
  intro t ht hst
  rcases Res.Post.outcome hr ht with ⟨_, hpos⟩ | herr
  · exact ⟨k, hpos⟩
  · exact absurd herr hst

theorem Res.Fetches.andThen {k : α → State → Host.Outcome State Fault Refusal} (hr : r.Fetches n s)
    (hk : ∀ a u, NextFetches m u (k a u)) : NextFetches (n + m) s (r.andThen k) := by
  intro t ht hst
  cases r with
  | ok a u =>
    obtain ⟨j, hj⟩ := hk a u t ht hst
    exact ⟨j, by rw [hj, show u.ipos.toNat = s.ipos.toNat + n from hr, Nat.add_assoc s.ipos.toNat n m]⟩
  | raised u =>
    cases ht
    exact absurd hr hst
  | stop f => cases ht

/-- Every stream command of BMP fetches an even number of bytes beside its own two (R208 to R215). -/
theorem exec_bmp_fetches {i : Instr} {mode : Bool} (hi : i.format = .bmp mode) (s : State) :
    NextFetches 0 s (exec i s) := by
  cases i with
  | bmpRun8 count value =>
    rw [exec_bmpRun8_eq]
    exact (putPixels_fetches _ _ 0 s).outcome (k := 0)
  | bmpRun4 count hi lo =>
    rw [exec_bmpRun4_eq]
    exact (putPixels_fetches _ _ 0 s).outcome (k := 0)
  | bmpEol => exact nextFetches_next rfl
  | bmpEob => exact nextFetches_next rfl
  | bmpDelta => exact (bmpDeltaBody_fetches s).outcome (k := 1)
  | bmpAbs8 n =>
    rw [exec_bmpAbs8_eq]
    exact (absoluteRun_fetches (fun _ => putPixel_fetches) _ s).outcome
  | bmpAbs4 n =>
    rw [exec_bmpAbs4_eq]
    exact (absoluteRun_fetches (putPacked_fetches _) _ s).outcome
  | _ => cases hi

/-- The engine step fetches nothing, or the two bytes of a command and what the command fetches (R206). -/
theorem bmpEngineStep_fetches (s : State) : ∃ k, NextFetches (2 * k) s (bmpEngineStep s) := by
  by_cases hfull : bmpFull s = true
  · exact ⟨0, bmpEngineStep_of_full hfull ▸ nextFetches_next rfl⟩
  by_cases hend : s.inlen.toNat ≤ s.ipos.toNat
  · exact ⟨0, bmpEngineStep_of_end hfull hend ▸ nextFetches_next rfl⟩
  · refine ⟨1, bmpEngineStep_of_command hfull hend ▸ ?_⟩
    refine (fetchByte_fetches s).andThen (m := 1) fun b1 u => (fetchByte_fetches u).andThen (m := 0) fun b2 v => ?_
    obtain ⟨mode, hi⟩ := format_decodeBmp (decide (v.phase ≠ 0#32)) b1 b2
    exact exec_bmp_fetches hi v

/-- Settles O35: every command fetches an even number of bytes, and the abort none. -/
theorem bmpStepsStayEven : Obligations.BmpStepsStayEven := by
  intro s t _ hunit hstep hst
  by_cases habort : s.abort = true
  · rw [engineStep, if_pos habort] at hstep
    cases hstep
    exact ⟨le_rfl, rfl⟩
  · rw [engineStep_bmp hunit (by simpa using habort)] at hstep
    obtain ⟨n, hfetches⟩ := bmpEngineStep_fetches s
    obtain ⟨k, hpos⟩ := hfetches t hstep hst
    omega

end Sys2Proof.Machine
end

section
/-! PROOFS. The tests of the SGI commands (R231, R236), the control bytes of a scanline (R232 to R234), and what of `IN`
and `OUT` a scanline can touch (R237). The part about `IN` is said of each operation as an equation: with another memory
in the place of `IN`, which agrees with it on the bytes still to be decoded, the operation does the same. -/

namespace Sys2Proof.Machine

open Sys2Proof.Ref

variable {α β : Type} {s t : State} {count : BitVec 7}

/-! ### The configuration test -/

theorem sgiConfigCheck_of_two_bytes (k : State → Res Unit) (h : s.bpc = 2#32) :
    sgiConfigCheck s k = raise .unsupported s := if_pos h

/-- One of the tests behind the component size fails (R231). -/
theorem sgiConfigCheck_of_misfit (k : State → Res Unit) (hbpc : s.bpc ≠ 2#32)
    (h : ¬ (s.bpc = 1#32 ∧ 0 < s.width.toNat ∧ 0 < s.height.toNat ∧ 0 < s.channels.toNat ∧
      s.channels.toNat * s.height.toNat ≤ s.params.tabEntries ∧
      s.channels.toNat * s.height.toNat * s.width.toNat ≤ s.params.outSize)) :
    sgiConfigCheck s k = raise .config s := by
  have hpos {v : Word} (hv : v ≠ 0#32) : 0 < v.toNat := Nat.pos_of_ne_zero fun h => hv (BitVec.eq_of_toNat_eq h)
  rw [sgiConfigCheck, if_neg hbpc]
  split_ifs with hone hempty htab hout
  · rfl
  · rfl
  · rfl
  · rfl
  · obtain ⟨hw, hh, hc⟩ : s.width ≠ 0#32 ∧ s.height ≠ 0#32 ∧ s.channels ≠ 0#32 := by simpa using hempty
    exact absurd ⟨not_not.1 hone, hpos hw, hpos hh, hpos hc, not_lt.1 htab, not_lt.1 hout⟩ h

/-- Both commands make the configuration test before anything else (R231, R312). -/
theorem exec_sgi_begins {i : Instr} (hs : StreamOk s) (hi : i = .sgiRun ∨ ∃ c r, i = .sgiLine c r) :
    ∃ k, exec i s = (sgiConfigCheck s k).outcome := by
  rcases hi with rfl | ⟨c, r, rfl⟩
  · exact ⟨_, congrArg Res.outcome (needInput_of_le s _ hs)⟩
  · exact ⟨_, congrArg Res.outcome (needInput_of_le s _ hs)⟩

/-- Settles O36: the configuration test that both commands begin with, and the start of a run behind it. -/
theorem sgiRunStarts : Obligations.SgiRunStarts := by
  refine ⟨fun s i hs hi => ?_, fun s hs hbpc hw hh hc htab hout => ?_⟩
  · obtain ⟨k, hexec⟩ := exec_sgi_begins hs hi
    refine ⟨fun htwo => ?_, fun htwo hmisfit => ?_⟩
    · rw [hexec, sgiConfigCheck_of_two_bytes k htwo]
      rfl
    · rw [hexec, sgiConfigCheck_of_misfit k htwo hmisfit]
      rfl
  · show (needInput s _).outcome = _
    rw [needInput_of_le _ _ hs, sgiConfigCheck_of_fits hbpc hw hh hc ⟨htab, hout⟩]
    rfl

/-! ### The control bytes -/

theorem ofNat_toNat_add_toNat (v : Word) (n : BitVec 7) : BitVec.ofNat 32 (v.toNat + n.toNat) = v + n.setWidth 32 := by
  rw [BitVec.ofNat_add, BitVec.ofNat_toNat, BitVec.ofNat_toNat, BitVec.setWidth_eq]

/-- A verbatim run behind its control byte (R233): the bytes at the cursor are copied. -/
theorem sgiVerbatimBody_copies (hroom : s.x.toNat + count.toNat ≤ s.width.toNat)
    (hend : s.ipos.toNat + count.toNat ≤ s.loc.lineEnd) (hin : s.ipos.toNat + count.toNat ≤ s.params.inSize)
    (hout : s.loc.lineDst + s.x.toNat + count.toNat ≤ s.params.outSize) :
    sgiVerbatimBody count s = .ok ()
      { s with
        ipos := s.ipos + count.setWidth 32, x := s.x + count.setWidth 32,
        outMem := Memory.writeAll s.outMem (s.loc.lineDst + s.x.toNat)
          (Memory.readAll s.inMem s.ipos.toNat count.toNat) } := by
  have hcopy := (copyRun_writes count.toNat s.ipos.toNat (s.loc.lineDst + s.x.toNat) s).eq_ok ⟨hin, hout⟩
  rw [sgiVerbatimBody, if_neg (not_lt.2 hroom), if_neg (not_lt.2 hend), hcopy, Res.bind_ok, State.withOut_ipos,
    ofNat_toNat_add_toNat, State.withX, ofNat_toNat_add_toNat]
  rfl

/-- A repeat run behind its control byte (R234): the byte at the cursor is repeated. -/
theorem sgiRepeatBody_fills (hroom : s.x.toNat + count.toNat ≤ s.width.toNat) (hend : s.ipos.toNat < s.loc.lineEnd)
    (hin : s.ipos.toNat < s.params.inSize)
    (hout : s.loc.lineDst + s.x.toNat + count.toNat ≤ s.params.outSize) :
    sgiRepeatBody count s = .ok ()
      { s with
        ipos := s.ipos + 1#32, x := s.x + count.setWidth 32,
        outMem := Memory.writeAll s.outMem (s.loc.lineDst + s.x.toNat)
          (List.replicate count.toNat (Memory.read s.inMem s.ipos.toNat)) } := by
  have hfill := (fillRun_writes count.toNat (Memory.read s.inMem s.ipos.toNat) (s.loc.lineDst + s.x.toNat)
    (s.withIpos (s.ipos + 1#32))).eq_ok hout
  rw [sgiRepeatBody, if_neg (not_lt.2 hroom), if_neg hend.ne, inByte_of_lt hin, Res.bind_ok, hfill, Res.bind_ok,
    State.withX, ofNat_toNat_add_toNat]
  rfl

/-- Settles O37: the tests of the two runs in their order, and the runs behind them. -/
theorem sgiControlBytes : Obligations.SgiControlBytes := by
  refine ⟨fun _ _ => rfl, fun s count hover => ⟨?_, ?_⟩, fun s count hroom => ⟨fun hcut => ?_, fun hcut => ?_⟩,
    fun s count hs hroom hline hout => ⟨fun hend => ?_, fun hend => ?_⟩⟩
  · exact congrArg Res.outcome (sgiVerbatimBody_overflow hover)
  · exact congrArg Res.outcome (sgiRepeatBody_overflow hover)
  · exact congrArg Res.outcome (sgiVerbatimBody_cut hroom hcut)
  · exact congrArg Res.outcome (sgiRepeatBody_cut hroom hcut)
  · have hin := (hend.trans hline).trans hs
    exact ⟨_, congrArg Res.outcome (sgiVerbatimBody_copies hroom hend hin hout), rfl, bytesWritten_writeAll _ _ _⟩
  · have hin := (hend.trans_le hline).trans_le hs
    exact ⟨_, congrArg Res.outcome (sgiRepeatBody_fills hroom hend hin hout), rfl, bytesWritten_writeAll _ _ _⟩

/-! ### Another memory in the place of `IN` -/

/-- The state with `m` in the place of `IN`. -/
@[simps] def State.withIn (s : State) (m : Memory 8) : State := { s with inMem := m }

/-- What a piece of pseudocode does, with `m` in the place of `IN` in the state it ends in. -/
def Res.withIn (m : Memory 8) : Res α → Res α
  | .ok a s => .ok a (s.withIn m)
  | .raised s => .raised (s.withIn m)
  | .stop f => .stop f

/-- The operation begun in `s` does the same with `m` in the place of `IN`. -/
def IgnoresIn (m : Memory 8) (s : State) (f : State → Res α) : Prop := f (s.withIn m) = (f s).withIn m

/-- `m` agrees with `IN` on the bytes of the scanline that are still to be decoded (R235). -/
def AgreesOnLine (m : Memory 8) (s : State) : Prop :=
  ∀ a, s.ipos.toNat ≤ a → a < s.loc.lineEnd → Memory.read m a = Memory.read s.inMem a

section IgnoresIn
variable {m : Memory 8} {f : State → Res α}

/-- The rule of sequencing. -/
theorem IgnoresIn.bind {k : α → State → Res β} (hf : IgnoresIn m s f)
    (hk : ∀ a t, f s = .ok a t → IgnoresIn m t (k a)) : IgnoresIn m s fun s => (f s).bind k := by
  show (f (s.withIn m)).bind k = ((f s).bind k).withIn m
  rw [show f (s.withIn m) = (f s).withIn m from hf]
  cases h : f s with
  | ok a t => exact hk a t h
  | raised t => rfl
  | stop e => rfl

/-- A test that raises an error before the rest. -/
theorem Res.withIn_test {c : Prop} [Decidable c] {e : ErrCode} {r r' : Res α} (h : ¬ c → r' = r.withIn m) :
    (if c then raise e (s.withIn m) else r') = (if c then raise e s else r).withIn m := by
  split_ifs with hc
  · rfl
  · exact h hc

theorem IgnoresIn.outcome (hf : IgnoresIn m s f) (h : (f s).outcome = .next t) :
    (f (s.withIn m)).outcome = .next (t.withIn m) := by
  rw [show f (s.withIn m) = (f s).withIn m from hf]
  rcases Res.outcome_eq_next.1 h with ⟨a, h⟩ | h <;> rw [h] <;> rfl

theorem inByte_ignoresIn {a : Nat} (h : Memory.read m a = Memory.read s.inMem a) : IgnoresIn m s (inByte a) := by
  by_cases ha : a < s.params.inSize
  · rw [IgnoresIn, inByte_of_lt ha, inByte_of_lt (s := s.withIn m) ha]
    exact congrArg (Res.ok · _) h
  · rw [IgnoresIn, inByte, inByte, if_neg ha, State.withIn_params, if_neg ha]
    rfl

theorem outWrite_ignoresIn (a : Nat) (v : Byte) : IgnoresIn m s (outWrite a v) := by
  by_cases ha : a < s.params.outSize
  · rw [IgnoresIn, outWrite_of_lt v ha, outWrite_of_lt (s := s.withIn m) v ha]
    rfl
  · rw [IgnoresIn, outWrite, outWrite, if_neg ha, State.withIn_params, if_neg ha]
    rfl

/-- The copy (R233) reads the bytes it copies and no others. -/
theorem copyRun_ignoresIn {n src : Nat} (dst : Nat)
    (h : ∀ a, src ≤ a → a < src + n → Memory.read m a = Memory.read s.inMem a) :
    IgnoresIn m s (copyRun n src dst) := by
  induction n generalizing src dst s with
  | zero => rfl
  | succ n ih =>
    refine (inByte_ignoresIn (h src le_rfl (by omega))).bind fun b u hu => ?_
    obtain ⟨-, -, rfl⟩ := inByte_eq_ok.1 hu
    refine (outWrite_ignoresIn dst b).bind fun _ v hv => ?_
    obtain ⟨-, rfl⟩ := outWrite_eq_ok.1 hv
    exact ih (dst + 1) fun a hlo hhi => h a (by omega) (by omega)

/-- The repetition (R234) reads nothing. -/
theorem fillRun_ignoresIn (n : Nat) (v : Byte) (dst : Nat) : IgnoresIn m s (fillRun n v dst) := by
  induction n generalizing dst s with
  | zero => rfl
  | succ n ih => exact (outWrite_ignoresIn dst v).bind fun _ _ _ => ih (dst + 1)

/-! ### The control bytes and `IN` -/

theorem sgiVerbatimBody_ignoresIn (h : AgreesOnLine m s) : IgnoresIn m s (sgiVerbatimBody count) := by
  refine Res.withIn_test fun _ => Res.withIn_test fun (hcut : ¬ s.loc.lineEnd < s.ipos.toNat + count.toNat) => ?_
  have hcopy : IgnoresIn m s (copyRun count.toNat s.ipos.toNat (s.loc.lineDst + s.x.toNat)) :=
    copyRun_ignoresIn _ fun a hlo hhi => h a hlo (by omega)
  exact hcopy.bind fun _ _ _ => rfl

theorem sgiRepeatBody_ignoresIn (h : AgreesOnLine m s) (hle : s.ipos.toNat ≤ s.loc.lineEnd) :
    IgnoresIn m s (sgiRepeatBody count) := by
  refine Res.withIn_test fun _ => Res.withIn_test fun (hcut : ¬ s.ipos.toNat = s.loc.lineEnd) => ?_
  have hread : IgnoresIn m s (inByte s.ipos.toNat) := inByte_ignoresIn (h _ le_rfl (by omega))
  refine hread.bind fun v u _ => ?_
  have hfill : IgnoresIn m (u.withIpos (u.ipos + 1#32)) (fillRun count.toNat v (u.loc.lineDst + s.x.toNat)) :=
    fillRun_ignoresIn _ v _
  exact hfill.bind fun _ _ _ => rfl

theorem sgiCommand_ignoresIn (ctl : Byte) (h : AgreesOnLine m s) (hle : s.ipos.toNat ≤ s.loc.lineEnd) :
    IgnoresIn m s (sgiCommand ctl) := by
  unfold sgiCommand IgnoresIn
  split_ifs
  · rfl
  · exact sgiVerbatimBody_ignoresIn h
  · exact sgiRepeatBody_ignoresIn h hle

/-! ### The scanline and `IN` -/

/-- The bytes still to be decoded in `t` are among those still to be decoded in `s`. -/
def LineGoesOn (s t : State) : Prop :=
  t.inMem = s.inMem ∧ t.loc.lineEnd = s.loc.lineEnd ∧ s.ipos.toNat ≤ t.ipos.toNat

theorem AgreesOnLine.goesOn (h : AgreesOnLine m s) (hst : LineGoesOn s t) : AgreesOnLine m t := by
  obtain ⟨hin, hend, hpos⟩ := hst
  intro a hlo hhi
  rw [hin]
  exact h a (hpos.trans hlo) (hend ▸ hhi)

/-- The cursor behind the control byte (R235). -/
theorem lineGoesOn_fetch (hs : LineSafe s) (hpos : s.ipos.toNat < s.loc.lineEnd) :
    LineSafe (s.withIpos (s.ipos + 1#32)) ∧ LineGoesOn s (s.withIpos (s.ipos + 1#32)) := by
  obtain ⟨hin, hend, -, hx, hdst⟩ := hs
  have hnext := toNat_succ_of_lt hpos hend
  exact ⟨⟨hin, hend, hnext.trans_le hpos, hx, hdst⟩, rfl, rfl, hnext ▸ Nat.le_succ _⟩

theorem sgiVerbatimBody_goesOn (hs : LineSafe s) (hok : sgiVerbatimBody count s = .ok () t) : LineGoesOn s t := by
  obtain ⟨hin, hend, -, -, hdst⟩ := hs
  by_cases hroom : s.width.toNat < s.x.toNat + count.toNat
  · rw [sgiVerbatimBody_overflow hroom] at hok; cases hok
  by_cases hcut : s.loc.lineEnd < s.ipos.toNat + count.toNat
  · rw [sgiVerbatimBody_cut (not_lt.1 hroom) hcut] at hok; cases hok
  rw [sgiVerbatimBody_copies (by omega) (by omega) (by omega) (by omega)] at hok
  cases hok
  refine ⟨rfl, rfl, ?_⟩
  rw [← ofNat_toNat_add_toNat, BitVec.toNat_ofNat]
  omega

theorem sgiRepeatBody_goesOn (hs : LineSafe s) (hok : sgiRepeatBody count s = .ok () t) : LineGoesOn s t := by
  obtain ⟨hin, hend, hle, -, hdst⟩ := hs
  by_cases hroom : s.width.toNat < s.x.toNat + count.toNat
  · rw [sgiRepeatBody_overflow hroom] at hok; cases hok
  by_cases hcut : s.ipos.toNat = s.loc.lineEnd
  · rw [sgiRepeatBody_cut (not_lt.1 hroom) hcut] at hok; cases hok
  rw [sgiRepeatBody_fills (by omega) (by omega) (by omega) (by omega)] at hok
  cases hok
  refine ⟨rfl, rfl, ?_⟩
  rw [toNat_succ_of_lt (show s.ipos.toNat < s.loc.lineEnd by omega) hend]
  omega

/-- A control byte that raises nothing leaves the cursor in the same scanline, not before where it was (R232 to R234). -/
theorem sgiCommand_goesOn {ctl : Byte} (hs : LineSafe s) (hok : sgiCommand ctl s = .ok () t) :
    LineSafe t ∧ LineGoesOn s t := by
  have hsound := sgiCommand_sound ctl s
  rw [hok] at hsound
  refine ⟨hsound.2 hs, ?_⟩
  unfold sgiCommand at hok
  split_ifs at hok
  · cases hok
    exact ⟨rfl, rfl, le_rfl⟩
  · exact sgiVerbatimBody_goesOn hs hok
  · exact sgiRepeatBody_goesOn hs hok

/-- The loop of R235 reads the bytes of the scanline and no others. -/
theorem lineLoop_ignoresIn (fuel : Nat) (hs : LineSafe s) (h : AgreesOnLine m s) : IgnoresIn m s (lineLoop fuel) := by
  induction fuel generalizing s with
  | zero => rfl
  | succ fuel ih =>
    by_cases hstop : s.ipos.toNat = s.loc.lineEnd ∨ s.loc.ended = true
    · rw [IgnoresIn, lineLoop, lineLoop, if_pos hstop]
      exact if_pos hstop
    obtain ⟨-, -, hle, -⟩ := id hs
    have hpos : s.ipos.toNat < s.loc.lineEnd := lt_of_le_of_ne hle (not_or.1 hstop).1
    have hround : IgnoresIn m s fun s => (inByte s.ipos.toNat s).bind fun ctl s =>
        (sgiCommand ctl (s.withIpos (s.ipos + 1#32))).bind fun _ s => lineLoop fuel s := by
      have hread : IgnoresIn m s (inByte s.ipos.toNat) := inByte_ignoresIn (h _ le_rfl hpos)
      refine hread.bind fun ctl u hu => ?_
      obtain ⟨-, -, rfl⟩ := inByte_eq_ok.1 hu
      obtain ⟨hfetched, hfetch⟩ := lineGoesOn_fetch hs hpos
      obtain ⟨-, -, hfetchedLe, -⟩ := id hfetched
      have hcommand : IgnoresIn m (u.withIpos (u.ipos + 1#32)) (sgiCommand ctl) :=
        sgiCommand_ignoresIn ctl (h.goesOn hfetch) hfetchedLe
      refine hcommand.bind fun _ t hok => ?_
      obtain ⟨ht, hgo⟩ := sgiCommand_goesOn hfetched hok
      exact ih ht ((h.goesOn hfetch).goesOn hgo)
    rw [IgnoresIn, lineLoop, lineLoop, if_neg hstop]
    exact (if_neg hstop).trans hround

/-- Decoding scanline `(c, r)` reads its declared bytes and no others (R237). -/
theorem sgiLineBody_ignoresIn {c r : Word} (hin : ScanlineInside c r s)
    (h : ∀ a, scanlineOffset s c r ≤ a → a < scanlineOffset s c r + scanlineLength s c r →
      Memory.read m a = Memory.read s.inMem a) : IgnoresIn m s (sgiLineBody c r) := by
  rw [IgnoresIn, sgiLineBody_eq hin, sgiLineBody_eq (s := s.withIn m) hin]
  refine Res.withIn_test (s := s.startLine c r) (e := .bounds) fun hfit => ?_
  have hloop : IgnoresIn m (lineBegun s c r) (lineLoop (scanlineLength s c r + 1)) :=
    lineLoop_ignoresIn _ (lineSafe_lineBegun hin (not_lt.1 hfit)) h
  exact hloop.bind fun _ _ _ => rfl

end IgnoresIn

/-! ### The scanline and `OUT` -/

theorem ScanEnd.length_after_le {r : ScanEnd} {bs : List Byte} {p k room : Nat} (hbs : bs.length ≤ k) (hk : k ≤ room)
    (hr : r.2.1.length ≤ room - k) : (r.after bs p).2.1.length ≤ room := by
  rw [ScanEnd.after, List.length_append]
  omega

/-- A scan writes no more bytes than there is room for (R233, R234). -/
theorem length_sgiScan_le (fuel : Nat) (bytes : List Byte) (room : Nat) :
    (sgiScan fuel bytes room).2.1.length ≤ room := by
  induction fuel generalizing bytes room with
  | zero => exact Nat.zero_le _
  | succ fuel ih =>
    cases bytes with
    | nil => exact Nat.zero_le _
    | cons ctl rest =>
      simp only [sgiScan]
      split_ifs with hend hroom htype hcut
      · exact Nat.zero_le _
      · exact Nat.zero_le _
      · exact Nat.zero_le _
      · exact ScanEnd.length_after_le (List.length_take_le _ _) (not_lt.1 hroom) (ih _ _)
      · cases rest with
        | nil => exact Nat.zero_le _
        | cons v rest => exact ScanEnd.length_after_le List.length_replicate.le (not_lt.1 hroom) (ih _ _)

/-- Decoding scanline `(c, r)` ends, with or without an error, and writes its own row only (R237, R241). -/
theorem sgiLineBody_writes {c r : Word} (hin : ScanlineInside c r s) :
    ∃ t, (sgiLineBody c r s).outcome = .next t ∧
      ∀ a, a < sgiDst s c.toNat r.toNat ∨ sgiDst s c.toNat r.toNat + s.width.toNat ≤ a →
        Memory.read t.outMem a = Memory.read s.outMem a := by
  by_cases hfit : scanlineOffset s c r + scanlineLength s c r ≤ s.inlen.toNat
  · obtain ⟨o, ⟨-, hsame⟩, hline⟩ := sgiLineBody_scanned hin hfit
    have hlen : (scanlineScan s c r).2.1.length ≤ s.width.toNat := length_sgiScan_le _ _ _
    have hout : ∀ a, a < sgiDst s c.toNat r.toNat ∨ sgiDst s c.toNat r.toNat + s.width.toNat ≤ a →
        Memory.read o a = Memory.read s.outMem a := fun a ha => hsame a (by omega)
    rw [hline]
    cases (scanlineScan s c r).1 with
    | none => exact ⟨_, rfl, hout⟩
    | some e => exact ⟨_, rfl, hout⟩
  · rw [sgiLineBody_eq hin, if_pos (not_le.1 hfit)]
    exact ⟨_, rfl, fun _ _ => rfl⟩

/-- Settles O39: the decoding of the scanline is indifferent to the other bytes of `IN`, and its scan has room for its
row only. -/
theorem sgiScanlineIsolation : Obligations.SgiScanlineIsolation := by
  rintro s c r off len dst m hs - htab hout hc hr rfl rfl rfl hagree
  have hin : ScanlineInside c r s := ⟨hs, ⟨htab, hout⟩, hc, hr⟩
  obtain ⟨t, ht, hsame⟩ := sgiLineBody_writes hin
  exact ⟨t, ht, (sgiLineBody_ignoresIn hin hagree).outcome ht, hsame⟩

end Sys2Proof.Machine
end

section
/-! PROOFS. The start of `HDR.RUN` (R256), the number format (R253, R254) and the path detection (R257). -/

namespace Sys2Proof.Machine

open Sys2Proof.Ref

-- One declaration after another: as tasks, each would hold a thread of its own.
set_option Elab.async false

variable {s : State}

/-! ### The start of a run -/

theorem hdrStart_of_misfit
    (h : ¬ (0 < s.width.toNat ∧ 0 < s.height.toNat ∧ 12 * (s.width.toNat * s.height.toNat) ≤ s.params.outSize)) :
    hdrStart s = raise .config s := by
  rw [hdrStart]
  split_ifs with hempty hsize
  · rfl
  · rfl
  · obtain ⟨hw, hh⟩ := not_or.1 hempty
    rw [not_lt, Nat.mul_assoc] at hsize
    exact absurd ⟨toNat_pos_of_ne hw, toNat_pos_of_ne hh, hsize⟩ h

/-- Settles O40: the two tests of R256 and the start behind them. -/
theorem hdrRunStarts : Obligations.HdrRunStarts := by
  intro s hs
  have hexec : exec .hdrRun s = (hdrStart s).outcome := congrArg Res.outcome (needInput_of_le s hdrStart hs)
  rw [hexec]
  refine ⟨fun ⟨hw, hh, hsize⟩ => ?_, fun hmisfit => ?_⟩
  · have hne {v : Word} (hv : 0 < v.toNat) : v ≠ 0#32 := by rintro rfl; simp at hv
    rw [hdrStart, if_neg (not_or.2 ⟨hne hw, hne hh⟩), if_neg (by rw [Nat.mul_assoc]; exact not_lt.2 hsize)]
    rfl
  · rw [hdrStart_of_misfit hmisfit]
    rfl

/-! ### The number format -/

/-- The pattern of a normal number (R253): the exponent field over the fraction. -/
theorem normalPattern_eq {x f : Nat} (hf : f < 2 ^ 23) (hx : x < 2 ^ 8) :
    (BitVec.ofNat 32 ((x <<< 23) ||| f)).toNat = 2 ^ 23 * x + f := by
  rw [← Nat.shiftLeft_add_eq_or_of_lt hf, Nat.shiftLeft_eq, BitVec.toNat_ofNat]
  omega

/-- A normal number of exponent field `x + 1` (R253). -/
theorem binary32Scaled_of_normal {w : Word} {x f : Nat} (hw : w.toNat = 2 ^ 23 * (x + 1) + f) (hf : f < 2 ^ 23)
    (hx : x + 1 < 255) : w.toNat < 2 ^ 31 ∧ w.toNat / 2 ^ 23 < 255 ∧ binary32Scaled w = (2 ^ 23 + f) * 2 ^ x := by
  have hexp : w.toNat / 2 ^ 23 % 256 = x + 1 := by omega
  have hfrac : w.toNat % 2 ^ 23 = f := by omega
  refine ⟨by omega, by omega, ?_⟩
  simp only [binary32Scaled, hexp, hfrac]
  rw [if_neg (Nat.succ_ne_zero x), Nat.add_sub_cancel]

/-- A subnormal number, or 0 (R253). -/
theorem binary32Scaled_of_subnormal {w : Word} (hw : w.toNat < 2 ^ 23) :
    w.toNat < 2 ^ 31 ∧ w.toNat / 2 ^ 23 < 255 ∧ binary32Scaled w = w.toNat := by
  refine ⟨by omega, by omega, ?_⟩
  simp only [binary32Scaled, Nat.div_eq_of_lt hw, Nat.mod_eq_of_lt hw]
  rfl

/-- The fraction of a mantissa whose highest one is bit `k`: the bits below it, moved up (R253). -/
theorem fraction_eq {m k : Nat} (hk : k ≤ 23) (hlo : 2 ^ k ≤ m) (hhi : m < 2 ^ (k + 1)) :
    2 ^ 23 + ((m <<< (23 - k)) &&& 0x7FFFFF) = m * 2 ^ (23 - k) := by
  have hpow : 2 ^ k * 2 ^ (23 - k) = 2 ^ 23 := by rw [← Nat.pow_add]; congr 1; omega
  have hlow : 2 ^ 23 ≤ m * 2 ^ (23 - k) := hpow.symm.le.trans (Nat.mul_le_mul_right _ hlo)
  have hhigh : m * 2 ^ (23 - k) < 2 ^ 24 := by
    calc m * 2 ^ (23 - k) < 2 ^ (k + 1) * 2 ^ (23 - k) := Nat.mul_lt_mul_of_pos_right hhi (Nat.two_pow_pos _)
      _ = 2 ^ 24 := by rw [Nat.pow_succ, Nat.mul_right_comm, hpow]; rfl
  rw [Nat.shiftLeft_eq, show 0x7FFFFF = 2 ^ 23 - 1 from rfl, Nat.and_two_pow_sub_one_eq_mod]
  omega

theorem f32_of_zero {m e : Byte} (h : e.toNat = 0 ∨ m.toNat = 0) : f32 m e = 0#32 := if_pos h

/-- A mantissa that the exponent byte leaves in the range of the normal numbers (R254). -/
theorem toNat_f32_normal {m e : Byte} {x : Nat} (h : ¬ (e.toNat = 0 ∨ m.toNat = 0))
    (hx : m.toNat.log2 + e.toNat = x + 10) (hlt : x < 2 ^ 8 - 1) :
    (f32 m e).toNat = 2 ^ 23 * (x + 1) + ((m.toNat <<< (23 - m.toNat.log2)) &&& 0x7FFFFF) := by
  rw [f32, if_neg h]
  dsimp only
  rw [if_pos (by omega), hx, show x + 10 - 9 = x + 1 by omega]
  exact normalPattern_eq (Nat.and_lt_two_pow _ (by simp)) (by omega)

/-- A mantissa that the exponent byte moves below the normal numbers (R254). -/
theorem toNat_f32_subnormal {m e : Byte} (h : ¬ (e.toNat = 0 ∨ m.toNat = 0)) (hx : ¬ 10 ≤ m.toNat.log2 + e.toNat)
    (hlt : m.toNat * 2 ^ (e.toNat + 13) < 2 ^ 23) : (f32 m e).toNat = m.toNat * 2 ^ (e.toNat + 13) := by
  rw [f32, if_neg h]
  dsimp only
  rw [if_neg hx, BitVec.toNat_ofNat, Nat.shiftLeft_eq]
  omega

/-- Settles O42: zero, a normal and a subnormal number. -/
theorem f32IsExact : Obligations.F32IsExact := by
  intro m e
  by_cases hzero : e.toNat = 0 ∨ m.toNat = 0
  · have hvalue : (if e.toNat = 0 then 0 else m.toNat * 2 ^ (e.toNat + 13)) = 0 := by
      rcases hzero with he | hm
      · rw [if_pos he]
      · rw [hm, Nat.zero_mul, ite_self]
    rw [f32_of_zero hzero, hvalue]
    exact binary32Scaled_of_subnormal (by simp)
  obtain ⟨he, hm⟩ := not_or.1 hzero
  have hlo : 2 ^ m.toNat.log2 ≤ m.toNat := Nat.log2_self_le hm
  have hhi : m.toNat < 2 ^ (m.toNat.log2 + 1) := Nat.lt_log2_self
  have hk : m.toNat.log2 < 8 := (Nat.log2_lt hm).2 m.isLt
  have hbyte := e.isLt
  rw [if_neg he]
  by_cases hnormal : 10 ≤ m.toNat.log2 + e.toNat
  · obtain ⟨x, hx⟩ : ∃ x, m.toNat.log2 + e.toNat = x + 10 := ⟨m.toNat.log2 + e.toNat - 10, by omega⟩
    obtain ⟨hsign, hfinite, hvalue⟩ := binary32Scaled_of_normal (toNat_f32_normal hzero hx (by omega))
      (Nat.and_lt_two_pow _ (by simp)) (by omega)
    refine ⟨hsign, hfinite, ?_⟩
    rw [hvalue, fraction_eq (by omega) hlo hhi, Nat.mul_assoc, ← Nat.pow_add]
    congr 2
    omega
  · have hlt : m.toNat * 2 ^ (e.toNat + 13) < 2 ^ 23 := by
      calc m.toNat * 2 ^ (e.toNat + 13)
        _ < 2 ^ (m.toNat.log2 + 1) * 2 ^ (e.toNat + 13) := Nat.mul_lt_mul_of_pos_right hhi (Nat.two_pow_pos _)
        _ = 2 ^ (m.toNat.log2 + 1 + (e.toNat + 13)) := (Nat.pow_add _ _ _).symm
        _ ≤ 2 ^ 23 := Nat.pow_le_pow_right (by simp) (by omega)
    have hpattern := toNat_f32_subnormal hzero hnormal hlt
    obtain ⟨hsign, hfinite, hvalue⟩ := binary32Scaled_of_subnormal (hpattern.trans_lt hlt)
    exact ⟨hsign, hfinite, hvalue.trans hpattern⟩

/-! ### The path -/

/-- The width in the last two bytes of a scanline header (R115). -/
def headerWidth (hi lo : Byte) : BitVec 15 := hi.extractLsb' 0 7 ++ lo

theorem toNat_headerWidth {hi : Byte} (lo : Byte) (h : hi.toNat < 128) :
    (headerWidth hi lo).toNat = 256 * hi.toNat + lo.toNat := by
  have hlo := lo.isLt
  rw [headerWidth, BitVec.toNat_append, BitVec.extractLsb'_toNat, ← Nat.shiftLeft_add_eq_or_of_lt lo.isLt,
    Nat.shiftLeft_eq, Nat.shiftRight_zero]
  omega

theorem topBit_eq_zero_iff (b : Byte) : b.extractLsb' 7 1 = 0#1 ↔ b.toNat < 128 := by
  have := b.isLt
  rw [← BitVec.toNat_inj, BitVec.extractLsb'_toNat, Nat.shiftRight_eq_div_pow]
  simp only [BitVec.toNat_ofNat]
  omega

theorem decodeHeader_of_header {h0 h1 hi : Byte} (lo : Byte) (h : h0 = 0x02#8 ∧ h1 = 0x02#8 ∧ hi.toNat < 128) :
    decodeHeader h0 h1 hi lo = .instr (.hdrHeader (headerWidth hi lo)) := by
  rw [← topBit_eq_zero_iff] at h
  exact if_pos h

theorem decodeHeader_of_other {h0 h1 hi : Byte} (lo : Byte) (h : ¬ (h0 = 0x02#8 ∧ h1 = 0x02#8 ∧ hi.toNat < 128)) :
    decodeHeader h0 h1 hi lo = .rejected .notAHeader := by
  rw [← topBit_eq_zero_iff] at h
  exact if_neg h

/-- What `DetectRle` finds at the cursor (R257). -/
theorem hdrrle_detectRle (s : State) : (detectRle s).hdrrle = true ↔
    8 ≤ s.width.toNat ∧ s.width.toNat ≤ 0x7FFF ∧ s.ipos.toNat + 4 ≤ s.inlen.toNat ∧
      Memory.read s.inMem s.ipos.toNat = 0x02#8 ∧ Memory.read s.inMem (s.ipos.toNat + 1) = 0x02#8 ∧
      (Memory.read s.inMem (s.ipos.toNat + 2)).toNat < 0x80 ∧
      256 * (Memory.read s.inMem (s.ipos.toNat + 2)).toNat + (Memory.read s.inMem (s.ipos.toNat + 3)).toNat =
        s.width.toNat := by
  by_cases hhead : Memory.read s.inMem s.ipos.toNat = 0x02#8 ∧ Memory.read s.inMem (s.ipos.toNat + 1) = 0x02#8 ∧
      (Memory.read s.inMem (s.ipos.toNat + 2)).toNat < 128
  · have hdec := decodeHeader_of_header (Memory.read s.inMem (s.ipos.toNat + 3)) hhead
    obtain ⟨h0, h1, hhi⟩ := hhead
    have hwidth := toNat_headerWidth (Memory.read s.inMem (s.ipos.toNat + 3)) hhi
    simp only [detectRle, Nat.add_zero, hdec, hwidth, Bool.and_eq_true, decide_eq_true_eq, and_assoc]
    simp only [h0, h1, hhi, true_and]
    rfl
  · have hdec := decodeHeader_of_other (Memory.read s.inMem (s.ipos.toNat + 3)) hhead
    simp only [detectRle, Nat.add_zero, hdec, Bool.and_false, Bool.false_eq_true, false_iff]
    rintro ⟨-, -, -, h0, h1, hhi, -⟩
    exact hhead ⟨h0, h1, hhi⟩

theorem engineStep_hdr (hunit : s.unit = .hdr) (habort : s.abort = false) :
    engineStep s = (hdrEngineStep s).outcome := by
  rw [engineStep, if_neg (by simp [habort]), unitStep, hunit]

/-- The first engine step begins with the detection, and it is then a later one (R257). -/
theorem hdrEngineStep_of_first (h : s.phase = 0#32) : hdrEngineStep s = hdrEngineStep (detectRle s) := by
  have hlater : ¬ (detectRle s).phase = 0#32 := show ¬ (1#32 : Word) = 0#32 by decide
  have hstart : (if s.phase = 0#32 then detectRle s else s) =
      if (detectRle s).phase = 0#32 then detectRle (detectRle s) else detectRle s := by rw [if_pos h, if_neg hlater]
  unfold hdrEngineStep
  rw [hstart]

/-- Settles O43: the first step is the step of the state in which the path has been detected. -/
theorem hdrFirstStepDetectsPath : Obligations.HdrFirstStepDetectsPath := by
  rintro s hi lo - hunit habort hphase rfl rfl
  have hdetect := congrArg (fun path : Bool => ({ s with phase := 1#32, hdrrle := path } : State))
    (Bool.eq_iff_iff.2 ((hdrrle_detectRle s).trans decide_eq_true_iff.symm))
  rw [engineStep_hdr hunit habort, hdrEngineStep_of_first hphase, ← hdetect]
  exact (engineStep_hdr (s := detectRle s) hunit habort).symm

end Sys2Proof.Machine
end

section
/-! PROOFS. The HDR engine step reads its bytes one after the other and writes 32-bit elements one after the other
(R252, R258). Here the stream is the list of its bytes, with the cursor where the rest of that list begins, and what
is written to `OUT` is a list of elements. The flat path (R258) is the first of the two said in these words. -/

namespace Sys2Proof.Machine

open Sys2Proof.Ref

-- One declaration after another: as tasks, each would hold a thread of its own.
set_option Elab.async false

variable {α : Type} {s t : State} {n x y : Nat} {b : Byte} {rest rest' : List Byte}

/-! ### The stream as the list of its bytes -/

/-- `s` with the cursor where `rest` are the bytes that are left of the stream (R27, R78). -/
def State.seek (s : State) (rest : List Byte) : State :=
  s.withIpos (s.ipos + BitVec.ofNat 32 ((streamTail s).length - rest.length))

theorem length_streamTail (s : State) : (streamTail s).length = s.inlen.toNat - s.ipos.toNat :=
  Memory.length_readAll _ _ _

theorem streamTail_withOut (s : State) (m : Memory 8) : streamTail (s.withOut m) = streamTail s := by
  unfold streamTail; rfl

theorem streamTail_withScan (s : State) (m : Memory 8) : streamTail (s.withScan m) = streamTail s := by
  unfold streamTail; rfl

theorem streamTail_withLoc (s : State) (l : Locals) : streamTail (s.withLoc l) = streamTail s := by
  unfold streamTail; rfl

theorem streamTail_seek (h : rest <:+ streamTail s) : streamTail (s.seek rest) = rest := by
  have hlen := length_streamTail s
  have hin := s.inlen.isLt
  have hpos : (s.seek rest).ipos.toNat = s.ipos.toNat + ((streamTail s).length - rest.length) := by
    rw [State.seek, State.withIpos_ipos, BitVec.toNat_add, BitVec.toNat_ofNat]
    omega
  have htail : streamTail (s.seek rest) = (streamTail s).drop ((streamTail s).length - rest.length) := by
    rw [streamTail, hpos, streamTail, Memory.readAll_drop, Nat.sub_add_eq]
    rfl
  rw [htail, ← List.suffix_iff_eq_drop.1 h]

theorem seek_streamTail (s : State) : s.seek (streamTail s) = s := by
  rw [State.seek, Nat.sub_self, withIpos_self]

theorem seek_seek (h : rest <:+ streamTail s) (h' : rest' <:+ rest) : (s.seek rest).seek rest' = s.seek rest' := by
  have hlen := h.length_le
  have hlen' := h'.length_le
  have hsum : (streamTail s).length - rest'.length =
      (streamTail s).length - rest.length + (rest.length - rest'.length) := by omega
  rw [State.seek, streamTail_seek h, State.seek, State.seek, State.withIpos_ipos, BitVec.add_assoc,
    ← BitVec.ofNat_add, ← hsum]
  rfl

theorem fetchByte_of_cons (hs : StreamOk s) (h : streamTail s = b :: rest) : fetchByte s = .ok b (s.seek rest) := by
  have hlen : s.inlen.toNat - s.ipos.toNat = rest.length + 1 := by rw [← length_streamTail, h, List.length_cons]
  have hbyte : Memory.read s.inMem s.ipos.toNat = b := by
    rw [streamTail, hlen, Memory.readAll] at h
    exact (List.cons.inj h).1
  rw [fetchByte_of_lt (by omega) hs, hbyte, State.seek, h, List.length_cons, Nat.add_sub_cancel_left]

theorem fetchByte_of_nil (h : streamTail s = []) : fetchByte s = .raised ((s.seek []).raise .eos) := by
  have hlen := length_streamTail s
  rw [h, List.length_nil] at hlen
  rw [fetchByte_of_le (by omega), ← h, seek_streamTail]

/-- `n` bytes fetched one after the other (R78), and what is then done with them. -/
def fetchMany : Nat → (List Byte → State → Res α) → State → Res α
  | 0, k, s => k [] s
  | n + 1, k, s => (fetchByte s).bind fun b s => fetchMany n (fun bs => k (b :: bs)) s

theorem fetchMany_of_le {k : List Byte → State → Res α} (hs : StreamOk s) (h : n ≤ (streamTail s).length) :
    fetchMany n k s = k ((streamTail s).take n) (s.seek ((streamTail s).drop n)) := by
  induction n generalizing s k with
  | zero => rw [List.drop_zero, seek_streamTail]; rfl
  | succ n ih =>
    obtain ⟨b, rest, htail⟩ := List.exists_cons_of_length_pos (Nat.zero_lt_of_lt h)
    have hsuffix : rest <:+ streamTail s := htail ▸ List.suffix_cons b rest
    have hrest := streamTail_seek hsuffix
    rw [htail, List.length_cons] at h
    rw [fetchMany, fetchByte_of_cons hs htail, Res.bind_ok, ih (s := s.seek rest) hs (by rw [hrest]; omega), hrest,
      htail, seek_seek hsuffix (List.drop_suffix n rest)]
    rfl

theorem fetchMany_of_short {k : List Byte → State → Res α} (hs : StreamOk s) (h : (streamTail s).length < n) :
    fetchMany n k s = .raised ((s.seek []).raise .eos) := by
  induction n generalizing s k with
  | zero => exact absurd h (Nat.not_lt_zero _)
  | succ n ih =>
    cases htail : streamTail s with
    | nil => rw [fetchMany, fetchByte_of_nil htail, Res.bind_raised]
    | cons b rest =>
      have hsuffix : rest <:+ streamTail s := htail ▸ List.suffix_cons b rest
      rw [htail, List.length_cons] at h
      rw [fetchMany, fetchByte_of_cons hs htail, Res.bind_ok,
        ih (s := s.seek rest) hs (by rw [streamTail_seek hsuffix]; omega), seek_seek hsuffix List.nil_suffix]

/-! ### Elements of `OUT` -/

/-- The bytes of a 32-bit element, little-endian (R76). -/
def wordBytes (v : Word) : List Byte :=
  [v.extractLsb' 0 8, v.extractLsb' 8 8, v.extractLsb' 16 8, v.extractLsb' 24 8]

/-- 32-bit elements written one after the other from element `i` on (R76). -/
def writeElements (m : Memory 8) (i : Nat) : List Word → Memory 8
  | [] => m
  | v :: es => writeElements (Memory.writeAll m (4 * i) (wordBytes v)) (i + 1) es

theorem writeElements_append (m : Memory 8) (i : Nat) (es fs : List Word) :
    writeElements m i (es ++ fs) = writeElements (writeElements m i es) (i + es.length) fs := by
  induction es generalizing m i with
  | nil => rfl
  | cons v es ih =>
    rw [List.cons_append, writeElements, ih, writeElements, List.length_cons, Nat.add_assoc, Nat.add_comm 1]

theorem toNat_wordBytes (v : Word) : (v.extractLsb' 0 8).toNat + 256 * (v.extractLsb' 8 8).toNat +
    65536 * (v.extractLsb' 16 8).toNat + 16777216 * (v.extractLsb' 24 8).toNat = v.toNat := by
  have := v.isLt
  simp only [BitVec.extractLsb'_toNat, Nat.shiftRight_eq_div_pow]
  omega

theorem element32_writeAll (m : Memory 8) (i : Nat) (v : Word) :
    element32 (Memory.writeAll m (4 * i) (wordBytes v)) i = v.toNat := by
  rw [← toNat_wordBytes v]
  simp [element32, Memory.read_writeAll, wordBytes]

/-- The elements read back, and the bytes beside them (R252). -/
theorem elementsWritten_writeElements (m : Memory 8) (i : Nat) (es : List Word) :
    ElementsWritten m (writeElements m i es) i es := by
  induction es generalizing m i with
  | nil => exact ⟨fun _ hk => absurd hk (Nat.not_lt_zero _), fun _ _ => rfl⟩
  | cons v es ih =>
    obtain ⟨hnew, hold⟩ := ih (Memory.writeAll m (4 * i) (wordBytes v)) (i + 1)
    refine ⟨fun k hk => ?_, fun b hb => ?_⟩
    · cases k with
      | zero =>
        rw [Nat.add_zero, List.getD_cons_zero, ← element32_writeAll m i v]
        simp only [element32, writeElements]
        rw [hold _ (by omega), hold _ (by omega), hold _ (by omega), hold _ (by omega)]
      | succ k =>
        rw [List.getD_cons_succ, ← hnew k (Nat.lt_of_succ_lt_succ hk), Nat.add_right_comm, Nat.add_assoc]
        rfl
    · rw [List.length_cons] at hb
      have hlen : (wordBytes v).length = 4 := rfl
      rw [writeElements, hold b (by omega), Memory.read_writeAll, if_neg (by omega)]

theorem withOut_withOut (s : State) (m m' : Memory 8) : (s.withOut m).withOut m' = s.withOut m' := rfl

/-- Three elements written one after the other, inside `OUT`. -/
theorem out32Write_three {i : Nat} (v₀ v₁ v₂ : Word) (h : 4 * (i + 2) + 3 < s.params.outSize) :
    ((out32Write i v₀ s).bind fun _ s => (out32Write (i + 1) v₁ s).bind fun _ s => out32Write (i + 2) v₂ s) =
      .ok () (s.withOut (writeElements s.outMem i [v₀, v₁, v₂])) := by
  rw [out32Write_of_lt v₀ (by omega), Res.bind_ok, out32Write_of_lt v₁ (by rw [State.withOut_params]; omega),
    Res.bind_ok, out32Write_of_lt v₂ (by rw [State.withOut_params]; exact h), withOut_withOut, withOut_withOut,
    State.withOut_outMem, State.withOut_outMem]
  rfl

/-- `PutRgbe` inside `OUT` (R255). -/
theorem putRgbe_of_lt (r g b e : Byte) (h : 4 * ((y * s.width.toNat + x) * 3 + 2) + 3 < s.params.outSize) :
    putRgbe y x r g b e s = .ok ()
      (s.withOut (writeElements s.outMem ((y * s.width.toNat + x) * 3) [f32 r e, f32 g e, f32 b e])) :=
  out32Write_three _ _ _ h

/-! ### A row of pixels -/

/-- `s` with the first `n` pixels of row `y` written, of the components `r`, `g`, `b` and the exponents `e` (R252). -/
def State.withColumns (s : State) (y n : Nat) (r g b e : List Byte) : State :=
  s.withOut (writeElements s.outMem (y * s.width.toNat * 3) (scanlineElements n r g b e))

section Columns
variable (r g b e : List Byte)

theorem withColumns_height (s : State) (y n : Nat) : (s.withColumns y n r g b e).height = s.height := rfl

theorem withColumns_st (s : State) (y n : Nat) : (s.withColumns y n r g b e).st = s.st := rfl

theorem scanlineElements_succ (n : Nat) : scanlineElements (n + 1) r g b e = scanlineElements n r g b e ++
    [f32 (r.getD n 0#8) (e.getD n 0#8), f32 (g.getD n 0#8) (e.getD n 0#8), f32 (b.getD n 0#8) (e.getD n 0#8)] := by
  rw [scanlineElements, List.range_succ, List.flatMap_append, List.flatMap_singleton]
  rfl

theorem length_scanlineElements (n : Nat) : (scanlineElements n r g b e).length = 3 * n := by
  induction n with
  | zero => rfl
  | succ n ih => rw [scanlineElements_succ, List.length_append, ih]; rfl

/-- The next pixel of the row (R255). -/
theorem putRgbe_withColumns (hs : RowSafe y s.width.toNat s) (hn : n < s.width.toNat) :
    putRgbe y n (r.getD n 0#8) (g.getD n 0#8) (b.getD n 0#8) (e.getD n 0#8) (s.withColumns y n r g b e) =
      .ok () (s.withColumns y (n + 1) r g b e) := by
  have helement : (y * s.width.toNat + n) * 3 = y * s.width.toNat * 3 + (scanlineElements n r g b e).length := by
    rw [length_scanlineElements, Nat.add_mul, Nat.mul_comm 3]
  rw [putRgbe_of_lt (s := s.withColumns y n r g b e) _ _ _ _ (hs.pixel_lt hn), State.withColumns, State.withColumns,
    State.withOut_width, State.withOut_outMem, helement, ← writeElements_append, ← scanlineElements_succ]
  rfl

end Columns

/-! ### The engine step -/

/-- Where the run goes from the scanline of row `y` (R258). -/
def hdrNextRow (y : Word) (t : State) : State :=
  if y + 1#32 = t.height then { t with row := y + 1#32, st := .done } else { t with row := y + 1#32 }

theorem hdrEngineStep_of_later (h : s.phase = 1#32) :
    hdrEngineStep s = (if s.hdrrle = true then rleScanline s.row.toNat s
      else flatLoop s.width.toNat s.row.toNat 0 s).bind fun _ t => .ok () (hdrNextRow s.row t) := by
  have hlater : (if s.phase = 0#32 then detectRle s else s) = s := if_neg (by rw [h]; decide)
  unfold hdrEngineStep
  rw [hlater]
  refine congrArg (Res.bind _) (funext fun _ => funext fun t => ?_)
  dsimp only
  rw [hdrNextRow]
  split_ifs <;> rfl

theorem hdrNextRow_eq (hheight : t.height = s.height) (hrow : s.row.toNat < s.height.toNat) (hb : t.st = .busy) :
    hdrNextRow s.row t =
      { t with row := s.row + 1#32, st := if s.row.toNat + 1 = s.height.toNat then .done else .busy } := by
  have hlast : s.row + 1#32 = t.height ↔ s.row.toNat + 1 = s.height.toNat := by
    rw [hheight, ← BitVec.toNat_inj, toNat_succ_of_lt hrow s.height.isLt]
  simp only [hdrNextRow, hlast]
  split_ifs
  · rfl
  · rw [← hb]

/-! ### The flat path -/

/-- The four components of the pixels that lie in the stream (R258). -/
def FlatComponents (s : State) (c : Nat → List Byte) : Prop :=
  ∀ k j, j < 4 → 4 * k + j < (streamTail s).length → k < s.width.toNat →
    (c j).getD k 0#8 = (streamTail s).getD (4 * k + j) 0#8

theorem flatComponents_of_bytes {c : Nat → List Byte}
    (hc : ∀ j, c j = (List.range s.width.toNat).map fun k => Memory.read s.inMem (s.ipos.toNat + 4 * k + j)) :
    FlatComponents s c := by
  intro k j _ hin hk
  rw [length_streamTail] at hin
  rw [hc, streamTail, Memory.getD_readAll _ _ _ _ _ hin, List.getD_eq_getElem _ _ (by simpa using hk)]
  simp [Nat.add_assoc]

/-- The flat path behind its first `n` pixels. -/
def flatDone (s : State) (y n : Nat) (c : Nat → List Byte) : State :=
  (s.seek ((streamTail s).drop (4 * n))).withColumns y n (c 0) (c 1) (c 2) (c 3)

theorem streamTail_flatDone (s : State) (y n : Nat) (c : Nat → List Byte) :
    streamTail (flatDone s y n c) = (streamTail s).drop (4 * n) := by
  rw [flatDone, State.withColumns, streamTail_withOut, streamTail_seek (List.drop_suffix _ _)]

theorem flatLoop_succ (n y x : Nat) (s : State) : flatLoop (n + 1) y x s =
    fetchMany 4 (fun bs s => (putRgbe y x (bs.getD 0 0#8) (bs.getD 1 0#8) (bs.getD 2 0#8) (bs.getD 3 0#8) s).bind
      fun _ => flatLoop n y (x + 1)) s := rfl

section Flat
variable {c : Nat → List Byte} (hs : RowSafe y s.width.toNat s)
include hs

/-- One pixel (R258). -/
theorem flatLoop_pixel (hc : FlatComponents s c) (hn : n < s.width.toNat)
    (hin : 4 * (n + 1) ≤ (streamTail s).length) (left : Nat) :
    flatLoop (left + 1) y n (flatDone s y n c) = flatLoop left y (n + 1) (flatDone s y (n + 1) c) := by
  have htail := streamTail_flatDone s y n c
  have hbyte {j : Nat} (hj : j < 4) : ((streamTail (flatDone s y n c)).take 4).getD j 0#8 = (c j).getD n 0#8 := by
    rw [hc n j hj (by omega) hn, htail]
    simp [List.getD_eq_getElem?_getD, hj]
  have hseek : (flatDone s y n c).seek ((streamTail (flatDone s y n c)).drop 4) =
      (s.seek ((streamTail s).drop (4 * (n + 1)))).withColumns y n (c 0) (c 1) (c 2) (c 3) := by
    rw [htail, List.drop_drop, ← seek_seek (List.drop_suffix (4 * n) _) (List.drop_suffix_drop_left _ (by omega))]
    rfl
  rw [flatLoop_succ, fetchMany_of_le (s := flatDone s y n c) hs.1 (by rw [htail, List.length_drop]; omega), hseek,
    hbyte (by simp), hbyte (by simp), hbyte (by simp), hbyte (by simp), putRgbe_withColumns (s := s.seek _) _ _ _ _ hs hn]
  rfl

/-- The pixels that lie whole in the stream (R258). -/
theorem flatLoop_add (hc : FlatComponents s c) (hn : n ≤ s.width.toNat) (hin : 4 * n ≤ (streamTail s).length)
    (left : Nat) : flatLoop (n + left) y 0 s = flatLoop left y n (flatDone s y n c) := by
  induction n generalizing left with
  | zero => rw [Nat.zero_add, flatDone, List.drop_zero, seek_streamTail]; rfl
  | succ n ih => rw [Nat.add_right_comm, Nat.add_assoc, ih (by omega) (by omega), flatLoop_pixel hs hc hn hin]

theorem flatLoop_of_le (hc : FlatComponents s c) (hin : 4 * s.width.toNat ≤ (streamTail s).length) :
    flatLoop s.width.toNat y 0 s = .ok () (flatDone s y s.width.toNat c) :=
  flatLoop_add hs hc le_rfl hin 0

theorem flatLoop_of_short (hc : FlatComponents s c) (hcut : (streamTail s).length < 4 * s.width.toNat) :
    flatLoop s.width.toNat y 0 s = .raised
      (((s.seek []).withColumns y ((streamTail s).length / 4) (c 0) (c 1) (c 2) (c 3)).raise .eos) := by
  obtain ⟨left, hleft⟩ : ∃ left, s.width.toNat = (streamTail s).length / 4 + (left + 1) :=
    ⟨s.width.toNat - (streamTail s).length / 4 - 1, by omega⟩
  have hseek := seek_seek (s := s) (List.drop_suffix (4 * ((streamTail s).length / 4)) _) List.nil_suffix
  rw [hleft, flatLoop_add hs hc (by omega) (by omega), flatLoop_succ,
    fetchMany_of_short (s := flatDone s y _ c) hs.1 (by rw [streamTail_flatDone, List.length_drop]; omega), ← hseek]
  rfl

end Flat

theorem hdrEngineStep_flat (hphase : s.phase = 1#32) (hpath : s.hdrrle = false) :
    hdrEngineStep s = (flatLoop s.width.toNat s.row.toNat 0 s).bind fun _ t => .ok () (hdrNextRow s.row t) := by
  rw [hdrEngineStep_of_later hphase, if_neg (by simp [hpath])]

/-- Settles O44: all pixels of the row, and those that lie whole in a stream that ends before. -/
theorem hdrFlatScanline : Obligations.HdrFlatScanline := by
  intro s component hstream hb hunit habort hphase hpath hrow hsize hcomponent
  have hs : RowSafe s.row.toNat s.width.toNat s := ⟨hstream, hsize, hrow, le_rfl⟩
  have hc := flatComponents_of_bytes hcomponent
  have hlen := length_streamTail s
  rw [engineStep_hdr hunit habort, hdrEngineStep_flat hphase hpath]
  refine ⟨fun hin => ?_, fun hcut => ?_⟩
  · have htail : (streamTail s).length - ((streamTail s).drop (4 * s.width.toNat)).length = 4 * s.width.toNat := by
      rw [List.length_drop]
      omega
    rw [flatLoop_of_le hs hc (by omega), Res.bind_ok,
      hdrNextRow_eq (s := s) (t := flatDone s _ _ component) (withColumns_height _ _ _ _ _ _ _) hrow
        ((withColumns_st _ _ _ _ _ _ _).trans hb)]
    refine ⟨_, rfl, ?_, elementsWritten_writeElements _ _ _⟩
    rw [flatDone, State.seek, htail]
    rfl
  · rw [flatLoop_of_short hs hc hcut]
    exact ⟨_, rfl, rfl, elementsWritten_writeElements _ _ _⟩

end Sys2Proof.Machine
end

section
/-! PROOFS. The planes of the run-length path of `HDR.RUN` (R258 to R261): the run of one control byte is a function of
the bytes left and of the room left, to which both the references of the statements and the machine are tied; one plane
and the planes of a scanline follow by induction. -/

namespace Sys2Proof.Machine

open Sys2Proof.Ref

-- One declaration after another: as tasks, each would hold a thread of its own.
set_option Elab.async false

variable {α β : Type} {s t u : State} {e : ErrCode} {v : Byte} {fuel room n p x y : Nat}
  {bs bytes rest rest' : List Byte}

/-! ### One control byte of a plane -/

/-- What a control byte leads to: an error and the bytes left there, or the bytes of the run and those behind it. -/
abbrev PlaneRun := (ErrCode × List Byte) ⊕ (List Byte × List Byte)

/-- The run of the next control byte, where the plane has `room` places left (R116, R259 to R261). -/
def planeRun (room : Nat) : List Byte → PlaneRun
  | [] => .inl (.eos, [])
  | ctl :: rest =>
    if ctl = 0#8 then .inl (.corrupt, rest)
    else if 128 < ctl.toNat then
      if room < ctl.toNat - 128 then .inl (.overflow, rest)
      else
        match rest with
        | [] => .inl (.eos, [])
        | v :: rest => .inr (List.replicate (ctl.toNat - 128) v, rest)
    else if room < ctl.toNat then .inl (.overflow, rest)
    else if rest.length < ctl.toNat then .inl (.eos, [])
    else .inr (rest.take ctl.toNat, rest.drop ctl.toNat)

theorem hdrPlane_full (fuel : Nat) (bytes : List Byte) : hdrPlane fuel bytes 0 = some ([], bytes) := by
  cases fuel <;> rfl

theorem hdrPlaneFault_full (fuel : Nat) (bytes : List Byte) : hdrPlaneFault fuel bytes 0 = none := by
  cases fuel <;> rfl

theorem hdrPlane_succ (fuel : Nat) (bytes : List Byte) (hroom : room ≠ 0) : hdrPlane (fuel + 1) bytes room =
    (planeRun room bytes).elim (fun _ => none) fun r =>
      (hdrPlane fuel r.2 (room - r.1.length)).map fun q => (r.1 ++ q.1, q.2) := by
  rw [hdrPlane.eq_def]
  dsimp only
  rw [if_neg hroom]
  cases bytes with
  | nil => rfl
  | cons ctl rest =>
    dsimp only [planeRun]
    by_cases hzero : ctl = 0#8
    · rw [if_pos hzero, if_pos hzero]; rfl
    rw [if_neg hzero, if_neg hzero]
    by_cases hrepeat : 128 < ctl.toNat
    · rw [if_pos hrepeat, if_pos hrepeat]
      cases rest with
      | nil => split_ifs <;> rfl
      | cons v rest =>
        dsimp only
        split_ifs
        · rfl
        · rw [Sum.elim_inr, List.length_replicate]
    · rw [if_neg hrepeat, if_neg hrepeat]
      by_cases hfit : room < ctl.toNat
      · rw [if_pos (.inl hfit), if_pos hfit]; rfl
      by_cases hcut : rest.length < ctl.toNat
      · rw [if_pos (.inr hcut), if_neg hfit, if_pos hcut]; rfl
      · rw [if_neg (not_or.2 ⟨hfit, hcut⟩), if_neg hfit, if_neg hcut, Sum.elim_inr,
          List.length_take_of_le (not_lt.1 hcut)]

theorem hdrPlaneFault_succ (fuel : Nat) (bytes : List Byte) (hroom : room ≠ 0) : hdrPlaneFault (fuel + 1) bytes room =
    (planeRun room bytes).elim some fun r => hdrPlaneFault fuel r.2 (room - r.1.length) := by
  rw [hdrPlaneFault.eq_def]
  dsimp only
  rw [if_neg hroom]
  cases bytes with
  | nil => rfl
  | cons ctl rest =>
    dsimp only [planeRun]
    split_ifs with hzero hrepeat hfit hfit hcut
    · rfl
    · rfl
    · cases rest with
      | nil => rfl
      | cons v rest => rw [Sum.elim_inr, List.length_replicate]
    · rfl
    · rfl
    · rw [Sum.elim_inr, List.length_take_of_le (not_lt.1 hcut)]

/-- A run has a byte at least and no more than there is room for (R259, R260). -/
theorem run_of_planeRun_inr (h : planeRun room bytes = .inr (bs, rest)) :
    rest <:+ bytes ∧ 0 < bs.length ∧ bs.length ≤ room := by
  cases bytes with
  | nil => cases h
  | cons ctl tail =>
    dsimp only [planeRun] at h
    split_ifs at h with hzero hrepeat hfit hfit hcut
    · cases tail with
      | nil => cases h
      | cons v tail =>
        obtain ⟨rfl, rfl⟩ := Prod.mk.inj (Sum.inr.inj h)
        rw [List.length_replicate]
        exact ⟨(List.suffix_cons _ _).trans (List.suffix_cons _ _), by omega, not_lt.1 hfit⟩
    · have hpos : ctl.toNat ≠ 0 := fun h0 => hzero (BitVec.eq_of_toNat_eq h0)
      obtain ⟨rfl, rfl⟩ := Prod.mk.inj (Sum.inr.inj h)
      rw [List.length_take_of_le (not_lt.1 hcut)]
      exact ⟨(List.drop_suffix _ _).trans (List.suffix_cons _ _), Nat.pos_of_ne_zero hpos, not_lt.1 hfit⟩

/-- A plane that is decoded is full (R258). -/
theorem length_of_hdrPlane (hroom : room ≤ fuel) (h : hdrPlane fuel bytes room = some (bs, rest)) :
    bs.length = room := by
  induction fuel generalizing bytes room bs with
  | zero => cases h; exact (Nat.le_zero.1 hroom).symm
  | succ fuel ih =>
    by_cases hzero : room = 0
    · rw [hzero, hdrPlane_full] at h
      cases h
      exact hzero.symm
    · rw [hdrPlane_succ fuel bytes hzero] at h
      cases hrun : planeRun room bytes with
      | inl r => rw [hrun] at h; cases h
      | inr r =>
        obtain ⟨-, hpos, hle⟩ := run_of_planeRun_inr hrun
        rw [hrun, Sum.elim_inr] at h
        obtain ⟨q, hq, hbs⟩ := Option.map_eq_some_iff.1 h
        cases hbs
        rw [List.length_append, ih (by omega) hq]
        omega

/-! ### Runs in `SCAN` -/

theorem Memory.writeAll_append {w : Nat} (m : Memory w) (a : Nat) (vs ws : List (BitVec w)) :
    Memory.writeAll m a (vs ++ ws) = Memory.writeAll (Memory.writeAll m a vs) (a + vs.length) ws := by
  induction vs generalizing m a with
  | nil => rfl
  | cons v vs ih =>
    rw [List.cons_append, Memory.writeAll, ih, Memory.writeAll, List.length_cons, Nat.add_assoc, Nat.add_comm 1]

/-- The repeated byte of a plane (R259), where the plane has room for it. -/
theorem scanFill_of_fits (n : Nat) (v : Byte) (hp : p < 4) (hx : x + n ≤ 0x7FFF) :
    scanFill n v p x s = .ok () (s.withScan (Memory.writeAll s.scan (scanKey p x) (List.replicate n v))) := by
  induction n generalizing x s with
  | zero => rfl
  | succ n ih => rw [scanFill, scanWrite_of_lt v hp (by omega), Res.bind_ok, ih (by omega)]; rfl

/-- The literals of a plane (R260), where the plane has room for them and the stream has them. -/
theorem scanLiterals_of_le (hs : StreamOk s) (hp : p < 4) (hx : x + n ≤ 0x7FFF) (hn : n ≤ (streamTail s).length) :
    scanLiterals n p x s = .ok () ((s.seek ((streamTail s).drop n)).withScan
      (Memory.writeAll s.scan (scanKey p x) ((streamTail s).take n))) := by
  induction n generalizing x s with
  | zero => rw [List.drop_zero, seek_streamTail]; rfl
  | succ n ih =>
    obtain ⟨b, rest, htail⟩ := List.exists_cons_of_length_pos (Nat.zero_lt_of_lt hn)
    have hsuffix : rest <:+ streamTail s := htail ▸ List.suffix_cons b rest
    have hrest : streamTail ((s.seek rest).withScan (Memory.write (s.seek rest).scan (scanKey p x) b)) = rest :=
      (streamTail_withScan _ _).trans (streamTail_seek hsuffix)
    rw [htail, List.length_cons] at hn
    rw [scanLiterals, fetchByte_of_cons hs htail, Res.bind_ok, scanWrite_of_lt b hp (by omega), Res.bind_ok,
      ih (s := (s.seek rest).withScan (Memory.write (s.seek rest).scan (scanKey p x) b)) hs (by omega)
        (by rw [hrest]; omega), hrest, htail, List.drop_succ_cons, ← seek_seek hsuffix (List.drop_suffix n rest)]
    rfl

/-- The literals of a plane where the stream ends between them (R260). -/
theorem scanLiterals_of_short (hs : StreamOk s) (hp : p < 4) (hx : x + n ≤ 0x7FFF) (hn : (streamTail s).length < n) :
    scanLiterals n p x s = .raised (((s.seek []).withScan
      (Memory.writeAll s.scan (scanKey p x) (streamTail s))).raise .eos) := by
  induction n generalizing x s with
  | zero => exact absurd hn (Nat.not_lt_zero _)
  | succ n ih =>
    cases htail : streamTail s with
    | nil => rw [scanLiterals, fetchByte_of_nil htail]; rfl
    | cons b rest =>
      have hsuffix : rest <:+ streamTail s := htail ▸ List.suffix_cons b rest
      have hrest : streamTail ((s.seek rest).withScan (Memory.write (s.seek rest).scan (scanKey p x) b)) = rest :=
        (streamTail_withScan _ _).trans (streamTail_seek hsuffix)
      rw [htail, List.length_cons] at hn
      rw [scanLiterals, fetchByte_of_cons hs htail, Res.bind_ok, scanWrite_of_lt b hp (by omega), Res.bind_ok,
        ih (s := (s.seek rest).withScan (Memory.write (s.seek rest).scan (scanKey p x) b)) hs (by omega)
          (by rw [hrest]; omega), hrest, ← seek_seek hsuffix List.nil_suffix]
      rfl

/-! ### One control byte of the machine -/

/-- A plane in progress whose row `SCAN` has room for (R53, R258). -/
structure PlaneReady (s : State) : Prop where
  stream : StreamOk s
  inside : s.loc.planeX ≤ s.width.toNat
  room : s.width.toNat ≤ 0x7FFF
  plane : s.loc.plane < 4

/-- The plane moved on by the run `bs`, with `rest` left of the stream (R259, R260). -/
def State.planeAdvance (s : State) (rest bs : List Byte) : State :=
  ((s.seek rest).withScan (Memory.writeAll s.scan (scanKey s.loc.plane s.loc.planeX) bs)).withLoc
    { s.loc with planeX := s.loc.planeX + bs.length }

theorem planeAdvance_nil (s : State) : s.planeAdvance (streamTail s) [] = s := by
  rw [State.planeAdvance, seek_streamTail]; rfl

theorem streamTail_planeAdvance (h : rest <:+ streamTail s) (bs : List Byte) :
    streamTail (s.planeAdvance rest bs) = rest := by
  rw [State.planeAdvance, streamTail_withLoc, streamTail_withScan, streamTail_seek h]

theorem planeAdvance_planeAdvance (h : rest <:+ streamTail s) (h' : rest' <:+ rest) (bs bs' : List Byte) :
    (s.planeAdvance rest bs).planeAdvance rest' bs' = s.planeAdvance rest' (bs ++ bs') := by
  have hkey : scanKey s.loc.plane (s.loc.planeX + bs.length) = scanKey s.loc.plane s.loc.planeX + bs.length :=
    (Nat.add_assoc _ _ _).symm
  conv_rhs =>
    rw [State.planeAdvance, List.length_append, Memory.writeAll_append, ← hkey, ← Nat.add_assoc, ← seek_seek h h']
  rfl

theorem seek_planeAdvance (h : rest <:+ streamTail s) (h' : rest' <:+ rest) (bs : List Byte) :
    (s.seek rest).planeAdvance rest' bs = s.planeAdvance rest' bs := by
  rw [State.planeAdvance, seek_seek h h']
  rfl

theorem PlaneReady.seek (hs : PlaneReady s) (rest : List Byte) : PlaneReady (s.seek rest) :=
  ⟨hs.stream, hs.inside, hs.room, hs.plane⟩

theorem PlaneReady.advance (hs : PlaneReady s) (h : bs.length ≤ s.width.toNat - s.loc.planeX) :
    PlaneReady (s.planeAdvance rest bs) :=
  ⟨hs.stream, show s.loc.planeX + bs.length ≤ s.width.toNat by have := hs.inside; omega, hs.room, hs.plane⟩

theorem hdrRepeatBody_overflow {count : BitVec 7} (h : s.width.toNat < s.loc.planeX + count.toNat) :
    hdrRepeatBody count s = raise .overflow s := if_pos h

theorem hdrRepeatBody_cut {count : BitVec 7} (hroom : s.loc.planeX + count.toNat ≤ s.width.toNat)
    (h : streamTail s = []) : hdrRepeatBody count s = .raised ((s.seek []).raise .eos) := by
  rw [hdrRepeatBody, if_neg (not_lt.2 hroom), fetchByte_of_nil h, Res.bind_raised]

/-- A repeat run (R259). -/
theorem hdrRepeatBody_of_fits {count : BitVec 7} (hs : PlaneReady s)
    (hroom : s.loc.planeX + count.toNat ≤ s.width.toNat) (h : streamTail s = v :: rest) :
    hdrRepeatBody count s = .ok () (s.planeAdvance rest (List.replicate count.toNat v)) := by
  have hwidth := hs.room
  rw [hdrRepeatBody, if_neg (not_lt.2 hroom), fetchByte_of_cons hs.stream h, Res.bind_ok]
  show (scanFill count.toNat v s.loc.plane s.loc.planeX (s.seek rest)).bind _ = _
  rw [scanFill_of_fits (s := s.seek rest) (p := s.loc.plane) _ v hs.plane (by omega), Res.bind_ok, State.planeAdvance,
    List.length_replicate]
  rfl

theorem hdrLiteralBody_overflow {count : BitVec 8} (h : s.width.toNat < s.loc.planeX + count.toNat) :
    hdrLiteralBody count s = raise .overflow s := if_pos h

theorem hdrLiteralBody_cut {count : BitVec 8} (hs : PlaneReady s)
    (hroom : s.loc.planeX + count.toNat ≤ s.width.toNat) (h : (streamTail s).length < count.toNat) :
    hdrLiteralBody count s = .raised (((s.seek []).withScan
      (Memory.writeAll s.scan (scanKey s.loc.plane s.loc.planeX) (streamTail s))).raise .eos) := by
  have hwidth := hs.room
  rw [hdrLiteralBody, if_neg (not_lt.2 hroom), scanLiterals_of_short hs.stream hs.plane (by omega) h, Res.bind_raised]

/-- A literal run (R260). -/
theorem hdrLiteralBody_of_fits {count : BitVec 8} (hs : PlaneReady s)
    (hroom : s.loc.planeX + count.toNat ≤ s.width.toNat) (h : count.toNat ≤ (streamTail s).length) :
    hdrLiteralBody count s =
      .ok () (s.planeAdvance ((streamTail s).drop count.toNat) ((streamTail s).take count.toNat)) := by
  have hwidth := hs.room
  rw [hdrLiteralBody, if_neg (not_lt.2 hroom), scanLiterals_of_le hs.stream hs.plane (by omega) h, Res.bind_ok,
    State.planeAdvance, List.length_take_of_le h]
  rfl

/-- From `s` to `t` the stream has been read to where `rest` is left of it, and beside the cursor only `SCAN` and the
locals have changed. -/
def ReadsTo (s t : State) (rest : List Byte) : Prop :=
  rest <:+ streamTail s ∧ ∃ m l, t = ((s.seek rest).withScan m).withLoc l

theorem readsTo_withScan (h : rest <:+ streamTail s) (m : Memory 8) : ReadsTo s ((s.seek rest).withScan m) rest :=
  ⟨h, m, s.loc, rfl⟩

theorem readsTo_seek (h : rest <:+ streamTail s) : ReadsTo s (s.seek rest) rest := readsTo_withScan h s.scan

theorem readsTo_streamTail (s : State) (l : Locals) : ReadsTo s (s.withLoc l) (streamTail s) :=
  ⟨List.suffix_rfl, s.scan, l, by rw [seek_streamTail]; rfl⟩

theorem readsTo_planeAdvance (h : rest <:+ streamTail s) (bs : List Byte) : ReadsTo s (s.planeAdvance rest bs) rest :=
  ⟨h, _, _, rfl⟩

theorem ReadsTo.trans (h : ReadsTo s t rest) (h' : ReadsTo t u rest') : ReadsTo s u rest' := by
  obtain ⟨hsuffix, m, l, rfl⟩ := h
  obtain ⟨hsuffix', m', l', rfl⟩ := h'
  rw [streamTail_withLoc, streamTail_withScan, streamTail_seek hsuffix] at hsuffix'
  refine ⟨hsuffix'.trans hsuffix, m', l', ?_⟩
  rw [← seek_seek hsuffix hsuffix']
  rfl

theorem ReadsTo.streamTail_eq (h : ReadsTo s t rest) : streamTail t = rest := by
  obtain ⟨hsuffix, m, l, rfl⟩ := h
  rw [streamTail_withLoc, streamTail_withScan, streamTail_seek hsuffix]

/-- The pseudocode raises `e` with `rest` left of the stream and nothing but `SCAN` changed before. -/
def Res.RaisesAt {α : Type} (s : State) (e : ErrCode) (rest : List Byte) (r : Res α) : Prop :=
  ∃ t, ReadsTo s t rest ∧ r = .raised (t.raise e)

theorem Res.RaisesAt.since {r : Res α} (hr : r.RaisesAt t e rest') (h : ReadsTo s t rest) : r.RaisesAt s e rest' := by
  obtain ⟨v, hv, rfl⟩ := hr
  exact ⟨v, h.trans hv, rfl⟩

theorem Res.RaisesAt.bind {r : Res α} (hr : r.RaisesAt s e rest) (k : α → State → Res β) :
    (r.bind k).RaisesAt s e rest := by
  obtain ⟨t, ht, rfl⟩ := hr
  exact ⟨t, ht, rfl⟩

/-- What a control byte leads to, as the end of the machine's pseudocode. -/
def PlaneRan (s : State) (r : Res Unit) : PlaneRun → Prop
  | .inl (e, rest) => r.RaisesAt s e rest
  | .inr (bs, rest) => r = .ok () (s.planeAdvance rest bs)

section Command
variable {ctl : Byte} (hs : PlaneReady s) (htail : streamTail s = ctl :: rest)
include hs htail

/-- A control byte above 128 (R259). -/
theorem planeRan_repeat (hrepeat : 128 < ctl.toNat) :
    PlaneRan s (hdrRepeatBody (ctl.extractLsb' 0 7) (s.seek rest))
      (planeRun (s.width.toNat - s.loc.planeX) (ctl :: rest)) := by
  have hinside := hs.inside
  have hsuffix : rest <:+ streamTail s := htail ▸ List.suffix_cons ctl rest
  have hzero : ctl ≠ 0#8 := by rintro rfl; simp at hrepeat
  have hcount : (ctl.extractLsb' 0 7).toNat = ctl.toNat - 128 := by
    have := ctl.isLt
    rw [toNat_count]
    omega
  dsimp only [planeRun]
  rw [if_neg hzero, if_pos hrepeat, ← hcount]
  by_cases hfit : s.width.toNat - s.loc.planeX < (ctl.extractLsb' 0 7).toNat
  · have hover : (s.seek rest).width.toNat < (s.seek rest).loc.planeX + (ctl.extractLsb' 0 7).toNat :=
      show s.width.toNat < s.loc.planeX + _ by omega
    rw [if_pos hfit, hdrRepeatBody_overflow hover]
    exact ⟨_, readsTo_seek hsuffix, rfl⟩
  have hroom : (s.seek rest).loc.planeX + (ctl.extractLsb' 0 7).toNat ≤ (s.seek rest).width.toNat :=
    show s.loc.planeX + _ ≤ s.width.toNat by omega
  have hrest := streamTail_seek hsuffix
  rw [if_neg hfit]
  cases rest with
  | nil =>
    rw [hdrRepeatBody_cut hroom hrest, seek_seek hsuffix List.suffix_rfl]
    exact ⟨_, readsTo_seek hsuffix, rfl⟩
  | cons v rest =>
    rw [hdrRepeatBody_of_fits (hs.seek _) hroom hrest, seek_planeAdvance hsuffix (List.suffix_cons v rest)]
    rfl

/-- A control byte from 1 to 128 (R260). -/
theorem planeRan_literal (hzero : ctl ≠ 0#8) (hrepeat : ¬ 128 < ctl.toNat) :
    PlaneRan s (hdrLiteralBody ctl (s.seek rest)) (planeRun (s.width.toNat - s.loc.planeX) (ctl :: rest)) := by
  have hinside := hs.inside
  have hsuffix : rest <:+ streamTail s := htail ▸ List.suffix_cons ctl rest
  dsimp only [planeRun]
  rw [if_neg hzero, if_neg hrepeat]
  by_cases hfit : s.width.toNat - s.loc.planeX < ctl.toNat
  · have hover : (s.seek rest).width.toNat < (s.seek rest).loc.planeX + ctl.toNat :=
      show s.width.toNat < s.loc.planeX + _ by omega
    rw [if_pos hfit, hdrLiteralBody_overflow hover]
    exact ⟨_, readsTo_seek hsuffix, rfl⟩
  have hroom : (s.seek rest).loc.planeX + ctl.toNat ≤ (s.seek rest).width.toNat :=
    show s.loc.planeX + _ ≤ s.width.toNat by omega
  have hrest := streamTail_seek hsuffix
  rw [if_neg hfit]
  by_cases hcut : rest.length < ctl.toNat
  · rw [if_pos hcut, hdrLiteralBody_cut (hs.seek _) hroom (by rw [hrest]; exact hcut),
      seek_seek hsuffix List.nil_suffix]
    exact ⟨_, readsTo_withScan List.nil_suffix _, rfl⟩
  · rw [if_neg hcut, hdrLiteralBody_of_fits (hs.seek _) hroom (by rw [hrest]; exact not_lt.1 hcut), hrest,
      seek_planeAdvance hsuffix (List.drop_suffix _ _)]
    rfl

end Command

/-- The machine fetches and executes a control byte as `planeRun` says (R116, R259 to R261). -/
theorem planeRan_round (hs : PlaneReady s) :
    PlaneRan s ((fetchByte s).bind hdrCommand) (planeRun (s.width.toNat - s.loc.planeX) (streamTail s)) := by
  cases htail : streamTail s with
  | nil => rw [fetchByte_of_nil htail]; exact ⟨_, readsTo_seek List.nil_suffix, rfl⟩
  | cons ctl rest =>
    rw [fetchByte_of_cons hs.stream htail, Res.bind_ok, hdrCommand]
    split_ifs with hrepeat hzero
    · exact planeRan_repeat hs htail hrepeat
    · dsimp only [planeRun]
      rw [if_pos hzero]
      exact ⟨_, readsTo_seek (htail ▸ List.suffix_cons ctl rest), rfl⟩
    · exact planeRan_literal hs htail hzero hrepeat

/-! ### One plane -/

theorem planeLoop_full (fuel : Nat) (h : s.width.toNat ≤ s.loc.planeX) : planeLoop fuel s = .ok () s := by
  cases fuel with
  | zero => rfl
  | succ fuel => rw [planeLoop, if_neg (not_lt.2 h)]

theorem planeLoop_succ (fuel : Nat) (h : s.loc.planeX < s.width.toNat) :
    planeLoop (fuel + 1) s = ((fetchByte s).bind hdrCommand).bind fun _ => planeLoop fuel := by
  rw [planeLoop, if_pos h, Res.bind_assoc]

theorem room_planeAdvance (s : State) (rest bs : List Byte) :
    (s.planeAdvance rest bs).width.toNat - (s.planeAdvance rest bs).loc.planeX =
      s.width.toNat - s.loc.planeX - bs.length :=
  Nat.sub_add_eq _ _ _

/-- A plane that the reference decodes (R258). -/
theorem planeLoop_of_plane (hs : PlaneReady s)
    (h : hdrPlane fuel (streamTail s) (s.width.toNat - s.loc.planeX) = some (bs, rest)) :
    rest <:+ streamTail s ∧ planeLoop fuel s = .ok () (s.planeAdvance rest bs) := by
  induction fuel generalizing s bs with
  | zero =>
    cases h
    exact ⟨List.suffix_rfl, by rw [planeAdvance_nil]; rfl⟩
  | succ fuel ih =>
    by_cases hroom : s.width.toNat - s.loc.planeX = 0
    · rw [hroom, hdrPlane_full] at h
      cases h
      exact ⟨List.suffix_rfl, by rw [planeLoop_full _ (by omega), planeAdvance_nil]⟩
    have hran := planeRan_round hs
    rw [hdrPlane_succ fuel _ hroom] at h
    cases hrun : planeRun (s.width.toNat - s.loc.planeX) (streamTail s) with
    | inl r => rw [hrun] at h; cases h
    | inr r =>
      obtain ⟨hsuffix, -, hle⟩ := run_of_planeRun_inr hrun
      rw [hrun] at hran h
      obtain ⟨q, hq, hbs⟩ := Option.map_eq_some_iff.1 h
      obtain ⟨rfl, rfl⟩ := Prod.mk.inj hbs
      have hround : (fetchByte s).bind hdrCommand = .ok () (s.planeAdvance r.2 r.1) := hran
      obtain ⟨hrest, hloop⟩ := ih (s := s.planeAdvance r.2 r.1) (hs.advance hle)
        (by rw [room_planeAdvance, streamTail_planeAdvance hsuffix]; exact hq)
      rw [streamTail_planeAdvance hsuffix] at hrest
      refine ⟨hrest.trans hsuffix, ?_⟩
      rw [planeLoop_succ _ (by omega), hround, Res.bind_ok, hloop, planeAdvance_planeAdvance hsuffix hrest]

/-- A plane that raises an error (R259 to R261). -/
theorem planeLoop_of_fault (hs : PlaneReady s)
    (h : hdrPlaneFault fuel (streamTail s) (s.width.toNat - s.loc.planeX) = some (e, rest)) :
    (planeLoop fuel s).RaisesAt s e rest := by
  induction fuel generalizing s with
  | zero => cases h
  | succ fuel ih =>
    by_cases hroom : s.width.toNat - s.loc.planeX = 0
    · rw [hroom, hdrPlaneFault_full] at h
      cases h
    have hran := planeRan_round hs
    rw [hdrPlaneFault_succ fuel _ hroom] at h
    rw [planeLoop_succ _ (by omega)]
    cases hrun : planeRun (s.width.toNat - s.loc.planeX) (streamTail s) with
    | inl r =>
      rw [hrun] at hran h
      rw [Option.some.inj h] at hran
      exact hran.bind _
    | inr r =>
      obtain ⟨hsuffix, -, hle⟩ := run_of_planeRun_inr hrun
      rw [hrun] at hran h
      have hround : (fetchByte s).bind hdrCommand = .ok () (s.planeAdvance r.2 r.1) := hran
      rw [hround, Res.bind_ok]
      exact (ih (s := s.planeAdvance r.2 r.1) (hs.advance hle)
        (by rw [room_planeAdvance, streamTail_planeAdvance hsuffix]; exact h)).since (readsTo_planeAdvance hsuffix _)

/-! ### The planes of a scanline -/

/-- `bytes` are the planes `ps`, one behind the other, and then `rest` (R258). -/
def PlanesOf (w : Nat) : List (List Byte) → List Byte → List Byte → Prop
  | [], bytes, rest => bytes = rest
  | bs :: ps, bytes, rest => ∃ mid, hdrPlane w bytes w = some (bs, mid) ∧ PlanesOf w ps mid rest

/-- The first `w` bytes of plane `p` of `SCAN` are `bs` (R53). -/
def PlaneHolds (m : Memory 8) (w p : Nat) (bs : List Byte) : Prop :=
  ∀ x, x < w → Memory.read m (scanKey p x) = bs.getD x 0#8

/-- Plane `p`, about to be decoded (R258). -/
def State.startPlane (s : State) (p : Nat) : State := s.withLoc { plane := p, planeX := 0 }

theorem planesLoop_succ (n p : Nat) (s : State) : planesLoop (n + 1) p s =
    (planeLoop s.width.toNat (s.startPlane p)).bind fun _ => planesLoop n (p + 1) := rfl

theorem planeReady_startPlane (hs : StreamOk s) (hw : s.width.toNat ≤ 0x7FFF) (hp : p < 4) :
    PlaneReady (s.startPlane p) := ⟨hs, Nat.zero_le _, hw, hp⟩

theorem readsTo_plane (h : rest <:+ streamTail s) (p : Nat) (bs : List Byte) :
    ReadsTo s ((s.startPlane p).planeAdvance rest bs) rest :=
  (readsTo_streamTail s _).trans (readsTo_planeAdvance (s := s.startPlane p) h bs)

theorem planeHolds_plane (hw : bs.length = s.width.toNat) (p : Nat) (rest : List Byte) :
    PlaneHolds ((s.startPlane p).planeAdvance rest bs).scan s.width.toNat p bs := by
  intro x hx
  show Memory.read (Memory.writeAll s.scan (scanKey p 0) bs) (scanKey p x) = _
  rw [Memory.read_writeAll, if_pos (by unfold scanKey; omega)]
  congr 1
  unfold scanKey
  omega

/-- A plane leaves the planes below it alone (R53). -/
theorem read_scan_plane {q : Nat} (hq : q < p) (hx : x < 0x7FFF) (rest bs : List Byte) :
    Memory.read ((s.startPlane p).planeAdvance rest bs).scan (scanKey q x) = Memory.read s.scan (scanKey q x) := by
  show Memory.read (Memory.writeAll s.scan (scanKey p 0) bs) (scanKey q x) = _
  rw [Memory.read_writeAll, if_neg (by unfold scanKey; omega)]

/-- Planes that the reference decodes (R258). -/
theorem planesLoop_of_planes {ps : List (List Byte)} (hs : StreamOk s) (hw : s.width.toNat ≤ 0x7FFF)
    (hp : p + ps.length ≤ 4) (h : PlanesOf s.width.toNat ps (streamTail s) rest) :
    ∃ t, planesLoop ps.length p s = .ok () t ∧ ReadsTo s t rest ∧
      (∀ i, i < ps.length → PlaneHolds t.scan s.width.toNat (p + i) (ps.getD i [])) ∧
      ∀ q x, q < p → x < 0x7FFF → Memory.read t.scan (scanKey q x) = Memory.read s.scan (scanKey q x) := by
  induction ps generalizing p s with
  | nil =>
    cases h
    exact ⟨s, rfl, readsTo_streamTail s s.loc, fun _ hi => absurd hi (Nat.not_lt_zero _), fun _ _ _ _ => rfl⟩
  | cons bs ps ih =>
    obtain ⟨mid, hplane, hplanes⟩ := h
    rw [List.length_cons] at hp
    obtain ⟨hmid, hloop⟩ := planeLoop_of_plane (planeReady_startPlane (p := p) hs hw (by omega)) hplane
    have hread := readsTo_plane (s := s) hmid p bs
    obtain ⟨t, ht, hrest, hholds, hkeeps⟩ := ih (s := (s.startPlane p).planeAdvance mid bs) (p := p + 1) hs hw
      (by omega) (by rw [hread.streamTail_eq]; exact hplanes)
    refine ⟨t, ?_, hread.trans hrest, fun i hi => ?_, fun q x hq hx => ?_⟩
    · rw [List.length_cons, planesLoop_succ, hloop, Res.bind_ok, ht]
    · cases i with
      | zero =>
        intro x hx
        rw [Nat.add_zero, hkeeps p x (Nat.lt_succ_self p) (by omega)]
        exact planeHolds_plane (length_of_hdrPlane le_rfl hplane) p mid x hx
      | succ i =>
        rw [List.getD_cons_succ, ← Nat.succ_add_eq_add_succ]
        exact hholds i (Nat.lt_of_succ_lt_succ hi)
    · rw [hkeeps q x (by omega) hx, read_scan_plane hq hx]

/-- A plane that raises an error, behind planes that do not (R258). -/
theorem planesLoop_of_fault (hs : StreamOk s) (hw : s.width.toNat ≤ 0x7FFF) (hp : p + n ≤ 4)
    (h : hdrPlanesFault s.width.toNat n (streamTail s) = some (e, rest)) :
    (planesLoop n p s).RaisesAt s e rest := by
  induction n generalizing p s with
  | zero => cases h
  | succ n ih =>
    have hready := planeReady_startPlane hs hw (show p < 4 by omega)
    rw [planesLoop_succ]
    cases hplane : hdrPlane s.width.toNat (streamTail s) s.width.toNat with
    | none =>
      rw [hdrPlanesFault, hplane] at h
      exact ((planeLoop_of_fault hready h).since (readsTo_streamTail s _)).bind _
    | some r =>
      rw [hdrPlanesFault, hplane] at h
      obtain ⟨hmid, hloop⟩ := planeLoop_of_plane hready hplane
      have hread := readsTo_plane (s := s) hmid p r.1
      rw [hloop, Res.bind_ok]
      exact (ih (s := (s.startPlane p).planeAdvance r.2 r.1) hs hw (by omega)
        (by rw [hread.streamTail_eq]; exact h)).since hread

end Sys2Proof.Machine
end

section
/-! PROOFS. The run-length scanline of `HDR.RUN` (R258): its header, its four planes and their transpose into `OUT`. -/

namespace Sys2Proof.Machine

open Sys2Proof.Ref

-- One declaration after another: as tasks, each would hold a thread of its own.
set_option Elab.async false

variable {s : State} {e : ErrCode} {n y : Nat} {rest : List Byte}

/-! ### The header -/

/-- The four bytes of a scanline header, once they are fetched (R258). -/
def matchHeader (h0 h1 h2 h3 : Byte) (s : State) : Res Unit :=
  match decodeHeader h0 h1 h2 h3 with
  | .instr (.hdrHeader width) => hdrHeaderBody width s
  | _ => raise .corrupt s

theorem fetchHeader_eq (s : State) : fetchHeader s = fetchMany 4
    (fun bs => matchHeader (bs.getD 0 0#8) (bs.getD 1 0#8) (bs.getD 2 0#8) (bs.getD 3 0#8)) s := rfl

theorem matchHeader_eq (h0 h1 hi lo : Byte) (s : State) : matchHeader h0 h1 hi lo s =
    if h0 = 0x02#8 ∧ h1 = 0x02#8 ∧ hi.toNat < 128 ∧ 256 * hi.toNat + lo.toNat = s.width.toNat then .ok () s
    else raise .corrupt s := by
  by_cases hhead : h0 = 0x02#8 ∧ h1 = 0x02#8 ∧ hi.toNat < 128
  · obtain ⟨h2, h2', hhi⟩ := id hhead
    have hbody : matchHeader h0 h1 hi lo s = hdrHeaderBody (headerWidth hi lo) s := by
      rw [matchHeader, decodeHeader_of_header lo hhead]
    rw [hbody, hdrHeaderBody, toNat_headerWidth lo hhi, ite_not]
    simp only [h2, h2', hhi, true_and]
  · have hbody : matchHeader h0 h1 hi lo s = raise .corrupt s := by
      rw [matchHeader, decodeHeader_of_other lo hhead]
    rw [hbody, if_neg]
    rintro ⟨h2, h2', hhi, -⟩
    exact hhead ⟨h2, h2', hhi⟩

theorem fetchHeader_of_short (hs : StreamOk s) (h : (streamTail s).length < 4) :
    (fetchHeader s).RaisesAt s .eos [] := by
  rw [fetchHeader_eq, fetchMany_of_short hs h]
  exact ⟨_, readsTo_seek List.nil_suffix, rfl⟩

theorem fetchHeader_of_cons {h0 h1 hi lo : Byte} {body : List Byte} (hs : StreamOk s)
    (h : streamTail s = h0 :: h1 :: hi :: lo :: body) : fetchHeader s = matchHeader h0 h1 hi lo (s.seek body) := by
  rw [fetchHeader_eq, fetchMany_of_le hs (by rw [h]; simp), h]
  rfl

/-! ### The transpose -/

section Transpose
variable {r g b e : List Byte} (hs : RowSafe y s.width.toNat s) (hw : s.width.toNat ≤ 0x7FFF)
  (hr : PlaneHolds s.scan s.width.toNat 0 r) (hg : PlaneHolds s.scan s.width.toNat 1 g)
  (hb : PlaneHolds s.scan s.width.toNat 2 b) (he : PlaneHolds s.scan s.width.toNat 3 e)
include hs hw hr hg hb he

/-- One column (R258). -/
theorem transposeLoop_column (hn : n < s.width.toNat) (left : Nat) :
    transposeLoop (left + 1) y n (s.withColumns y n r g b e) =
      transposeLoop left y (n + 1) (s.withColumns y (n + 1) r g b e) := by
  have hread {q : Nat} (hq : q < 4) : scanRead q n (s.withColumns y n r g b e) =
      .ok (Memory.read s.scan (scanKey q n)) (s.withColumns y n r g b e) := scanRead_of_lt hq (by omega)
  rw [transposeLoop, hread (by simp), Res.bind_ok, hread (by simp), Res.bind_ok, hread (by simp), Res.bind_ok,
    hread (by simp), Res.bind_ok, hr n hn, hg n hn, hb n hn, he n hn, putRgbe_withColumns _ _ _ _ hs hn, Res.bind_ok]

/-- The transpose of the four planes (R258). -/
theorem transposeLoop_add (hn : n ≤ s.width.toNat) (left : Nat) :
    transposeLoop (n + left) y 0 s = transposeLoop left y n (s.withColumns y n r g b e) := by
  induction n generalizing left with
  | zero => rw [Nat.zero_add]; rfl
  | succ n ih =>
    rw [Nat.add_right_comm, Nat.add_assoc, ih (by omega), transposeLoop_column hs hw hr hg hb he hn]

theorem transposeLoop_of_planes :
    transposeLoop s.width.toNat y 0 s = .ok () (s.withColumns y s.width.toNat r g b e) :=
  transposeLoop_add hs hw hr hg hb he le_rfl 0

end Transpose

/-! ### The scanline -/

/-- A scanline whose header matches and whose planes decode (R258). -/
theorem rleScanline_of_planes {h0 h1 hi lo : Byte} {body r g b e : List Byte} (hs : RowSafe y s.width.toNat s)
    (hw : s.width.toNat ≤ 0x7FFF) (htail : streamTail s = h0 :: h1 :: hi :: lo :: body)
    (hhead : h0 = 0x02#8 ∧ h1 = 0x02#8 ∧ hi.toNat < 128 ∧ 256 * hi.toNat + lo.toNat = s.width.toNat)
    (hplanes : PlanesOf s.width.toNat [r, g, b, e] body rest) :
    rest <:+ streamTail s ∧ ∃ m, rleScanline y s =
      .ok () ((((s.seek rest).withScan m).withLoc {}).withColumns y s.width.toNat r g b e) := by
  have hbody : body <:+ streamTail s := by rw [htail]; exact ⟨[h0, h1, hi, lo], rfl⟩
  have hread := readsTo_seek hbody
  have hheader : fetchHeader s = .ok () (s.seek body) := by
    rw [fetchHeader_of_cons hs.1 htail, matchHeader_eq]
    exact if_pos hhead
  obtain ⟨t, ht, hrest, hholds, -⟩ := planesLoop_of_planes (s := s.seek body) (p := 0) hs.1 hw le_rfl
    (by rw [hread.streamTail_eq]; exact hplanes)
  obtain ⟨hsuffix, m, l, rfl⟩ := hread.trans hrest
  have hplanesLoop : planesLoop 4 0 (s.seek body) = .ok () (((s.seek rest).withScan m).withLoc l) := ht
  refine ⟨hsuffix, m, ?_⟩
  rw [rleScanline, hheader, Res.bind_ok, hplanesLoop, Res.bind_ok]
  exact transposeLoop_of_planes (s := ((s.seek rest).withScan m).withLoc {}) hs hw (hholds 0 (by simp))
    (hholds 1 (by simp)) (hholds 2 (by simp)) (hholds 3 (by simp))

/-- A scanline whose header or one of whose planes raises an error (R258). -/
theorem rleScanline_of_fault (hs : StreamOk s) (hw : s.width.toNat ≤ 0x7FFF)
    (h : hdrScanFault s.width.toNat (streamTail s) = some (e, rest)) : (rleScanline y s).RaisesAt s e rest := by
  rw [rleScanline]
  match htail : streamTail s, h with
  | h0 :: h1 :: hi :: lo :: body, h =>
    have hbody : body <:+ streamTail s := by rw [htail]; exact ⟨[h0, h1, hi, lo], rfl⟩
    have hread := readsTo_seek hbody
    rw [fetchHeader_of_cons hs htail, matchHeader_eq]
    rw [hdrScanFault] at h
    by_cases hhead : h0 = 0x02#8 ∧ h1 = 0x02#8 ∧ hi.toNat < 128 ∧ 256 * hi.toNat + lo.toNat = s.width.toNat
    · rw [if_pos hhead] at h
      rw [show (s.seek body).width = s.width from rfl, if_pos hhead, Res.bind_ok]
      exact ((planesLoop_of_fault (s := s.seek body) hs hw le_rfl
        (by rw [hread.streamTail_eq]; exact h)).since hread).bind _
    · rw [if_neg hhead] at h
      rw [show (s.seek body).width = s.width from rfl, if_neg hhead]
      cases h
      exact ⟨_, hread, rfl⟩
  | [], h | [_], h | [_, _], h | [_, _, _], h =>
    cases h
    exact (fetchHeader_of_short hs (by rw [htail]; simp)).bind _

theorem hdrEngineStep_rle (hphase : s.phase = 1#32) (hpath : s.hdrrle = true) :
    hdrEngineStep s = (rleScanline s.row.toNat s).bind fun _ t => .ok () (hdrNextRow s.row t) := by
  rw [hdrEngineStep_of_later hphase, if_pos hpath]

/-- The cursor counted from the end of the stream. -/
theorem ipos_seek (h : rest <:+ streamTail s) (hne : streamTail s ≠ []) :
    (s.seek rest).ipos = BitVec.ofNat 32 (s.inlen.toNat - rest.length) := by
  have hlen := length_streamTail s
  have hle := h.length_le
  have hpos := List.length_pos_of_ne_nil hne
  have hsum : s.inlen.toNat - rest.length = s.ipos.toNat + ((streamTail s).length - rest.length) := by omega
  rw [hsum, BitVec.ofNat_add, BitVec.ofNat_toNat, BitVec.setWidth_eq]
  rfl

/-- Settles O45: the planes decoded and transposed, and the errors of the header and of the planes. -/
theorem hdrRleScanline : Obligations.HdrRleScanline := by
  constructor
  · intro s hi lo body r b₁ g b₂ b b₃ e b₄ hstream hb hunit habort hphase hpath hrow _ hw hsize htail hhi hwidth hr hg
      hblue he
    have hplanes : PlanesOf s.width.toNat [r, g, b, e] body b₄ := ⟨b₁, hr, b₂, hg, b₃, hblue, b₄, he, rfl⟩
    obtain ⟨hsuffix, m, hline⟩ := rleScanline_of_planes (y := s.row.toNat) ⟨hstream, hsize, hrow, le_rfl⟩ hw htail
      ⟨rfl, rfl, hhi, hwidth⟩ hplanes
    have hnext := hdrNextRow_eq (s := s) (t := (((s.seek b₄).withScan m).withLoc {}).withColumns s.row.toNat
      s.width.toNat r g b e) (withColumns_height _ _ _ _ _ _ _) hrow ((withColumns_st _ _ _ _ _ _ _).trans hb)
    rw [engineStep_hdr hunit habort, hdrEngineStep_rle hphase hpath, hline, Res.bind_ok, hnext,
      ← ipos_seek hsuffix (by rw [htail]; exact List.cons_ne_nil _ _)]
    exact ⟨_, rfl, rfl, elementsWritten_writeElements _ _ _⟩
  · intro s e rest hstream _ hunit habort hphase hpath hw hfault
    obtain ⟨t, ⟨-, m, l, rfl⟩, hraise⟩ := rleScanline_of_fault (y := s.row.toNat) hstream hw hfault
    rw [engineStep_hdr hunit habort, hdrEngineStep_rle hphase hpath, hraise]
    exact ⟨_, rfl, rfl⟩

end Sys2Proof.Machine
end

section
/-! PROOFS. What the step of a written command word is (R281, R282, R283, R285): the word of a host instruction decodes
to that instruction, and `STATUS.ST` alone says whether it is executed. -/

namespace Sys2Proof.Machine

open Sys2Proof.Ref

/-- Settles O5: the two commands are plain updates of the state. -/
theorem nopAndClear : Obligations.NopAndClear := fun _ => ⟨rfl, rfl⟩

/-! ### The fields of a host word -/

section Fields
variable {op a : BitVec 8} {b : BitVec 16}

theorem op_hostWord : (hostWord op a b).extractLsb' 24 8 = op := by
  rw [hostWord, BitVec.extractLsb'_append_eq_of_le (by decide), BitVec.extractLsb'_append_eq_left]

theorem a_hostWord : (hostWord op a b).extractLsb' 16 8 = a := by
  rw [hostWord, BitVec.extractLsb'_append_eq_of_le (by decide), BitVec.extractLsb'_append_eq_right]

theorem b_hostWord : (hostWord op a b).extractLsb' 0 16 = b := BitVec.extractLsb'_append_eq_right

/-! ### Illegal words -/

theorem hostWord_and (op' a' : BitVec 8) (b' : BitVec 16) :
    hostWord op a b &&& hostWord op' a' b' = hostWord (op &&& op') (a &&& a') (b &&& b') :=
  BitVec.and_append.trans (congrArg (· ++ (b &&& b')) BitVec.and_append)

/-- A word is legal when its operand fields have no bit where the row of its opcode fixes them (R105). -/
theorem legalHostWord_of_row {k : Nat} (ma : BitVec 8) (mb : BitVec 16) (hop : op.toNat = k)
    (hrow : ⟨hostWord (BitVec.ofNat 8 k) 0#8 0#16, hostWord 0xFF#8 ma mb⟩ ∈ hostRows)
    (hfixed : a &&& ma = 0#8 ∧ b &&& mb = 0#16) : legalHostWord (hostWord op a b) = true := by
  obtain ⟨ha, hb⟩ := hfixed
  have hop' : op &&& 0xFF#8 = BitVec.ofNat 8 k := by
    rw [← hop, BitVec.ofNat_toNat, BitVec.setWidth_eq]
    exact BitVec.and_allOnes
  exact List.any_eq_true.2 ⟨_, hrow, beq_iff_eq.2 (by rw [hostWord_and, hop', ha, hb])⟩

/-- An illegal word does not pass the test of its opcode's row (R104). -/
theorem if_of_illegal {k : Nat} {c : Prop} [Decidable c] {i j : Instr} (h : legalHostWord (hostWord op a b) = false)
    (ma : BitVec 8) (mb : BitVec 16) (hop : op.toNat = k)
    (hrow : ⟨hostWord (BitVec.ofNat 8 k) 0#8 0#16, hostWord 0xFF#8 ma mb⟩ ∈ hostRows)
    (hc : c → a &&& ma = 0#8 ∧ b &&& mb = 0#16) : (if c then i else j) = j :=
  if_neg fun hpass => Bool.false_ne_true (h.symm.trans (legalHostWord_of_row ma mb hop hrow (hc hpass)))

/-- The reserved bits of an operand of one bit. -/
theorem and_mask_of_bit : ∀ {a : BitVec 8}, a.extractLsb' 1 7 = 0#7 → a &&& 0xFE#8 = 0#8 := by decide

/-- The reserved bits of an operand of four bits. -/
theorem and_mask_of_nibble : ∀ {a : BitVec 8}, a.extractLsb' 4 4 = 0#4 → a &&& 0xF0#8 = 0#8 := by decide

/-- R104: an illegal word decodes to itself. The opcodes with an operand come first, then those without. -/
theorem decodeHost_of_illegal (h : legalHostWord (hostWord op a b) = false) :
    decodeHost (hostWord op a b) = .illegalHostWord op a b := by
  unfold decodeHost
  simp only [op_hostWord, a_hostWord, b_hostWord]
  split
  case h_5 | h_6 | h_7 =>
    exact if_of_illegal h 0#8 0xFFFF#16 ‹_› (by decide) fun hb => by simp [hb]
  case h_8 | h_10 | h_18 =>
    exact if_of_illegal h 0xFE#8 0xFFFF#16 ‹_› (by decide) fun ⟨ha, hb⟩ => ⟨and_mask_of_bit ha, by simp [hb]⟩
  case h_11 =>
    exact if_of_illegal h 0xF0#8 0xFFFF#16 ‹_› (by decide) fun ⟨ha, hb⟩ => ⟨and_mask_of_nibble ha, by simp [hb]⟩
  case h_20 hop =>
    have hlegal := legalHostWord_of_row (a := a) (b := b) 0#8 0#16 hop (by decide) (by simp)
    exact absurd (h.symm.trans hlegal) Bool.false_ne_true
  case h_22 => rfl
  all_goals exact if_of_illegal h 0xFF#8 0xFFFF#16 ‹_› (by decide) fun ⟨ha, hb⟩ => by simp [ha, hb]

end Fields

/-- R101 to R105: the word of a well-formed host instruction decodes to it. -/
theorem decodeHost_of_encode {i : Instr} {w : Word} (hi : i.wf = true) (hw : encode i = .word w) :
    decodeHost w = i := by
  cases i <;> cases hw
  case illegalHostWord op a b => exact decodeHost_of_illegal (by simpa [Instr.wf] using hi)
  case brRead n | brPeek n | brSkip n | sgiLine channel row =>
    simp [decodeHost, op_hostWord, a_hostWord, b_hostWord]
  case hufBuild slot | hufDecode slot | bmpRun slot => clear hi; revert slot; decide
  case hufResid len => clear hi; revert len; decide
  all_goals rfl

/-! ### Acceptance -/

/-- A word written to `CMD` (R281, R282). -/
theorem step_command {s : State} {w : Word} {q : List HostEvent} (hq : s.hostQ = .regWr 0x00#7 w :: q) :
    step s = if s.st = .busy ∨ (s.st = .error ∧ w ≠ 0x01000000#32 ∧ w ≠ 0x02000000#32)
      then .next { s with hostQ := q, cmdDrop := true } else exec (decodeHost w) { s with hostQ := q } :=
  (step_event hq).trans (hostCommand_eq w (s.withQueue q))

/-- Settles O46: the word decodes to its instruction, and the engine state decides. -/
theorem stepRunsAcceptedCommand : Obligations.StepRunsAcceptedCommand := by
  intro s i w q hi hw hq
  rw [step_command hq, decodeHost_of_encode hi hw]
  refine ⟨fun hacc => if_neg ?_, fun hb => if_pos (.inl hb), fun herr hr => if_neg ?_,
    fun herr hreset hclear => if_pos ?_⟩
  · rcases hacc with h | h | h <;> simp [h]
  · rcases hr with rfl | rfl <;> cases hw <;> simp [herr] <;> decide
  · refine .inr ⟨herr, ?_, ?_⟩
    · rintro rfl
      exact hreset ((decodeHost_of_encode hi hw).symm.trans (by decide))
    · rintro rfl
      exact hclear ((decodeHost_of_encode hi hw).symm.trans (by decide))

end Sys2Proof.Machine
end

section
/-! PROOFS. How an engine step moves a run (R182, R206, R236, R258, R288, R315): it ends the run by itself, or takes the
abort, or the run goes on in the same state of the engine with a smaller measure. The same lemma for each unit gives the
ends of `STATUS.ST` and the length of a run. One declaration is elaborated after the other, for the memory limit. -/

namespace Sys2Proof.Machine

open Sys2Proof.Ref

set_option Elab.async false

variable {α β γ : Type} {s t u v : State} {r : Res α}

/-! ### The relation -/

/-- The run has reached its end, or an error was raised (R288, R304). -/
def RunEnded (t : State) : Prop := t.st = .done ∨ t.st = .error

/-- Behind an engine step from `s` the run has ended, or it goes on; where the unit's invariant holds, with a smaller
measure (R288, U17). -/
def Proceeds (s t : State) : Prop :=
  RunEnded t ∨ (t.st = s.st ∧ (Running s.unit s → runMeasure t < runMeasure s))

/-- Every end of the pseudocode proceeds. -/
abbrev Res.Proceeds (s : State) (r : Res α) : Prop :=
  r.Post (fun _ => Machine.Proceeds s) (Machine.Proceeds s) False

theorem runEnded_raise (e : ErrCode) : RunEnded (s.raise e) := .inr rfl

theorem proceeds_raise (e : ErrCode) : Proceeds s (u.raise e) := .inl (runEnded_raise e)

theorem proceeds_finish : Proceeds s u.finish := .inl (.inl rfl)

/-- A step whose work changes nothing of a frame proceeds as what follows the work does. -/
theorem Res.Framed.then_proceeds {p : State → γ} {k : α → State → Res β} (hr : r.Framed p u)
    (hk : ∀ a v, p v = p u → (k a v).Proceeds s) : (r.bind k).Proceeds s := by
  refine Res.Post.bind (hr.mono (fun _ _ h => h) ?_ id) hk
  rintro _ ⟨_, e, -, rfl⟩
  exact proceeds_raise e

/-! ### The measure -/

/-- But for BMP the measure counts what the view shows: the place in the image. -/
theorem runMeasure_of_view (h : imageView t = imageView s) (hbmp : s.unit ≠ .bmp) : runMeasure t = runMeasure s := by
  simp only [imageView, Prod.mk.injEq] at h
  obtain ⟨⟨-, -, -, hunit⟩, ⟨hwidth, hheight, hchannels, -⟩, ⟨hchan, hrow, hphase, -⟩, -, hblock⟩ := h
  unfold runMeasure
  rw [hunit, hwidth, hheight, hchannels, hchan, hrow, hphase, hblock]
  cases hu : s.unit with
  | bmp => exact absurd hu hbmp
  | _ => rfl

theorem runMeasure_bmp (hu : s.unit = .bmp) : runMeasure s = s.inlen.toNat - s.ipos.toNat := by
  rw [runMeasure, hu]

theorem runMeasure_sgi (hu : s.unit = .sgi) : runMeasure s =
    s.channels.toNat * s.height.toNat - (s.chan.toNat * s.height.toNat + s.row.toNat) := by
  rw [runMeasure, hu]

theorem runMeasure_hdr (hu : s.unit = .hdr) : runMeasure s = s.height.toNat - s.row.toNat := by
  rw [runMeasure, hu]

/-- The scanlines left at another place of the image (R236). -/
theorem runMeasure_sgi_at {c r : Word} (hu : s.unit = .sgi)
    (hview : imageView t = imageView { s with chan := c, row := r }) :
    runMeasure t = s.channels.toNat * s.height.toNat - (c.toNat * s.height.toNat + r.toNat) :=
  (runMeasure_of_view hview (by simp [hu])).trans (runMeasure_sgi (s := { s with chan := c, row := r }) hu)

/-- The rows left at another row (R258). -/
theorem runMeasure_hdr_at {r : Word} (hu : s.unit = .hdr) (hview : imageView t = imageView { s with row := r }) :
    runMeasure t = s.height.toNat - r.toNat :=
  (runMeasure_of_view hview (by simp [hu])).trans (runMeasure_hdr (s := { s with row := r }) hu)

theorem runMeasure_crw_setup (hu : s.unit = .crw) (hphase : s.phase = 0#32) :
    runMeasure s = s.width.toNat * s.height.toNat / 64 + 2 := by
  simp [runMeasure, hu, hphase]

theorem runMeasure_crw_block (hu : s.unit = .crw) (hphase : s.phase = 1#32) :
    runMeasure s = s.width.toNat * s.height.toNat / 64 - s.block.toNat + 1 := by
  simp [runMeasure, hu, hphase]

theorem runMeasure_crw_merge (hu : s.unit = .crw) (hphase : s.phase = 2#32) : runMeasure s = 1 := by
  simp [runMeasure, hu, hphase]

/-! ### CRW -/

/-- A block to decode lies inside the image, which has less than `2 ^ 32` blocks (R181). -/
theorem Running.block_lt (hs : Running .crw s) (hphase : s.phase = 1#32) :
    s.block.toNat < s.width.toNat * s.height.toNat / 64 ∧ s.width.toNat * s.height.toNat / 64 < 2 ^ 32 := by
  obtain ⟨-, hsize⟩ := hs.params
  obtain ⟨-, hblocks, hout, -, hinside, -⟩ := hs.checked
  obtain ⟨-, -, -, -, hlt⟩ := hinside hphase
  omega

/-- The tables are loaded, and the first block is next (R182). -/
theorem crwSetup_proceeds (hu : s.unit = .crw) (hphase : s.phase = 0#32) :
    (crwEngineStep s).Proceeds s := by
  rw [crwEngineStep_setup hphase]
  refine (loadTables_framed s).then_proceeds fun _ u h => ?_
  have hview : imageView { u.crwInit with phase := 1#32 } = imageView { s.crwInit with phase := 1#32 } := by
    simp only [imageView, Prod.mk.injEq] at h ⊢
    tauto
  obtain ⟨-, -, hst⟩ := imageView_bounds hview
  refine .inr ⟨hst, fun _ => ?_⟩
  rw [runMeasure_of_view hview (by simp [hu]), runMeasure_crw_block (s := { s.crwInit with phase := 1#32 }) hu rfl,
    runMeasure_crw_setup hu hphase]
  simp

/-- A block is decoded and counted, and the next one, the merge or the end comes after it (R182). -/
theorem crwCounted_proceeds (hu : s.unit = .crw) (hphase : s.phase = 1#32) (hv : imageView v = imageView s.countBlock) :
    (if v.block.toNat = v.width.toNat * v.height.toNat / 64 then
      if v.lbmode = true then Res.ok () { v with phase := 2#32 } else Res.ok () v.finish
    else Res.ok () v).Proceeds s := by
  split
  · split
    · have hview : imageView { v with phase := 2#32 } = imageView { s.countBlock with phase := 2#32 } := by
        simp only [imageView, Prod.mk.injEq] at hv ⊢
        tauto
      obtain ⟨-, -, hst⟩ := imageView_bounds hview
      refine .inr ⟨hst, fun hs => ?_⟩
      obtain ⟨hlt, -⟩ := (hu ▸ hs).block_lt hphase
      rw [runMeasure_of_view hview (by simp [hu]), runMeasure_crw_merge (s := { s.countBlock with phase := 2#32 }) hu rfl,
        runMeasure_crw_block hu hphase]
      omega
    · exact proceeds_finish
  · obtain ⟨-, -, hst⟩ := imageView_bounds hv
    refine .inr ⟨hst, fun hs => ?_⟩
    obtain ⟨hlt, hsize⟩ := (hu ▸ hs).block_lt hphase
    rw [runMeasure_of_view hv (by simp [hu]), runMeasure_crw_block (s := s.countBlock) hu hphase,
      runMeasure_crw_block hu hphase, State.countBlock_block, toNat_succ_of_lt hlt hsize]
    simp only [State.countBlock_width, State.countBlock_height]
    omega

theorem runView_countBlock (h : runView u = runView s) : runView u.countBlock = runView s.countBlock := by
  simp only [runView, imageView, State.countBlock, Prod.mk.injEq] at h ⊢
  obtain ⟨⟨hconf, hsize, hplace, hcolumn, hblock⟩, hreader⟩ := h
  exact ⟨⟨hconf, hsize, hplace, by rw [hcolumn], by rw [hblock]⟩, hreader⟩

theorem crwBlockStep_proceeds (hu : s.unit = .crw) (hphase : s.phase = 1#32) : (crwEngineStep s).Proceeds s := by
  rw [crwEngineStep_block hphase]
  refine (crwBlockBody_keepsView s).then_proceeds fun _ u hview => ?_
  refine Res.Post.bind ((crwReconBody_post u).mono (fun _ _ h => h) ?_ id) fun _ v ⟨hv, _⟩ => ?_
  · rintro _ ⟨w, e, -, -, rfl⟩
    exact proceeds_raise e
  · exact crwCounted_proceeds hu hphase (congrArg Prod.fst (hv.trans (runView_countBlock hview)))

theorem crwEngineStep_proceeds (hu : s.unit = .crw) : (crwEngineStep s).Proceeds s := by
  by_cases hsetup : s.phase = 0#32
  · exact crwSetup_proceeds hu hsetup
  by_cases hblock : s.phase = 1#32
  · exact crwBlockStep_proceeds hu hblock
  · rw [crwEngineStep, if_neg hsetup, if_neg hblock]
    exact (crwMergeBody_keepsView s).then_proceeds fun _ _ _ => proceeds_finish

/-! ### SGI and HDR -/

theorem imageView_withRow (h : imageView t = imageView s) (r : Word) :
    imageView { t with row := r } = imageView { s with row := r } := by
  simp only [imageView, Prod.mk.injEq] at h ⊢
  tauto

theorem imageView_withPlace (h : imageView t = imageView s) (c r : Word) :
    imageView { t with chan := c, row := r } = imageView { s with chan := c, row := r } := by
  simp only [imageView, Prod.mk.injEq] at h ⊢
  tauto

/-- A scanline of the image is one of `channels * height` (R236). -/
theorem Running.scanlines_left (hs : Running .sgi s) :
    s.row.toNat < s.height.toNat ∧
      s.chan.toNat * s.height.toNat + s.height.toNat ≤ s.channels.toNat * s.height.toNat := by
  obtain ⟨-, -, hchan, hrow⟩ := hs.checked
  exact ⟨hrow, Nat.succ_mul _ _ ▸ Nat.mul_le_mul_right _ hchan⟩

/-- One scanline, and the next one channel-major (R236). -/
theorem sgiEngineStep_proceeds (hu : s.unit = .sgi) : (sgiEngineStep s).Proceeds s := by
  have hline : (sgiLineBody s.chan s.row s).Framed imageView s := (sgiLineBody_framed s.chan s.row s).image.since rfl
  refine hline.then_proceeds fun _ v hview => ?_
  obtain ⟨-, -, hst⟩ := imageView_bounds hview
  split
  · next hnext =>
    refine .inr ⟨hst, fun hs => ?_⟩
    obtain ⟨hrow, hleft⟩ := (hu ▸ hs).scanlines_left
    rw [runMeasure_sgi_at (c := s.chan) hu (imageView_withRow hview (s.row + 1#32)), runMeasure_sgi hu,
      toNat_succ_of_lt hrow s.height.isLt]
    omega
  split
  · next hnext =>
    refine .inr ⟨hst, fun hs => ?_⟩
    obtain ⟨hrow, hleft⟩ := (hu ▸ hs).scanlines_left
    rw [runMeasure_sgi_at hu (imageView_withPlace hview (s.chan + 1#32) 0#32), runMeasure_sgi hu,
      toNat_succ_of_lt (Nat.lt_of_succ_lt hnext) v.channels.isLt, Nat.succ_mul]
    simp only [BitVec.toNat_ofNat]
    omega
  · exact proceeds_finish

/-- One scanline, and the next row (R258). -/
theorem hdrEngineStep_proceeds (hu : s.unit = .hdr) : (hdrEngineStep s).Proceeds s := by
  have hstart : ∃ u, (if s.phase = 0#32 then detectRle s else s) = u ∧ u.st = s.st ∧ u.unit = .hdr ∧
      u.row = s.row ∧ u.height = s.height := by
    refine ⟨_, rfl, ?_⟩
    split <;> exact ⟨rfl, hu, rfl, rfl⟩
  obtain ⟨u, hpath, hst, hunit, hrow, hheight⟩ := hstart
  unfold hdrEngineStep
  rw [hpath]
  have hline : (if u.hdrrle = true then rleScanline u.row.toNat u
      else flatLoop u.width.toNat u.row.toNat 0 u).Framed imageView u := by
    split
    · exact (rleScanline_keepsView _ u).image
    · exact (flatLoop_keepsView _ _ _ u).image
  refine hline.then_proceeds fun _ v hview => ?_
  dsimp only
  split
  · exact .inl (.inl rfl)
  · obtain ⟨-, -, hst'⟩ := imageView_bounds hview
    refine .inr ⟨hst'.trans hst, fun hs => ?_⟩
    obtain ⟨-, hlt, -⟩ := (hu ▸ hs).checked
    rw [runMeasure_hdr_at hunit (imageView_withRow hview (u.row + 1#32)), runMeasure_hdr hu, hrow, hheight,
      toNat_succ_of_lt hlt s.height.isLt]
    omega

/-! ### BMP -/

/-- The run has ended, or its place in the image is where it was. -/
def EndedOrStays (s t : State) : Prop := RunEnded t ∨ imageView t = imageView s

theorem Res.Framed.stays (hr : r.Framed imageView s) :
    r.Post (fun _ t => imageView t = imageView s) (EndedOrStays s) False := by
  refine hr.mono (fun _ _ h => h) ?_ id
  rintro _ ⟨_, e, -, rfl⟩
  exact .inl (runEnded_raise e)

theorem Res.Framed.endedOrStays (hr : r.Framed imageView s) : LandsIn (EndedOrStays s) r.outcome :=
  Res.Post.landsIn (hr.stays.mono (fun _ _ => .inr) (fun _ h => h) id)

theorem bmpDeltaBody_framed (s : State) : (bmpDeltaBody s).Framed imageView s := by
  refine (fetchByte_keepsView s).image.bind fun dx u => (fetchByte_keepsView u).image.bind fun dy v => ?_
  dsimp only
  split
  · exact .raise .bounds rfl
  · exact .ok rfl

/-- A stream command of BMP ends the run, or moves the pixel cursor and writes pixels alone (R208 to R214). -/
theorem exec_bmp_endedOrStays {i : Instr} {mode : Bool} (hi : i.format = .bmp mode) (s : State) :
    LandsIn (EndedOrStays s) (exec i s) := by
  cases i with
  | bmpRun8 count value => exact (putRun8_keepsView _ value s).image.endedOrStays
  | bmpRun4 count pixEven pixOdd => exact (putRun4_keepsView _ 0 pixEven pixOdd s).image.endedOrStays
  | bmpEol => exact landsIn_next (.inr rfl)
  | bmpEob => exact landsIn_next (.inl (.inl rfl))
  | bmpDelta => exact (bmpDeltaBody_framed s).endedOrStays
  | bmpAbs8 n => exact (bmpAbs8Body_keepsView n s).image.endedOrStays
  | bmpAbs4 n => exact (bmpAbs4Body_keepsView n s).image.endedOrStays
  | _ => cases hi

/-- With a command left in the stream, the engine step fetches its two bytes at least (R206). -/
theorem bmpEngineStep_fetches_command (hfull : ¬ bmpFull s = true) (hmore : ¬ s.inlen.toNat ≤ s.ipos.toNat) :
    NextFetches 2 s (bmpEngineStep s) := by
  rw [bmpEngineStep_of_command hfull hmore]
  refine (fetchByte_fetches s).andThen (m := 1) fun b1 u => (fetchByte_fetches u).andThen (m := 0) fun b2 v => ?_
  obtain ⟨mode, hi⟩ := format_decodeBmp (decide (v.phase ≠ 0#32)) b1 b2
  exact exec_bmp_fetches hi v

theorem bmpEngineStep_command_endedOrStays (hfull : ¬ bmpFull s = true) (hmore : ¬ s.inlen.toNat ≤ s.ipos.toNat) :
    LandsIn (EndedOrStays s) (bmpEngineStep s) := by
  rw [bmpEngineStep_of_command hfull hmore]
  refine (fetchByte_keepsView s).image.stays.andThen_landsIn fun b1 u hu =>
    ((fetchByte_keepsView u).image.since hu).stays.andThen_landsIn fun b2 v hv t ht => ?_
  obtain ⟨mode, hi⟩ := format_decodeBmp (decide (v.phase ≠ 0#32)) b1 b2
  exact (exec_bmp_endedOrStays hi v t ht).imp id fun h => h.trans hv

/-- The termination tests, or one command (R206): the stream gets shorter. -/
theorem bmpEngineStep_proceeds (hu : s.unit = .bmp) : LandsIn (Proceeds s) (bmpEngineStep s) := by
  by_cases hfull : bmpFull s = true
  · exact bmpEngineStep_of_full hfull ▸ landsIn_next (.inl (.inl rfl))
  by_cases hend : s.inlen.toNat ≤ s.ipos.toNat
  · exact bmpEngineStep_of_end hfull hend ▸ landsIn_next (.inl (.inl rfl))
  intro t ht
  rcases bmpEngineStep_command_endedOrStays hfull hend t ht with hended | hview
  · exact .inl hended
  by_cases herr : t.st = .error
  · exact .inl (.inr herr)
  obtain ⟨k, hpos⟩ := bmpEngineStep_fetches_command hfull hend t ht herr
  simp only [imageView, Prod.mk.injEq] at hview
  obtain ⟨⟨-, hinlen, hst, hunit⟩, -⟩ := hview
  refine .inr ⟨hst, fun _ => ?_⟩
  rw [runMeasure_bmp hu, runMeasure_bmp (hunit.trans hu), hinlen]
  omega

/-! ### Every unit -/

/-- An engine step takes the abort, or the run proceeds (R315, R320). -/
theorem engineStep_proceeds (h : engineStep s = .next t) : (t.st = .aborted ∧ s.abort = true) ∨ Proceeds s t := by
  unfold engineStep at h
  split at h
  · next habort =>
    cases h
    exact .inl ⟨rfl, habort⟩
  refine .inr ?_
  unfold unitStep at h
  split at h
  · cases h
  · next hu => exact (crwEngineStep_proceeds hu).landsIn t h
  · next hu => exact bmpEngineStep_proceeds hu t h
  · next hu => exact (sgiEngineStep_proceeds hu).landsIn t h
  · next hu => exact (hdrEngineStep_proceeds hu).landsIn t h

/-! ### An engine step is never refused -/

theorem Res.outcome_ne_refused (r : Res α) (x : Refusal) : r.outcome ≠ .refused x := by
  cases r <;> simp

theorem Res.andThen_ne_refused {k : α → State → Host.Outcome State Fault Refusal} {x : Refusal} (r : Res α)
    (hk : ∀ a u, k a u ≠ .refused x) : r.andThen k ≠ .refused x := by
  cases r with
  | ok a u => exact hk a u
  | raised u => simp
  | stop f => simp

theorem exec_bmp_ne_refused {i : Instr} {mode : Bool} (hi : i.format = .bmp mode) (s : State) (x : Refusal) :
    exec i s ≠ .refused x := by
  cases i with
  | bmpRun8 count value => exact Res.outcome_ne_refused (bmpRun8Body count value s) x
  | bmpRun4 count pixEven pixOdd => exact Res.outcome_ne_refused (bmpRun4Body count pixEven pixOdd s) x
  | bmpEol => exact Res.outcome_ne_refused (bmpEolBody s) x
  | bmpEob => exact Res.outcome_ne_refused (bmpEobBody s) x
  | bmpDelta => exact Res.outcome_ne_refused (bmpDeltaBody s) x
  | bmpAbs8 n => exact Res.outcome_ne_refused (bmpAbs8Body n s) x
  | bmpAbs4 n => exact Res.outcome_ne_refused (bmpAbs4Body n s) x
  | _ => cases hi

theorem engineStep_ne_refused (s : State) (x : Refusal) : engineStep s ≠ .refused x := by
  unfold engineStep
  split
  · simp
  unfold unitStep
  split
  · simp
  · exact Res.outcome_ne_refused _ x
  · unfold bmpEngineStep
    split
    · simp
    split
    · simp
    · refine Res.andThen_ne_refused _ fun b1 u => Res.andThen_ne_refused _ fun b2 v => ?_
      obtain ⟨mode, hi⟩ := format_decodeBmp (decide (v.phase ≠ 0#32)) b1 b2
      exact exec_bmp_ne_refused hi v x
  · exact Res.outcome_ne_refused _ x
  · exact Res.outcome_ne_refused _ x

/-! ### The length of a run -/

/-- In a run that the host leaves alone, the next engine step ends the run or makes the measure smaller. -/
theorem step_shortens_run (hs : RunInv s) (hq : s.hostQ = []) (hb : s.st = .busy) :
    ∃ t, step s = .next t ∧ RunInv t ∧ t.hostQ = [] ∧ (t.st = .busy → runMeasure t < runMeasure s) := by
  have hstep : step s = engineStep s := step_busy hq hb
  match ht : engineStep s with
  | .next t =>
    obtain ⟨-, -, -, -, hqueue⟩ := inputs_eq_iff.1 (engineStep_keepsInputs s t ht)
    refine ⟨t, hstep.trans ht, stepKeepsRun s t hs (hstep.trans ht), hqueue.trans hq, fun hbt => ?_⟩
    rcases engineStep_proceeds ht with ⟨habort, -⟩ | (hdone | herr) | ⟨-, hless⟩
    · cases habort.symm.trans hbt
    · cases hdone.symm.trans hbt
    · cases herr.symm.trans hbt
    · exact hless (hs.running hb)
  | .fault f => exact absurd (hstep.trans ht) (stepNeverFaults s hs f)
  | .refused x => exact absurd ht (engineStep_ne_refused s x)

theorem stepsFrom_succ {n : Nat} (h : step s = .next t) : stepsFrom (n + 1) s = stepsFrom n t := by
  rw [stepsFrom, h]

/-- Settles O58: by induction on the measure, which every engine step of a run that goes on makes smaller. -/
theorem runEnds : Obligations.RunEnds := by
  intro s hs hq
  induction hm : runMeasure s using Nat.strong_induction_on generalizing s with
  | _ m ih =>
    subst hm
    by_cases hb : s.st = .busy
    · obtain ⟨t, hstep, ht, htq, hless⟩ := step_shortens_run hs hq hb
      by_cases hbt : t.st = .busy
      · obtain ⟨n, u, hn, hrun, hu⟩ := ih (runMeasure t) (hless hbt) t ht htq rfl
        exact ⟨n + 1, u, by have := hless hbt; omega, (stepsFrom_succ hstep).trans hrun, hu⟩
      · exact ⟨1, t, by omega, stepsFrom_succ hstep, hbt⟩
    · exact ⟨0, s, Nat.zero_le _, rfl, hb⟩

end Sys2Proof.Machine
end

section
/-! PROOFS. How a step changes `STATUS.ST` (R288): a command word where no run is in progress, a transaction of the host
where one is, and the engine step. One declaration is elaborated after the other, for the memory limit. -/

namespace Sys2Proof.Machine

open Sys2Proof.Ref

set_option Elab.async false

variable {α : Type} {s t : State} {r : Res α}

/-! ### Commands -/

/-- A command leaves the engine where it was, starts a run, raises an error, or makes it `IDLE` (R281). -/
def CommandMoves (s t : State) : Prop := t.st = s.st ∨ t.st = .busy ∨ t.st = .error ∨ t.st = .idle

/-- Every end of the pseudocode is a move that a command may make. -/
abbrev Res.MovesStatus (s : State) (r : Res α) : Prop :=
  r.Post (fun _ => CommandMoves s) (CommandMoves s) False

theorem Res.MovesStatus.busy {a : α} (h : t.st = .busy) : (Res.ok a t).MovesStatus s := .inr (.inl h)

theorem Res.MovesStatus.guard {c : Prop} [Decidable c] {e : ErrCode} (hr : r.MovesStatus s) :
    (if c then raise e t else r).MovesStatus s := by
  split
  · exact .inr (.inr (.inl rfl))
  · exact hr

/-- A framed operation stays in the state of the engine, or raises an error. -/
theorem Res.Framed.movesStatus (hr : r.Framed State.st s) : r.MovesStatus s := by
  refine hr.mono (fun _ _ => .inl) ?_ id
  rintro _ ⟨_, _, -, rfl⟩
  exact .inr (.inr (.inl rfl))

/-- A command that begins with the prologue of R312. -/
theorem needInput_movesStatus {k : State → Res α} (hk : (k s).MovesStatus s) :
    LandsIn (CommandMoves s) (needInput s k).outcome :=
  Res.Post.landsIn (Res.MovesStatus.guard hk)

theorem needInput_framed_movesStatus {k : State → Res α} (hk : (k s).Framed imageView s) :
    LandsIn (CommandMoves s) (needInput s k).outcome := needInput_movesStatus hk.st.movesStatus

theorem sgiConfigCheck_movesStatus {k : State → Res Unit} (hk : (k s).MovesStatus s) :
    (sgiConfigCheck s k).MovesStatus s :=
  .guard <| .guard <| .guard <| .guard <| .guard hk

/-- Every command word of the host (R281). -/
theorem exec_host_movesStatus {i : Instr} (hi : i.format = .host) (s : State) :
    LandsIn (CommandMoves s) (exec i s) := by
  cases i with
  | nop => exact landsIn_next (.inl rfl)
  | reset => exact landsIn_next (.inr (.inr (.inr rfl)))
  | clear => exact landsIn_next (.inr (.inr (.inr rfl)))
  | brPrime => exact landsIn_next (.inl rfl)
  | brRead n => exact needInput_framed_movesStatus (returns_framed (readBits_keepsView _) _ s)
  | brPeek n => exact needInput_framed_movesStatus (returns_framed (peekBits_keepsView _) _ s)
  | brSkip n => exact Res.Post.landsIn (skipBits_keepsView _ s).image.st.movesStatus
  | hufBuild slot =>
    exact needInput_framed_movesStatus ((buildSlot_framed streamSource_movesCursor slot s.unprime).since rfl)
  | hufLoadt => exact Res.Post.landsIn (loadTables_framed s).st.movesStatus
  | hufDecode slot => exact needInput_framed_movesStatus (returns_framed (decodeSymbol_keepsView slot) _ s)
  | hufResid len => exact needInput_framed_movesStatus (.guard (returns_framed (residual_keepsView _) sext32 s))
  | crwDetect => exact needInput_framed_movesStatus (.ok rfl)
  | crwInit => exact landsIn_next (.inl rfl)
  | crwBlock => exact needInput_framed_movesStatus (crwBlockBody_keepsView s).image
  | crwRecon => exact Res.Post.landsIn (crwReconBody_framed s).movesStatus
  | crwMerge => exact needInput_framed_movesStatus (crwMergeBody_keepsView s).image
  | crwRun => exact needInput_movesStatus <| .guard <| .guard <| .guard <| .busy rfl
  | bmpRun mode => exact needInput_movesStatus <| .guard <| .guard <| .guard <| .busy rfl
  | sgiRun => exact needInput_movesStatus <| sgiConfigCheck_movesStatus <| .busy rfl
  | sgiLine channel row =>
    exact needInput_movesStatus <| sgiConfigCheck_movesStatus <| .guard
      (sgiLineBody_framed (channel.setWidth 32) (row.setWidth 32) s).image.st.movesStatus
  | hdrRun => exact needInput_movesStatus <| .guard <| .guard <| .busy rfl
  | illegalHostWord op a b => exact landsIn_next (.inr (.inr (.inl rfl)))
  | _ => cases hi

/-! ### Steps -/

theorem st_of_watched (h : watched t = watched s) : t.st = s.st := by
  simp only [watched, Prod.mk.injEq] at h
  exact h.2.2.1

theorem st_hardReset (s : State) : (hardReset s).st = .idle := st_of_watched (watched_hardReset s)

/-- While a run is in progress a write of a register does not end it (R281, R286). -/
theorem st_regWrite_of_busy {idx : BitVec 7} {v : Word} (hb : s.st = .busy) (h : regWrite idx v s = .next t) :
    t.st = .busy := by
  by_cases hidx : idx = 0x00#7
  · rw [regWrite, if_pos hidx, hostCommand_eq, if_pos (.inl hb)] at h
    cases h
    exact hb
  · exact (st_of_watched (watched_regWrite hidx h)).trans hb

/-- While a run is in progress, a step leaves the engine `BUSY`, is a hard reset, or is an engine step (R281, R340). -/
theorem step_cases_of_busy (hb : s.st = .busy) (h : step s = .next t) :
    t.st = .busy ∨ (t.st = .idle ∧ ∃ q, s.hostQ = .hardReset :: q) ∨ ∃ q, engineStep (s.withQueue q) = .next t := by
  cases hq : s.hostQ with
  | nil => exact .inr (.inr ⟨s.hostQ, step_busy hq hb ▸ h⟩)
  | cons e q =>
    have hbq : (s.withQueue q).st = .busy := hb
    rw [step_event hq] at h
    cases e with
    | regWr idx v => exact .inl (st_regWrite_of_busy hbq h)
    | regRd idx =>
      cases h
      exact .inl hb
    | memWr sp a bs => exact .inl ((st_of_watched (watched_memWrite h)).trans hb)
    | memRd sp a n => exact .inl ((st_of_watched (watched_memRead h)).trans hb)
    | tabWr sp k es => exact .inl ((st_of_watched (watched_tabWrite h)).trans hb)
    | tabRd sp k n => exact .inl ((st_of_watched (watched_tabRead h)).trans hb)
    | hardReset =>
      cases h
      exact .inr (.inl ⟨st_hardReset _, q, rfl⟩)
    | engineStep => exact .inr (.inr ⟨q, (if_pos hbq).symm.trans h⟩)

/-- The two words that are accepted in `ERROR` make the engine `IDLE` (R281, R284, R285). -/
theorem st_exec_of_acknowledge {w : Word} (hw : w = 0x01000000#32 ∨ w = 0x02000000#32)
    (h : exec (decodeHost w) s = .next t) : t.st = .idle := by
  rcases hw with rfl | rfl
  · rw [show decodeHost 0x01000000#32 = .reset by decide] at h
    cases h
    rfl
  · rw [show decodeHost 0x02000000#32 = .clear by decide] at h
    cases h
    rfl

/-- With no run in progress, a step leaves the engine where it was or makes it `IDLE`; in `ERROR` it does nothing else. -/
theorem step_cases_of_rest (hr : s.st ≠ .busy) (h : step s = .next t) :
    t.st = s.st ∨ t.st = .idle ∨ (s.st ≠ .error ∧ (t.st = .busy ∨ t.st = .error)) := by
  cases stepKind h with
  | quiet hw => exact .inl (st_of_watched hw)
  | hardReset q hq ht => exact .inr (.inl (ht ▸ st_hardReset _))
  | command w q hq hw ht =>
    by_cases herr : s.st = .error
    · exact .inr (.inl (st_exec_of_acknowledge (hw herr) ht))
    · rcases exec_host_movesStatus (format_decodeHost w) (s.withQueue q) t ht with hsame | hbusy | hraised | hidle
      · exact .inl hsame
      · exact .inr (.inr ⟨herr, .inl hbusy⟩)
      · exact .inr (.inr ⟨herr, .inr hraised⟩)
      · exact .inr (.inl hidle)
  | engine u hu hb ht => exact absurd hb hr

/-- Settles O60: the steps of a run, then the others. -/
theorem engineStateTransitions : Obligations.EngineStateTransitions := by
  intro s t h
  by_cases hb : s.st = .busy
  · rcases step_cases_of_busy hb h with hbusy | ⟨hidle, hreset⟩ | ⟨q, hengine⟩
    · simp [hb, hbusy]
    · simp [hb, hidle, hreset]
    · rcases engineStep_proceeds hengine with ⟨haborted, hflag⟩ | (hdone | herr) | ⟨hsame, -⟩
      · have hflag' : s.abort = true := hflag
        simp [hb, haborted, hflag']
      · simp [hb, hdone]
      · simp [hb, herr]
      · have hbusy : t.st = .busy := hsame.trans hb
        simp [hb, hbusy]
  · rcases step_cases_of_rest hb h with hsame | hidle | ⟨hok, hbusy | herr⟩
    · simp only [hsame]
      tauto
    · simp [hb, hidle]
    · simp [hok, hbusy]
    · simp [hb, herr]

end Sys2Proof.Machine
end

section
/-! PROOFS. The exceptions that come before any work: the prologue's `CONFIG` (R312) and the abort at a step boundary
(R315). -/

namespace Sys2Proof.Machine

variable {α : Type} {s : State}

/-- A stream longer than `IN` stops a command at its prologue, whatever the rest of it does (R312). -/
theorem needInput_outcome_of_long (hlong : s.params.inSize < s.inlen.toNat) (k : State → Res α) :
    (needInput s k).outcome = .next (s.raise .config) := by
  rw [needInput_eq, if_neg (Nat.not_le.2 hlong), Res.outcome_raised]

/-- Settles O8: each of the thirteen commands begins with the prologue. -/
theorem prologueRefusesLongStream : Obligations.PrologueRefusesLongStream := by
  intro s i hlong hreads
  rcases hreads with ⟨n, rfl⟩ | ⟨n, rfl⟩ | ⟨slot, rfl⟩ | ⟨slot, rfl⟩ | ⟨len, rfl⟩ | rfl | rfl | rfl | rfl |
    ⟨mode, rfl⟩ | rfl | ⟨channel, row, rfl⟩ | rfl
  all_goals exact needInput_outcome_of_long hlong _

/-- The abort flag is sampled before the unit's work (R315). -/
theorem engineStep_of_abort (habort : s.abort = true) : engineStep s = .next s.takeAbort := if_pos habort

/-- Settles O50: the engine step takes the abort, and with nothing pending the machine's step is that one. -/
theorem abortTakenAtBoundary : Obligations.AbortTakenAtBoundary := by
  intro s hb habort
  have hengine : engineStep s = .next s.takeAbort := engineStep_of_abort habort
  exact ⟨hengine, fun hq => (step_busy hq hb).trans hengine⟩

end Sys2Proof.Machine
end

section
/-! PROOFS. The decoder and the encoder are inverse to each other (R101 to R119). For the host words this rests on the
fields that a row of R105 fixes: a legal word is the encoding of the command of its row. -/

namespace Sys2Proof.Machine

open Sys2Proof.Ref

/-! ### The rows of the host map -/

section Rows
variable {op a : BitVec 8} {b : BitVec 16} {w : Word}

/-- Every word is made of its fields (R101). -/
theorem hostWord_fields (w : Word) :
    hostWord (w.extractLsb' 24 8) (w.extractLsb' 16 8) (w.extractLsb' 0 16) = w := by
  refine BitVec.eq_of_toNat_eq ?_
  have := w.isLt
  simp only [hostWord, BitVec.toNat_append, BitVec.extractLsb'_toNat, Nat.shiftRight_eq_div_pow]
  rw [← Nat.shiftLeft_add_eq_or_of_lt (by omega), ← Nat.shiftLeft_add_eq_or_of_lt (by omega)]
  simp only [Nat.shiftLeft_eq]
  omega

theorem hostWord_inj {op' a' : BitVec 8} {b' : BitVec 16} (h : hostWord op a b = hostWord op' a' b') :
    op = op' ∧ a = a' ∧ b = b' :=
  ⟨by rw [← op_hostWord (op := op), h, op_hostWord], by rw [← a_hostWord (a := a), h, a_hostWord],
    by rw [← b_hostWord (b := b), h, b_hostWord]⟩

/-- The opcode of each row, and the bits of `A` and `B` that the row fixes to 0 (R105). -/
def hostRowFields : List (BitVec 8 × BitVec 8 × BitVec 16) :=
  [(0x00#8, 0xFF#8, 0xFFFF#16), (0x01#8, 0xFF#8, 0xFFFF#16), (0x02#8, 0xFF#8, 0xFFFF#16),
   (0x10#8, 0xFF#8, 0xFFFF#16), (0x11#8, 0x00#8, 0xFFFF#16), (0x12#8, 0x00#8, 0xFFFF#16),
   (0x13#8, 0x00#8, 0xFFFF#16), (0x20#8, 0xFE#8, 0xFFFF#16), (0x21#8, 0xFF#8, 0xFFFF#16),
   (0x22#8, 0xFE#8, 0xFFFF#16), (0x23#8, 0xF0#8, 0xFFFF#16), (0x30#8, 0xFF#8, 0xFFFF#16),
   (0x31#8, 0xFF#8, 0xFFFF#16), (0x32#8, 0xFF#8, 0xFFFF#16), (0x33#8, 0xFF#8, 0xFFFF#16),
   (0x34#8, 0xFF#8, 0xFFFF#16), (0x35#8, 0xFF#8, 0xFFFF#16), (0x40#8, 0xFE#8, 0xFFFF#16),
   (0x50#8, 0xFF#8, 0xFFFF#16), (0x51#8, 0x00#8, 0x0000#16), (0x60#8, 0xFF#8, 0xFFFF#16)]

/-- The row of an opcode and of the bits it fixes. -/
def hostRowOf (f : BitVec 8 × BitVec 8 × BitVec 16) : HostRow := ⟨hostWord f.1 0#8 0#16, hostWord 0xFF#8 f.2.1 f.2.2⟩

theorem hostRows_eq : hostRows = hostRowFields.map hostRowOf := by decide

theorem hostRowOf_accepts {f : BitVec 8 × BitVec 8 × BitVec 16} :
    (hostRowOf f).accepts (hostWord op a b) = true ↔ op = f.1 ∧ a &&& f.2.1 = 0#8 ∧ b &&& f.2.2 = 0#16 := by
  have hop : op &&& 0xFF#8 = op := BitVec.and_allOnes
  rw [HostRow.accepts, hostRowOf, beq_iff_eq, hostWord_and, hop]
  exact ⟨hostWord_inj, fun ⟨ho, ha, hb⟩ => by rw [ho, ha, hb]⟩

/-- No two rows have the same opcode. -/
theorem nodup_hostRowFields : (hostRowFields.map Prod.fst).Nodup := by decide

/-- R105: the rows are disjoint, because a word has one opcode. -/
theorem length_acceptingRows_le (w : Word) : (hostRows.filter fun r => r.accepts w).length ≤ 1 := by
  rw [hostRows_eq, List.filter_map, List.length_map]
  have hnodup := nodup_hostRowFields.sublist (List.filter_sublist (l := hostRowFields)
    (p := (fun r : HostRow => r.accepts w) ∘ hostRowOf) |>.map Prod.fst)
  generalize hrows : hostRowFields.filter _ = rows at hnodup ⊢
  have hsame : rows.map Prod.fst = List.replicate rows.length (w.extractLsb' 24 8) := by
    refine List.eq_replicate_iff.2 ⟨List.length_map _, fun op hop => ?_⟩
    obtain ⟨f, hf, rfl⟩ := List.mem_map.1 hop
    rw [← hrows, List.mem_filter] at hf
    have haccepts : (hostRowOf f).accepts w = true := hf.2
    rw [← hostWord_fields w, hostRowOf_accepts] at haccepts
    exact haccepts.1.symm
  rwa [hsame, List.nodup_replicate] at hnodup

/-- The operands that the reserved bits of a row leave. -/
theorem append_of_and_bit : ∀ {a : BitVec 8}, a &&& 0xFE#8 = 0#8 → a = 0#7 ++ a.extractLsb' 0 1 := by decide

theorem append_of_and_nibble : ∀ {a : BitVec 8}, a &&& 0xF0#8 = 0#8 → a = 0#4 ++ a.extractLsb' 0 4 := by decide

/-- The word is the encoding of a legal host command. -/
def EncodesCommand (w : Word) : Prop :=
  ∃ i : Instr, i.wf = true ∧ encode i = .word w ∧ ∀ op a b, i ≠ .illegalHostWord op a b

/-- R102, R105: a legal word is the encoding of the command of its row. -/
theorem encodesCommand_of_legal (h : legalHostWord (hostWord op a b) = true) : EncodesCommand (hostWord op a b) := by
  rw [legalHostWord, hostRows_eq, List.any_map] at h
  obtain ⟨f, hf, haccepts⟩ := List.any_eq_true.1 h
  obtain ⟨rfl, ha, hb⟩ := hostRowOf_accepts.1 haccepts
  have hword (hb : b &&& 0xFFFF#16 = 0#16) : b = 0#16 := BitVec.and_allOnes.symm.trans hb
  have plain {k : BitVec 8} (hk : EncodesCommand (hostWord k 0#8 0#16)) (ha : a &&& 0xFF#8 = 0#8)
      (hb : b &&& 0xFFFF#16 = 0#16) : EncodesCommand (hostWord k a b) := by
    rwa [show a = 0#8 from BitVec.and_allOnes.symm.trans ha, hword hb]
  simp only [hostRowFields, List.mem_cons, List.not_mem_nil, or_false] at hf
  rcases hf with rfl | rfl | rfl | rfl | rfl | rfl | rfl | rfl | rfl | rfl | rfl | rfl | rfl | rfl | rfl | rfl | rfl |
    rfl | rfl | rfl | rfl
  · exact plain ⟨.nop, rfl, rfl, nofun⟩ ha hb
  · exact plain ⟨.reset, rfl, rfl, nofun⟩ ha hb
  · exact plain ⟨.clear, rfl, rfl, nofun⟩ ha hb
  · exact plain ⟨.brPrime, rfl, rfl, nofun⟩ ha hb
  · exact ⟨.brRead a, rfl, by rw [hword hb]; rfl, nofun⟩
  · exact ⟨.brPeek a, rfl, by rw [hword hb]; rfl, nofun⟩
  · exact ⟨.brSkip a, rfl, by rw [hword hb]; rfl, nofun⟩
  · exact ⟨.hufBuild (a.extractLsb' 0 1), rfl, by rw [encode, ← append_of_and_bit ha, hword hb], nofun⟩
  · exact plain ⟨.hufLoadt, rfl, rfl, nofun⟩ ha hb
  · exact ⟨.hufDecode (a.extractLsb' 0 1), rfl, by rw [encode, ← append_of_and_bit ha, hword hb], nofun⟩
  · exact ⟨.hufResid (a.extractLsb' 0 4), rfl, by rw [encode, ← append_of_and_nibble ha, hword hb], nofun⟩
  · exact plain ⟨.crwDetect, rfl, rfl, nofun⟩ ha hb
  · exact plain ⟨.crwInit, rfl, rfl, nofun⟩ ha hb
  · exact plain ⟨.crwBlock, rfl, rfl, nofun⟩ ha hb
  · exact plain ⟨.crwRecon, rfl, rfl, nofun⟩ ha hb
  · exact plain ⟨.crwMerge, rfl, rfl, nofun⟩ ha hb
  · exact plain ⟨.crwRun, rfl, rfl, nofun⟩ ha hb
  · exact ⟨.bmpRun (a.extractLsb' 0 1), rfl, by rw [encode, ← append_of_and_bit ha, hword hb], nofun⟩
  · exact plain ⟨.sgiRun, rfl, rfl, nofun⟩ ha hb
  · exact ⟨.sgiLine a b, rfl, rfl, nofun⟩
  · exact plain ⟨.hdrRun, rfl, rfl, nofun⟩ ha hb

end Rows

/-- R104: a word is illegal exactly when it decodes to the illegal command word of its fields. -/
theorem legalHostWord_eq_false_iff (w : Word) : legalHostWord w = false ↔
    decodeHost w = .illegalHostWord (w.extractLsb' 24 8) (w.extractLsb' 16 8) (w.extractLsb' 0 16) := by
  constructor
  · intro h
    rw [← hostWord_fields w] at h
    have hdecode := decodeHost_of_illegal h
    rwa [hostWord_fields] at hdecode
  · intro hdecode
    by_contra hlegal
    rw [Bool.not_eq_false, ← hostWord_fields w] at hlegal
    obtain ⟨i, hwf, hencode, hne⟩ := encodesCommand_of_legal hlegal
    rw [hostWord_fields] at hencode
    exact hne _ _ _ ((decodeHost_of_encode hwf hencode).symm.trans hdecode)

/-- Settles O3: a word has one opcode, and a legal word is the encoding of its row's command. -/
theorem hostMapLegality : Obligations.HostMapLegality := ⟨length_acceptingRows_le, legalHostWord_eq_false_iff⟩

/-- Every word is the encoding of one host instruction, which the decoder reads from it (R101 to R105). -/
theorem wf_encode_decodeHost (w : Word) : (decodeHost w).wf = true ∧ encode (decodeHost w) = .word w := by
  cases hlegal : legalHostWord w with
  | true =>
    rw [← hostWord_fields w] at hlegal
    obtain ⟨i, hwf, hencode, -⟩ := encodesCommand_of_legal hlegal
    rw [hostWord_fields] at hencode
    rw [decodeHost_of_encode hwf hencode]
    exact ⟨hwf, hencode⟩
  | false =>
    rw [(legalHostWord_eq_false_iff w).1 hlegal, encode, Instr.wf, hostWord_fields, hlegal]
    exact ⟨rfl, rfl⟩

/-- Settles O7: the meaning of the illegal word, and the words that decode to it. -/
theorem illegalWordRaises : Obligations.IllegalWordRaises := by
  refine ⟨fun _ _ _ _ => rfl, fun s w q hillegal hacc hq => ?_⟩
  rw [step_command hq, if_neg (by rcases hacc with h | h | h <;> simp [h]), (legalHostWord_eq_false_iff w).1 hillegal]
  rfl

/-! ### Stream instructions -/

section Bits
variable (hi lo : BitVec 4) (top : BitVec 1) (count : BitVec 7)

theorem highNibble_append : (hi ++ lo : Byte).extractLsb' 4 4 = hi := BitVec.extractLsb'_append_eq_left

theorem lowNibble_append : (hi ++ lo : Byte).extractLsb' 0 4 = lo := BitVec.extractLsb'_append_eq_right

theorem topBit_append : (top ++ count : Byte).extractLsb' 7 1 = top := BitVec.extractLsb'_append_eq_left

theorem lowCount_append : (top ++ count : Byte).extractLsb' 0 7 = count := BitVec.extractLsb'_append_eq_right

end Bits

/-- A byte is its two nibbles. -/
theorem append_nibbles : ∀ b : Byte, b.extractLsb' 4 4 ++ b.extractLsb' 0 4 = b := by decide

/-- A byte is its top bit and the count below it (R113, R116). -/
theorem append_topBit : ∀ b : Byte, b.extractLsb' 7 1 ++ b.extractLsb' 0 7 = b := by decide

/-- R111: a run has a count, and an absolute run more pixels than the ends and the delta have in their second byte. -/
theorem decode_encode_bmp {i : Instr} {mode : Bool} (hf : i.format = .bmp mode) (hwf : i.wf = true) :
    decode (.bmp mode) (encode i) = .instr i := by
  have habs {n : Byte} (h : 3 ≤ n.toNat) : n ≠ 0#8 ∧ n ≠ 1#8 ∧ n ≠ 2#8 := by
    refine ⟨?_, ?_, ?_⟩ <;> rintro rfl <;> exact absurd h (by decide)
  cases i <;> cases hf
  case bmpRun8 count value =>
    have hcount : count ≠ 0#8 := by simpa [Instr.wf] using hwf
    simp [encode, decode, decodeBmp, hcount]
  case bmpRun4 count pixEven pixOdd =>
    have hcount : count ≠ 0#8 := by simpa [Instr.wf] using hwf
    simp [encode, decode, decodeBmp, hcount, highNibble_append, lowNibble_append]
  case bmpAbs8 n | bmpAbs4 n =>
    obtain ⟨h0, h1, h2⟩ := habs (of_decide_eq_true hwf)
    simp [encode, decode, decodeBmp, h0, h1, h2]
  all_goals rfl

/-- R113: the top bit tells the two runs apart, and the count of each is not 0. -/
theorem decode_encode_sgi {i : Instr} (hf : i.format = .sgi) (hwf : i.wf = true) :
    decode .sgi (encode i) = .instr i := by
  cases i <;> cases hf
  case sgiEnd type => simp [encode, decode, decodeSgi, topBit_append, lowCount_append]
  case sgiVerbatim count | sgiRepeat count =>
    have hcount : count ≠ 0#7 := by simpa [Instr.wf] using hwf
    simp [encode, decode, decodeSgi, topBit_append, lowCount_append, hcount]

/-- The two parts of a header's width are put together again (R115). -/
theorem headerWidth_parts (width : BitVec 15) :
    headerWidth (0#1 ++ width.extractLsb' 8 7) (width.extractLsb' 0 8) = width := by
  have hhigh : (0#1 ++ width.extractLsb' 8 7 : Byte).toNat < 128 := by
    rw [← topBit_eq_zero_iff, topBit_append]
  refine BitVec.eq_of_toNat_eq ((toNat_headerWidth _ hhigh).trans ?_)
  have := width.isLt
  simp only [BitVec.toNat_append, BitVec.toNat_ofNat, Nat.zero_mod, Nat.zero_shiftLeft, Nat.zero_or,
    BitVec.extractLsb'_toNat, Nat.shiftRight_eq_div_pow]
  omega

theorem decode_encode_hdrh {i : Instr} (hf : i.format = .hdrh) : decode .hdrh (encode i) = .instr i := by
  cases i <;> cases hf
  case hdrHeader width =>
    have hhead : (0#1 ++ width.extractLsb' 8 7 : Byte).toNat < 128 := by
      rw [← topBit_eq_zero_iff, topBit_append]
    exact (decodeHeader_of_header _ ⟨rfl, rfl, hhead⟩).trans (by rw [headerWidth_parts])

/-- R116: the control byte 0, the literal counts up to 128 and the repeat counts above it. -/
theorem decode_encode_hdr1 {i : Instr} (hf : i.format = .hdr1) (hwf : i.wf = true) :
    decode .hdr1 (encode i) = .instr i := by
  have hrepeat : ∀ count : BitVec 7, count ≠ 0#7 → decodeHdr (1#1 ++ count) = .hdrRepeat count := by decide
  have hliteral : ∀ count : Byte, 1 ≤ count.toNat → count.toNat ≤ 128 → decodeHdr count = .hdrLiteral count := by
    decide
  cases i <;> cases hf
  case hdrInvalid => rfl
  case hdrLiteral count =>
    rw [Instr.wf, Bool.and_eq_true, decide_eq_true_eq, decide_eq_true_eq] at hwf
    exact congrArg Decoded.instr (hliteral count hwf.1 hwf.2)
  case hdrRepeat count => exact congrArg Decoded.instr (hrepeat count (by simpa [Instr.wf] using hwf))

/-- R118: the classes by the nibbles of the symbol; 0 is the terminator only where its condition holds. -/
theorem decode_encode_hsym {i : Instr} {eob : Bool} (hf : i.format = .hsym eob) (hwf : i.wf = true) :
    decode (.hsym eob) (encode i) = .instr i := by
  have hzero : ∀ run : BitVec 4, decodeSymbolClass false (run ++ 0#4) = .crwZero run := by decide
  have hresid : ∀ run len : BitVec 4, (Instr.crwResid run len).wf = true →
      decodeSymbolClass false (run ++ len) = .crwResid run len := by decide
  cases i <;> cases hf
  case crwEob | crwContinue => rfl
  case crwZero run => exact congrArg Decoded.instr (hzero run)
  case crwResid run len => exact congrArg Decoded.instr (hresid run len hwf)

/-- R119: the counts say how many symbols follow. -/
theorem decode_encode_tspec {i : Instr} (hf : i.format = .tspec) (hwf : i.wf = true) :
    decode .tspec (encode i) = .instr i := by
  cases i <;> cases hf
  case tablespec counts symbols =>
    rw [Instr.wf, Bool.and_eq_true, beq_iff_eq, beq_iff_eq] at hwf
    obtain ⟨hcounts, hsymbols⟩ := hwf
    have hhead : (counts ++ symbols).take 16 = counts := List.take_left' hcounts
    have htail : (counts ++ symbols).drop 16 = symbols := List.drop_left' hcounts
    show decodeTspec (counts ++ symbols) = _
    simp only [decodeTspec, hhead, htail, ← hsymbols, List.length_append, hcounts, List.take_length, lt_irrefl,
      if_false]

theorem decode_encode_host {i : Instr} (hf : i.format = .host) (hwf : i.wf = true) :
    decode .host (encode i) = .instr i := by
  have hword : ∃ w, encode i = .word w := by cases i <;> cases hf <;> exact ⟨_, rfl⟩
  obtain ⟨w, hencode⟩ := hword
  rw [hencode]
  exact congrArg Decoded.instr (decodeHost_of_encode hwf hencode)

/-- Settles O1: a host word is the word of its command, and each stream format reads its own bytes back. -/
theorem decodeEncodeAgree : Obligations.DecodeEncodeAgree := by
  intro i hwf
  cases hf : i.format with
  | host => exact decode_encode_host hf hwf
  | bmp mode => exact decode_encode_bmp hf hwf
  | sgi => exact decode_encode_sgi hf hwf
  | hdrh => exact decode_encode_hdrh hf
  | hdr1 => exact decode_encode_hdr1 hf hwf
  | hsym eob => exact decode_encode_hsym hf hwf
  | tspec => exact decode_encode_tspec hf hwf

/-! ### What the decoder reads -/

theorem wf_encode_decodeBmp (mode : Bool) (b1 b2 : Byte) :
    (decodeBmp mode b1 b2).wf = true ∧ encode (decodeBmp mode b1 b2) = .bytes [b1, b2] := by
  have habs : b2 ≠ 0#8 → b2 ≠ 1#8 → b2 ≠ 2#8 → decide (3 ≤ b2.toNat) = true := by revert b2; decide
  unfold decodeBmp
  split_ifs with hcount hmode heol heob hdelta hmode
  · exact ⟨bne_iff_ne.2 hcount, by rw [encode, append_nibbles]⟩
  · exact ⟨bne_iff_ne.2 hcount, rfl⟩
  · rw [not_not.1 hcount, heol]; exact ⟨rfl, rfl⟩
  · rw [not_not.1 hcount, heob]; exact ⟨rfl, rfl⟩
  · rw [not_not.1 hcount, hdelta]; exact ⟨rfl, rfl⟩
  · rw [not_not.1 hcount]; exact ⟨habs heol heob hdelta, rfl⟩
  · rw [not_not.1 hcount]; exact ⟨habs heol heob hdelta, rfl⟩

theorem wf_encode_decodeSgi (ctl : Byte) : (decodeSgi ctl).wf = true ∧ encode (decodeSgi ctl) = .bytes [ctl] := by
  have hctl := append_topBit ctl
  unfold decodeSgi
  dsimp only
  split_ifs with hend htype
  · rw [hend] at hctl
    exact ⟨rfl, by rw [encode, hctl]⟩
  · rw [htype] at hctl
    exact ⟨bne_iff_ne.2 hend, by rw [encode, hctl]⟩
  · have hbit : ctl.extractLsb' 7 1 = 0#1 := (BitVec.eq_zero_or_eq_one _).resolve_right htype
    rw [hbit] at hctl
    exact ⟨bne_iff_ne.2 hend, by rw [encode, hctl]⟩

theorem wf_encode_decodeHdr (ctl : Byte) : (decodeHdr ctl).wf = true ∧ encode (decodeHdr ctl) = .bytes [ctl] := by
  have hrepeat : 128 < ctl.toNat → ctl.extractLsb' 0 7 ≠ 0#7 ∧ 1#1 ++ ctl.extractLsb' 0 7 = ctl := by
    revert ctl; decide
  unfold decodeHdr
  split_ifs with hlarge hzero
  · exact ⟨bne_iff_ne.2 (hrepeat hlarge).1, by rw [encode, (hrepeat hlarge).2]⟩
  · exact ⟨rfl, by rw [encode, hzero]⟩
  · have hpos : ctl.toNat ≠ 0 := fun h => hzero (BitVec.eq_of_toNat_eq h)
    exact ⟨by simp [Instr.wf]; omega, rfl⟩

theorem wf_encode_decodeSymbolClass (eob : Bool) (sym : Byte) :
    (decodeSymbolClass eob sym).wf = true ∧ encode (decodeSymbolClass eob sym) = .bytes [sym] := by
  have hsym := append_nibbles sym
  unfold decodeSymbolClass
  dsimp only
  split_ifs with heob hcontinue hlen
  · exact ⟨rfl, by rw [encode, heob.2]⟩
  · exact ⟨rfl, by rw [encode, hcontinue]⟩
  · rw [hlen] at hsym
    exact ⟨rfl, by rw [encode, hsym]⟩
  · refine ⟨?_, by rw [encode, hsym]⟩
    have hfull : ¬ (sym.extractLsb' 4 4 = 15#4 ∧ sym.extractLsb' 0 4 = 15#4) := by
      rintro ⟨hrun, hlen⟩
      rw [hrun, hlen] at hsym
      exact hcontinue hsym.symm
    simp only [Instr.wf, Bool.and_eq_true, bne_iff_ne, Bool.not_eq_true', Bool.and_eq_false_iff, beq_eq_false_iff_ne]
    exact ⟨hlen, not_and_or.1 hfull⟩

theorem wf_encode_of_decodeHeader {h0 h1 hi lo : Byte} {i : Instr} (h : decodeHeader h0 h1 hi lo = .instr i) :
    i.wf = true ∧ encode i = .bytes [h0, h1, hi, lo] := by
  unfold decodeHeader at h
  split_ifs at h with hhead
  obtain ⟨rfl, rfl, htop⟩ := hhead
  cases h
  have hhi : (headerWidth hi lo).extractLsb' 8 7 = hi.extractLsb' 0 7 := BitVec.extractLsb'_append_eq_left
  have hlo : (headerWidth hi lo).extractLsb' 0 8 = lo := BitVec.extractLsb'_append_eq_right
  have hbyte := append_topBit hi
  rw [htop] at hbyte
  exact ⟨rfl, congrArg Encoded.bytes (by rw [← headerWidth, hhi, hlo, hbyte])⟩

theorem wf_encode_of_decodeTspec {bs : List Byte} {i : Instr} (h : decodeTspec bs = .instr i) :
    i.wf = true ∧ ∃ own, encode i = .bytes own ∧ own <+: bs := by
  unfold decodeTspec at h
  dsimp only at h
  split_ifs at h with hshort
  cases h
  have hroom := not_lt.1 hshort
  have hcounts : (bs.take 16).length = 16 := List.length_take_of_le (by omega)
  refine ⟨?_, _, rfl, ?_⟩
  · rw [Instr.wf, hcounts, List.length_take_of_le (by rw [List.length_drop]; omega), beq_self_eq_true,
      beq_self_eq_true]
    rfl
  · rw [← List.take_add]
    exact List.take_prefix _ _

/-- Bytes that a stream format reads begin with the encoding of what it reads (R111 to R119). -/
theorem wf_encode_of_bytes {f : Format} {bs : List Byte} {i : Instr} (h : decode f (.bytes bs) = .instr i) :
    i.wf = true ∧ ∃ own, encode i = .bytes own ∧ own <+: bs := by
  have hbegin {own rest : List Byte} (hi : i.wf = true ∧ encode i = .bytes own) :
      i.wf = true ∧ ∃ own', encode i = .bytes own' ∧ own' <+: own ++ rest :=
    ⟨hi.1, own, hi.2, List.prefix_append own rest⟩
  unfold decode at h
  split at h
  case h_1 heq => cases heq
  case h_3 mode b1 b2 rest heq => cases heq; cases h; exact hbegin (wf_encode_decodeBmp mode b1 b2)
  case h_4 ctl rest heq => cases heq; cases h; exact hbegin (wf_encode_decodeSgi ctl)
  case h_5 h0 h1 hi lo rest heq => cases heq; exact hbegin (wf_encode_of_decodeHeader h)
  case h_6 ctl rest heq => cases heq; cases h; exact hbegin (wf_encode_decodeHdr ctl)
  case h_7 eob sym rest heq => cases heq; cases h; exact hbegin (wf_encode_decodeSymbolClass eob sym)
  case h_8 heq => cases heq; exact wf_encode_of_decodeTspec h
  all_goals cases h

/-- Only the host format reads words (R101). -/
theorem wf_encode_of_word {f : Format} {w : Word} {i : Instr} (h : decode f (.word w) = .instr i) :
    i.wf = true ∧ encode i = .word w := by
  cases f <;> cases h
  exact wf_encode_decodeHost w

/-- Settles O2: the words by the rows of the host map, the bytes format by format. -/
theorem decodedInstructionsReencode : Obligations.DecodedInstructionsReencode := by
  intro f e i h
  cases e with
  | word w =>
    obtain ⟨hwf, hencode⟩ := wf_encode_of_word h
    exact ⟨hwf, by rw [hencode]⟩
  | bytes bs =>
    obtain ⟨hwf, own, hencode, hown⟩ := wf_encode_of_bytes h
    exact ⟨hwf, by rw [hencode]; exact hown⟩

/-- Settles O4: each of the words and bytes is the encoding of its instruction. -/
theorem sampleWordsDecode : Obligations.SampleWordsDecode :=
  ⟨rfl, rfl, rfl, rfl, rfl, rfl, rfl, rfl, rfl, rfl, rfl, rfl⟩

end Sys2Proof.Machine
end

section
/-! PROOFS. The engine runs what the decoder reads (R206, R320): each item function makes the decoder's tests in the
decoder's order, and its branches are the meanings of the instructions that the decoder's branches name. -/

namespace Sys2Proof.Machine

open Sys2Proof.Ref

variable {s : State} {i : Instr}

/-- A step of a BMP run with a command left fetches its two bytes and runs what they decode to (R206). -/
theorem step_bmp_command (hs : StreamOk s) (hq : s.hostQ = []) (hb : s.st = .busy) (hunit : s.unit = .bmp)
    (habort : s.abort = false) (hfull : bmpFull s = false) (hmore : s.ipos.toNat + 2 ≤ s.inlen.toNat) :
    step s = exec (decodeBmp (decide (s.phase ≠ 0#32)) (Memory.read s.inMem s.ipos.toNat)
      (Memory.read s.inMem (s.ipos.toNat + 1))) { s with ipos := s.ipos + 2#32 } := by
  have hpos : (s.withIpos (s.ipos + 1#32)).ipos.toNat = s.ipos.toNat + 1 :=
    toNat_succ_of_lt (show s.ipos.toNat < s.inlen.toNat by omega) s.inlen.isLt
  have hsecond := fetchByte_of_lt (s := s.withIpos (s.ipos + 1#32)) (show _ < s.inlen.toNat by omega) hs
  have htwo : s.ipos + 1#32 + 1#32 = s.ipos + 2#32 := BitVec.add_assoc _ _ _
  rw [step_busy hq hb, engineStep_bmp hunit habort, bmpEngineStep_of_command (by simp [hfull]) (by omega),
    fetchByte_of_lt (by omega) hs, Res.andThen_ok, hsecond, Res.andThen_ok, hpos, State.withIpos_ipos, htwo]
  rfl

/-- An SGI control byte (R113). -/
theorem sgiCommand_outcome (ctl : Byte) (s : State) : (sgiCommand ctl s).outcome = exec (decodeSgi ctl) s := by
  unfold sgiCommand decodeSgi
  dsimp only
  split_ifs <;> rfl

/-- An HDR control byte (R116). -/
theorem hdrCommand_outcome (ctl : Byte) (s : State) : (hdrCommand ctl s).outcome = exec (decodeHdr ctl) s := by
  unfold hdrCommand decodeHdr
  split_ifs <;> rfl

/-- The terminator's condition holds of the symbol 0 alone (R174). -/
theorem sym_of_eobCondition {sym : Byte} (h : eobCondition s sym = true) : sym = 0x00#8 := by
  unfold eobCondition at h
  split at h <;> simp_all

/-- A CRW symbol (R118). -/
theorem crwSymbol_outcome (sym : Byte) (s : State) :
    (crwSymbol sym s).outcome = exec (decodeSymbolClass (eobCondition s sym) sym) s := by
  have heob : (eobCondition s sym = true ∧ sym = 0x00#8) ↔ eobCondition s sym = true :=
    and_iff_left_of_imp sym_of_eobCondition
  unfold crwSymbol decodeSymbolClass
  simp only [heob]
  split_ifs <;> rfl

/-- A scanline header (R115): its four bytes are fetched and matched. -/
theorem fetchHeader_outcome (hs : StreamOk s) (hmore : s.ipos.toNat + 4 ≤ s.inlen.toNat)
    (h : decode .hdrh (.bytes (Memory.readAll s.inMem s.ipos.toNat 4)) = .instr i) :
    (fetchHeader s).outcome = exec i { s with ipos := s.ipos + 4#32 } := by
  have hlen := length_streamTail s
  have hbytes : (streamTail s).take 4 = Memory.readAll s.inMem s.ipos.toNat 4 := Memory.readAll_take _ _ (by omega)
  have hseek : s.seek ((streamTail s).drop 4) = { s with ipos := s.ipos + 4#32 } := by
    rw [State.seek, List.length_drop, show (streamTail s).length - ((streamTail s).length - 4) = 4 by omega]
    rfl
  rw [fetchHeader_eq, fetchMany_of_le hs (by omega), hbytes, hseek]
  simp only [Memory.readAll] at h ⊢
  have hdecode : decodeHeader (Memory.read s.inMem s.ipos.toNat) (Memory.read s.inMem (s.ipos.toNat + 1))
    (Memory.read s.inMem (s.ipos.toNat + 1 + 1)) (Memory.read s.inMem (s.ipos.toNat + 1 + 1 + 1)) = .instr i := h
  obtain ⟨width, rfl⟩ : ∃ width, i = .hdrHeader width := by
    unfold decodeHeader at hdecode
    split_ifs at hdecode
    exact ⟨_, (Decoded.instr.inj hdecode).symm⟩
  show (matchHeader _ _ _ _ _).outcome = _
  simp only [matchHeader, List.getD_cons_zero, List.getD_cons_succ, hdecode]
  rfl

/-- Settles O47: each item function does what the decoder's reading of its bytes means. -/
theorem stepRunsDecodedItem : Obligations.StepRunsDecodedItem := by
  refine ⟨fun s i hs hq hb hunit habort hfull hmore h => ?_, fun s i ctl h => ?_, fun s i ctl h => ?_,
    fun s i hs hmore h => fetchHeader_outcome hs hmore h, fun s i sym h => ?_⟩
  · cases h; exact step_bmp_command hs hq hb hunit habort hfull hmore
  · cases h; exact sgiCommand_outcome ctl s
  · cases h; exact hdrCommand_outcome ctl s
  · cases h; exact crwSymbol_outcome sym s

end Sys2Proof.Machine
end

section
/-! PROOFS. The items of the HDR run-length path one by one (R115, R258 to R261): the end of each run's pseudocode, said
in the registers and in `SCAN`. -/

namespace Sys2Proof.Machine

open Sys2Proof.Ref

variable {s : State}

/-- The scanline header (R258). -/
theorem hdrHeaderBody_eq (width : BitVec 15) (s : State) :
    hdrHeaderBody width s = if width.toNat = s.width.toNat then .ok () s else .raised (s.raise .corrupt) := by
  rw [hdrHeaderBody, ite_not, raise_eq]

/-- What a run in a plane leaves (R259, R260), with `n` bytes of the stream consumed. -/
theorem planeAdvance_drop (n : Nat) (hn : n ≤ (streamTail s).length) (bs : List Byte) :
    s.planeAdvance ((streamTail s).drop n) bs = { s with
      ipos := s.ipos + BitVec.ofNat 32 n,
      scan := Memory.writeAll s.scan (scanKey s.loc.plane s.loc.planeX) bs,
      loc := { s.loc with planeX := s.loc.planeX + bs.length } } := by
  rw [State.planeAdvance, State.seek, List.length_drop, Nat.sub_sub_self hn]
  rfl

/-- The cursor at the end of the stream (R78). -/
theorem seek_nil (h : s.ipos.toNat ≤ s.inlen.toNat) : s.seek [] = { s with ipos := s.inlen } := by
  have hend : s.ipos + BitVec.ofNat 32 (s.inlen.toNat - s.ipos.toNat) = s.inlen := by
    refine BitVec.eq_of_toNat_eq ?_
    have := s.inlen.isLt
    rw [BitVec.toNat_add, BitVec.toNat_ofNat]
    omega
  rw [State.seek, length_streamTail, List.length_nil, Nat.sub_zero, hend]
  rfl

/-- A repeat run with a byte left (R259). -/
theorem hdrRepeatBody_next {count : BitVec 7} (hs : PlaneReady s)
    (hroom : s.loc.planeX + count.toNat ≤ s.width.toNat) (hmore : s.ipos.toNat < s.inlen.toNat) :
    hdrRepeatBody count s = .ok () { s with
      ipos := s.ipos + 1#32,
      scan := Memory.writeAll s.scan (scanKey s.loc.plane s.loc.planeX)
        (List.replicate count.toNat (Memory.read s.inMem s.ipos.toNat)),
      loc := { s.loc with planeX := s.loc.planeX + count.toNat } } := by
  have htail : streamTail s = Memory.read s.inMem s.ipos.toNat :: (streamTail s).drop 1 := by
    rw [streamTail, readAll_of_lt hmore, List.drop_one, List.tail_cons]
  rw [hdrRepeatBody_of_fits hs hroom htail, planeAdvance_drop 1 (by rw [length_streamTail]; omega),
    List.length_replicate]

/-- A literal run with its bytes left (R260). -/
theorem hdrLiteralBody_next {count : BitVec 8} (hs : PlaneReady s)
    (hroom : s.loc.planeX + count.toNat ≤ s.width.toNat) (hmore : s.ipos.toNat + count.toNat ≤ s.inlen.toNat) :
    hdrLiteralBody count s = .ok () { s with
      ipos := s.ipos + count.setWidth 32,
      scan := Memory.writeAll s.scan (scanKey s.loc.plane s.loc.planeX)
        (Memory.readAll s.inMem s.ipos.toNat count.toNat),
      loc := { s.loc with planeX := s.loc.planeX + count.toNat } } := by
  have hlen : count.toNat ≤ (streamTail s).length := by rw [length_streamTail]; omega
  have htake : (streamTail s).take count.toNat = Memory.readAll s.inMem s.ipos.toNat count.toNat :=
    Memory.readAll_take _ _ (by omega)
  rw [hdrLiteralBody_of_fits hs hroom hlen, planeAdvance_drop _ hlen, htake, Memory.length_readAll,
    BitVec.ofNat_toNat]

/-- Settles O41: the tests of each item in their order, and the two runs behind them. -/
theorem hdrPlaneItems : Obligations.HdrPlaneItems := by
  have hready {s : State} {n : Nat} (hs : StreamOk s) (hroom : s.loc.planeX + n ≤ s.width.toNat)
      (hwidth : s.width.toNat ≤ 0x7FFF) (hplane : s.loc.plane < 4) : PlaneReady s :=
    ⟨hs, (Nat.le_add_right _ _).trans hroom, hwidth, hplane⟩
  refine ⟨fun s width => ⟨fun h => ?_, fun h => ?_⟩, fun _ => rfl, fun s count hover => ?_, fun s count hover => ?_,
    fun s count hs hroom hwidth hplane => ⟨fun hend => ?_, fun hmore => ?_⟩,
    fun s count hs hroom hwidth hplane _ => ⟨fun hle hcut => ?_, fun hmore => ?_⟩⟩
  · exact congrArg Res.outcome ((hdrHeaderBody_eq width s).trans (if_pos h))
  · exact congrArg Res.outcome ((hdrHeaderBody_eq width s).trans (if_neg h))
  · exact congrArg Res.outcome (hdrRepeatBody_overflow hover)
  · exact congrArg Res.outcome (hdrLiteralBody_overflow hover)
  · have htail : streamTail s = [] := readAll_of_le hend
    have hcut := hdrRepeatBody_cut hroom htail
    rw [← htail, seek_streamTail] at hcut
    exact congrArg Res.outcome hcut
  · exact ⟨_, congrArg Res.outcome (hdrRepeatBody_next (hready hs hroom hwidth hplane) hroom hmore), rfl,
      bytesWritten_writeAll _ _ _⟩
  · have hraised := hdrLiteralBody_cut (hready hs hroom hwidth hplane) hroom (by rw [length_streamTail]; omega)
    rw [seek_nil hle] at hraised
    exact ⟨_, congrArg Res.outcome hraised, rfl, bytesWritten_writeAll _ _ _⟩
  · exact ⟨_, congrArg Res.outcome (hdrLiteralBody_next (hready hs hroom hwidth hplane) hroom hmore), rfl,
      bytesWritten_writeAll _ _ _⟩

end Sys2Proof.Machine
end

section
/-! PROOFS. A table specification given as bytes (R119, R154): the expansion either reads a whole specification that
fits, or ends with `TABLE`, whether its bytes run out or a leaf has no room. -/

namespace Sys2Proof.Machine

open Sys2Proof.Ref

variable {s : State} {bytes counts symbols rest : List Byte}

/-! ### Bytes as a source -/

theorem listSource_delivers (h : symbols <+: bytes) (s : State) : Delivers (listSource bytes) symbols fun _ => s := by
  obtain ⟨rest, rfl⟩ := h
  intro i hi
  have hbyte : (symbols ++ rest)[i]? = some (symbols.getD i 0#8) := by
    rw [List.getElem?_append_left hi, List.getElem?_eq_getElem hi, List.getD_eq_getElem _ _ hi]
  simp only [listSource, hbyte]

theorem listSource_of_le {i : Nat} (h : bytes.length ≤ i) (s : State) :
    listSource bytes i s = .raised (s.raise .table) := by
  simp only [listSource, List.getElem?_eq_none h, raise_eq]

/-! ### The expansion of a table specification -/

/-- Bytes that begin with a specification that fits. -/
theorem buildFrom_table (hfits : SpecFits counts symbols) (rest : List Byte) (s : State) :
    buildFrom (listSource (counts ++ symbols ++ rest)) s = .ok (canonicalLeaves counts symbols) s :=
  buildFrom_canonical hfits (listSource_delivers (List.prefix_append _ rest) s)

/-- Bytes that end inside the counts. -/
theorem buildFrom_cutCounts (h : bytes.length < 16) (s : State) :
    buildFrom (listSource bytes) s = .raised (s.raise .table) := by
  have hcounts := readCounts_raised (listSource_delivers List.prefix_rfl s) (listSource_of_le le_rfl s) 16 0
    (Nat.zero_le _) (by omega)
  rw [buildFrom, hcounts, Res.bind_raised]

/-- Counts that fit the code space, with too few symbols behind them. -/
theorem buildFrom_cutSymbols (hcounts : counts.length = 16) (hspace : codeSpace counts ≤ 2 ^ 16)
    (hshort : symbols.length < (leafLengths counts).length) (s : State) :
    buildFrom (listSource (counts ++ symbols)) s = .raised (s.raise .table) := by
  have hfit := (spaceBefore_mono (leafLengths counts) 16 symbols.length).trans (codeSpace_eq counts ▸ hspace)
  refine buildFrom_raised (listSource_delivers List.prefix_rfl s) hcounts hshort hfit fun l n x hk _ => ?_
  have hend : listSource (counts ++ symbols) (16 + x.k) s = .raised (s.raise .table) :=
    listSource_of_le (by rw [List.length_append, hcounts, hk]) s
  rw [expandLevel, hend, raise_eq, Res.bind_raised, ite_self]

/-- Counts that over-subscribe the code space, however many symbols stand behind them. -/
theorem buildFrom_overTable (hcounts : counts.length = 16) (hspace : 2 ^ 16 < codeSpace counts) (s : State) :
    buildFrom (listSource (counts ++ symbols)) s = .raised (s.raise .table) := by
  by_cases hshort : symbols.length < placedLeaves counts
  · exact buildFrom_short (listSource_delivers List.prefix_rfl s) hcounts hshort
      (listSource_of_le (by rw [List.length_append, hcounts]) s)
  · have hprefix : counts ++ symbols.take (placedLeaves counts) <+: counts ++ symbols :=
      (List.prefix_append_right_inj counts).2 (List.take_prefix _ _)
    exact buildFrom_overSubscribed (listSource_delivers hprefix s) hcounts (List.length_take_of_le (not_lt.1 hshort))
      hspace

/-- Bytes that begin with no specification that fits (R154). -/
theorem buildFrom_of_not_loadable (h : ¬ Loadable bytes) (s : State) :
    buildFrom (listSource bytes) s = .raised (s.raise .table) := by
  by_cases hcut : bytes.length < 16
  · exact buildFrom_cutCounts hcut s
  have hcounts : (bytes.take 16).length = 16 := List.length_take_of_le (not_lt.1 hcut)
  have hbytes := List.take_append_drop 16 bytes
  by_cases hspace : codeSpace (bytes.take 16) ≤ 2 ^ 16
  · have hshort : (bytes.drop 16).length < (leafLengths (bytes.take 16)).length := by
      rw [List.length_drop]
      by_contra hlong
      exact h ⟨not_lt.1 hcut, by omega, hspace⟩
    have hraised := buildFrom_cutSymbols hcounts hspace hshort s
    rwa [hbytes] at hraised
  · have hraised := buildFrom_overTable (symbols := bytes.drop 16) hcounts (not_le.1 hspace) s
    rwa [hbytes] at hraised

/-! ### A slot and both slots -/

theorem buildSlot_table (hfits : SpecFits counts symbols) (rest : List Byte) (slot : BitVec 1) (s : State) :
    buildSlot (listSource (counts ++ symbols ++ rest)) slot s =
      .ok () (s.withTree slot true (canonicalLeaves counts symbols)) := by
  rw [buildSlot, buildFrom_table hfits, Res.bind_ok, withTree_withTree]

theorem buildSlot_of_not_loadable (h : ¬ Loadable bytes) (slot : BitVec 1) (s : State) :
    buildSlot (listSource bytes) slot s = .raised ((s.withTree slot false []).raise .table) := by
  rw [buildSlot, buildFrom_of_not_loadable h, Res.bind_raised]

theorem clampTable_eq (table : Word) : clampTable table = min table.toNat 2 := by
  unfold clampTable
  split <;> omega

/-- `HUF.LOADT` is the build of slot 0 and then that of slot 1, from the two byte sequences of one table (R154). -/
theorem exec_hufLoadt (s : State) : exec .hufLoadt s =
    ((buildSlot (listSource (s.params.tabrom.spec (min s.table.toNat 2) false)) 0#1 s).bind fun _ u =>
      buildSlot (listSource (u.params.tabrom.spec (min s.table.toNat 2) true)) 1#1 u).outcome := by
  rw [← clampTable_eq]
  rfl

/-- Settles O17: the two builds of `HUF.LOADT`, and the build of a specification in hand. -/
theorem tablesBuildCanonical : Obligations.TablesBuildCanonical := by
  refine ⟨fun s c₀ y₀ e₀ c₁ y₁ e₁ h₀ h₁ hfits₀ hfits₁ => ?_, fun s h => ?_, fun s c₀ y₀ e₀ h₀ hfits₀ h => ?_,
    fun s counts symbols hfits => ?_, fun s counts symbols hwf hspace => ?_⟩
  · rw [exec_hufLoadt, h₀, buildSlot_table hfits₀, Res.bind_ok, State.withTree_params, h₁, buildSlot_table hfits₁,
      Res.outcome_ok]
  · rw [exec_hufLoadt, buildSlot_of_not_loadable h, Res.bind_raised, Res.outcome_raised]
  · rw [exec_hufLoadt, h₀, buildSlot_table hfits₀, Res.bind_ok, State.withTree_params, buildSlot_of_not_loadable h,
      Res.outcome_raised]
  · have hbuild := buildSlot_table hfits [] s.loc.slot s
    rw [List.append_nil] at hbuild
    exact congrArg Res.outcome hbuild
  · rw [Instr.wf, Bool.and_eq_true, beq_iff_eq, beq_iff_eq] at hwf
    have hbuild : buildSlot (listSource (counts ++ symbols)) s.loc.slot s =
        .raised ((s.withTree s.loc.slot false []).raise .table) := by
      rw [buildSlot, buildFrom_overTable hwf.1 hspace, Res.bind_raised]
    exact congrArg Res.outcome hbuild

end Sys2Proof.Machine
end

section
/-! PROOFS. The symbol classes of CRW (R118, R174 to R176): each of them moves the position by a flag or a number of
places, and a residual with raw bits is the one class that reads the stream. -/

namespace Sys2Proof.Machine

open Sys2Proof.Ref

variable {s u : State} {run len : BitVec 4}

/-- The window and the cursor of the later state, written out. -/
theorem SameButWindow.exists_eq (h : SameButWindow s u) :
    ∃ b v p, u = { s with bitbuf := b, vbits := v, ipos := p } := ⟨_, _, _, h⟩

theorem crwZeroBody_next (h : s.loc.pos + run.toNat ≤ 63) : crwZeroBody run s =
    .ok () (s.withLoc { s.loc with notFirst := true, pos := s.loc.pos + run.toNat + 1 }) := if_neg (not_lt.2 h)

theorem crwZeroBody_overflow (h : 63 < s.loc.pos + run.toNat) : crwZeroBody run s = .raised (s.raise .overflow) :=
  if_pos h

theorem crwResidBody_overflow (len : BitVec 4) (h : 63 < s.loc.pos + run.toNat) :
    crwResidBody run len s = .raised (s.raise .overflow) := if_pos h

section Resid
variable (hpos : s.loc.pos + run.toNat ≤ 63) (hs : StreamOk s) (hp : s.primed = true) (hw : WindowOk s)
include hpos hs hp hw

/-- A residual whose raw bits the stream holds (R158, R175). -/
theorem crwResidBody_next (hlen : len.toNat ≤ (streamBits s).length) :
    ∃ u, SameButWindow s u ∧ WindowOk u ∧ streamBits u = (streamBits s).drop len.toNat ∧
      crwResidBody run len s = .ok () ((u.withDiff (s.loc.pos + run.toNat)
        (sext32 (residualValue len.toNat (bitsValue s.order ((streamBits s).take len.toNat))))).withLoc
          { s.loc with notFirst := true, pos := s.loc.pos + run.toNat + 1 }) := by
  have hlen4 := len.isLt
  obtain ⟨u, hresid, hsame, hwu, hstream⟩ := residual_next hs hp hw (by omega) hlen
  refine ⟨u, hsame, hwu, hstream, ?_⟩
  obtain ⟨b, v, p, rfl⟩ := hsame.exists_eq
  rw [crwResidBody, if_neg (not_lt.2 hpos), hresid, Res.bind_ok]

/-- A residual whose raw bits the stream cuts (R135, R158). -/
theorem crwResidBody_eos (hshort : (streamBits s).length < len.toNat) :
    crwResidBody run len s = .raised (s.raise .eos) := by
  have hlen4 := len.isLt
  rw [crwResidBody, if_neg (not_lt.2 hpos), residual_eos hs hp hw (by omega) hshort, Res.bind_raised]

end Resid

/-- Settles O27: each class by its own equation. -/
theorem crwSymbolClasses : Obligations.CrwSymbolClasses := by
  refine ⟨fun _ => rfl, fun _ => rfl, fun s run h => congrArg Res.outcome (crwZeroBody_next h),
    fun s run len h =>
      ⟨congrArg Res.outcome (crwZeroBody_overflow h), congrArg Res.outcome (crwResidBody_overflow len h)⟩,
    fun s run len hpos hs hp hw hlen => ?_⟩
  obtain ⟨u, hsame, hwu, hstream, hresid⟩ := crwResidBody_next hpos hs hp hw hlen
  obtain ⟨b, v, p, rfl⟩ := hsame.exists_eq
  refine ⟨_, congrArg Res.outcome hresid, rfl, ?_, fun j hj => ?_, hstream, hwu⟩
  · exact (diffGet_withDiff _ _ _ _).trans (if_pos ⟨rfl, Nat.lt_succ_of_le hpos⟩)
  · exact (diffGet_withDiff _ _ _ _).trans (if_neg fun h => hj h.1.symm)

end Sys2Proof.Machine
end

section
/-! PROOFS. One block of CRW (R175). What one symbol leads to is a function of the bits left, to which both the
references of the statements and a round of the machine's loop are tied; the block follows by induction. -/

namespace Sys2Proof.Machine

open Sys2Proof.Ref

/-! ### One symbol of the reference -/

/-- What a symbol leads to: an error and the bits left there, the end of the block and the bits behind it, or residuals
and the bits behind them. -/
inductive SymbolRun where
  | fails (e : ErrCode) (rest : List Bool)
  | ends (rest : List Bool)
  | goes (residuals : List Int) (rest : List Bool)

/-- The symbol `sym` at position `pos`, with `rest` behind its code (R118, R174 to R176). -/
def symbolRun (p : BlockEnv) (pos : Nat) (first : Bool) (sym : Byte) (rest : List Bool) : SymbolRun :=
  if p.terminates first sym then .ends rest
  else if sym = 0xFF#8 then .goes [0] rest
  else if 64 ≤ pos + sym.toNat / 16 then .fails .overflow rest
  else if rest.length < sym.toNat % 16 then .fails .eos rest
  else .goes
    (List.replicate (sym.toNat / 16) 0 ++
      [residualValue (sym.toNat % 16) (bitsValue p.order (rest.take (sym.toNat % 16)))])
    (rest.drop (sym.toNat % 16))

/-- The tree of the next symbol (R173). -/
def nextTree (p : BlockEnv) (first : Bool) : List TreeEntry := if first then p.tree0 else p.tree1

/-- Whether that tree is built. -/
def nextBuilt (p : BlockEnv) (first : Bool) : Bool := if first then p.built0 else p.built1

/-- The next symbol of the bits (R156, R173). -/
def blockSymbol (p : BlockEnv) (pos : Nat) (first : Bool) (bits : List Bool) : SymbolRun :=
  if nextBuilt p first = false then .fails .usage bits
  else
    match matchLeaf (nextTree p first) bits with
    | none => .fails (codeFault (nextTree p first) bits).1 (codeFault (nextTree p first) bits).2
    | some (sym, rest) => symbolRun p pos first sym rest

section Reference
variable {p : BlockEnv} {fuel pos : Nat} {first : Bool} {bits rest : List Bool} {rs : List Int} {sym : Byte}

/-- A symbol that goes on fills a place at least and none outside the block. -/
theorem length_of_symbolRun_goes (hpos : pos < 64) (h : symbolRun p pos first sym bits = .goes rs rest) :
    0 < rs.length ∧ pos + rs.length ≤ 64 := by
  unfold symbolRun at h
  split_ifs at h with hend hcontinue hover hcut <;> cases h
  · exact ⟨Nat.one_pos, hpos⟩
  · rw [List.length_append, List.length_replicate, List.length_singleton]
    omega

theorem length_of_blockSymbol_goes (hpos : pos < 64) (h : blockSymbol p pos first bits = .goes rs rest) :
    0 < rs.length ∧ pos + rs.length ≤ 64 := by
  unfold blockSymbol at h
  split at h
  · cases h
  · split at h
    · cases h
    · exact length_of_symbolRun_goes hpos h

theorem blockFault_full (fuel : Nat) (hpos : 64 ≤ pos) : blockFault p fuel pos first bits = none := by
  cases fuel with
  | zero => rfl
  | succ fuel => exact if_pos hpos

theorem blockResiduals_full (fuel : Nat) (hpos : 64 ≤ pos) :
    blockResiduals p fuel pos first bits = some ([], bits) := by
  cases fuel with
  | zero => rfl
  | succ fuel => exact if_pos hpos

/-- What the rest of the block makes of a symbol, as the error reference has it. -/
def SymbolRun.fault (p : BlockEnv) (fuel pos : Nat) : SymbolRun → Option (ErrCode × List Int × List Bool)
  | .fails e rest => some (e, [], rest)
  | .ends _ => none
  | .goes rs rest => (blockFault p fuel (pos + rs.length) false rest).map fun r => (r.1, rs ++ r.2.1, r.2.2)

/-- What the rest of the block makes of a symbol, as the residuals' reference has it. -/
def SymbolRun.residuals (p : BlockEnv) (fuel pos : Nat) : SymbolRun → Option (List Int × List Bool)
  | .fails _ _ => none
  | .ends rest => some (List.replicate (64 - pos) 0, rest)
  | .goes rs rest => (blockResiduals p fuel (pos + rs.length) false rest).map fun r => (rs ++ r.1, r.2)

theorem blockFault_succ (fuel : Nat) (hpos : pos < 64) :
    blockFault p (fuel + 1) pos first bits = (blockSymbol p pos first bits).fault p fuel pos := by
  rw [blockFault.eq_def]
  dsimp only
  rw [if_neg (not_le.2 hpos)]
  unfold blockSymbol nextBuilt nextTree
  by_cases hbuilt : (if first then p.built0 else p.built1) = false
  · rw [if_pos hbuilt, if_pos hbuilt]; rfl
  rw [if_neg hbuilt, if_neg hbuilt]
  cases matchLeaf (if first then p.tree0 else p.tree1) bits with
  | none => rfl
  | some leaf =>
    obtain ⟨sym, rest⟩ := leaf
    dsimp only [symbolRun]
    split_ifs with hend hcontinue hover hcut
    · rfl
    · rfl
    · rfl
    · rfl
    · simp [SymbolRun.fault, ← Nat.add_assoc]

/-- The residuals' reference looks at no tree's valid bit. -/
theorem blockResiduals_succ (fuel : Nat) (hpos : pos < 64) (hbuilt : nextBuilt p first = true) :
    blockResiduals p (fuel + 1) pos first bits = (blockSymbol p pos first bits).residuals p fuel pos := by
  rw [blockResiduals.eq_def]
  dsimp only
  rw [if_neg (not_le.2 hpos)]
  have hunbuilt : ¬ nextBuilt p first = false := by simp [hbuilt]
  unfold blockSymbol
  rw [if_neg hunbuilt]
  unfold nextTree
  cases matchLeaf (if first then p.tree0 else p.tree1) bits with
  | none => rfl
  | some leaf =>
    obtain ⟨sym, rest⟩ := leaf
    dsimp only [symbolRun]
    by_cases hend : p.terminates first sym = true
    · rw [if_pos hend, if_pos hend]; rfl
    rw [if_neg hend, if_neg hend]
    by_cases hcontinue : sym = 0xFF#8
    · rw [if_pos hcontinue, if_pos hcontinue]; rfl
    rw [if_neg hcontinue, if_neg hcontinue]
    by_cases hover : 64 ≤ pos + sym.toNat / 16
    · rw [if_pos (.inl hover), if_pos hover]; rfl
    by_cases hcut : rest.length < sym.toNat % 16
    · rw [if_pos (.inr hcut), if_neg hover, if_pos hcut]; rfl
    rw [if_neg (not_or.2 ⟨hover, hcut⟩), if_neg hover, if_neg hcut]
    simp [SymbolRun.residuals, ← Nat.add_assoc]

/-- The two references speak of one block: from `pos` on it decodes to `rs` without an error, and leaves `rest`. -/
structure Decodes (p : BlockEnv) (fuel pos : Nat) (first : Bool) (bits : List Bool) (rs : List Int) (rest : List Bool) :
    Prop where
  sound : blockFault p fuel pos first bits = none
  residuals : blockResiduals p fuel pos first bits = some (rs, rest)

/-- A block that decodes goes on symbol by symbol. -/
theorem Decodes.cases (h : Decodes p (fuel + 1) pos first bits rs rest) (hpos : pos < 64) :
    (blockSymbol p pos first bits = .ends rest ∧ rs = List.replicate (64 - pos) 0) ∨
      ∃ rs₁ rest₁ rs₂, blockSymbol p pos first bits = .goes rs₁ rest₁ ∧ rs = rs₁ ++ rs₂ ∧
        Decodes p fuel (pos + rs₁.length) false rest₁ rs₂ rest := by
  obtain ⟨hsound, hres⟩ := h
  have hbuilt : nextBuilt p first = true := by
    by_contra hunbuilt
    rw [blockFault_succ fuel hpos, blockSymbol, if_pos (by simpa using hunbuilt)] at hsound
    cases hsound
  rw [blockFault_succ fuel hpos] at hsound
  rw [blockResiduals_succ fuel hpos hbuilt] at hres
  cases hsym : blockSymbol p pos first bits with
  | fails e rest' => rw [hsym] at hsound; cases hsound
  | ends rest' =>
    rw [hsym] at hres
    cases hres
    exact .inl ⟨rfl, rfl⟩
  | goes rs₁ rest₁ =>
    rw [hsym] at hsound hres
    obtain ⟨⟨rs₂, rest₂⟩, hrest, heq⟩ := Option.map_eq_some_iff.1 hres
    cases heq
    exact .inr ⟨rs₁, rest₁, rs₂, rfl, rfl, Option.map_eq_none_iff.1 hsound, hrest⟩

/-- A block that decodes is filled (R175). -/
theorem Decodes.length (h : Decodes p fuel pos first bits rs rest) (hpos : pos ≤ 64) (hfuel : 64 ≤ pos + fuel) :
    pos + rs.length = 64 := by
  induction fuel generalizing pos first bits rs with
  | zero =>
    cases h.residuals
    exact le_antisymm hpos hfuel
  | succ fuel ih =>
    rcases hpos.eq_or_lt with rfl | hlt
    · have hres := h.residuals
      rw [blockResiduals_full _ le_rfl] at hres
      cases hres
      rfl
    · rcases h.cases hlt with ⟨-, rfl⟩ | ⟨rs₁, rest₁, rs₂, hsym, rfl, hrest⟩
      · rw [List.length_replicate]; omega
      · obtain ⟨hmore, hroom⟩ := length_of_blockSymbol_goes hlt hsym
        have := ih hrest hroom (by omega)
        rw [List.length_append]
        omega

end Reference

/-! ### The state in a block -/

/-- In `s` the block begun in `s₀` has stored the residuals `done`, and `bits` are left of the stream: beside the window
only `DIFFBUF` and the locals have changed (R175). -/
structure InBlock (s₀ s : State) (done : List Int) (bits : List Bool) : Prop where
  frame : s = { withWindowOf s₀ s with diffbuf := s.diffbuf, loc := s.loc }
  window : WindowOk s
  stream : streamBits s = bits
  stored : ∀ i, i < 64 → diffGet s i = BitVec.ofInt 32 (done.getD i 0)

section Block
variable {s₀ s u : State} {done : List Int} {bits rest : List Bool}

theorem inBlock_startBlock (hw : WindowOk s) : InBlock s s.startBlock [] (streamBits s) :=
  ⟨rfl, hw, rfl, fun i _ => diffGet_replicate s i⟩

theorem InBlock.withLoc (h : InBlock s₀ s done bits) (l : Locals) : InBlock s₀ (s.withLoc l) done bits :=
  ⟨congrArg (State.withLoc · l) h.frame, h.window, h.stream, h.stored⟩

/-- Bits of the stream have been read (R134, R156). -/
theorem InBlock.read (h : InBlock s₀ s done bits) (hsame : SameButWindow s u) (hw : WindowOk u)
    (hstream : streamBits u = rest) : InBlock s₀ u done rest ∧ u.loc = s.loc := by
  obtain ⟨b, v, p, rfl⟩ := hsame.exists_eq
  have hframe := congrArg (fun t : State => ({ t with bitbuf := b, vbits := v, ipos := p } : State)) h.frame
  exact ⟨⟨hframe, hw, hstream, h.stored⟩, rfl⟩

theorem getD_replicate_zero (n k : Nat) : (List.replicate n (0 : Int)).getD k 0 = 0 := by
  rw [List.getD_eq_getElem?_getD, List.getElem?_replicate]
  split <;> rfl

/-- Positions that are skipped keep the residual 0. -/
theorem InBlock.skip (h : InBlock s₀ s done bits) (n : Nat) : InBlock s₀ s (done ++ List.replicate n 0) bits := by
  refine ⟨h.frame, h.window, h.stream, fun i hi => (h.stored i hi).trans (congrArg _ ?_)⟩
  rcases lt_or_ge i done.length with hlt | hge
  · rw [List.getD_append _ _ _ _ hlt]
  · rw [List.getD_append_right _ _ _ _ hge, List.getD_eq_default _ _ hge, getD_replicate_zero]

/-- A residual stored behind `run` skipped positions. -/
theorem InBlock.store (h : InBlock s₀ s done bits) (run : Nat) (v : Int) (l : Locals) :
    InBlock s₀ ((s.withDiff (done.length + run) (sext32 v)).withLoc l)
      (done ++ (List.replicate run 0 ++ [v])) bits := by
  have hskip := h.skip run
  have hlen : (done ++ List.replicate run 0).length = done.length + run := by simp
  rw [← List.append_assoc]
  generalize done ++ List.replicate run 0 = done' at hskip hlen ⊢
  rw [← hlen]
  refine ⟨?_, hskip.window, hskip.stream, fun i hi => ?_⟩
  · exact congrArg (fun t : State => (t.withDiff done'.length (sext32 v)).withLoc l) hskip.frame
  · refine (diffGet_withDiff _ _ _ _).trans ?_
    rcases lt_trichotomy i done'.length with hlt | rfl | hgt
    · rw [if_neg (by omega), List.getD_append _ _ _ _ hlt, hskip.stored i hi]
    · rw [if_pos ⟨rfl, hi⟩]; simp [sext32]
    · rw [if_neg (by omega), hskip.stored i hi, List.getD_eq_default _ _ hgt.le,
        List.getD_eq_default _ _ (by simpa using hgt)]

/-! ### One round of the machine -/

/-- What a block needs of the state it begins in (R52, R132, R312). -/
structure BlockReady (s : State) : Prop where
  stream : StreamOk s
  primed : s.primed = true
  tree0 : TreeOk s.tree0
  tree1 : TreeOk s.tree1

/-- The locals of a block before a symbol at position `pos` (R175). -/
def blockLocals (pos : Nat) (first : Bool) : Locals := { pos := pos, notFirst := !first }

/-- What a symbol leads to, as the end of the machine's pseudocode. -/
def SymbolRan (s₀ : State) (done : List Int) (r : Res Unit) : SymbolRun → Prop
  | .fails e rest => ∃ u, InBlock s₀ u done rest ∧ r = .raised (u.raise e)
  | .ends rest => ∃ u, InBlock s₀ u done rest ∧ u.loc.ended = true ∧ r = .ok () u
  | .goes rs rest => ∃ u, InBlock s₀ u (done ++ rs) rest ∧ u.loc = blockLocals (done.length + rs.length) false ∧
      r = .ok () u

section Round
variable {first : Bool} {sym : Byte}

theorem InBlock.eobCondition_eq (h : InBlock s₀ s done bits) (hloc : s.loc = blockLocals done.length first)
    (sym : Byte) : eobCondition s sym = (blockEnv s₀).terminates first sym := by
  have hblock : (s₀.block != 0#32) = (s₀.block.toNat != 0) := by
    rw [Bool.eq_iff_iff, bne_iff_ne, bne_iff_ne, ne_eq, ← BitVec.toNat_inj]
    rfl
  unfold eobCondition BlockEnv.terminates blockEnv
  rw [h.frame, hloc]
  dsimp only [withWindowOf, blockLocals]
  rw [hblock]
  cases s₀.params.eobRule <;> cases first <;> rfl

/-- A symbol with a run and a length (R118, R175). -/
def crwRunBody (run len : BitVec 4) (s : State) : Res Unit :=
  if len = 0#4 then crwZeroBody run s else crwResidBody run len s

theorem crwRunBody_overflow {run : BitVec 4} (len : BitVec 4) (h : 63 < s.loc.pos + run.toNat) :
    crwRunBody run len s = .raised (s.raise .overflow) := by
  unfold crwRunBody
  split
  · exact crwZeroBody_overflow h
  · exact crwResidBody_overflow len h

/-- The locals behind a symbol with a run. -/
theorem blockLocals_next (hloc : s.loc = blockLocals done.length first) (run : Nat) (v : Int) :
    ({ s.loc with notFirst := true, pos := s.loc.pos + run + 1 } : Locals) =
      blockLocals (done.length + (List.replicate run 0 ++ [v]).length) false := by
  rw [hloc, List.length_append, List.length_replicate]
  rfl

/-- The residual of a symbol without raw bits is not stored: its place holds 0 already (R175). -/
theorem symbolRan_zero (h : InBlock s₀ s done rest) (hloc : s.loc = blockLocals done.length first) {run : BitVec 4}
    (hroom : s.loc.pos + run.toNat ≤ 63) :
    SymbolRan s₀ done (crwZeroBody run s) (.goes (List.replicate run.toNat 0 ++ [0]) rest) := by
  have hskip := h.skip (run.toNat + 1)
  rw [List.replicate_succ'] at hskip
  exact ⟨_, hskip.withLoc _, blockLocals_next hloc _ 0, crwZeroBody_next hroom⟩

/-- The residual of raw bits is stored behind the run (R175). -/
theorem symbolRan_resid (hready : BlockReady s₀) (h : InBlock s₀ s done rest)
    (hloc : s.loc = blockLocals done.length first) {run len : BitVec 4} (hroom : s.loc.pos + run.toNat ≤ 63) :
    SymbolRan s₀ done (crwResidBody run len s)
      (if rest.length < len.toNat then .fails .eos rest
        else .goes (List.replicate run.toNat 0 ++
          [residualValue len.toNat (bitsValue s₀.order (rest.take len.toNat))]) (rest.drop len.toNat)) := by
  have hs : StreamOk s := by rw [h.frame]; exact hready.stream
  have hp : s.primed = true := by rw [h.frame]; exact hready.primed
  have horder : s.order = s₀.order := by rw [h.frame]; rfl
  have hpos : s.loc.pos = done.length := congrArg Locals.pos hloc
  split_ifs with hcut
  · exact ⟨s, h, crwResidBody_eos hroom hs hp h.window (h.stream ▸ hcut)⟩
  · obtain ⟨u, hsame, hwu, hstream, hbody⟩ := crwResidBody_next hroom hs hp h.window (h.stream ▸ not_lt.1 hcut)
    rw [h.stream] at hstream
    rw [hbody, h.stream, horder]
    rw [hpos]
    exact ⟨_, (h.read hsame hwu hstream).1.store run.toNat _ _, hpos ▸ blockLocals_next hloc _ _, rfl⟩

theorem symbolRan_runBody (hready : BlockReady s₀) (h : InBlock s₀ s done rest)
    (hloc : s.loc = blockLocals done.length first) (run len : BitVec 4) :
    SymbolRan s₀ done (crwRunBody run len s)
      (if 64 ≤ done.length + run.toNat then .fails .overflow rest
        else if rest.length < len.toNat then .fails .eos rest
        else .goes (List.replicate run.toNat 0 ++
          [residualValue len.toNat (bitsValue s₀.order (rest.take len.toNat))]) (rest.drop len.toNat)) := by
  have hpos : s.loc.pos = done.length := congrArg Locals.pos hloc
  by_cases hover : 64 ≤ done.length + run.toNat
  · rw [if_pos hover, crwRunBody_overflow len (by omega)]
    exact ⟨s, h, rfl⟩
  rw [if_neg hover]
  unfold crwRunBody
  split
  · next hzero =>
    subst hzero
    exact symbolRan_zero h hloc (by omega)
  · exact symbolRan_resid hready h hloc (by omega)

theorem toNat_runNibble (sym : Byte) : (sym.extractLsb' 4 4).toNat = sym.toNat / 16 := by
  have := sym.isLt
  rw [BitVec.extractLsb'_toNat, Nat.shiftRight_eq_div_pow]
  omega

theorem toNat_lenNibble (sym : Byte) : (sym.extractLsb' 0 4).toNat = sym.toNat % 16 :=
  BitVec.extractLsb'_toNat 0 4 sym

/-- The machine executes a symbol as `symbolRun` says (R118, R174 to R176). -/
theorem symbolRan_crwSymbol (hready : BlockReady s₀) (h : InBlock s₀ s done rest)
    (hloc : s.loc = blockLocals done.length first) (sym : Byte) :
    SymbolRan s₀ done (crwSymbol sym s) (symbolRun (blockEnv s₀) done.length first sym rest) := by
  have hrun := symbolRan_runBody hready h hloc (sym.extractLsb' 4 4) (sym.extractLsb' 0 4)
  rw [toNat_runNibble, toNat_lenNibble] at hrun
  unfold crwSymbol symbolRun
  rw [h.eobCondition_eq hloc]
  by_cases hend : (blockEnv s₀).terminates first sym = true
  · rw [if_pos hend, if_pos hend]
    exact ⟨_, h.withLoc _, rfl, rfl⟩
  rw [if_neg hend, if_neg hend]
  by_cases hcontinue : sym = 0xFF#8
  · rw [if_pos hcontinue, if_pos hcontinue]
    exact ⟨_, (h.skip 1).withLoc _, blockLocals_next hloc 0 0, rfl⟩
  rw [if_neg hcontinue, if_neg hcontinue]
  exact hrun

/-- One round of the loop (R175). -/
def blockRound (s : State) : Res Unit := (decodeSymbol (if s.loc.notFirst then 1#1 else 0#1) s).bind crwSymbol

theorem blockLoop_succ (fuel : Nat) (hpos : s.loc.pos < 64) (hended : s.loc.ended = false) :
    blockLoop (fuel + 1) s = (blockRound s).bind fun _ => blockLoop fuel := by
  rw [blockLoop, if_pos ⟨hpos, hended⟩, blockRound, Res.bind_assoc]

theorem blockLoop_left (fuel : Nat) (h : 64 ≤ s.loc.pos ∨ s.loc.ended = true) : blockLoop fuel s = .ok () s := by
  cases fuel with
  | zero => rfl
  | succ fuel =>
    refine if_neg ?_
    rintro ⟨hpos, hended⟩
    rcases h with hfull | hend
    · omega
    · exact Bool.false_ne_true (hended.symm.trans hend)

/-- The machine decodes and executes a symbol as `blockSymbol` says (R156, R173). -/
theorem symbolRan_blockRound (hready : BlockReady s₀) (h : InBlock s₀ s done bits)
    (hloc : s.loc = blockLocals done.length first) :
    SymbolRan s₀ done (blockRound s) (blockSymbol (blockEnv s₀) done.length first bits) := by
  have hs : StreamOk s := by rw [h.frame]; exact hready.stream
  have hp : s.primed = true := by rw [h.frame]; exact hready.primed
  have hvalid : treeValid s (if s.loc.notFirst then 1#1 else 0#1) = nextBuilt (blockEnv s₀) first := by
    rw [h.frame, hloc]; cases first <;> rfl
  have htree : treeOf s (if s.loc.notFirst then 1#1 else 0#1) = nextTree (blockEnv s₀) first := by
    rw [h.frame, hloc]; cases first <;> rfl
  have hok : TreeOk (nextTree (blockEnv s₀) first) := by
    cases first
    · exact hready.tree1
    · exact hready.tree0
  unfold blockRound blockSymbol
  generalize (if s.loc.notFirst then 1#1 else 0#1 : BitVec 1) = slot at hvalid htree ⊢
  rw [← hvalid, ← htree, ← h.stream]
  rw [← htree] at hok
  cases hbuilt : treeValid s slot with
  | false =>
    rw [if_pos rfl, decodeSymbol_usage (.inl hbuilt), h.stream]
    exact ⟨s, h, rfl⟩
  | true =>
    rw [if_neg (by simp)]
    cases hmatch : matchLeaf (treeOf s slot) (streamBits s) with
    | none =>
      obtain ⟨u, hraised, hframe, hwindow, hstream, -⟩ := decodeSymbol_fails hs hp h.window hbuilt hok hmatch rfl
      rw [hraised]
      exact ⟨u, (h.read hframe hwindow hstream).1, rfl⟩
    | some leaf =>
      obtain ⟨sym, rest⟩ := leaf
      obtain ⟨leaf, hfind, heq⟩ := Option.map_eq_some_iff.1 hmatch
      cases heq
      have hbits : codeBits leaf <+: streamBits s := by simpa using List.find?_some hfind
      obtain ⟨u, hdecode, hsame, hwu, hstream, -⟩ := decodeSymbol_leaf hs hp h.window hbuilt hok
        (List.mem_of_find?_eq_some hfind) hbits
      obtain ⟨hu, hlocu⟩ := h.read hsame hwu hstream
      rw [hdecode, Res.bind_ok]
      exact symbolRan_crwSymbol hready hu (hlocu.trans hloc) leaf.sym

end Round

/-! ### The block -/

section Loop
variable {first : Bool} {fuel : Nat} {e : ErrCode} {rs : List Int}

/-- A block that decodes (R175). -/
theorem blockLoop_of_decodes (hready : BlockReady s₀) (h : InBlock s₀ s done bits)
    (hloc : s.loc = blockLocals done.length first)
    (hdec : Decodes (blockEnv s₀) fuel done.length first bits rs rest) :
    ∃ u, InBlock s₀ u (done ++ rs) rest ∧ blockLoop fuel s = .ok () u := by
  induction fuel generalizing s done bits first rs with
  | zero =>
    cases hdec.residuals
    exact ⟨s, by rwa [List.append_nil], rfl⟩
  | succ fuel ih =>
    rcases lt_or_ge done.length 64 with hpos | hfull
    · have hran := symbolRan_blockRound hready h hloc
      rw [blockLoop_succ fuel (by rw [hloc]; exact hpos) (by rw [hloc]; rfl)]
      rcases hdec.cases hpos with ⟨hsym, rfl⟩ | ⟨rs₁, rest₁, rs₂, hsym, rfl, hrest⟩
      · rw [hsym] at hran
        obtain ⟨u, hu, hended, hround⟩ := hran
        rw [hround, Res.bind_ok]
        exact ⟨u, hu.skip _, blockLoop_left _ (.inr hended)⟩
      · rw [hsym] at hran
        obtain ⟨u, hu, hlocu, hround⟩ := hran
        rw [hround, Res.bind_ok, ← List.append_assoc]
        rw [← List.length_append] at hlocu hrest
        exact ih hu hlocu hrest
    · have hres := hdec.residuals
      rw [blockResiduals_full _ hfull] at hres
      cases hres
      exact ⟨s, by rwa [List.append_nil], blockLoop_left _ (.inl (by rw [hloc]; exact hfull))⟩

/-- A block that raises an error (R175). -/
theorem blockLoop_of_fault (hready : BlockReady s₀) (h : InBlock s₀ s done bits)
    (hloc : s.loc = blockLocals done.length first)
    (hfault : blockFault (blockEnv s₀) fuel done.length first bits = some (e, rs, rest)) :
    ∃ u, InBlock s₀ u (done ++ rs) rest ∧ blockLoop fuel s = .raised (u.raise e) := by
  induction fuel generalizing s done bits first rs with
  | zero => cases hfault
  | succ fuel ih =>
    have hpos : done.length < 64 := by
      by_contra hfull
      rw [blockFault_full _ (not_lt.1 hfull)] at hfault
      cases hfault
    have hran := symbolRan_blockRound hready h hloc
    rw [blockLoop_succ fuel (by rw [hloc]; exact hpos) (by rw [hloc]; rfl)]
    rw [blockFault_succ fuel hpos] at hfault
    cases hsym : blockSymbol (blockEnv s₀) done.length first bits with
    | fails e' rest' =>
      rw [hsym] at hran hfault
      cases hfault
      obtain ⟨u, hu, hround⟩ := hran
      exact ⟨u, by rwa [List.append_nil], by rw [hround, Res.bind_raised]⟩
    | ends rest' => rw [hsym] at hfault; cases hfault
    | goes rs₁ rest₁ =>
      rw [hsym] at hran hfault
      obtain ⟨⟨e', rs₂, rest₂⟩, hrest, heq⟩ := Option.map_eq_some_iff.1 hfault
      cases heq
      obtain ⟨u, hu, hlocu, hround⟩ := hran
      rw [← List.length_append] at hlocu hrest
      rw [hround, Res.bind_ok, ← List.append_assoc]
      exact ih hu hlocu hrest

end Loop

/-- Settles O22: the loop's two ends, from the state in which the block begins. -/
theorem crwBlockDecodesResiduals : Obligations.CrwBlockDecodesResiduals := by
  have hexec {s : State} (hs : StreamOk s) : exec .crwBlock s =
      ((blockLoop 64 s.startBlock).bind fun _ u => .ok () (u.withLoc {})).outcome :=
    congrArg Res.outcome (needInput_of_le s _ hs)
  refine ⟨fun s residuals rest hs hp hw ht0 ht1 hsound hres => ?_, fun s hs h => ?_,
    fun s e residuals rest hs hp hw ht0 ht1 hfault => ?_⟩
  · have hdec : Decodes (blockEnv s) 64 0 true (streamBits s) residuals rest := ⟨hsound, hres⟩
    have hlength := hdec.length (by omega) le_rfl
    obtain ⟨u, hu, hloop⟩ := blockLoop_of_decodes ⟨hs, hp, ht0, ht1⟩ (inBlock_startBlock hw) rfl hdec
    have hend := hu.withLoc {}
    refine ⟨u.withLoc {}, ?_, hend.frame, by omega, hend.stored, hend.stream, hend.window⟩
    rw [hexec hs, hloop, Res.bind_ok, Res.outcome_ok]
  · have hunready : treeValid s.startBlock 0#1 = false ∨ s.startBlock.primed = false := h.symm
    have hround : blockRound s.startBlock = .raised (s.startBlock.raise .usage) :=
      congrArg (fun r => Res.bind r crwSymbol) (decodeSymbol_usage hunready)
    rw [hexec hs, blockLoop_succ 63 (show (0 : Nat) < 64 by omega) rfl, hround]
    rfl
  · obtain ⟨u, hu, hloop⟩ := blockLoop_of_fault ⟨hs, hp, ht0, ht1⟩ (inBlock_startBlock hw) rfl hfault
    refine ⟨u.raise e, ?_, ?_, hu.stored, hu.stream, hu.window⟩
    · rw [hexec hs, hloop, Res.bind_raised, Res.outcome_raised]
    · have hframe := congrArg (State.raise e) hu.frame
      exact hframe

end Block

end Sys2Proof.Machine
end
